-- ==== Sys2Proof/Word.lean ====
section
/-! DEFINITION. The word types of the block: a byte and a 32-bit word (00_scope.md R6). -/

namespace Sys2Proof

/-- One byte of a memory, of the wire or of a block: a symbol is one byte value 0..255. -/
abbrev Byte := BitVec 8

/-- A `u32`: arithmetic on it wraps modulo `2^32` (00_scope.md R6). -/
abbrev U32 := BitVec 32

end Sys2Proof
end

