-- ==== Sys2Proof/Config.lean ====
section
/-! DEFINITION. What is fixed for one instance between two CONFIGURE commands: the configuration registers of
10_state.md R11, which carry the OPEN parameters of 00_scope.md R4; and the free values, which the spec leaves open (logs
12, 25, 27 and 28). The constants of R4 and R28 are in Machine/Constants.lean. -/

namespace Sys2Proof

/-- `cfg.dir`, 1 bit: 0 = COMPRESS, 1 = DECOMPRESS (R11). -/
inductive Direction where
  | compress
  | decompress
  deriving DecidableEq, Repr

/-- The configuration registers `cfg` (R11). `configured` is a field of State. -/
structure Cfg where
  /-- direction of the instance -/
  dir : Direction
  /-- BLOCK_SIZE_ID of the compressor, legal 0..6 -/
  k : Nat
  /-- TABLELOG_REQ of the compressor, legal 0 and 5..15; 0 means 11 -/
  tlReq : Nat
  /-- CHECKSUM_ENABLE of the decompressor -/
  ckEn : Bool
  /-- STRICT_TAIL of the decompressor -/
  strictTail : Bool
  /-- ONE_BYTE_RLE of the compressor -/
  oneByteRle : Bool
  deriving DecidableEq, Repr

/-! ### Free values

Where the spec gives an operation its effect and states no value for some operands, the value is one of these: nothing
constrains it but the width or range of the place that holds it. No host command reaches one of them, but for
`freeTableLog`, and for `freeWeight` if E_NORMALIZE is ever raised (93_implementation_defined.md I8). -/

/-- `a // b` where `a` is negative or `b` is not positive: the division of 00_scope.md R6 is of non-negative integers
(NORM.M2, 42_normalizer.md R81; log 27). -/
opaque Config.freeQuotient : (a b : Int) → Int

/-- `a >> n` of a negative `a`: the shifts of R6 are of non-negative values (R80, R81; log 27). -/
opaque Config.freeShift : (a : Int) → (n : Nat) → Int

/-- The weight, plus 1, that `norm[s]` holds where its rule would write a `w` that has no place in an `s16`, or where NORM.M2
has left it marked not yet assigned, which is a `w` of -2 here (10_state.md R20; logs 12 and 27). `c` is the symbol's
count. -/
opaque Config.freeWeight : (tl total s c : Nat) → (w : Int) → Fin 32769

/-- The table log, less 5, that `tl` holds where NC.READ has read the illegal `t` (43_ncount.md R91, 10_state.md R20;
log 12). -/
opaque Config.freeTableLog : (t : Nat) → Fin 11

/-- The `n` bits NC.WRITE appends for the negative code `c` of a weight below -1 (43_ncount.md R88; log 28). -/
opaque Config.freeField : (c : Int) → (n : Nat) → BitVec n

/-- `deltaNbBits` of a weight `w` at table log `tl` where `mbo = tl - highbit(w - 1)` is negative (44_tables.md R100;
log 25), or where `w` is below -1 and R100 has no row (log 28). -/
opaque Config.freeDeltaNbBits : (tl : Nat) → (w : Int) → U32

/-- `deltaFindState`, plus `T` and modulo `2T`, of a weight below -1 (R100; log 28). -/
opaque Config.freeDeltaFindState : (tl : Nat) → (w : Int) → BitVec 16

/-- `symbolNext` of a weight below -1 at the start of R102 (log 28). -/
opaque Config.freeSymbolNext : (w : Int) → BitVec 17

/-- `nbBits` of the slot with `symbolNext = x` where `tl - highbit(x)` is negative (R102; log 25). -/
opaque Config.freeNbBits : (tl x : Nat) → BitVec 4

/-- `newState` of the same slot. -/
opaque Config.freeNewState : (tl x : Nat) → BitVec 16

/-- The slot, modulo `T`, after slot `pos` in TB.SPREAD where the reserved slots fill the table, so that its walk finds no
other one; `left` symbols are still to be placed (R96; log 27). -/
opaque Config.freeSlot : (tl pos left : Nat) → BitVec 15

/-- The state value, less `T` and modulo `T`, that FSE.ENCODE of a block of `n` symbols gives `V[j]` where the block has no
symbol for it (45_block_codec.md R108; log 27). -/
opaque Config.freeState : (tl n j : Nat) → BitVec 15

/-- `src[0]` of a block of no byte (BC.COMPRESS, R113; log 27). -/
opaque Config.freeFirstByte : (tlReq : Nat) → Byte

end Sys2Proof
end

