-- ==== Sys2Proof/Syntax.lean ====
section
/-! DEFINITION. The instructions: one constructor for each of the 49 rows of spec/opcode_table.json (eight wire
elements, ten host commands, the pseudo-command, thirty unit operations), and the packets in which they reach the
block. -/

namespace Sys2Proof

/-- The block's operations, in the table's order. An operand that names the block's one table RAM or register file as
a source or destination (`ct`, `dt`, the `norm` that NORM.M2 writes) is no field: there is one of each (log 11). The
index `j` of FSE.INITC, FSE.ENCSYM, FSE.INITD and FSE.DECSYM is "the `V[j]` (`S[j]`) it is assigned to"; `false` is 0. -/
inductive Instr where
  -- wire elements (30_encoding.md R41 to R47)
  /-- FHDR: the file header; `tag` as `LE32`, `k` the block-size id byte (R41) -/
  | fhdr (tag : U32) (k : Byte)
  /-- BLK.CMP: Compressed, not full (R44) -/
  | blkCmp (reserved : BitVec 5) (rawSize cSize : BitVec 16) (payload : List Byte)
  /-- BLK.CMP.F: Compressed, full (R44) -/
  | blkCmpF (reserved : BitVec 5) (cSize : BitVec 16) (payload : List Byte)
  /-- BLK.RAW: Raw, not full (R45) -/
  | blkRaw (reserved : BitVec 5) (rawSize : BitVec 16) (data : List Byte)
  /-- BLK.RAW.F: Raw, full (R45) -/
  | blkRawF (reserved : BitVec 5) (data : List Byte)
  /-- BLK.RLE: Rle, not full (R46) -/
  | blkRle (reserved : BitVec 5) (rawSize : BitVec 16) (byte : Byte)
  /-- BLK.RLE.F: Rle, full (R46) -/
  | blkRleF (reserved : BitVec 5) (byte : Byte)
  /-- BLK.CRC: the stored checksum is `crcHi6 ++ crcLo16` (R47) -/
  | blkCrc (crcHi6 : BitVec 6) (crcLo16 : BitVec 16)
  -- host commands (30_encoding.md R54); CONFIGURE takes any number, the command checks it
  | configure (dir k tlReq ckEn strictTail oneByteRle : Nat)
  | setinput (bytes : List Byte)
  | state
  | output
  | advance (n : BitVec 17)
  | flush
  | complete
  | reset
  | need
  | errcause
  -- pseudo-command (30_encoding.md R58)
  | drain
  -- unit operations (30_encoding.md R55)
  | bwInit (cap : Nat)
  | bwAdd (value : U32) (width : Nat)
  | bwFlush
  | bwClose
  | brInit (buf : List Byte)
  | brRead (n : Nat)
  | brPeek (n : Nat)
  | brSkip (n : Nat)
  | histCount (src : List Byte) (n : Nat) (msvIn : Byte) (strict : Bool)
  | normMinlog (n msv : Nat)
  | normOptlog (req n msv : Nat)
  | normNormalize (count : List Nat) (total msv tl : Nat)
  | normM2 (tl : Nat) (count : List Nat) (total msv : Nat)
  | ncWrite (norm : List Int) (msv tl : Nat)
  | ncRead (buf : List Byte)
  | tbSpread (norm : List Int) (msv tl : Nat)
  | tbCtable (norm : List Int) (msv tl : Nat)
  | tbDtable (norm : List Int) (msv tl : Nat)
  | fseInitc (j : Bool) (s : Byte)
  | fseEncsym (j : Bool) (v : Nat) (s : Byte)
  | fseEncode (src : List Byte) (n cap : Nat)
  | fseInitd (j : Bool) (tl : Nat)
  | fseDecsym (j : Bool) (st : Nat) (update : Bool)
  | fseDecode (buf : List Byte) (tl n : Nat) (strictTail : Bool)
  | bcCompress (src : List Byte) (n tlReq : Nat) (oneByteRle : Bool)
  | bcDecompress (payload : List Byte) (len rawSize : Nat) (strictTail : Bool)
  | ckInit
  | ckUpdate (bytes : List Byte)
  | ckDigest
  | ckTrunc22 (h : U32)
  deriving DecidableEq, Repr

/-- The operand lines that stand beside a command or operation code: "operands are passed beside the code and are not
part of it" (30_encoding.md R54). Numbers, bytes and weights each have a line (log 6). -/
structure Operands where
  nums : List Nat
  bytes : List Byte
  ints : List Int
  deriving DecidableEq, Repr

/-- What is offered to the block at one step, by the place it arrives at (log 6). -/
inductive Packet where
  /-- the bytes of one wire element where a file header is expected -/
  | fileHeader (bytes : List Byte)
  /-- the bytes of one wire element where a block is expected -/
  | block (bytes : List Byte)
  /-- a host command word and its operands -/
  | command (code : Byte) (ops : Operands)
  /-- a unit operation's number and its operands; not host-issuable (R55) -/
  | unitOp (code : Byte) (ops : Operands)
  /-- the pseudo-command, which has no code (R58) -/
  | drain
  deriving DecidableEq, Repr

end Sys2Proof
end

