-- ==== Sys2Proof/WellFormed.lean ====
section
/-! DEFINITION. Which instructions are well formed: a wire element whose content has the length its size fields give,
and a unit operation whose operands lie in the ranges its rule gives. A host command is always well formed: its
operands are checked by the command itself (60_exceptions.md R164). Claims use it; the machine does not: it executes what
decodes, by the rule's pseudocode (log 15). -/

namespace Sys2Proof

/-- The block sizes `1024 << k`, `k` in 0..6 (00_scope.md R4). -/
def isBlockSize (n : Nat) : Bool := (List.range 7).any fun k => n == 1024 * 2 ^ k

/-- A table log the tables take: 5..15 (00_scope.md R4). -/
def isTableLog (tl : Nat) : Bool := decide (5 ≤ tl ∧ tl ≤ 15)

/-- Weights `norm[0..msv]`: each -1, 0 or positive, `msv` a symbol (10_state.md R20). 32768 is the weight `2^15` of a
one-symbol distribution that the NCount reader accepts (43_ncount.md R94; log 19). -/
def isWeights (norm : List Int) (msv : Nat) : Bool :=
  decide (norm.length = msv + 1) && decide (msv ≤ 255) && norm.all fun w => decide (-1 ≤ w ∧ w ≤ 32768)

/-- Counts `count[0..msv]` whose sum is `total`, a block size (42_normalizer.md R79). The block of repeated symbol 0 has
`msv = 0` (41_histogram.md R71); that NORM.NORMALIZE gives RLE for it (R82) where R77's NORM.MINLOG would need
`highbit(0)` is the model's choice (DESIGN CHOICE, log 26). -/
def isCounts (count : List Nat) (total msv : Nat) : Bool :=
  decide (count.length = msv + 1) && decide (msv ≤ 255) && decide (1 ≤ total ∧ total ≤ 65536)
    && decide (count.sum = total)

/-- The check of an instruction's operands against the ranges of its rule. -/
def WellFormed : Instr → Bool
  | .fhdr _ _ => true
  | .blkCmp _ _ cSize payload => decide (payload.length = cSize.toNat)
  | .blkCmpF _ cSize payload => decide (payload.length = cSize.toNat)
  | .blkRaw _ rawSize data => decide (data.length = rawSize.toNat)
  | .blkRawF _ data => isBlockSize data.length
  | .blkRle _ _ _ => true
  | .blkRleF _ _ => true
  | .blkCrc _ _ => true
  | .configure _ _ _ _ _ _ => true
  | .setinput _ => true
  | .state => true
  | .output => true
  | .advance _ => true
  | .flush => true
  | .complete => true
  | .reset => true
  | .need => true
  | .errcause => true
  | .drain => true
  | .bwInit cap => decide (cap ≤ 65536)
  | .bwAdd _ width => decide (width ≤ 32)
  | .bwFlush => true
  | .bwClose => true
  | .brInit buf => decide (buf.length ≤ 65535)
  | .brRead n => decide (n ≤ 16)
  | .brPeek n => decide (n ≤ 16)
  | .brSkip n => decide (n ≤ 16)
  | .histCount src n _ _ => decide (n = src.length ∧ n ≤ 65536)
  | .normMinlog n msv => decide (1 ≤ n ∧ n ≤ 65536 ∧ 1 ≤ msv ∧ msv ≤ 255)
  | .normOptlog req n msv =>
    (req == 0 || isTableLog req) && decide (2 ≤ n ∧ n ≤ 65536 ∧ 1 ≤ msv ∧ msv ≤ 255)
  | .normNormalize count total msv _ => isCounts count total msv
  | .normM2 tl count total msv =>
    isTableLog tl && isCounts count total msv && decide ((count.filter fun c => c != 0).length ≤ 2 ^ tl)
  | .ncWrite norm msv _ => isWeights norm msv
  | .ncRead buf => decide (buf.length ≤ 65535)
  | .tbSpread norm msv tl => isTableLog tl && isWeights norm msv
  | .tbCtable norm msv tl => isTableLog tl && isWeights norm msv
  | .tbDtable norm msv tl => isTableLog tl && isWeights norm msv
  | .fseInitc _ _ => true
  | .fseEncsym _ v _ => decide (v < 65536)
  | .fseEncode src n cap => decide (n = src.length ∧ 3 ≤ n ∧ n ≤ 65536 ∧ cap ≤ 65536)
  | .fseInitd _ tl => isTableLog tl
  | .fseDecsym _ st _ => decide (st < 32768)
  | .fseDecode buf tl n _ => isTableLog tl && decide (buf.length ≤ 65535 ∧ n ≤ 65536)
  | .bcCompress src n tlReq _ =>
    (tlReq == 0 || isTableLog tlReq) && decide (n = src.length ∧ 1 ≤ n ∧ n ≤ 65536)
  | .bcDecompress payload len rawSize _ => decide (len = payload.length ∧ len ≤ 65535 ∧ rawSize ≤ 65536)
  | .ckInit => true
  | .ckUpdate _ => true
  | .ckDigest => true
  | .ckTrunc22 _ => true

end Sys2Proof
end

