-- ==== Sys2Proof/Decode.lean ====
section
/-! DEFINITION. Byte order, the decoder from packets to instructions (total, rejecting by name), the encoder, and the
two readings of an opcode-table word that the host asks for. Wire elements are written from 30_encoding.md R41 to R47,
the command codes from R54, the unit-operation numbers from spec/opcode_table.json (R55). -/

namespace Sys2Proof

/-! ### Byte order (00_scope.md R6, 20_memory.md R32) -/

/-- `BE16(b0, b1) = b0<<8 | b1`. -/
def be16 (b0 b1 : Byte) : BitVec 16 := b0 ++ b1

/-- The two bytes `x >> 8`, `x & 0xFF` of a `BE16` field (47_container.md R149). -/
def be16Bytes (x : BitVec 16) : List Byte := [x.extractLsb' 8 8, x.extractLsb' 0 8]

/-- `LE32(b0..b3) = b0 | b1<<8 | b2<<16 | b3<<24`. -/
def le32 (b0 b1 b2 b3 : Byte) : U32 := b3 ++ (b2 ++ (b1 ++ b0))

/-- The four bytes of an `LE32` field, least significant first. -/
def le32Bytes (x : U32) : List Byte :=
  [x.extractLsb' 0 8, x.extractLsb' 8 8, x.extractLsb' 16 8, x.extractLsb' 24 8]

/-- The number whose byte `j` is the list's byte `j`: bit `j` of a byte sequence is bit `j mod 8` of byte `j // 8`
(20_memory.md R33). -/
def leNat : List Byte → Nat
  | [] => 0
  | b :: bs => b.toNat + 256 * leNat bs

/-- The `m` bytes of a number, least significant first. -/
def leBytes : Nat → Nat → List Byte
  | 0, _ => []
  | m + 1, x => BitVec.ofNat 8 x :: leBytes m (x / 256)

/-! ### The block header byte (R42, R43, R53) -/

/-- The seven block forms of R53. -/
inductive BlockForm where
  | cmp | cmpF | raw | rawF | rle | rleF | crc
  deriving DecidableEq, Repr

/-- R53: the form of a header byte by its range. -/
def blockForm (h : Byte) : BlockForm :=
  if h.toNat < 0x20 then .cmp
  else if h.toNat < 0x40 then .cmpF
  else if h.toNat < 0x60 then .raw
  else if h.toNat < 0x80 then .rawF
  else if h.toNat < 0xA0 then .rle
  else if h.toNat < 0xC0 then .rleF
  else .crc

/-- `h[4:0]`, the reserved field of a non-Crc header (R42). -/
def reservedOf (h : Byte) : BitVec 5 := h.extractLsb' 0 5

/-- `h[5:0]` of a Crc header: bits 21..16 of the checksum (R42). -/
def crcHi6Of (h : Byte) : BitVec 6 := h.extractLsb' 0 6

/-- A non-Crc header byte: type in bits 7..6, full-size flag in bit 5, reserved bits 4..0 (R42). -/
def headerByte (type : BitVec 2) (full : Bool) (reserved : BitVec 5) : Byte :=
  type ++ (BitVec.ofBool full ++ reserved)

/-- A Crc header byte: type 3 and `crcHi6` (R47). -/
def crcHeaderByte (crcHi6 : BitVec 6) : Byte := (3 : BitVec 2) ++ crcHi6

/-! ### Decoding -/

/-- Why a packet decodes to no instruction. -/
inductive DecodeError where
  /-- a command code outside 0x01..0x0A: the command fails with E_ARG_COMMAND (60_exceptions.md R164) -/
  | commandCode
  /-- a unit-operation number outside 0x40..0x5D (30_encoding.md R55) -/
  | unitCode
  /-- fewer bytes than the element's fixed fields occupy (R51) -/
  | shortElement
  /-- the content is not as long as the size field says (R51) -/
  | contentLength
  /-- an operand line carries a number the operand has no bits for -/
  | operandWidth
  deriving DecidableEq, Repr

/-- A file header: exactly five bytes (R41). Every tag and every `k` decodes; FHDR's meaning refuses the illegal ones
as R52 says. -/
def decodeFileHeader : List Byte → Except DecodeError Instr
  | [b0, b1, b2, b3, k] => .ok (.fhdr (le32 b0 b1 b2 b3) k)
  | _ => .error .shortElement

/-- A block element: the header byte, its size fields, then the whole rest as content (R44 to R47, R51). The content
of a full Raw block has the session's block size, which its bytes do not carry. -/
def decodeBlock : List Byte → Except DecodeError Instr
  | [] => .error .shortElement
  | h :: rest =>
    match blockForm h with
    | .cmp =>
      match rest with
      | r0 :: r1 :: c0 :: c1 :: payload =>
        if payload.length = (be16 c0 c1).toNat then .ok (.blkCmp (reservedOf h) (be16 r0 r1) (be16 c0 c1) payload)
        else .error .contentLength
      | _ => .error .shortElement
    | .cmpF =>
      match rest with
      | c0 :: c1 :: payload =>
        if payload.length = (be16 c0 c1).toNat then .ok (.blkCmpF (reservedOf h) (be16 c0 c1) payload)
        else .error .contentLength
      | _ => .error .shortElement
    | .raw =>
      match rest with
      | r0 :: r1 :: data =>
        if data.length = (be16 r0 r1).toNat then .ok (.blkRaw (reservedOf h) (be16 r0 r1) data)
        else .error .contentLength
      | _ => .error .shortElement
    | .rawF => .ok (.blkRawF (reservedOf h) rest)
    | .rle =>
      match rest with
      | [r0, r1, b] => .ok (.blkRle (reservedOf h) (be16 r0 r1) b)
      | _ => .error .shortElement
    | .rleF =>
      match rest with
      | [b] => .ok (.blkRleF (reservedOf h) b)
      | _ => .error .shortElement
    | .crc =>
      match rest with
      | [c0, c1] => .ok (.blkCrc (crcHi6Of h) (be16 c0 c1))
      | _ => .error .shortElement

/-- Operand line `i` of numbers; a line nothing drives carries 0. -/
def Operands.num (o : Operands) (i : Nat) : Nat := o.nums.getD i 0

/-- A number that must fit `w` bits. -/
def asBits (w n : Nat) : Except DecodeError (BitVec w) :=
  if n < 2 ^ w then .ok (BitVec.ofNat w n) else .error .operandWidth

/-- A number that a register of `w` bits must hold. -/
def fits (w n : Nat) : Except DecodeError Nat := if n < 2 ^ w then .ok n else .error .operandWidth

/-- Counts, each of 17 bits (10_state.md R19). -/
def asCounts (l : List Nat) : Except DecodeError (List Nat) :=
  if l.all fun c => c < 2 ^ 17 then .ok l else .error .operandWidth

/-- Weights, each an `s16` (10_state.md R20) or the 32768 of log 19. -/
def asWeights (l : List Int) : Except DecodeError (List Int) :=
  if l.all fun w => decide (-32768 ≤ w ∧ w ≤ 32768) then .ok l else .error .operandWidth

/-- A number that must be 0 or 1. -/
def asFlag (n : Nat) : Except DecodeError Bool :=
  if n = 0 then .ok false else if n = 1 then .ok true else .error .operandWidth

/-- A host command word: the code and its operands (R54). -/
def decodeCommand (code : Byte) (o : Operands) : Except DecodeError Instr :=
  match code.toNat with
  | 0x01 => .ok (.configure (o.num 0) (o.num 1) (o.num 2) (o.num 3) (o.num 4) (o.num 5))
  | 0x02 => .ok (.setinput o.bytes)
  | 0x03 => .ok .state
  | 0x04 => .ok .output
  | 0x05 => do .ok (.advance (← asBits 17 (o.num 0)))
  | 0x06 => .ok .flush
  | 0x07 => .ok .complete
  | 0x08 => .ok .reset
  | 0x09 => .ok .need
  | 0x0A => .ok .errcause
  | _ => .error .commandCode

/-- A unit operation's number and operands (opcode_table.json, codes 0x40..0x5D). A number that stands for a register
must fit its width (10_state.md R19 to R25): `msv` 8 bits, a count 17, a weight 16, `V` 16, `S` 15, and `tl` 4
where the rule does not check it itself (log 15). -/
def decodeUnit (code : Byte) (o : Operands) : Except DecodeError Instr :=
  match code.toNat with
  | 0x40 => .ok (.bwInit (o.num 0))
  | 0x41 => do .ok (.bwAdd (← asBits 32 (o.num 0)) (o.num 1))
  | 0x42 => .ok .bwFlush
  | 0x43 => .ok .bwClose
  | 0x44 => .ok (.brInit o.bytes)
  | 0x45 => .ok (.brRead (o.num 0))
  | 0x46 => .ok (.brPeek (o.num 0))
  | 0x47 => .ok (.brSkip (o.num 0))
  | 0x48 => do .ok (.histCount o.bytes (o.num 0) (← asBits 8 (o.num 1)) (← asFlag (o.num 2)))
  | 0x49 => .ok (.normMinlog (o.num 0) (o.num 1))
  | 0x4A => .ok (.normOptlog (o.num 0) (o.num 1) (o.num 2))
  | 0x4B => do .ok (.normNormalize (← asCounts (o.nums.drop 3)) (o.num 0) (← fits 8 (o.num 1)) (o.num 2))
  | 0x4C => do .ok (.normM2 (← fits 4 (o.num 0)) (← asCounts (o.nums.drop 3)) (o.num 1) (← fits 8 (o.num 2)))
  | 0x4D => do .ok (.ncWrite (← asWeights o.ints) (← fits 8 (o.num 0)) (o.num 1))
  | 0x4E => .ok (.ncRead o.bytes)
  | 0x4F => do .ok (.tbSpread (← asWeights o.ints) (← fits 8 (o.num 0)) (← fits 4 (o.num 1)))
  | 0x50 => do .ok (.tbCtable (← asWeights o.ints) (← fits 8 (o.num 0)) (← fits 4 (o.num 1)))
  | 0x51 => do .ok (.tbDtable (← asWeights o.ints) (← fits 8 (o.num 0)) (← fits 4 (o.num 1)))
  | 0x52 => do .ok (.fseInitc (← asFlag (o.num 0)) (← asBits 8 (o.num 1)))
  | 0x53 => do .ok (.fseEncsym (← asFlag (o.num 0)) (← fits 16 (o.num 1)) (← asBits 8 (o.num 2)))
  | 0x54 => .ok (.fseEncode o.bytes (o.num 0) (o.num 1))
  | 0x55 => do .ok (.fseInitd (← asFlag (o.num 0)) (← fits 4 (o.num 1)))
  | 0x56 => do .ok (.fseDecsym (← asFlag (o.num 0)) (← fits 15 (o.num 1)) (← asFlag (o.num 2)))
  | 0x57 => do .ok (.fseDecode o.bytes (← fits 4 (o.num 0)) (o.num 1) (← asFlag (o.num 2)))
  | 0x58 => do .ok (.bcCompress o.bytes (o.num 0) (o.num 1) (← asFlag (o.num 2)))
  | 0x59 => do .ok (.bcDecompress o.bytes (o.num 0) (o.num 1) (← asFlag (o.num 2)))
  | 0x5A => .ok .ckInit
  | 0x5B => .ok (.ckUpdate o.bytes)
  | 0x5C => .ok .ckDigest
  | 0x5D => do .ok (.ckTrunc22 (← asBits 32 (o.num 0)))
  | _ => .error .unitCode

/-- The bytes of a packet that arrives as bytes of the stream. -/
def Packet.streamBytes : Packet → Option (List Byte)
  | .fileHeader bytes => some bytes
  | .block bytes => some bytes
  | .command _ _ => none
  | .unitOp _ _ => none
  | .drain => none

/-- The decoder: total on every packet. -/
def decode : Packet → Except DecodeError Instr
  | .fileHeader bytes => decodeFileHeader bytes
  | .block bytes => decodeBlock bytes
  | .command code ops => decodeCommand code ops
  | .unitOp code ops => decodeUnit code ops
  | .drain => .ok .drain

/-! ### Encoding -/

/-- No operand line driven. -/
def Operands.zero : Operands := ⟨[], [], []⟩

/-- Number lines only. -/
def Operands.ofNums (l : List Nat) : Operands := ⟨l, [], []⟩

/-- Bytes and numbers. -/
def Operands.ofBytes (b : List Byte) (l : List Nat) : Operands := ⟨l, b, []⟩

/-- Weights and numbers. -/
def Operands.ofInts (w : List Int) (l : List Nat) : Operands := ⟨l, [], w⟩

/-- The five bytes of a file header (R41). -/
def fhdrBytes (tag : U32) (k : Byte) : List Byte := le32Bytes tag ++ [k]

/-- A Compressed block, not full (R44). -/
def blkCmpBytes (reserved : BitVec 5) (rawSize cSize : BitVec 16) (payload : List Byte) : List Byte :=
  headerByte 0 false reserved :: (be16Bytes rawSize ++ (be16Bytes cSize ++ payload))

/-- A Compressed block, full (R44). -/
def blkCmpFBytes (reserved : BitVec 5) (cSize : BitVec 16) (payload : List Byte) : List Byte :=
  headerByte 0 true reserved :: (be16Bytes cSize ++ payload)

/-- A Raw block, not full (R45). -/
def blkRawBytes (reserved : BitVec 5) (rawSize : BitVec 16) (data : List Byte) : List Byte :=
  headerByte 1 false reserved :: (be16Bytes rawSize ++ data)

/-- A Raw block, full (R45). -/
def blkRawFBytes (reserved : BitVec 5) (data : List Byte) : List Byte := headerByte 1 true reserved :: data

/-- An Rle block, not full (R46). -/
def blkRleBytes (reserved : BitVec 5) (rawSize : BitVec 16) (byte : Byte) : List Byte :=
  headerByte 2 false reserved :: (be16Bytes rawSize ++ [byte])

/-- An Rle block, full (R46). -/
def blkRleFBytes (reserved : BitVec 5) (byte : Byte) : List Byte := [headerByte 2 true reserved, byte]

/-- A Crc block (R47). -/
def blkCrcBytes (crcHi6 : BitVec 6) (crcLo16 : BitVec 16) : List Byte :=
  crcHeaderByte crcHi6 :: be16Bytes crcLo16

/-- A flag on a number line. -/
def flagNum (b : Bool) : Nat := if b then 1 else 0

/-- The encoder: the bytes of a wire element, or the code and operand lines of a command or unit operation. -/
def encode : Instr → Packet
  | .fhdr tag k => .fileHeader (fhdrBytes tag k)
  | .blkCmp r raw c p => .block (blkCmpBytes r raw c p)
  | .blkCmpF r c p => .block (blkCmpFBytes r c p)
  | .blkRaw r raw d => .block (blkRawBytes r raw d)
  | .blkRawF r d => .block (blkRawFBytes r d)
  | .blkRle r raw b => .block (blkRleBytes r raw b)
  | .blkRleF r b => .block (blkRleFBytes r b)
  | .blkCrc hi lo => .block (blkCrcBytes hi lo)
  | .configure dir k tlReq ckEn strictTail oneByteRle =>
    .command 0x01 (.ofNums [dir, k, tlReq, ckEn, strictTail, oneByteRle])
  | .setinput bytes => .command 0x02 (.ofBytes bytes [])
  | .state => .command 0x03 .zero
  | .output => .command 0x04 .zero
  | .advance n => .command 0x05 (.ofNums [n.toNat])
  | .flush => .command 0x06 .zero
  | .complete => .command 0x07 .zero
  | .reset => .command 0x08 .zero
  | .need => .command 0x09 .zero
  | .errcause => .command 0x0A .zero
  | .drain => .drain
  | .bwInit cap => .unitOp 0x40 (.ofNums [cap])
  | .bwAdd value width => .unitOp 0x41 (.ofNums [value.toNat, width])
  | .bwFlush => .unitOp 0x42 .zero
  | .bwClose => .unitOp 0x43 .zero
  | .brInit buf => .unitOp 0x44 (.ofBytes buf [])
  | .brRead n => .unitOp 0x45 (.ofNums [n])
  | .brPeek n => .unitOp 0x46 (.ofNums [n])
  | .brSkip n => .unitOp 0x47 (.ofNums [n])
  | .histCount src n msvIn strict => .unitOp 0x48 (.ofBytes src [n, msvIn.toNat, flagNum strict])
  | .normMinlog n msv => .unitOp 0x49 (.ofNums [n, msv])
  | .normOptlog req n msv => .unitOp 0x4A (.ofNums [req, n, msv])
  | .normNormalize count total msv tl => .unitOp 0x4B (.ofNums (total :: msv :: tl :: count))
  | .normM2 tl count total msv => .unitOp 0x4C (.ofNums (tl :: total :: msv :: count))
  | .ncWrite norm msv tl => .unitOp 0x4D (.ofInts norm [msv, tl])
  | .ncRead buf => .unitOp 0x4E (.ofBytes buf [])
  | .tbSpread norm msv tl => .unitOp 0x4F (.ofInts norm [msv, tl])
  | .tbCtable norm msv tl => .unitOp 0x50 (.ofInts norm [msv, tl])
  | .tbDtable norm msv tl => .unitOp 0x51 (.ofInts norm [msv, tl])
  | .fseInitc j s => .unitOp 0x52 (.ofNums [flagNum j, s.toNat])
  | .fseEncsym j v s => .unitOp 0x53 (.ofNums [flagNum j, v, s.toNat])
  | .fseEncode src n cap => .unitOp 0x54 (.ofBytes src [n, cap])
  | .fseInitd j tl => .unitOp 0x55 (.ofNums [flagNum j, tl])
  | .fseDecsym j st update => .unitOp 0x56 (.ofNums [flagNum j, st, flagNum update])
  | .fseDecode buf tl n strictTail => .unitOp 0x57 (.ofBytes buf [tl, n, flagNum strictTail])
  | .bcCompress src n tlReq oneByteRle => .unitOp 0x58 (.ofBytes src [n, tlReq, flagNum oneByteRle])
  | .bcDecompress payload len rawSize strictTail =>
    .unitOp 0x59 (.ofBytes payload [len, rawSize, flagNum strictTail])
  | .ckInit => .unitOp 0x5A .zero
  | .ckUpdate bytes => .unitOp 0x5B (.ofBytes bytes [])
  | .ckDigest => .unitOp 0x5C .zero
  | .ckTrunc22 h => .unitOp 0x5D (.ofNums [h.toNat])

/-! ### The table's words

A table word is the bits of a wire element, or a code whose operands stand beside it and so are not among its bits. -/

/-- The operand lines under which a unit operation is well formed, each as small as its rule allows: all zero where
zero is allowed (log 7). -/
def leastOperands (code : Nat) : Operands :=
  match code with
  | 0x49 => .ofNums [1, 1]
  | 0x4A => .ofNums [0, 2, 1]
  | 0x4B => .ofNums [2, 1, 5, 1, 1]
  | 0x4C => .ofNums [5, 2, 1, 1, 1]
  | 0x4D => .ofInts [32] [0, 5]
  | 0x4F => .ofInts [32] [0, 5]
  | 0x50 => .ofInts [32] [0, 5]
  | 0x51 => .ofInts [32] [0, 5]
  | 0x54 => .ofBytes [0, 0, 0] [3, 0]
  | 0x55 => .ofNums [0, 5]
  | 0x57 => .ofBytes [] [5, 0, 0]
  | 0x58 => .ofBytes [0] [1, 0, 0]
  | _ => .zero

/-- How many bytes the block element at the bottom of `w` occupies: the header, its size fields, then as many content
bytes as they say; 1024, the smallest block size, for a full Raw block. -/
def elementLength (w : Nat) : Nat :=
  let byte (i : Nat) : Byte := BitVec.ofNat 8 (w / 256 ^ i)
  match blockForm (byte 0) with
  | .cmp => 5 + (be16 (byte 3) (byte 4)).toNat
  | .cmpF => 3 + (be16 (byte 1) (byte 2)).toNat
  | .raw => 3 + (be16 (byte 1) (byte 2)).toNat
  | .rawF => 1 + 1024
  | .rle => 4
  | .rleF => 2
  | .crc => 3

/-- The packet of a table word of `nbits` bits. 32 bits and more are a file header. A byte is a command code, then a
unit-operation number, then a block header; but 0x40, which is both BW.INIT's number and the header byte of BLK.RAW, is
the header byte, since the wire format is what the hardware decodes and the numbers are the table's own (R55; log 7). -/
def tablePacket (nbits w : Nat) : Packet :=
  let b := w % 256
  if 32 ≤ nbits then .fileHeader (leBytes 5 w)
  else if 1 ≤ b ∧ b ≤ 0x0A then .command (BitVec.ofNat 8 b) .zero
  else if 0x41 ≤ b ∧ b ≤ 0x5D then .unitOp (BitVec.ofNat 8 b) (leastOperands b)
  else .block (leBytes (elementLength w) w)

/-- The instruction the decoder reads from a table word. -/
def decodeTableWord (nbits w : Nat) : Option Instr :=
  match decode (tablePacket nbits w) with
  | .ok i => some i
  | .error _ => none

end Sys2Proof
end

