-- ==== Sys2Proof/Machine/State.lean ====
section
/-! DEFINITION. The state of the block as 10_state.md and 20_memory.md give it, as plain data; the reasons a step can
stop; the state at power-on (70_reset_and_hazards.md R181). Registers the spec leaves unwritten at reset hold the value
log 1 names; memories and table RAMs hold nothing there (log 2). -/

namespace Sys2Proof.Machine

/-- A byte-addressed memory: the written bytes by rising address. An unlisted byte is unwritten and holds no value, so
reading it faults (93_implementation_defined.md I3; log 2). -/
abbrev Memory := List Host.Cell

/-- Addresses strictly rising from a lower bound. -/
def Memory.risesFrom : Nat → Memory → Bool
  | _, [] => true
  | lo, (a, _) :: m => decide (lo ≤ a) && Memory.risesFrom (a + 1) m

/-- The canonical form: addresses strictly rising. No value is excluded, since an unlisted byte reads as none. -/
def Memory.wf (m : Memory) : Bool := Memory.risesFrom 0 m

/-- The error codes (60_exceptions.md R160); their numbers are `ErrCode.code`. -/
inductive ErrCode where
  | none
  | tagUnsupported | tagUnknown | blockSizeId | rawSize
  | ncountTableLog | ncountSymbol | ncountRemaining | ncountOverrun
  | streamEmpty | streamNoSentinel | streamExhausted | streamTail
  | tableSpread | truncated | checksum | normalize
  | argCommand | argConfig | argState | argAdvance
  | argTableLog | argHistRange | argDist | argUnconfigured
  deriving DecidableEq, Repr

/-- The five values of the status output `State` (10_state.md R12). -/
inductive Status where
  | needInput | writeOutput | completed | invalidData | invalidChecksum
  deriving DecidableEq, Repr

/-- The decompressor's control states (10_state.md R16): six field states, three terminal states. -/
inductive FState where
  | fileHeader | blockType | rawSize | compSize | blockContent | crcBlock
  | completed | invalidData | invalidChecksum
  deriving DecidableEq, Repr

/-- The compressor's control states (10_state.md R17). -/
inductive CPhase where
  | opened | completing | completed | failed
  deriving DecidableEq, Repr

/-- The four block types (30_encoding.md R43). -/
inductive BlockType where
  | compressed | raw | rle | crc
  deriving DecidableEq, Repr

/-- What BC.COMPRESS makes of a block (45_block_codec.md R113). -/
inductive BlockResult where
  | rle (b : Byte)
  | raw
  | cmp (payload : List Byte)
  deriving DecidableEq, Repr

/-- A bit sequence `W` (00_scope.md R7): `W[j]` is bit `j` of `val` for `j < len`, and there is no other bit. -/
structure Bits where
  len : Nat
  val : Nat
  deriving DecidableEq, Repr

/-- The bit writer (10_state.md R23, 40_bitstream.md R60). -/
structure Writer where
  w : Bits
  ovf : Bool
  wcap : Nat
  deriving DecidableEq, Repr

/-- The bit reader (10_state.md R24, 40_bitstream.md R65): the source's bit sequence and `p`, the unread bits. -/
structure Reader where
  w : Bits
  p : Nat
  deriving DecidableEq, Repr

/-- The histogram registers (10_state.md R19). -/
structure Hist where
  count : List Nat
  msv : Nat
  largest : Nat
  deriving DecidableEq, Repr

/-- One `symbolTT` entry (44_tables.md R100). For a symbol of weight 0 `deltaFindState` is not written. -/
structure SymbolTT where
  deltaNbBits : U32
  deltaFindState : Option Int
  deriving DecidableEq, Repr

/-- The encode table (10_state.md R21, 44_tables.md R101) but for `tableSymbol`, which both builders write. A cell of
`stateTable` is written or not (log 2). -/
structure CTable where
  tl : Nat
  msv : Nat
  cumul : List Nat
  stateTable : List (Option Nat)
  symbolTT : List SymbolTT
  deriving DecidableEq, Repr

/-- One `DTable` entry (10_state.md R22). -/
structure DEntry where
  symbol : Byte
  nbBits : Nat
  newState : Nat
  deriving DecidableEq, Repr

/-- The decode table and its builder's scratch (10_state.md R22). -/
structure DTable where
  entries : List DEntry
  symbolNext : List Nat
  deriving DecidableEq, Repr

/-- The working state of the datapath (10_state.md R19 to R25). -/
structure Work where
  hist : Hist
  tl : Nat
  norm : List Int
  tableSymbol : List (Option Byte)
  ct : CTable
  dt : DTable
  writer : Writer
  reader : Reader
  v0 : Nat
  v1 : Nat
  s0 : Nat
  s1 : Nat
  deriving DecidableEq, Repr

/-- The working state at reset and at the start of every block: unwritten (R19 to R25; log 1, log 2). -/
def Work.unwritten : Work where
  hist := ⟨List.replicate 256 0, 0, 0⟩
  tl := 0
  norm := List.replicate 256 0
  tableSymbol := []
  ct := ⟨0, 0, [], [], []⟩
  dt := ⟨[], []⟩
  writer := ⟨⟨0, 0⟩, false, 0⟩
  reader := ⟨⟨0, 0⟩, 0⟩
  v0 := 0
  v1 := 0
  s0 := 0
  s1 := 0

/-- The running checksum (10_state.md R18). `mem` holds the `memLen` bytes not yet folded into a lane (log 13). -/
structure Checksum where
  acc1 : U32
  acc2 : U32
  acc3 : U32
  acc4 : U32
  totalLen : U32
  large : Bool
  mem : List Byte
  deriving DecidableEq, Repr

/-- The checksum state after reset (R18). -/
def Checksum.initial : Checksum where
  acc1 := 0x24234428
  acc2 := 0x85EBCA77
  acc3 := 0
  acc4 := 0x61C8864F
  totalLen := 0
  large := false
  mem := []

/-- What a command or unit operation returns (00_scope.md R5; 30_encoding.md R54; log 4). -/
inductive Result where
  /-- nothing has been performed yet -/
  | nothing
  | ok
  /-- the command or operation failed with this code -/
  | error (e : ErrCode)
  /-- SETINPUT: the bytes consumed -/
  | consumed (n : Nat)
  /-- STATE -/
  | status (st : Status)
  /-- OUTPUT, DRAIN, NC.WRITE, FSE.DECODE, BC.DECOMPRESS: bytes -/
  | bytes (l : List Byte)
  /-- NEED -/
  | need (n : Nat)
  /-- ERRCAUSE -/
  | cause (e : ErrCode)
  /-- a number: the bit reader, the table-log choice, a codec state, a digest -/
  | value (n : Nat)
  /-- BW.CLOSE and FSE.ENCODE: the bytes and the overflow flag -/
  | closed (l : List Byte) (ovf : Bool)
  /-- NORM.NORMALIZE: the RLE signal (42_normalizer.md R82) -/
  | rleSignal
  /-- NC.READ: `msv` and `hlen`; `norm` and `tl` are in their registers -/
  | header (msv hlen : Nat)
  /-- FSE.DECSYM: the symbol and the state -/
  | symbol (s : Byte) (st : Nat)
  /-- BC.COMPRESS -/
  | block (r : BlockResult)
  deriving DecidableEq, Repr

/-- Why the machine stops with a fault. Each is an assertion of 93_implementation_defined.md part 1 ("the model or its
caller is wrong"); all are safe: the model stops where the spec says a model stops. -/
inductive Fault where
  /-- a memory byte is read that nothing has written (I3): Memory.read, and a unit operation whose byte operand has fewer
  bytes than its count says -/
  | memoryUnwritten
  /-- a table RAM cell is read that nothing has written (I3): FSE.ENCSYM, FSE.DECSYM, the builders, and a unit operation
  whose count or weight operand has fewer cells than its `msv` says -/
  | tableUnwritten
  /-- bytes are written beyond a memory's size, or a cell outside a table RAM, which does not exist (20_memory.md R30,
  10_state.md R21): Memory.store, TB.SPREAD and TB.CTABLE on weights that do not fit the table -/
  | memoryRange
  /-- `highbit(0)` (I4): NORM.MINLOG, NORM.OPTLOG, TB.CTABLE, TB.DTABLE -/
  | highbitZero
  /-- the container called a unit operation with a bad operand (I5), or NORM.NORMALIZE signalled RLE to it (R113, "never
  RLE here"): the compressor's EMIT and BC.COMPRESS -/
  | unitArgument
  /-- a symbol of weight 0 is to be coded (I6): FSE.INITC, FSE.ENCSYM -/
  | absentSymbol
  /-- BW.ADD's assertion `0 <= width <= 32` (40_bitstream.md R61) -/
  | widthAssertion
  /-- SETINPUT has a complete field for which 47_container.md R134 to R141 give no action: the content of a Crc block, which
  has none (R132); `Inv` rules such a state out -/
  | noAction
  /-- SETINPUT with more staged bytes than the field has (47_container.md R133): the pseudocode does not end -/
  | stagingOverrun
  deriving DecidableEq, Repr

/-- Why the machine refuses to go on; both are safe. -/
inductive Refusal where
  /-- exec has no meaning for the instruction: raised by exec's own arm -/
  | notModelled (mnemonic : String)
  /-- step: the packet names no operation, or carries an operand value that has no bits (log 15); an unused command code
  is E_ARG_COMMAND, and bytes that are no whole wire element are offered bytes -/
  | undecodable (e : DecodeError)
  deriving DecidableEq, Repr

/-- Why a datapath operation ends without a result: it raises an error code, or reaches a fault. -/
inductive Stop where
  | raise (e : ErrCode)
  | stuck (f : Fault)
  deriving DecidableEq, Repr

/-- The whole state of one instance. -/
structure State where
  /-- a CONFIGURE has succeeded since power-on (R11) -/
  configured : Bool
  cfg : Cfg
  -- decompressor session (R15)
  fstate : FState
  stageLen : Nat
  blockSize : Nat
  btype : BlockType
  full : Bool
  rawSize : Nat
  cSize : Nat
  crcHi6 : BitVec 6
  -- both sessions (R15, R17; log 8)
  outLen : Nat
  outPos : Nat
  errcause : ErrCode
  ck : Checksum
  -- compressor session (R17)
  cphase : CPhase
  bufLen : Nat
  hdrDone : Bool
  -- datapath working state (R19 to R25)
  work : Work
  -- memories (20_memory.md R30)
  inStage : Memory
  blockBuf : Memory
  outBuf : Memory
  payBuf : Memory
  /-- the model's own: what the last command or operation returned (log 4) -/
  result : Result
  /-- the model's own: what the host has issued and the block has not performed, oldest first (log 3) -/
  pending : List Packet
  deriving DecidableEq, Repr

/-- Power-on (R181): not configured; session, checksum, working state and memories as after R180. -/
def State.reset : State where
  configured := false
  cfg := ⟨.compress, 0, 0, false, false, false⟩
  fstate := .fileHeader
  stageLen := 0
  blockSize := 0
  btype := .compressed
  full := false
  rawSize := 0
  cSize := 0
  crcHi6 := 0
  outLen := 0
  outPos := 0
  errcause := .none
  ck := Checksum.initial
  cphase := .opened
  bufLen := 0
  hdrDone := false
  work := Work.unwritten
  inStage := []
  blockBuf := []
  outBuf := []
  payBuf := []
  result := .nothing
  pending := []

end Sys2Proof.Machine
end

