-- ==== Sys2Proof/Machine/Constants.lean ====
section
/-! DEFINITION. The read-only constants of the block (10_state.md R28) and the fixed parameters of 00_scope.md R4. -/

namespace Sys2Proof.Machine

/-- MIN_TABLELOG (R4). -/
def minTableLog : Nat := 5
/-- MAX_TABLELOG (R4). -/
def maxTableLog : Nat := 15
/-- MAX_SYMBOL (R4). -/
def maxSymbol : Nat := 255
/-- The table log that `TABLELOG_REQ = 0` stands for (R4, 42_normalizer.md R76). -/
def defaultTableLog : Nat := 11
/-- ACC_WIDTH (R4): not observable; used by the writer's realisation only. -/
def accWidth : Nat := 64
/-- TAG_FSE (R4, 30_encoding.md R41). -/
def tagFse : U32 := 0x183E2309
/-- TAG_HUFF. -/
def tagHuff : U32 := 0x183E3309
/-- TAG_ZLIBH. -/
def tagZlibh : U32 := 0x183E4309
/-- XXH_SEED (R4). -/
def xxhSeed : U32 := 0
/-- The XxHash32 primes (46_checksum.md R120). -/
def prime1 : U32 := 0x9E3779B1
/-- `P2` of R120. -/
def prime2 : U32 := 0x85EBCA77
/-- `P3` of R120. -/
def prime3 : U32 := 0xC2B2AE3D
/-- `P4` of R120. -/
def prime4 : U32 := 0x27D4EB2F
/-- `P5` of R120. -/
def prime5 : U32 := 0x165667B1
/-- `rtbTable[0..7]` (42_normalizer.md R78). -/
def rtbTable : List Nat := [0, 473195, 504333, 520860, 550000, 700000, 750000, 830000]
/-- The size of `InStage` (20_memory.md R30). -/
def inStageSize : Nat := 65536
/-- PAY_CAP, the size of `PayBuf` (R30). -/
def payCap : Nat := 65536
/-- OUT_CAP, the compressor's size of `OutBuf` (R30). -/
def outCap : Nat := 65546
/-- The decompressor's size of `OutBuf` (R30). -/
def outSizeDecompressor : Nat := 65536
/-- `BLOCK_SIZE = 1024 << k` (R4). -/
def blockSizeOf (k : Nat) : Nat := 1024 * 2 ^ k

end Sys2Proof.Machine
end

