-- ==== Sys2Proof/Machine/Operands.lean ====
section
/-! DEFINITION. How operands are read: `highbit`, slots of a weight, indexed table cells, the codec-state index, the
block type of a header byte, bit sequences. The block has no addressing modes (20_memory.md R30); byte order is in
Decode.lean. -/

namespace Sys2Proof.Machine

/-- `highbit(x) = floor(log2 x)` for `x >= 1`; `highbit(0)` is undefined (00_scope.md R6) and faults (I4). -/
def highbit (x : Nat) : Except Stop Nat :=
  if x = 0 then .error (.stuck .highbitZero) else .ok (Nat.log2 x)

/-- `slots(w)`: 1 if `w = -1`, else `w` (00_scope.md section 6); a weight below -1 has no slot (44_tables.md R96, R98:
`max(norm[s], 0)`). -/
def slots (w : Int) : Nat := if w = -1 then 1 else w.toNat

/-- `a // b`, of non-negative integers (00_scope.md R6); for others a free value (DESIGN CHOICE, log 27). -/
def quotient (a b : Int) : Int := if 0 ≤ a ∧ 0 < b then a / b else Config.freeQuotient a b

/-- `a >> n` of a non-negative value (R6); of a negative one a free value (DESIGN CHOICE, log 27). -/
def shiftRight (a : Int) (n : Nat) : Int := if 0 ≤ a then a / 2 ^ n else Config.freeShift a n

/-- Symbol `s` as a byte. -/
def symbolOf (s : Nat) : Byte := BitVec.ofNat 8 s

/-- Cell `i` of a table whose first cells are written and the others not; an unwritten cell faults (I3). -/
def cell {α : Type} (ram : List α) (i : Nat) : Except Stop α :=
  match ram[i]? with
  | some x => .ok x
  | none => .error (.stuck .tableUnwritten)

/-- Cell `i` of a RAM whose cells may be written or not; an unwritten cell faults (I3). -/
def ramCell {α : Type} (ram : List (Option α)) (i : Nat) : Except Stop α :=
  match ram[i]? with
  | some (some x) => .ok x
  | _ => .error (.stuck .tableUnwritten)

/-- The cells of a RAM of `2^n` cells that a sequence of writes below `2^n` writes, the last write to a cell standing.
The cells are laid out by the halves of the RAM. -/
def ramWritten {α : Type} : Nat → List (Nat × α) → List (Option α)
  | 0, ws => [ws.getLast?.map fun p => p.2]
  | n + 1, ws =>
    ramWritten n (ws.filter fun p => p.1 < 2 ^ n) ++
      ramWritten n ((ws.filter fun p => 2 ^ n ≤ p.1).map fun p => (p.1 - 2 ^ n, p.2))

/-- The cells of a RAM after some of them are written: the others keep what they held, if anything. -/
def ramKeep {α : Type} : List (Option α) → List (Option α) → List (Option α)
  | _, [] => []
  | [], new => new
  | o :: old, c :: new => c.or o :: ramKeep old new

/-- A RAM of `2^n` cells after a sequence of writes to it (log 18); there is no cell beyond it, so writing one faults. -/
def ramWrite {α : Type} (n : Nat) (old : List (Option α)) (ws : List (Nat × α)) : Except Stop (List (Option α)) :=
  if ws.all fun p => p.1 < 2 ^ n then .ok (ramKeep old (ramWritten n ws)) else .error (.stuck .memoryRange)

/-- The type field of a header byte (30_encoding.md R42, R43). -/
def blockTypeOf (h : Byte) : BlockType :=
  match (h.extractLsb' 6 2).toNat with
  | 0 => .compressed
  | 1 => .raw
  | 2 => .rle
  | _ => .crc

/-- The full-size flag `h[5]` (R42). -/
def fullFlagOf (h : Byte) : Bool := h.getLsbD 5

/-- Bit `j` of a bit sequence. -/
def Bits.bit (w : Bits) (j : Nat) : Bool := decide (j < w.len) && w.val.testBit j

/-- The empty sequence. -/
def Bits.empty : Bits := ⟨0, 0⟩

/-- `append(W, v, n)`: the bits `v[0], .., v[n-1]`, least significant first (00_scope.md R7). -/
def Bits.append (w : Bits) (v n : Nat) : Bits := ⟨w.len + n, w.val % 2 ^ w.len + v % 2 ^ n * 2 ^ w.len⟩

/-- The bits of a byte sequence: bit `j` is bit `j mod 8` of byte `j // 8` (20_memory.md R33). -/
def Bits.ofBytes (bs : List Byte) : Bits := ⟨8 * bs.length, leNat bs⟩

/-- The `(len + 7) // 8` bytes of a sequence, unused high bits of the last byte 0. -/
def Bits.toBytes (w : Bits) : List Byte := leBytes ((w.len + 7) / 8) (w.val % 2 ^ w.len)

/-- `sum over i in 0..n-1 of W[q+i] << i`, bits beyond the sequence taken as 0. -/
def Bits.field (w : Bits) (q n : Nat) : Nat := w.val % 2 ^ w.len / 2 ^ q % 2 ^ n

end Sys2Proof.Machine
end

