-- ==== Sys2Proof/Machine/Checksum.lean ====
section
/-! DEFINITION. The running checksum (46_checksum.md): XxHash32 with seed 0, and its 22-bit truncation. All arithmetic
is on `u32` values. The unit operations CK.* that the host's table lists are at Machine/ChecksumUnit.lean. -/

namespace Sys2Proof.Machine

/-- CK.INIT (R121). -/
def ckInitial : Checksum where
  acc1 := xxhSeed + prime1 + prime2
  acc2 := xxhSeed + prime2
  acc3 := xxhSeed
  acc4 := xxhSeed - prime1
  totalLen := 0
  large := false
  mem := []

/-- `round(acc, lane) = rotl_13(acc + lane * P2) * P1` (R123). -/
def ckRound (acc lane : U32) : U32 := (acc + lane * prime2).rotateLeft 13 * prime1

/-- The little-endian word at bytes `i .. i+3` of the buffer (R122). -/
def ckLane (mem : List Byte) (i : Nat) : U32 :=
  le32 (mem.getD i 0) (mem.getD (i + 1) 0) (mem.getD (i + 2) 0) (mem.getD (i + 3) 0)

/-- One byte of CK.UPDATE (R122). -/
def ckByte (c : Checksum) (b : Byte) : Checksum :=
  let mem := c.mem ++ [b]
  let c := { c with totalLen := c.totalLen + 1 }
  if mem.length = 16 then
    { c with
      acc1 := ckRound c.acc1 (ckLane mem 0), acc2 := ckRound c.acc2 (ckLane mem 4)
      acc3 := ckRound c.acc3 (ckLane mem 8), acc4 := ckRound c.acc4 (ckLane mem 12)
      mem := [], large := true }
  else { c with mem := mem }

/-- CK.UPDATE (R122): the bytes one at a time in order. -/
def ckFold (c : Checksum) (bytes : List Byte) : Checksum := bytes.foldl ckByte c

/-- The tail of the digest, 4 bytes at a time, then 1 byte at a time (R124). -/
def ckTail (h : U32) : List Byte → U32
  | b0 :: b1 :: b2 :: b3 :: rest => ckTail ((h + le32 b0 b1 b2 b3 * prime3).rotateLeft 17 * prime4) rest
  | rest => rest.foldl (fun h b => (h + b.setWidth 32 * prime5).rotateLeft 11 * prime1) h

/-- The avalanche of the digest (R124). -/
def ckAvalanche (h : U32) : U32 :=
  let h := (h ^^^ (h >>> 15)) * prime2
  let h := (h ^^^ (h >>> 13)) * prime3
  h ^^^ (h >>> 16)

/-- CK.DIGEST (R124). -/
def ckHash (c : Checksum) : U32 :=
  let h :=
    if c.large then
      c.acc1.rotateLeft 1 + c.acc2.rotateLeft 7 + c.acc3.rotateLeft 12 + c.acc4.rotateLeft 18
    else xxhSeed + prime5
  ckAvalanche (ckTail (h + c.totalLen) c.mem)

/-- The lane accumulators after the first `n` 16-byte groups of `x`, each group's lane `k` the word at its bytes
`4k .. 4k+3` (R122). -/
def xxhLanes : Nat → List Byte → U32 × U32 × U32 × U32 → U32 × U32 × U32 × U32
  | 0, _, a => a
  | n + 1, x, (a1, a2, a3, a4) =>
    xxhLanes n (x.drop 16)
      (ckRound a1 (ckLane x 0), ckRound a2 (ckLane x 4), ckRound a3 (ckLane x 8), ckRound a4 (ckLane x 12))

/-- The one-shot `XXH32(x, 0)` of R125, on the whole byte sequence. No instruction calls it. -/
def xxh32 (x : List Byte) : U32 :=
  let n := x.length / 16
  let h :=
    if 16 ≤ x.length then
      let (a1, a2, a3, a4) := xxhLanes n x (xxhSeed + prime1 + prime2, xxhSeed + prime2, xxhSeed, xxhSeed - prime1)
      a1.rotateLeft 1 + a2.rotateLeft 7 + a3.rotateLeft 12 + a4.rotateLeft 18
    else xxhSeed + prime5
  ckAvalanche (ckTail (h + BitVec.ofNat 32 x.length) (x.drop (16 * n)))

/-- CK.TRUNC22 (R126): bits 26..5. -/
def ckTrunc (h : U32) : BitVec 22 := h.extractLsb' 5 22

end Sys2Proof.Machine
end

