-- ==== Sys2Proof/Machine/Flags.lean ====
section
/-! DEFINITION. The status outputs. The block has no flags or condition codes (10_state.md R26); what a host reads
instead are `State`, `errcause`, `need` and the output length, and all of them are computed here. -/

namespace Sys2Proof.Machine

/-- The 3-bit value of `State` (10_state.md R12). -/
def Status.code : Status → BitVec 3
  | .needInput => 0
  | .writeOutput => 1
  | .completed => 2
  | .invalidData => 3
  | .invalidChecksum => 4

/-- The 5-bit error code (60_exceptions.md R160). -/
def ErrCode.code : ErrCode → BitVec 5
  | .none => 0
  | .tagUnsupported => 1
  | .tagUnknown => 2
  | .blockSizeId => 3
  | .rawSize => 4
  | .ncountTableLog => 5
  | .ncountSymbol => 6
  | .ncountRemaining => 7
  | .ncountOverrun => 8
  | .streamEmpty => 9
  | .streamNoSentinel => 10
  | .streamExhausted => 11
  | .streamTail => 12
  | .tableSpread => 13
  | .truncated => 14
  | .checksum => 15
  | .normalize => 16
  | .argCommand => 17
  | .argConfig => 18
  | .argState => 19
  | .argAdvance => 20
  | .argTableLog => 21
  | .argHistRange => 22
  | .argDist => 23
  | .argUnconfigured => 24

/-- `State` of the decompressor (47_container.md R146). -/
def statusDecompressor (s : State) : Status :=
  match s.fstate with
  | .completed => .completed
  | .invalidData => .invalidData
  | .invalidChecksum => .invalidChecksum
  | _ => if s.outPos < s.outLen then .writeOutput else .needInput

/-- `State` of the compressor (47_container.md R154). -/
def statusCompressor (s : State) : Status :=
  if s.cphase = .failed then .invalidData
  else if s.outPos < s.outLen then .writeOutput
  else if s.cphase = .completed then .completed
  else .needInput

/-- The status output `State`, by direction. -/
def status (s : State) : Status :=
  match s.cfg.dir with
  | .decompress => statusDecompressor s
  | .compress => statusCompressor s

/-- `need(fstate)`: the bytes of the field named by `fstate` (47_container.md R132). -/
def fieldLength (s : State) : Nat :=
  match s.fstate with
  | .fileHeader => 5
  | .blockType => 1
  | .rawSize => 2
  | .compSize => 2
  | .crcBlock => 2
  | .blockContent =>
    match s.btype with
    | .compressed => s.cSize
    | .raw => s.rawSize
    | .rle => 1
    | .crc => 0
  | .completed => 0
  | .invalidData => 0
  | .invalidChecksum => 0

/-- The three terminal states (10_state.md R16). -/
def FState.terminal : FState → Bool
  | .completed => true
  | .invalidData => true
  | .invalidChecksum => true
  | _ => false

/-- The status output `need` (10_state.md R14, 47_container.md R157): 0 in a terminal state and for the compressor. -/
def needOutput (s : State) : Nat :=
  match s.cfg.dir with
  | .compress => 0
  | .decompress => if s.fstate.terminal then 0 else fieldLength s - s.stageLen

/-- The output length status (10_state.md R26, 47_container.md R156). -/
def readyLength (s : State) : Nat := s.outLen - s.outPos

end Sys2Proof.Machine
end

