-- ==== Sys2Proof/Machine/Ops.lean ====
section
/-! DEFINITION. The named operations over memory and session: reading and writing a memory (20_memory.md R30), giving
a result, failing with an argument error (60_exceptions.md R164), the fatal entry, which is how this block takes an
exception (R162), and the reset, which is the only way back from one (70_reset_and_hazards.md R180). -/

namespace Sys2Proof.Machine

/-! ### Memories -/

/-- One byte, if it is written. -/
def Memory.get? (m : Memory) (a : Nat) : Option Byte :=
  match m with
  | [] => none
  | (x, b) :: m' => if x = a then some b else Memory.get? m' a

/-- The written bytes `a .. a+n-1`, in one walk over the cells; none if one of them is not written. -/
def Memory.run? : Memory → Nat → Nat → Option (List Byte)
  | _, _, 0 => some []
  | [], _, _ + 1 => none
  | (x, b) :: m, a, n + 1 =>
    if x < a then Memory.run? m a (n + 1)
    else if x = a then (Memory.run? m (a + 1) n).map (b :: ·)
    else none

/-- `MemRead(M, a, n)` (00_scope.md R7); an unwritten byte faults (I3). -/
def Memory.read (m : Memory) (a n : Nat) : Except Fault (List Byte) :=
  match Memory.run? m a n with
  | some bs => .ok bs
  | none => .error .memoryUnwritten

/-- Bytes as cells from an address upward. -/
def Memory.cells : Nat → List Byte → Memory
  | _, [] => []
  | a, b :: bs => (a, b) :: Memory.cells (a + 1) bs

/-- The memory with `bs` at `a`: what lies below, the new bytes, what lies above. -/
def Memory.write (m : Memory) (a : Nat) (bs : List Byte) : Memory :=
  m.filter (fun c => c.1 < a) ++ (Memory.cells a bs ++ m.filter fun c => a + bs.length ≤ c.1)

/-- `MemWrite(M, a, n, v)` into a memory of `size` bytes; there is no byte beyond the size (R30). -/
def Memory.store (size : Nat) (m : Memory) (a : Nat) (bs : List Byte) : Except Fault Memory :=
  if a + bs.length ≤ size then .ok (Memory.write m a bs) else .error .memoryRange

/-- The size of `OutBuf` in the configured direction (R30). -/
def outBufSize (s : State) : Nat :=
  match s.cfg.dir with
  | .compress => outCap
  | .decompress => outSizeDecompressor

/-- `BLOCK_SIZE` of the compressor: the size of `BlockBuf` (R30, 47_container.md R147). -/
def blockSizeCfg (s : State) : Nat := blockSizeOf s.cfg.k

/-! ### Results and errors -/

/-- The state with a result given to the host. -/
def State.reply (s : State) (r : Result) : State := { s with result := r }

/-- A failed check (R164): the code is the result and no state is changed. -/
def argError (s : State) (e : ErrCode) : Host.Outcome State Fault Refusal := .next (s.reply (.error e))

/-- Checks 1 and 2 of R164 for a command other than CONFIGURE: an unconfigured block fails every one. -/
def whenConfigured (s : State) (k : Host.Outcome State Fault Refusal) : Host.Outcome State Fault Refusal :=
  if s.configured then k else argError s .argUnconfigured

/-- The outcome of an operation that may fault. -/
def outcome : Except Fault State → Host.Outcome State Fault Refusal
  | .ok s => .next s
  | .error f => .fault f

/-- The outcome of a unit operation taken on its own that has written nothing when it raises a code: the code is its
result (60_exceptions.md R161). -/
def unitOutcome (s : State) : Except Stop State → Host.Outcome State Fault Refusal
  | .ok t => .next t
  | .error (.raise e) => .next (s.reply (.error e))
  | .error (.stuck f) => .fault f

/-- The outcome of a unit operation that leaves the working state `w` whether it ends or raises a code: the working state
is "left as the failing operation left it" (R162; log 12). -/
def runOutcome (s : State) (w : Work) (r : Except Stop Result) : Host.Outcome State Fault Refusal :=
  match r with
  | .ok res => .next ({ s with work := w }.reply res)
  | .error (.raise e) => .next ({ s with work := w }.reply (.error e))
  | .error (.stuck f) => .fault f

/-- A list operand of `given` cells of which the operation names `needed`: a cell that is not given is not written, and
naming it faults (I3; log 15). -/
def whenGiven (given needed : Nat) (f : Fault) (k : Host.Outcome State Fault Refusal) :
    Host.Outcome State Fault Refusal := if given < needed then .fault f else k

/-! ### Fatal entry (60_exceptions.md R162) -/

/-- "enter S, e" of the decompressor: `fstate <- S; errcause <- e; stageLen <- 0`. -/
def State.enterFatal (s : State) (target : FState) (e : ErrCode) : State :=
  { s with fstate := target, errcause := e, stageLen := 0 }

/-- "enter InvalidData, e" of the compressor: `cphase <- Failed; errcause <- e; bufLen <- 0`. -/
def State.enterFailed (s : State) (e : ErrCode) : State :=
  { s with cphase := .failed, errcause := e, bufLen := 0 }

/-! ### Reset (70_reset_and_hazards.md R180) -/

/-- The reset of both sessions, the checksum, the working state and the memories; `cfg` and `configured` stay. The
fields the rule makes unwritten take the values of log 1. -/
def State.sessionReset (s : State) : State :=
  { s with
    fstate := .fileHeader, stageLen := 0, outLen := 0, outPos := 0, errcause := .none
    blockSize := 0, btype := .compressed, full := false, rawSize := 0, cSize := 0, crcHi6 := 0
    cphase := .opened, bufLen := 0, hdrDone := false
    ck := ckInitial
    work := Work.unwritten
    inStage := [], blockBuf := [], outBuf := [], payBuf := [] }

end Sys2Proof.Machine
end

