-- ==== Sys2Proof/Machine/ChecksumUnit.lean ====
section
/-! DEFINITION. The meanings of CK.* (46_checksum.md); the arithmetic is in Machine/Checksum.lean. -/

namespace Sys2Proof.Machine

/-- CK.INIT (R121). -/
def execCkInit (s : State) : Host.Outcome State Fault Refusal := .next ({ s with ck := ckInitial }.reply .ok)

/-- CK.UPDATE (R122). -/
def execCkUpdate (bytes : List Byte) (s : State) : Host.Outcome State Fault Refusal :=
  .next ({ s with ck := ckFold s.ck bytes }.reply .ok)

/-- CK.DIGEST (R124): the state is not changed. -/
def execCkDigest (s : State) : Host.Outcome State Fault Refusal := .next (s.reply (.value (ckHash s.ck).toNat))

/-- CK.TRUNC22 (R126): a pure function. -/
def execCkTrunc22 (h : U32) (s : State) : Host.Outcome State Fault Refusal := .next (s.reply (.value (ckTrunc h).toNat))

end Sys2Proof.Machine
end

