-- ==== Sys2Proof/Machine/Bitstream.lean ====
section
/-! DEFINITION. The bit-stream writer and reader (40_bitstream.md) and the meanings of BW.* and BR.*. -/

namespace Sys2Proof.Machine

/-! ### Writer -/

/-- R60: `W <- []; ovf <- 0; wcap <- cap`. -/
def writerInit (cap : Nat) : Writer := ⟨Bits.empty, false, cap⟩

/-- `ovf` after a write: it stays set, and is set when the bytes of `W` pass `wcap` (R61). -/
def Writer.put (wr : Writer) (v n : Nat) : Writer :=
  let w := wr.w.append v n
  { wr with w := w, ovf := wr.ovf || decide (wr.wcap < (w.len + 7) / 8) }

/-- BW.ADD (R61), with its assertion on the width. -/
def writerAdd (wr : Writer) (v n : Nat) : Except Stop Writer :=
  if n ≤ 32 then .ok (wr.put v n) else .error (.stuck .widthAssertion)

/-- BW.CLOSE (R63): the end mark, then 0 bits to the byte boundary. -/
def writerClose (wr : Writer) : Writer :=
  let w := wr.w.append 1 1
  let w := w.append 0 ((8 - w.len % 8) % 8)
  { wr with w := w, ovf := wr.ovf || decide (wr.wcap < w.len / 8) }

/-- The bytes of a closed writer (R63). -/
def Writer.bytes (wr : Writer) : List Byte := wr.w.toBytes

/-- The bytes of a closed writer that its capacity takes: the writer never writes a byte beyond `wcap` (R64). -/
def Writer.stored (wr : Writer) : List Byte := wr.bytes.take wr.wcap

/-- Where the writer's bytes start in `PayBuf`: `cap` is PAY_CAP less the `hlen` bytes before them (R60, R63; log 14). A
`cap` above PAY_CAP, for which the spec gives no place, starts at byte 0 (DESIGN CHOICE, log 14). -/
def Writer.base (wr : Writer) : Nat := payCap - wr.wcap

/-! ### Reader -/

/-- BR.INIT (R65). -/
def readerInit (buf : List Byte) : Except Stop Reader :=
  match buf.getLast? with
  | none => .error (.raise .streamEmpty)
  | some last =>
    if last = 0 then .error (.raise .streamNoSentinel)
    else .ok ⟨Bits.ofBytes buf, 8 * (buf.length - 1) + Nat.log2 last.toNat⟩

/-- The `n` bits written last before those already read (R66). -/
def Reader.top (r : Reader) (n : Nat) : Nat := r.w.field (r.p - n) n

/-- BR.READ (R66): on exhaustion `p` is unchanged. -/
def readerRead (r : Reader) (n : Nat) : Except Stop (Nat × Reader) :=
  if r.p < n then .error (.raise .streamExhausted) else .ok (r.top n, { r with p := r.p - n })

/-- BR.PEEK (R67). -/
def readerPeek (r : Reader) (n : Nat) : Except Stop Nat :=
  if r.p < n then .error (.raise .streamExhausted) else .ok (r.top n)

/-- BR.SKIP (R68). -/
def readerSkip (r : Reader) (n : Nat) : Except Stop Reader :=
  if r.p < n then .error (.raise .streamExhausted) else .ok { r with p := r.p - n }

/-! ### Meanings -/

/-- BW.INIT (R60). -/
def execBwInit (cap : Nat) (s : State) : Host.Outcome State Fault Refusal :=
  .next ({ s with work := { s.work with writer := writerInit cap } }.reply .ok)

/-- BW.ADD (R61). -/
def execBwAdd (value : U32) (width : Nat) (s : State) : Host.Outcome State Fault Refusal :=
  unitOutcome s <| (writerAdd s.work.writer value.toNat width).map fun wr =>
    { s with work := { s.work with writer := wr } }.reply .ok

/-- BW.FLUSH (R62): a realisation step with no effect on `W`. -/
def execBwFlush (s : State) : Host.Outcome State Fault Refusal := .next (s.reply .ok)

/-- BW.CLOSE (R63): the bytes go to `PayBuf` after the NCount header, none beyond the capacity (R64; log 14). -/
def execBwClose (s : State) : Host.Outcome State Fault Refusal :=
  let wr := writerClose s.work.writer
  outcome <| (Memory.store payCap s.payBuf wr.base wr.stored).map fun m =>
    { s with work := { s.work with writer := wr }, payBuf := m }.reply (.closed wr.bytes wr.ovf)

/-- BR.INIT (R65). -/
def execBrInit (buf : List Byte) (s : State) : Host.Outcome State Fault Refusal :=
  unitOutcome s <| (readerInit buf).map fun r => { s with work := { s.work with reader := r } }.reply .ok

/-- BR.READ (R66). -/
def execBrRead (n : Nat) (s : State) : Host.Outcome State Fault Refusal :=
  unitOutcome s <| (readerRead s.work.reader n).map fun x =>
    { s with work := { s.work with reader := x.2 } }.reply (.value x.1)

/-- BR.PEEK (R67). -/
def execBrPeek (n : Nat) (s : State) : Host.Outcome State Fault Refusal :=
  unitOutcome s <| (readerPeek s.work.reader n).map fun v => s.reply (.value v)

/-- BR.SKIP (R68). -/
def execBrSkip (n : Nat) (s : State) : Host.Outcome State Fault Refusal :=
  unitOutcome s <| (readerSkip s.work.reader n).map fun r =>
    { s with work := { s.work with reader := r } }.reply .ok

end Sys2Proof.Machine
end

