-- ==== Sys2Proof/Machine/Histogram.lean ====
section
/-! DEFINITION. The histogram (41_histogram.md) and the meaning of HIST.COUNT. -/

namespace Sys2Proof.Machine

/-- One byte counted. -/
def countByte (count : List Nat) (b : Byte) : List Nat := count.set b.toNat (count.getD b.toNat 0 + 1)

/-- `count[0..255]` of a block (R70). -/
def countBytes (src : List Byte) : List Nat := src.foldl countByte (List.replicate 256 0)

/-- The highest symbol with a count, 0 if there is none; symbols are numbered from `s` (R70, R71). -/
def highestSymbol : Nat → List Nat → Nat
  | _, [] => 0
  | s, c :: cs => Nat.max (if c = 0 then 0 else s) (highestSymbol (s + 1) cs)

/-- The largest count (R70). -/
def largestCount (count : List Nat) : Nat := count.foldl Nat.max 0

/-- The outputs of HIST.COUNT without strict checking (R70): for no byte, `msv = 0` and `largest = 0`. -/
def histogram (src : List Byte) : Hist :=
  let count := countBytes src
  ⟨count, highestSymbol 0 count, largestCount count⟩

/-- HIST.COUNT (R70): the registers are written, then strict checking refuses a symbol above the ceiling. -/
def execHistCount (src : List Byte) (n : Nat) (msvIn : Byte) (strict : Bool) (s : State) :
    Host.Outcome State Fault Refusal :=
  let h := histogram (src.take n)
  whenGiven src.length n .memoryUnwritten <|
    if strict && (h.count.drop (msvIn.toNat + 1)).any fun c => c != 0 then
      runOutcome s { s.work with hist := { s.work.hist with count := h.count } } (.error (.raise .argHistRange))
    else runOutcome s { s.work with hist := h } (.ok .ok)

end Sys2Proof.Machine
end

