-- ==== Sys2Proof/Machine/NCount.lean ====
section
/-! DEFINITION. The NCount header codec (43_ncount.md) and the meanings of NC.WRITE and NC.READ. `threshold` is
`2^(nbBits - 1)` throughout (R86), so it is computed from `nbBits` and not held. -/

namespace Sys2Proof.Machine

/-- `while remaining < threshold: nbBits <- nbBits - 1; threshold <- threshold >> 1` (R88, R93). -/
def shrinkBits (remaining : Int) : Nat → Nat
  | 0 => 0
  | nb + 1 => if remaining < 2 ^ nb then shrinkBits remaining nb else nb + 1

/-! ### Writer -/

/-- The writer's running values (R86). -/
structure NWriter where
  h : Bits
  remaining : Int
  nbBits : Nat
  deriving DecidableEq, Repr

/-- `n` codes of `width` one bits each. -/
def appendOnes (h : Bits) (width : Nat) : Nat → Bits
  | 0 => h
  | n + 1 => appendOnes (h.append (2 ^ width - 1) width) width n

/-- The zero run of `z` further zero weights (R87): groups of sixteen 1 bits for 24, codes 3 for 3, one final code. -/
def writeZeroRun (h : Bits) (z : Nat) : Bits :=
  (appendOnes (appendOnes h 16 (z / 24)) 2 (z % 24 / 3)).append (z % 3) 2

/-- The code `c` of a weight after the `max` adjustment, and whether it takes the short width (R88). -/
def weightCode (nbBits : Nat) (remaining w : Int) : Int × Bool :=
  let mx := 2 * 2 ^ (nbBits - 1) - 1 - remaining
  let c := w + 1
  let c := if 2 ^ (nbBits - 1) ≤ c then c + mx else c
  (c, decide (c < mx))

/-- The value `append(H, c, n)` appends for the code of a weight; a weight below -1, which no distribution of
42_normalizer.md R83 has, has a negative code, whose bits R88 does not state: a free value (DESIGN CHOICE, log 28). -/
def codeField (c : Int) (n : Nat) : Nat := if 0 ≤ c then c.toNat else (Config.freeField c n).toNat

/-- The value of a weight (R88). -/
def writeWeight (nw : NWriter) (w : Int) : Except Stop NWriter :=
  let code := weightCode nw.nbBits nw.remaining w
  let remaining := nw.remaining - w.natAbs
  let width := if code.2 then nw.nbBits - 1 else nw.nbBits
  let h := nw.h.append (codeField code.1 width) width
  if remaining < 1 then .error (.raise .argDist) else .ok ⟨h, remaining, shrinkBits remaining nw.nbBits⟩

/-- The loop of R86 over the weights still to be written. `run` is none unless a weight 0 has just been written; then
it counts the zero weights passed since (R87). Ending inside a run, or with `remaining != 1`, is `atEnd`: E_ARG_DIST (R87,
R89), or the fault of naming a weight that is not given (I3). -/
def writeWeights? (atEnd : Stop) : List Int → Option Nat → NWriter → Except Stop NWriter
  | [], _, nw => if nw.remaining = 1 then .ok nw else .error atEnd
  | w :: ws, run, nw =>
    if nw.remaining ≤ 1 then (if nw.remaining = 1 then .ok nw else .error (.raise .argDist))
    else
      match run with
      | some z =>
        if w = 0 then writeWeights? atEnd ws (some (z + 1)) nw
        else
          match writeWeight { nw with h := writeZeroRun nw.h z } w with
          | .error e => .error e
          | .ok nw => writeWeights? atEnd ws none nw
      | none =>
        match writeWeight nw w with
        | .error e => .error e
        | .ok nw => writeWeights? atEnd ws (if w = 0 then some 0 else none) nw

/-- NC.WRITE (R86 to R89): the header's bytes. -/
def ncWrite (norm : List Int) (msv tl : Nat) : Except Stop (List Byte) :=
  if tl < minTableLog ∨ maxTableLog < tl then .error (.raise .argTableLog)
  else
    let atEnd : Stop := if norm.length ≤ msv then .stuck .tableUnwritten else .raise .argDist
    (writeWeights? atEnd (norm.take (msv + 1)) none ⟨Bits.empty.append (tl - 5) 4, 2 ^ tl + 1, tl + 1⟩).map fun nw =>
      nw.h.toBytes

/-! ### Reader -/

/-- `take(n)` at read position `q` (R91): the value and the new position. -/
def takeBits (h : Bits) (q n : Nat) : Except Stop (Nat × Nat) :=
  if h.len < q + n then .error (.raise .ncountOverrun) else .ok (h.field q n, q + n)

/-- The zero-run loop (R92): `n0` and the position after it. A code 3 is never the last, so a run without an end
overruns the payload; `fuel` bounds the codes the payload can hold. -/
def readZeroRun (h : Bits) : Nat → Nat → Nat → Except Stop (Nat × Nat)
  | 0, _, _ => .error (.raise .ncountOverrun)
  | fuel + 1, q, n0 =>
    match takeBits h q 2 with
    | .error e => .error e
    | .ok (code, q) => if code = 3 then readZeroRun h fuel q (n0 + 3) else .ok (n0 + code, q)

/-- The value of a weight (R93): the decoded `v` and the position after it. -/
def readValue (h : Bits) (q nbBits : Nat) (remaining : Int) : Except Stop (Int × Nat) :=
  let mx := 2 * 2 ^ (nbBits - 1) - 1 - remaining
  let low := h.field q (nbBits - 1)
  if (low : Int) < mx then (takeBits h q (nbBits - 1)).map fun x => ((low : Int), x.2)
  else
    (takeBits h q nbBits).map fun x =>
      (if 2 ^ (nbBits - 1) ≤ x.1 then (x.1 : Int) - mx else (x.1 : Int), x.2)

/-- The reader's running values (R91); `norm` holds the weights read so far, so its length is `charnum`. -/
structure NReader where
  q : Nat
  remaining : Int
  nbBits : Nat
  norm : List Int
  prev0 : Bool
  deriving DecidableEq, Repr

/-- The zero run before a value, if one stands there (R92). -/
def readRun (h : Bits) (r : NReader) : Except Stop NReader :=
  if r.prev0 then
    match readZeroRun h (h.len + 1) r.q r.norm.length with
    | .error e => .error e
    | .ok (n0, q) =>
      if 255 < n0 then .error (.raise .ncountSymbol)
      else .ok { r with q := q, norm := r.norm ++ List.replicate (n0 - r.norm.length) 0 }
  else .ok r

/-- What the reader's loop leaves: how it ended, and the running values it ended or was aborted with
(60_exceptions.md R162). -/
structure NReadRun where
  out : Except Stop Unit
  r : NReader

/-- One turn of the loop of R91. -/
def readSymbol (h : Bits) (r : NReader) : NReadRun :=
  match readRun h r with
  | .error e => ⟨.error e, r⟩
  | .ok r =>
    match readValue h r.q r.nbBits r.remaining with
    | .error e => ⟨.error e, r⟩
    | .ok (v, q) =>
      let w := v - 1
      let remaining := r.remaining - w.natAbs
      ⟨.ok (), ⟨q, remaining, shrinkBits remaining r.nbBits, r.norm ++ [w], decide (w = 0)⟩⟩

/-- The loop of R91: each turn reads at least one symbol of the 256. -/
def readSymbols (h : Bits) : Nat → NReader → NReadRun
  | 0, r => ⟨.ok (), r⟩
  | fuel + 1, r =>
    if 1 < r.remaining ∧ r.norm.length ≤ 255 then
      let run := readSymbol h r
      match run.out with
      | .error _ => run
      | .ok _ => readSymbols h fuel run.r
    else ⟨.ok (), r⟩

/-- A header read: `norm[0..msv]`, its table log and its length (R94). -/
structure NHeader where
  norm : List Int
  msv : Nat
  tl : Nat
  hlen : Nat
  deriving DecidableEq, Repr

/-- What NC.READ leaves, ended or aborted: its result, the weights it has written from symbol 0 on, and the table log if
it has written it (R91; 60_exceptions.md R162). -/
structure NCountRun where
  out : Except Stop NHeader
  norm : List Int
  tl : Option Nat

/-- The finish of R94. -/
def readFinish (tl : Nat) (run : NReadRun) : NCountRun where
  norm := run.r.norm
  tl := some tl
  out :=
    match run.out with
    | .error e => .error e
    | .ok _ =>
      if run.r.remaining = 1 then .ok ⟨run.r.norm, run.r.norm.length - 1, tl, (run.r.q + 7) / 8⟩
      else .error (.raise .ncountRemaining)

/-- NC.READ (R91 to R94). `tl` is written before it is tested; a table log above 15, which its register of 4 bits does not
hold (10_state.md R20), leaves a free value there (DESIGN CHOICE, log 12). -/
def ncRead (buf : List Byte) : NCountRun :=
  let h := Bits.ofBytes buf
  match takeBits h 0 4 with
  | .error e => ⟨.error e, [], none⟩
  | .ok (nibble, q) =>
    let tl := nibble + 5
    if maxTableLog < tl then ⟨.error (.raise .ncountTableLog), [], some ((Config.freeTableLog tl).val + 5)⟩
    else readFinish tl (readSymbols h 256 ⟨q, 2 ^ tl + 1, tl + 1, [], false⟩)

/-- The register file `norm[0..255]` after NC.READ: entries from `charnum` up are 0 (R91), also when it raises an error
(log 12). -/
def readWeights (norm : List Int) : List Int := norm ++ List.replicate (256 - norm.length) 0

/-- The working state after NC.READ. -/
def NCountRun.leave (run : NCountRun) (w : Work) : Work :=
  { w with norm := readWeights run.norm, tl := run.tl.getD w.tl }

/-! ### Meanings -/

/-- NC.WRITE (R86 to R89): the header goes to `PayBuf` bytes `0..hlen-1`. -/
def execNcWrite (norm : List Int) (msv tl : Nat) (s : State) : Host.Outcome State Fault Refusal :=
  match ncWrite norm msv tl with
  | .error e => unitOutcome s (.error e)
  | .ok bytes =>
    outcome <| (Memory.store payCap s.payBuf 0 bytes).map fun m => { s with payBuf := m }.reply (.bytes bytes)

/-- NC.READ (R91 to R94): it writes `norm[0..255]` and `tl`. -/
def execNcRead (buf : List Byte) (s : State) : Host.Outcome State Fault Refusal :=
  let run := ncRead buf
  runOutcome s (run.leave s.work) (run.out.map fun d => .header d.msv d.hlen)

end Sys2Proof.Machine
end

