-- ==== Sys2Proof/Machine/Normalizer.lean ====
section
/-! DEFINITION. The normalizer (42_normalizer.md) and the meanings of NORM.*. The arithmetic is on mathematical
integers (00_scope.md R6). -/

namespace Sys2Proof.Machine

/-! ### Table-log choice -/

/-- NORM.MINLOG (R75). -/
def minLog (n msv : Nat) : Except Stop Nat := do
  let a ← highbit n
  let b ← highbit msv
  .ok (min (a + 1) (b + 2))

/-- The size limit of NORM.OPTLOG: `(highbit((n-1) mod 2^32) - 2) mod 2^32` (R76). -/
def maxBitsSrc (n : Nat) : Except Stop Nat := do
  let h ← highbit ((n - 1) % 2 ^ 32)
  .ok ((h + 2 ^ 32 - 2) % 2 ^ 32)

/-- NORM.OPTLOG (R76): the requested log, cut by the size limit, raised to the minimum, clamped to 5..15. -/
def optLog (req n msv : Nat) : Except Stop Nat := do
  let lim ← maxBitsSrc n
  let minTl ← minLog n msv
  let tl := if req = 0 then defaultTableLog else req
  let tl := if lim < tl then lim else tl
  let tl := if tl < minTl then minTl else tl
  let tl := if tl < minTableLog then minTableLog else tl
  .ok (if maxTableLog < tl then maxTableLog else tl)

/-! ### Argument checks -/

/-- `if tl = 0: tl <- 11` (R77). -/
def effectiveLog (tl : Nat) : Nat := if tl = 0 then defaultTableLog else tl

/-- The checks of R77, in their order. The third compares with NORM.MINLOG, which has no value for `msv = 0`
(`highbit(0)`): for the block of repeated symbol 0, where R82 says a model still returns RLE, it is passed (DESIGN
CHOICE, log 26); for any other count, the empty block's `[0]` too, it faults (I4). -/
def checkLog (count : List Nat) (total msv tl : Nat) : Except Stop Unit := do
  if tl < minTableLog then .error (.raise .argTableLog)
  else if maxTableLog < tl then .error (.raise .argTableLog)
  else if msv = 0 ∧ 0 < total ∧ count = [total] then .ok ()
  else
    let m ← minLog total msv
    if tl < m then .error (.raise .argTableLog) else .ok ()

/-! ### Primary method -/

/-- `step = 2^62 // total` (R79). -/
def normStep (total : Nat) : Nat := 2 ^ 62 / total

/-- The rounded weight of a count above the threshold (R79). -/
def scaledWeight (tl total c : Nat) : Nat :=
  let scale := 62 - tl
  let proba := c * normStep total / 2 ^ scale
  if proba < 8 ∧ 2 ^ (scale - 20) * rtbTable.getD proba 0 < c * normStep total - proba * 2 ^ scale then proba + 1
  else proba

/-- The free weight of 10_state.md R20's range that `norm[s]` holds where its value is open (DESIGN CHOICE, logs 12 and 27). -/
def openWeight (tl total s c : Nat) (w : Int) : Int := ((Config.freeWeight tl total s c w).val : Int) - 1

/-- What `norm[s]` holds once `w` is written to it: an `s16` (R20) or the `2^15` of log 19 as it is, for any other `w` a free
value. `c` is the symbol's count. -/
def heldWeight (tl total s c : Nat) (w : Int) : Int :=
  if -32768 ≤ w ∧ w ≤ 32768 then w else openWeight tl total s c w

/-- The running values of the primary method's loop (R79). -/
structure Primary where
  norm : List Int
  still : Int
  largest : Nat
  largestP : Nat
  deriving DecidableEq, Repr

/-- One symbol of the loop of R79 that is not the whole block. -/
def primaryStep (tl total s c : Nat) (p : Primary) : Primary :=
  if c = 0 then { p with norm := p.norm ++ [0] }
  else if c ≤ total / 2 ^ tl then { p with norm := p.norm ++ [-1], still := p.still - 1 }
  else
    let w := scaledWeight tl total c
    { norm := p.norm ++ [heldWeight tl total s c w], still := p.still - w
      largest := if p.largestP < w then s else p.largest
      largestP := if p.largestP < w then w else p.largestP }

/-- The loop of R79 from symbol `s` on; `Sum.inl` is the RLE signal with what was written before it (R82). -/
def primaryLoop (tl total : Nat) : Nat → List Nat → Primary → List Int ⊕ Primary
  | _, [], p => .inr p
  | s, c :: cs, p =>
    if c = total then .inl p.norm else primaryLoop tl total (s + 1) cs (primaryStep tl total s c p)

/-! ### Fallback method NORM.M2 (R81) -/

/-- What a method of the normalizer leaves: how it ended, and the weights it has written from symbol 0 on, ended or
aborted (60_exceptions.md R162). -/
structure WeightRun where
  out : Except Stop Unit
  norm : List Int

/-- The weights inside R81: none is its mark `NYA`, not yet assigned, "a value that never leaves this rule". -/
abbrev Marked := List (Option Int)

/-- What the rule leaves inside: how it ended, and its weights. -/
structure M2Run where
  out : Except Stop Unit
  norm : Marked

/-- The weights of the first pass. -/
def m2First (low lowOne : Nat) (count : List Nat) : Marked :=
  count.map fun c => if c = 0 then some 0 else if c ≤ low then some (-1) else if c ≤ lowOne then some 1 else none

/-- The second pass: an unassigned symbol of small count gets 1. -/
def m2Second (lowOne : Int) (count : List Nat) (norm : Marked) : Marked :=
  List.zipWith (fun (c : Nat) w => if w = none ∧ (c : Int) ≤ lowOne then some 1 else w) count norm

/-- `distributed`: the symbols given -1 or 1. -/
def m2Distributed (norm : Marked) : Nat := (norm.filter fun w => w = some (-1) ∨ w = some 1).length

/-- The counts of the symbols given -1 or 1. -/
def m2Assigned (count : List Nat) (norm : Marked) : Nat :=
  ((count.zip norm).filter fun p => p.2 = some (-1) ∨ p.2 = some 1).foldl (fun a p => a + p.1) 0

/-- The reduced `total`: the counts of the assigned symbols taken off. -/
def m2Left (total : Nat) (count : List Nat) (norm : Marked) : Int := total - m2Assigned count norm

/-- `ToDist`: the slots no assigned symbol has taken. -/
def m2ToDist (tl : Nat) (norm : Marked) : Int := 2 ^ tl - m2Distributed norm

/-- `norm[s]` raised by `n`, if it is assigned. -/
def raiseWeight (n : Int) (w : Option Int) : Option Int := w.map (· + n)

/-- One round of the round-robin: 1 more for each positive weight while slots are left. -/
def m2Round : Nat → Marked → Marked × Nat
  | left, [] => ([], left)
  | left, w :: ws =>
    if 0 < left ∧ 0 < w.getD 0 then
      let r := m2Round (left - 1) ws
      (raiseWeight 1 w :: r.1, r.2)
    else
      let r := m2Round left ws
      (w :: r.1, r.2)

/-- The `while ToDist > 0` loop of the `total = 0` branch. Without a positive weight, which only `total = 0` from the start
gives, it does not end and R81 states no weight: none is assigned (DESIGN CHOICE, log 27). -/
def m2RoundRobin : Nat → Nat → Marked → Marked
  | _, 0, norm => norm
  | 0, _ + 1, norm => norm.map fun _ => none
  | fuel + 1, left + 1, norm =>
    let r := m2Round (left + 1) norm
    m2RoundRobin fuel r.2 r.1

/-- The proportional loop: the cumulative sum `acc` in units of `2^vsl`. Where it raises E_NORMALIZE the symbol and those
after it keep what they held. -/
def m2Share (vsl : Nat) (rStep : Int) : Int → List Nat → Marked → M2Run
  | acc, c :: cs, w :: ws =>
    if w = none then
      let fin := acc + c * rStep
      let share := shiftRight fin vsl - shiftRight acc vsl
      if share < 1 then ⟨.error (.raise .normalize), w :: ws⟩
      else
        let run := m2Share vsl rStep fin cs ws
        { run with norm := some share :: run.norm }
    else
      let run := m2Share vsl rStep acc cs ws
      { run with norm := w :: run.norm }
  | _, _, norm => ⟨.ok (), norm⟩

/-- The three endings of R81, once both passes are done. -/
def m2Finish (tl msv : Nat) (toDist total : Int) (count : List Nat) (norm : Marked) : M2Run :=
  if m2Distributed norm = msv + 1 then
    ⟨.ok (), norm.modify (count.idxOf (count.foldl Nat.max 0)) (raiseWeight toDist)⟩
  else if total = 0 then ⟨.ok (), m2RoundRobin toDist.toNat toDist.toNat norm⟩
  else
    let vsl := 62 - tl
    let mid : Int := 2 ^ (vsl - 1) - 1
    m2Share vsl (quotient (2 ^ vsl * toDist + mid) total) mid count norm

/-- The body of R81, on `ToDist` and the reduced `total` as integers: more assigned symbols than slots, or counts above
`total`, make them negative. -/
def m2Body (tl : Nat) (count : List Nat) (total msv : Nat) : M2Run :=
  let lowOne := total * 3 / 2 ^ (tl + 1)
  let norm := m2First (total / 2 ^ tl) lowOne count
  let toDist := m2ToDist tl norm
  let left := m2Left total count norm
  if toDist = 0 then ⟨.ok (), norm⟩
  else if lowOne < quotient left toDist then
    let norm := m2Second (quotient (left * 3) (toDist * 2)) count norm
    m2Finish tl msv (m2ToDist tl norm) (m2Left total count norm) count norm
  else m2Finish tl msv toDist left count norm

/-- What the registers from symbol `s` on hold once R81 has ended or raised, given the symbols' counts: a symbol it has not
assigned holds a free value, since its mark -2 never leaves the rule (DESIGN CHOICE, logs 12 and 27). -/
def heldWeights (tl total : Nat) : Nat → List Nat → Marked → List Int
  | s, c :: cs, w :: ws =>
    (match w with
      | some w => heldWeight tl total s c w
      | none => openWeight tl total s c (-2)) :: heldWeights tl total (s + 1) cs ws
  | _, _, _ => []

/-- NORM.M2 (R81). -/
def normM2 (tl : Nat) (count : List Nat) (total msv : Nat) : WeightRun :=
  let run := m2Body tl count total msv
  ⟨run.out, heldWeights tl total 0 count run.norm⟩

/-! ### Normalize -/

/-- What NORM.NORMALIZE returns: a distribution, or the RLE signal (R82). -/
inductive NormOut where
  | dist
  | rle
  deriving DecidableEq, Repr

/-- What NORM.NORMALIZE leaves once its argument checks have passed: how it ended, and the weights it has written from
symbol 0 on (R79, R81, R82; 60_exceptions.md R162). -/
structure NormRun where
  out : Except Stop NormOut
  norm : List Int

/-- The residual test of R80. Its shift is "on the non-negative weight"; of the -1 that counts of another sum than `total`
can leave there it is a free value (log 27). -/
def residual (tl : Nat) (count : List Nat) (total msv : Nat) (p : Primary) : WeightRun :=
  let w := p.norm.getD p.largest 0
  if shiftRight w 1 ≤ -p.still then normM2 tl count total msv
  else
    ⟨.ok (), p.norm.set p.largest (heldWeight tl total p.largest (count.getD p.largest 0) (w + p.still))⟩

/-- NORM.NORMALIZE (R77 to R82) on `count[0..msv]`: an error of its argument checks, made before anything is written, or
its run. A count that is not given is not written, and the loop that names it faults (I3). -/
def normalize (count : List Nat) (total msv tl : Nat) : Except Stop NormRun := do
  let tl := effectiveLog tl
  let count := count.take (msv + 1)
  checkLog count total msv tl
  match primaryLoop tl total 0 count ⟨[], 2 ^ tl, 0, 0⟩ with
  | .inl written => .ok ⟨.ok .rle, written⟩
  | .inr p =>
    if count.length ≤ msv then .error (.stuck .tableUnwritten)
    else
      let run := residual tl count total msv p
      .ok ⟨run.out.map fun _ => .dist, run.norm⟩

/-- A weight register file after `norm[0..]` is written from symbol 0: the registers beyond keep what they hold. -/
def writeWeights (old new : List Int) : List Int := new ++ old.drop new.length

/-! ### Meanings -/

/-- NORM.MINLOG (R75): a pure function. -/
def execNormMinlog (n msv : Nat) (s : State) : Host.Outcome State Fault Refusal :=
  unitOutcome s <| (minLog n msv).map fun v => s.reply (.value v)

/-- NORM.OPTLOG (R76): it writes `tl`. -/
def execNormOptlog (req n msv : Nat) (s : State) : Host.Outcome State Fault Refusal :=
  unitOutcome s <| (optLog req n msv).map fun v => { s with work := { s.work with tl := v } }.reply (.value v)

/-- NORM.NORMALIZE (R77 to R82): it writes `norm[0..msv]` and `tl`. -/
def execNormNormalize (count : List Nat) (total msv tl : Nat) (s : State) : Host.Outcome State Fault Refusal :=
  match normalize count total msv tl with
  | .error e => unitOutcome s (.error e)
  | .ok run =>
    runOutcome s { s.work with norm := writeWeights s.work.norm run.norm, tl := effectiveLog tl } <|
      run.out.map fun
        | .dist => .ok
        | .rle => .rleSignal

/-- NORM.M2 (R81): it writes `norm[0..msv]`. On counts with one present symbol it gives that symbol all `2^tl` slots, which
at `tl = 15` is a weight outside the s16 of 10_state.md R20; it is held whole (DEDUCED, log 19). -/
def execNormM2 (tl : Nat) (count : List Nat) (total msv : Nat) (s : State) : Host.Outcome State Fault Refusal :=
  whenGiven count.length (msv + 1) .tableUnwritten <|
    let run := normM2 tl (count.take (msv + 1)) total msv
    runOutcome s { s.work with norm := writeWeights s.work.norm run.norm } (run.out.map fun _ => .ok)

end Sys2Proof.Machine
end

