-- ==== Sys2Proof/Machine/Tables.lean ====
section
/-! DEFINITION. The table builders (44_tables.md) and the meanings of TB.*. -/

namespace Sys2Proof.Machine

/-! ### Spread -/

/-- `step(T) = (T >> 1) + (T >> 3) + 3` (R95). -/
def spreadStep (tl : Nat) : Nat := 2 ^ tl / 2 + 2 ^ tl / 8 + 3

/-- The low-probability symbols in order; they take the slots from the top downward (R96). -/
def lowSymbols (norm : List Int) : List Byte :=
  ((List.range norm.length).filter fun s => norm.getD s 0 = -1).map symbolOf

/-- Each symbol of positive weight as often as its weight, in symbol order (R96). -/
def placedSymbols (norm : List Int) : List Byte :=
  (List.range norm.length).flatMap fun s => List.replicate (norm.getD s 0).toNat (symbolOf s)

/-- The position after `pos`: one move, then more while it is above `high`, that is not below `lim = high + 1`. The
walk visits every slot in `T` moves (R95), so more moves than that never end: none. -/
def nextPos? (tl lim : Nat) : Nat → Nat → Option Nat
  | 0, _ => none
  | fuel + 1, pos =>
    let pos := (pos + spreadStep tl) % 2 ^ tl
    if pos < lim then some pos else nextPos? tl lim fuel pos

/-- The position after `pos` with `left` symbols still to place. Where the reserved slots fill the table (`lim = 0`), which
no distribution of 42_normalizer.md R83 with a positive weight does, the walk of R96 does not end and the position is a
free slot (DESIGN CHOICE, log 27). -/
def nextPos (tl lim pos left : Nat) : Nat :=
  match nextPos? tl lim (2 ^ tl) pos with
  | some pos => pos
  | none => (Config.freeSlot tl pos left).toNat % 2 ^ tl

/-- The placements of the second loop of R96 from `pos` on, and the position after them. -/
def placeSymbols (tl lim : Nat) : List Byte → Nat → List (Nat × Byte) × Nat
  | [], pos => ([], pos)
  | s :: rest, pos =>
    let r := placeSymbols tl lim rest (nextPos tl lim pos rest.length)
    ((pos, s) :: r.1, r.2)

/-- The placements of the low-probability symbols from slot `high` downward (R96). -/
def placeLow : Nat → List Byte → List (Nat × Byte)
  | _, [] => []
  | high, s :: rest => (high, s) :: placeLow (high - 1) rest

/-- What a table builder leaves: its result, and `tableSymbol` as it has written it, ended or aborted
(60_exceptions.md R162). -/
structure TableRun (α : Type) where
  out : Except Stop α
  table : List (Option Byte)

/-- TB.SPREAD (R96) on `norm[0..msv]`, over what `tableSymbol` held: its last check comes after its placements, and a slot
it does not place keeps what it held (log 18). More low-probability symbols than slots would be placed below slot 0,
which does not exist. -/
def spread (old : List (Option Byte)) (norm : List Int) (msv tl : Nat) : TableRun Unit :=
  let norm := norm.take (msv + 1)
  let low := lowSymbols norm
  if 2 ^ tl < low.length then ⟨.error (.stuck .memoryRange), old⟩
  else
    let placed := placeSymbols tl (2 ^ tl - low.length) (placedSymbols norm) 0
    match ramWrite tl old (placeLow (2 ^ tl - 1) low ++ placed.1) with
    | .error e => ⟨.error e, old⟩
    | .ok table => ⟨if placed.2 = 0 then .ok () else .error (.raise .tableSpread), table⟩

/-! ### Encode table -/

/-- `cumul[0..msv]` from a running sum (R98). -/
def runningSlots : Nat → List Int → List Nat
  | _, [] => []
  | acc, w :: ws => acc :: runningSlots (acc + slots w) ws

/-- `cumul[0..msv+1]`: the starts, then the end marker `T + 1` (R98). -/
def cumulStarts (tl : Nat) (norm : List Int) : List Nat := runningSlots 0 norm ++ [2 ^ tl + 1]

/-- The symbols of the slots of `tableSymbol` in order; an unwritten slot faults (I3). -/
def readSlots : List (Option Byte) → Except Stop (List Byte)
  | [] => .ok []
  | some s :: rest => (readSlots rest).map (s :: ·)
  | none :: _ => .error (.stuck .tableUnwritten)

/-- The writes of R99: slot `u` of symbol `s` goes to `next[s]`, which then moves on. A symbol above `msv + 1` has no
`next`: the cell is not written, and reading it faults (I3). -/
def stateWrites (tl : Nat) : Nat → List Byte → List Nat → Except Stop (List (Nat × Nat))
  | _, [], _ => .ok []
  | u, s :: rest, next =>
    match cell next s.toNat with
    | .error e => .error e
    | .ok x => (stateWrites tl (u + 1) rest (next.set s.toNat (x + 1))).map fun ws => (x, 2 ^ tl + u) :: ws

/-- `deltaNbBits` of a weight `w >= 2` (R100). A weight above `2^(tl+1)`, which no distribution of 42_normalizer.md R83
has, makes `mbo` negative, and the rule's shift by it has no value: a free value (DESIGN CHOICE, log 25). -/
def deltaNbBitsOf (tl w : Nat) : U32 :=
  if Nat.log2 (w - 1) ≤ tl then
    let mbo := tl - Nat.log2 (w - 1)
    BitVec.ofInt 32 (mbo * 2 ^ 16 - w * 2 ^ mbo)
  else Config.freeDeltaNbBits tl w

/-- `deltaFindState` of a weight below -1: a free value in `[-T, T)` (10_state.md R21). -/
def freeFindState (tl : Nat) (w : Int) : Int :=
  (((Config.freeDeltaFindState tl w).toNat % 2 ^ (tl + 1) : Nat) : Int) - 2 ^ tl

/-- One row of R100, at running total `total`. For a weight below -1, which no distribution of 42_normalizer.md R83 has, it
has no row: both values are free (DESIGN CHOICE, log 28). -/
def symbolTransform (tl total : Nat) (w : Int) : SymbolTT :=
  if w = 0 then ⟨BitVec.ofInt 32 ((tl + 1) * 2 ^ 16 - 2 ^ tl), none⟩
  else if w = -1 ∨ w = 1 then ⟨BitVec.ofInt 32 (tl * 2 ^ 16 - 2 ^ tl), some (total - 1)⟩
  else if w < -1 then ⟨Config.freeDeltaNbBits tl w, some (freeFindState tl w)⟩
  else ⟨deltaNbBitsOf tl w.toNat, some (total - w)⟩

/-- `symbolTT[0..msv]` (R100). -/
def symbolTransforms (tl : Nat) : Nat → List Int → List SymbolTT
  | _, [] => []
  | total, w :: ws => symbolTransform tl total w :: symbolTransforms tl (total + slots w) ws

/-- The encode table from a spread `tableSymbol`, over what `stateTable` held (R98 to R100). What `cumul` and `symbolTT` held
above the new `msv` is dropped (DESIGN CHOICE, log 18). -/
def ctableOf (old : List (Option Nat)) (table : List (Option Byte)) (norm : List Int) (msv tl : Nat) :
    Except Stop CTable := do
  let norm := norm.take (msv + 1)
  let cumul := cumulStarts tl norm
  let slots ← readSlots table
  let ws ← stateWrites tl 0 slots cumul
  let stateTable ← ramWrite tl old ws
  .ok ⟨tl, msv, cumul, stateTable, symbolTransforms tl 0 norm⟩

/-- TB.CTABLE (R101): `tableSymbol` and the encode table. -/
def buildCTable (oldTable : List (Option Byte)) (oldState : List (Option Nat)) (norm : List Int) (msv tl : Nat) :
    TableRun CTable :=
  let run := spread oldTable norm msv tl
  { run with out := run.out.bind fun _ => ctableOf oldState run.table norm msv tl }

/-! ### Decode table -/

/-- The entry of a slot whose symbol has `symbolNext = x` (R102). An `x` of `2^(tl+1)` or more, which no distribution of
42_normalizer.md R83 gives, makes `nb` negative, and the rule's shift by it has no value: `nbBits` and `newState` are
free values (DESIGN CHOICE, log 25). -/
def decodeEntry (tl x : Nat) (s : Byte) : Except Stop DEntry := do
  let h ← highbit x
  if h ≤ tl then .ok ⟨s, tl - h, x * 2 ^ (tl - h) - 2 ^ tl⟩
  else .ok ⟨s, (Config.freeNbBits tl x).toNat, (Config.freeNewState tl x).toNat⟩

/-- `symbolNext[s]` at the start of R102; of a weight below -1 a free value, since the register is not negative (10_state.md
R22; DESIGN CHOICE, log 28). -/
def firstNext (w : Int) : Nat := if w < -1 then (Config.freeSymbolNext w).toNat else slots w

/-- The loop of R102 over the slots; the second result is `symbolNext` after it. A `symbolNext` that passes the 17 bits of
10_state.md R22, which only a weight below -1 with slots left from an older table can bring about, is held whole (DESIGN
CHOICE, log 28). -/
def decodeEntries (tl : Nat) : List Byte → List Nat → Except Stop (List DEntry × List Nat)
  | [], next => .ok ([], next)
  | s :: rest, next =>
    match cell next s.toNat with
    | .error e => .error e
    | .ok x =>
      match decodeEntry tl x s with
      | .error e => .error e
      | .ok entry =>
        match decodeEntries tl rest (next.set s.toNat (x + 1)) with
        | .error e => .error e
        | .ok (es, next) => .ok (entry :: es, next)

/-- The decode table from a spread `tableSymbol` (R102). What `symbolNext` held above the new `msv` is dropped (DESIGN CHOICE,
log 18). -/
def dtableOf (table : List (Option Byte)) (norm : List Int) (msv tl : Nat) : Except Stop DTable := do
  let slotSymbols ← readSlots table
  let (entries, next) ← decodeEntries tl slotSymbols ((norm.take (msv + 1)).map firstNext)
  .ok ⟨entries, next⟩

/-- TB.DTABLE (R104): `tableSymbol` and the decode table. -/
def buildDTable (old : List (Option Byte)) (norm : List Int) (msv tl : Nat) : TableRun DTable :=
  let run := spread old norm msv tl
  { run with out := run.out.bind fun _ => dtableOf run.table norm msv tl }

/-! ### Meanings -/

/-- A table builder's outcome: `tableSymbol` as it has written it, and its table where it ends. -/
def tableOutcome {α : Type} (s : State) (norm : List Int) (msv : Nat) (run : TableRun α) (leave : Work → α → Work) :
    Host.Outcome State Fault Refusal :=
  whenGiven norm.length (msv + 1) .tableUnwritten <|
    let w := { s.work with tableSymbol := run.table }
    match run.out with
    | .ok x => runOutcome s (leave w x) (.ok .ok)
    | .error e => runOutcome s w (.error e)

/-- TB.SPREAD (R96): it writes `tableSymbol`. -/
def execTbSpread (norm : List Int) (msv tl : Nat) (s : State) : Host.Outcome State Fault Refusal :=
  tableOutcome s norm msv (spread s.work.tableSymbol norm msv tl) fun w _ => w

/-- TB.CTABLE (R101): it writes the encode-table RAM. -/
def execTbCtable (norm : List Int) (msv tl : Nat) (s : State) : Host.Outcome State Fault Refusal :=
  tableOutcome s norm msv (buildCTable s.work.tableSymbol s.work.ct.stateTable norm msv tl) fun w ct => { w with ct := ct }

/-- TB.DTABLE (R104): it writes the decode-table RAM, and `tableSymbol` through its spread. -/
def execTbDtable (norm : List Int) (msv tl : Nat) (s : State) : Host.Outcome State Fault Refusal :=
  tableOutcome s norm msv (buildDTable s.work.tableSymbol norm msv tl) fun w dt => { w with dt := dt }

end Sys2Proof.Machine
end

