-- ==== Sys2Proof/Machine/BlockCodec.lean ====
section
/-! DEFINITION. The block codec (45_block_codec.md): the two-state encode and decode loops, the Raw/Rle dispatcher, and
the meanings of FSE.* and BC.*. -/

namespace Sys2Proof.Machine

/-! ### Encoder -/

/-- FSE.INITC (R105): `T` plus the lowest slot that holds the symbol; an unwritten slot holds none. -/
def initCState (tl : Nat) (table : List (Option Byte)) (s : Byte) : Except Stop Nat :=
  if some s ∈ table then .ok (2 ^ tl + table.idxOf (some s)) else .error (.stuck .absentSymbol)

/-- The two 16-bit state values `V[0]`, `V[1]` (or `S[0]`, `S[1]`) of a loop. -/
structure Pair where
  x0 : Nat
  x1 : Nat
  deriving DecidableEq, Repr

/-- Element `i mod 2`. -/
def Pair.at (p : Pair) (i : Nat) : Nat := if i % 2 = 0 then p.x0 else p.x1

/-- Assignment to element `i mod 2`. -/
def Pair.put (p : Pair) (i x : Nat) : Pair := if i % 2 = 0 then { p with x0 := x } else { p with x1 := x }

/-- `nb = ((V + deltaNbBits) mod 2^32) >> 16` (R106). -/
def encodeBits (tt : SymbolTT) (v : Nat) : Nat := (v + tt.deltaNbBits.toNat) % 2 ^ 32 / 2 ^ 16

/-- FSE.ENCSYM (R106): the low `nb` bits of `V` are written, and `V' = stateTable[(V >> nb) + deltaFindState]`. -/
def encodeSymbol (ct : CTable) (wr : Writer) (v : Nat) (s : Byte) : Except Stop (Nat × Writer) := do
  let tt ← cell ct.symbolTT s.toNat
  match tt.deltaFindState with
  | none => .error (.stuck .absentSymbol)
  | some dfs =>
    let nb := encodeBits tt v
    let wr ← writerAdd wr v nb
    let i : Int := (v / 2 ^ nb : Nat) + dfs
    if i < 0 then .error (.stuck .tableUnwritten)
    else
      let v' ← ramCell ct.stateTable i.toNat
      .ok (v', wr)

/-- The loop of R108 over the positions `i, i-1, .., 0`, given their symbols in that order. -/
def encodeLoop (ct : CTable) : List Byte → Nat → Pair → Writer → Except Stop (Pair × Writer)
  | [], _, v, wr => .ok (v, wr)
  | s :: rest, i, v, wr =>
    match encodeSymbol ct wr (v.at i) s with
    | .error e => .error e
    | .ok (x, wr) => encodeLoop ct rest (i - 1) (v.put i x) wr

/-- The state value that the symbol of a position of the block seeds (R108). A block of fewer than two symbols, below the
three of R108, has no symbol for one state or for both: a free value in `[T, 2T)` (DESIGN CHOICE, log 27). `j` is the
state's index. -/
def seedState (tl : Nat) (table : List (Option Byte)) (n j : Nat) : Option Byte → Except Stop Nat
  | some s => initCState tl table s
  | none => .ok (2 ^ tl + (Config.freeState tl n j).toNat % 2 ^ tl)

/-- FSE.ENCODE (R108): the last two symbols seed the states, the others are coded backward, then state 1 and state 0
are flushed and the writer is closed. `n + 1` and `n` are `n - 1` and `n - 2` modulo 2. -/
def encodeBlock (src : List Byte) (table : List (Option Byte)) (ct : CTable) (cap : Nat) : Except Stop (Pair × Writer) := do
  let n := src.length
  let backward := src.reverse
  let va ← seedState ct.tl table n ((n + 1) % 2) backward[0]?
  let vb ← seedState ct.tl table n (n % 2) backward[1]?
  let v := ((Pair.mk 0 0).put (n + 1) va).put n vb
  let (v, wr) ← encodeLoop ct (backward.drop 2) (n - 3) v (writerInit cap)
  let wr ← writerAdd wr v.x1 ct.tl
  let wr ← writerAdd wr v.x0 ct.tl
  .ok (v, writerClose wr)

/-! ### Decoder -/

/-- FSE.DECSYM (R110): the symbol and the new state. -/
def decodeSymbol (dt : DTable) (r : Reader) (st : Nat) (update : Bool) : Except Stop (Byte × Nat × Reader) := do
  let e ← cell dt.entries st
  if update then
    let (v, r) ← readerRead r e.nbBits
    .ok (e.symbol, e.newState + v, r)
  else .ok (e.symbol, st, r)

/-- A decode loop's result with the states and the reader as it leaves them, ended or aborted (60_exceptions.md R162:
"left as the failing operation left it"). -/
structure DecodeRun where
  out : Except Stop (List Byte)
  st : Pair
  reader : Reader

/-- The loop of R111 with `m` symbols still to come, from position `i`; `update` unless it is one of the last two. -/
def decodeLoop (dt : DTable) : Nat → Nat → Pair → Reader → DecodeRun
  | 0, _, st, r => ⟨.ok [], st, r⟩
  | m + 1, i, st, r =>
    match decodeSymbol dt r (st.at i) (decide (2 ≤ m)) with
    | .error e => ⟨.error e, st, r⟩
    | .ok (b, x, r) =>
      let run := decodeLoop dt m (i + 1) (st.put i x) r
      { run with out := run.out.map (b :: ·) }

/-- The strict tail test of R111. -/
def tailTest (strictTail : Bool) (run : DecodeRun) : DecodeRun :=
  match run.out with
  | .error _ => run
  | .ok _ => if strictTail && decide (run.reader.p ≠ 0) then { run with out := .error (.raise .streamTail) } else run

/-- FSE.DECODE (R111, R112): state 0 is read first, then state 1, then exactly `n` symbols. `st` and `r` are the
registers before it. A `tl` above 15, which no decoder gives, would be held whole in `S` (log 19). -/
def decodeBlockBits (buf : List Byte) (dt : DTable) (tl n : Nat) (strictTail : Bool) (st : Pair) (r : Reader) : DecodeRun :=
  match readerInit buf with
  | .error e => ⟨.error e, st, r⟩
  | .ok r =>
    match readerRead r tl with
    | .error e => ⟨.error e, st, r⟩
    | .ok (s0, r) =>
      let st := { st with x0 := s0 }
      match readerRead r tl with
      | .error e => ⟨.error e, st, r⟩
      | .ok (s1, r) => tailTest strictTail (decodeLoop dt n 0 { st with x1 := s1 } r)

/-! ### Dispatcher -/

/-- What BC.COMPRESS leaves: its result, the working state, and the bytes it put into `PayBuf` from offset 0. -/
structure CompressRun where
  out : Except Stop BlockResult
  work : Work
  pay : List Byte

/-- The size test of R115. -/
def sizeTest (n : Nat) (hdr : List Byte) (wr : Writer) : BlockResult :=
  if wr.ovf = true ∨ n - 1 ≤ hdr.length + wr.bytes.length then .raw else .cmp (hdr ++ wr.bytes)

/-- The part of R113 after the gates, on a block whose histogram is taken: table log, distribution, header, table, body. -/
def codeBlock (src : List Byte) (tlReq : Nat) (w : Work) : CompressRun :=
  let n := src.length
  match optLog tlReq n w.hist.msv with
  | .error e => ⟨.error e, w, []⟩
  | .ok tl =>
    let w := { w with tl := tl }
    match normalize w.hist.count n w.hist.msv tl with
    | .error e => ⟨.error e, w, []⟩
    | .ok run =>
      let w := { w with norm := writeWeights w.norm run.norm }
      match run.out with
      | .error e => ⟨.error e, w, []⟩
      | .ok .rle => ⟨.error (.stuck .unitArgument), w, []⟩
      | .ok .dist =>
        match ncWrite run.norm w.hist.msv tl with
        | .error e => ⟨.error e, w, []⟩
        | .ok hdr =>
          let build := buildCTable w.tableSymbol w.ct.stateTable run.norm w.hist.msv tl
          let w := { w with tableSymbol := build.table }
          match build.out with
          | .error e => ⟨.error e, w, hdr⟩
          | .ok ct =>
            let w := { w with ct := ct }
            match encodeBlock src w.tableSymbol ct (payCap - hdr.length) with
            | .error e => ⟨.error e, w, hdr⟩
            | .ok (v, wr) =>
              ⟨.ok (sizeTest n hdr wr), { w with v0 := v.x0, v1 := v.x1, writer := wr }, hdr ++ wr.stored⟩

/-- BC.COMPRESS (R113): the working state is unwritten at the start of the block (10_state.md R19 to R25). A block of no
byte, which the container never codes, has no `src[0]`: a free value (DESIGN CHOICE, log 27). -/
def compressBlock (src : List Byte) (tlReq : Nat) (oneByteRle : Bool) : CompressRun :=
  let n := src.length
  let h := histogram src
  let w := { Work.unwritten with hist := h }
  if h.largest = n ∧ (1 < n ∨ oneByteRle = true) then
    ⟨.ok (.rle (src.headD (Config.freeFirstByte tlReq))), w, []⟩
  else if n ≤ 2 then ⟨.ok .raw, w, []⟩
  else if h.largest = 1 then ⟨.ok .raw, w, []⟩
  else if 128 * h.largest < n then ⟨.ok .raw, w, []⟩
  else codeBlock src tlReq w

/-- What BC.DECOMPRESS leaves: its result and the working state. -/
structure DecompressRun where
  out : Except Stop (List Byte)
  work : Work

/-- BC.DECOMPRESS (R116): NCount header, decode table, decode loop, on working state that is unwritten at the start of
the block (10_state.md R20 to R25). -/
def decompressBlock (payload : List Byte) (rawSize : Nat) (strictTail : Bool) : DecompressRun :=
  let header := ncRead payload
  let w := header.leave Work.unwritten
  match header.out with
  | .error e => ⟨.error e, w⟩
  | .ok d =>
    let build := buildDTable w.tableSymbol d.norm d.msv d.tl
    let w := { w with tableSymbol := build.table }
    match build.out with
    | .error e => ⟨.error e, w⟩
    | .ok dt =>
      let w := { w with dt := dt }
      let run := decodeBlockBits (payload.drop d.hlen) dt d.tl rawSize strictTail ⟨w.s0, w.s1⟩ w.reader
      ⟨run.out, { w with s0 := run.st.x0, s1 := run.st.x1, reader := run.reader }⟩

/-! ### Meanings -/

/-- `V[j] <- x`. -/
def Work.setV (w : Work) (j : Bool) (x : Nat) : Work := if j then { w with v1 := x } else { w with v0 := x }

/-- `S[j] <- x`. -/
def Work.setS (w : Work) (j : Bool) (x : Nat) : Work := if j then { w with s1 := x } else { w with s0 := x }

/-- FSE.INITC (R105): `V[j] <- FSE.INITC(ct, s)`. -/
def execFseInitc (j : Bool) (sym : Byte) (s : State) : Host.Outcome State Fault Refusal :=
  unitOutcome s <| (initCState s.work.ct.tl s.work.tableSymbol sym).map fun v =>
    { s with work := s.work.setV j v }.reply (.value v)

/-- FSE.ENCSYM (R106): `V[j] <- FSE.ENCSYM(V, s)`. -/
def execFseEncsym (j : Bool) (v : Nat) (sym : Byte) (s : State) : Host.Outcome State Fault Refusal :=
  unitOutcome s <| (encodeSymbol s.work.ct s.work.writer v sym).map fun x =>
    { s with work := { s.work.setV j x.1 with writer := x.2 } }.reply (.value x.1)

/-- FSE.ENCODE (R108): the body goes to `PayBuf` from byte `hlen`. -/
def execFseEncode (src : List Byte) (n cap : Nat) (s : State) : Host.Outcome State Fault Refusal :=
  whenGiven src.length n .memoryUnwritten <|
    match encodeBlock (src.take n) s.work.tableSymbol s.work.ct cap with
    | .error e => unitOutcome s (.error e)
    | .ok (v, wr) =>
      outcome <| (Memory.store payCap s.payBuf wr.base wr.stored).map fun m =>
        { s with work := { s.work with v0 := v.x0, v1 := v.x1, writer := wr }, payBuf := m }.reply
          (.closed wr.bytes wr.ovf)

/-- FSE.INITD (R109): `S[j] <- BR.READ(tl)`. A `tl` above 15, which no decoder gives, would be held whole in `S` (log 19). -/
def execFseInitd (j : Bool) (tl : Nat) (s : State) : Host.Outcome State Fault Refusal :=
  unitOutcome s <| (readerRead s.work.reader tl).map fun x =>
    { s with work := { s.work.setS j x.1 with reader := x.2 } }.reply (.value x.1)

/-- FSE.DECSYM (R110): the symbol, and `S[j] <- S'`. -/
def execFseDecsym (j : Bool) (st : Nat) (update : Bool) (s : State) : Host.Outcome State Fault Refusal :=
  unitOutcome s <| (decodeSymbol s.work.dt s.work.reader st update).map fun x =>
    { s with work := { s.work.setS j x.2.1 with reader := x.2.2 } }.reply (.symbol x.1 x.2.1)

/-- FSE.DECODE (R111, R112). -/
def execFseDecode (buf : List Byte) (tl n : Nat) (strictTail : Bool) (s : State) : Host.Outcome State Fault Refusal :=
  let run := decodeBlockBits buf s.work.dt tl n strictTail ⟨s.work.s0, s.work.s1⟩ s.work.reader
  runOutcome s { s.work with s0 := run.st.x0, s1 := run.st.x1, reader := run.reader } (run.out.map .bytes)

/-- BC.COMPRESS (R113, R115). -/
def execBcCompress (src : List Byte) (n tlReq : Nat) (oneByteRle : Bool) (s : State) : Host.Outcome State Fault Refusal :=
  let run := compressBlock (src.take n) tlReq oneByteRle
  whenGiven src.length n .memoryUnwritten <|
    match Memory.store payCap s.payBuf 0 run.pay with
    | .error f => .fault f
    | .ok m => runOutcome { s with payBuf := m } run.work (run.out.map .block)

/-- BC.DECOMPRESS (R116). -/
def execBcDecompress (payload : List Byte) (len rawSize : Nat) (strictTail : Bool) (s : State) :
    Host.Outcome State Fault Refusal :=
  let run := decompressBlock (payload.take len) rawSize strictTail
  whenGiven payload.length len .memoryUnwritten <| runOutcome s run.work (run.out.map .bytes)

end Sys2Proof.Machine
end

