-- ==== Sys2Proof/Machine/Container.lean ====
section
/-! DEFINITION. The container state machines (47_container.md): the decompressor's field actions and its SETINPUT loop,
the compressor's EMIT and framing. The commands that call them are in Machine/Commands.lean, the wire elements in
Machine/Wire.lean. -/

namespace Sys2Proof.Machine

/-! ### Decompressor -/

/-- FileHeader action (R134): the tag is checked before `k`. -/
def fileHeaderAction (s : State) (tag : U32) (k : Byte) : State :=
  if tag = tagHuff ∨ tag = tagZlibh then s.enterFatal .invalidData .tagUnsupported
  else if tag ≠ tagFse then s.enterFatal .invalidData .tagUnknown
  else if 6 < k.toNat then s.enterFatal .invalidData .blockSizeId
  else { s with blockSize := blockSizeOf k.toNat, fstate := .blockType }

/-- Where a block goes once its raw size is known (R135, R136). -/
def afterRawSize (t : BlockType) : FState := if t = .compressed then .compSize else .blockContent

/-- BlockType action (R135). A block starts with its header byte (30_encoding.md R42), and the working state is unwritten
at the start of every block (10_state.md R19 to R25). -/
def blockTypeAction (s : State) (h : Byte) : State :=
  let s := { s with work := Work.unwritten }
  match blockTypeOf h with
  | .crc => { s with btype := .crc, crcHi6 := crcHi6Of h, fstate := .crcBlock }
  | t =>
    if fullFlagOf h then { s with btype := t, full := true, rawSize := s.blockSize, fstate := afterRawSize t }
    else { s with btype := t, full := false, fstate := .rawSize }

/-- RawSize action (R136). -/
def rawSizeAction (s : State) (size : BitVec 16) : State :=
  if s.blockSize < size.toNat then { s with rawSize := size.toNat }.enterFatal .invalidData .rawSize
  else { s with rawSize := size.toNat, fstate := afterRawSize s.btype }

/-- CompSize action (R137). -/
def compSizeAction (s : State) (size : BitVec 16) : State :=
  { s with cSize := size.toNat, fstate := .blockContent }

/-- The end of the content actions (R138 to R140): the block's bytes are queued and, when `ckEn = 1`, folded. -/
def produce (s : State) (content : List Byte) : Except Fault State :=
  match Memory.store (outBufSize s) s.outBuf 0 content with
  | .error f => .error f
  | .ok m =>
    .ok { s with
      outBuf := m, outPos := 0, outLen := content.length
      ck := if s.cfg.ckEn then ckFold s.ck content else s.ck
      fstate := .blockType }

/-- BlockContent action of a Compressed block (R140). -/
def compressedAction (s : State) (payload : List Byte) : Except Fault State :=
  let run := decompressBlock payload s.rawSize s.cfg.strictTail
  let s := { s with work := run.work }
  match run.out with
  | .ok content => produce s content
  | .error (.raise e) => .ok (s.enterFatal .invalidData e)
  | .error (.stuck f) => .error f

/-- CrcBlock action (R141). -/
def crcBlockAction (s : State) (lo : BitVec 16) : State :=
  if s.cfg.ckEn = true ∧ s.crcHi6 ++ lo ≠ ckTrunc (ckHash s.ck) then s.enterFatal .invalidChecksum .checksum
  else { s with fstate := .completed }

/-- The action of `fstate` on a complete field `f` (R133). A field has the length R132 gives, so no other list of bytes
reaches it; a terminal state has no action, nor has the content of a Crc block (fault, log 17). -/
def fieldAction (s : State) (f : List Byte) : Except Fault State :=
  match s.fstate, f with
  | .fileHeader, [b0, b1, b2, b3, k] => .ok (fileHeaderAction s (le32 b0 b1 b2 b3) k)
  | .blockType, [h] => .ok (blockTypeAction s h)
  | .rawSize, [b0, b1] => .ok (rawSizeAction s (be16 b0 b1))
  | .compSize, [b0, b1] => .ok (compSizeAction s (be16 b0 b1))
  | .crcBlock, [b0, b1] => .ok (crcBlockAction s (be16 b0 b1))
  | .blockContent, f =>
    match s.btype, f with
    | .compressed, f => compressedAction s f
    | .raw, f => produce s f
    | .rle, [b] => produce s (List.replicate s.rawSize b)
    | _, _ => .error .noAction
  | _, _ => .error .noAction

/-- The loop of R133: it acts on a complete field, else takes what the field still needs. `fuel` bounds the turns of a
call that ends (log 17); a state with more staged bytes than its field has does not end and faults. -/
def inputLoop : Nat → List Byte → Nat → State → Except Fault (Nat × State)
  | 0, _, _, _ => .error .stagingOverrun
  | fuel + 1, bytes, consumed, s =>
    if statusDecompressor s ≠ .needInput then .ok (consumed, s)
    else if s.stageLen = fieldLength s then
      match Memory.read s.inStage 0 (fieldLength s) with
      | .error e => .error e
      | .ok f =>
        match fieldAction { s with stageLen := 0 } f with
        | .error e => .error e
        | .ok s => inputLoop fuel bytes consumed s
    else if fieldLength s < s.stageLen then .error .stagingOverrun
    else
      match bytes with
      | [] => .ok (consumed, s)
      | _ :: _ =>
        let t := min (fieldLength s - s.stageLen) bytes.length
        match Memory.store inStageSize s.inStage s.stageLen (bytes.take t) with
        | .error e => .error e
        | .ok m => inputLoop fuel (bytes.drop t) (consumed + t) { s with inStage := m, stageLen := s.stageLen + t }

/-- The turns a call with `n` bytes can take: each turn takes a byte or acts on a field, and of two fields in a row at
least one has a byte. -/
def inputFuel (n : Nat) : Nat := 4 * n + 4

/-- SETINPUT of the decompressor (R133): the consumed count and the state. -/
def inputDecompressor (bytes : List Byte) (s : State) : Except Fault (Nat × State) :=
  inputLoop (inputFuel bytes.length) bytes 0 s

/-! ### Compressor -/

/-- The file header of a stream (R148, 30_encoding.md R41). -/
def streamHeader (k : Nat) : List Byte := fhdrBytes tagFse (BitVec.ofNat 8 k)

/-- What stands before a session's first queued bytes: the file header if it has not been queued (R148, R152). -/
def lazyHeader (s : State) : List Byte := if s.hdrDone then [] else streamHeader s.cfg.k

/-- `FRAME(r, src, n)` with `n = |src|`; reserved header bits are written 0 (R149). -/
def frame (r : BlockResult) (src : List Byte) (blockSize : Nat) : List Byte :=
  let size : BitVec 16 := BitVec.ofNat 16 src.length
  if src.length = blockSize then
    match r with
    | .cmp p => blkCmpFBytes 0 (BitVec.ofNat 16 p.length) p
    | .rle b => blkRleFBytes 0 b
    | .raw => blkRawFBytes 0 src
  else
    match r with
    | .cmp p => blkCmpBytes 0 size (BitVec.ofNat 16 p.length) p
    | .rle b => blkRleBytes 0 size b
    | .raw => blkRawBytes 0 size src

/-- The block's bytes queued and folded, the block buffer emptied: the end of EMIT (R148). -/
def queueBlock (s : State) (r : BlockResult) (src : List Byte) : Except Fault State :=
  let q := lazyHeader s ++ frame r src (blockSizeCfg s)
  match Memory.store (outBufSize s) s.outBuf 0 q with
  | .error f => .error f
  | .ok m =>
    .ok { s with
      hdrDone := true, ck := ckFold s.ck src, outBuf := m, outPos := 0, outLen := q.length, bufLen := 0 }

/-- EMIT (R148). E_NORMALIZE is fatal, and so is E_TABLE_SPREAD (44_tables.md R96, I7), which never fires (92 D33); a
unit-argument error is an assertion of the model (I5). -/
def emit (s : State) : Except Fault State :=
  match Memory.read s.blockBuf 0 s.bufLen with
  | .error f => .error f
  | .ok src =>
    let run := compressBlock src s.cfg.tlReq s.cfg.oneByteRle
    match Memory.store payCap s.payBuf 0 run.pay with
    | .error f => .error f
    | .ok m =>
      let s := { s with work := run.work, payBuf := m }
      match run.out with
      | .ok r => queueBlock s r src
      | .error (.raise .normalize) => .ok (s.enterFailed .normalize)
      | .error (.raise .tableSpread) => .ok (s.enterFailed .tableSpread)
      | .error (.raise _) => .error .unitArgument
      | .error (.stuck f) => .error f

/-- SETINPUT of the compressor (R147): the consumed count and the state. -/
def inputCompressor (bytes : List Byte) (s : State) : Except Fault (Nat × State) :=
  if statusCompressor s ≠ .needInput then .ok (0, s)
  else
    let t := min (blockSizeCfg s - s.bufLen) bytes.length
    match Memory.store (blockSizeCfg s) s.blockBuf s.bufLen (bytes.take t) with
    | .error e => .error e
    | .ok m =>
      let s := { s with blockBuf := m, bufLen := s.bufLen + t }
      if s.bufLen = blockSizeCfg s then (emit s).map fun s => (t, s) else .ok (t, s)

/-- `if bufLen >= 1: EMIT` (R151, R152). -/
def emitPending (s : State) : Except Fault State := if 1 ≤ s.bufLen then emit s else .ok s

/-- `CRCBLK` (R150): the stream's last three bytes. -/
def crcBlockBytes (c : BitVec 22) : List Byte := blkCrcBytes (c.extractLsb' 16 6) (c.extractLsb' 0 16)

/-- The end of COMPLETE (R152): the Crc block is appended to the queue, after the file header if it is still due. The
offset is `outLen`, as the rule says (log 9). -/
def queueCrc (s : State) : Except Fault State :=
  let q := lazyHeader s ++ crcBlockBytes (ckTrunc (ckHash s.ck))
  match Memory.store (outBufSize s) s.outBuf s.outLen q with
  | .error f => .error f
  | .ok m => .ok { s with hdrDone := true, outBuf := m, outLen := s.outLen + q.length, cphase := .completing }

/-- COMPLETE of the compressor once its state is checked (R152). -/
def completeStream (s : State) : Except Fault State :=
  match emitPending s with
  | .error f => .error f
  | .ok s => if s.cphase = .failed then .ok s else queueCrc s

/-! ### Both directions -/

/-- Bytes offered to the block (R133, R147): the consumed count and the state. -/
def offer (bytes : List Byte) (s : State) : Except Fault (Nat × State) :=
  match s.cfg.dir with
  | .decompress => inputDecompressor bytes s
  | .compress => inputCompressor bytes s

/-- Bytes offered by the host: a session that is not configured refuses them (60_exceptions.md R164). The result is the
consumed count, a fatal state entered on the way or not (log 10). -/
def offerInput (bytes : List Byte) (s : State) : Host.Outcome State Fault Refusal :=
  whenConfigured s <| outcome <| (offer bytes s).map fun x => x.2.reply (.consumed x.1)

/-- The ready bytes `MemRead(OutBuf, outPos, outLen - outPos)` (R156). -/
def readyBytes (s : State) : Except Fault (List Byte) := Memory.read s.outBuf s.outPos (readyLength s)

/-- `outPos` moved past `n` retired bytes; the compressor leaves Completing with its last byte (R143, R153). -/
def retire (s : State) (n : Nat) : State :=
  let s := { s with outPos := s.outPos + n }
  match s.cfg.dir with
  | .decompress => s
  | .compress => if s.outPos = s.outLen ∧ s.cphase = .completing then { s with cphase := .completed } else s

end Sys2Proof.Machine
end

