-- ==== Sys2Proof/Machine/Commands.lean ====
section
/-! DEFINITION. The meanings of the host commands (47_container.md R130 to R157) and of DRAIN (30_encoding.md R58). The
checks of 60_exceptions.md R164 come first, in its order. -/

namespace Sys2Proof.Machine

/-- The checks of CONFIGURE (R131): the registers to be written, or none. -/
def configOf (dir k tlReq ckEn strictTail oneByteRle : Nat) : Option Cfg :=
  if dir ≤ 1 ∧ k ≤ 6 ∧ (tlReq = 0 ∨ minTableLog ≤ tlReq ∧ tlReq ≤ maxTableLog) ∧ ckEn ≤ 1 ∧ strictTail ≤ 1 ∧ oneByteRle ≤ 1
  then some ⟨if dir = 0 then .compress else .decompress, k, tlReq, ckEn = 1, strictTail = 1, oneByteRle = 1⟩
  else none

/-- CONFIGURE (R131). -/
def execConfigure (dir k tlReq ckEn strictTail oneByteRle : Nat) (s : State) : Host.Outcome State Fault Refusal :=
  match configOf dir k tlReq ckEn strictTail oneByteRle with
  | none => argError s .argConfig
  | some cfg => .next ({ s with cfg := cfg, configured := true }.sessionReset.reply .ok)

/-- SETINPUT (R133, R142, R147). -/
def execSetinput (bytes : List Byte) (s : State) : Host.Outcome State Fault Refusal := offerInput bytes s

/-- STATE (R146, R154, R157). -/
def execState (s : State) : Host.Outcome State Fault Refusal :=
  whenConfigured s <| .next (s.reply (.status (status s)))

/-- OUTPUT (R156). -/
def execOutput (s : State) : Host.Outcome State Fault Refusal :=
  whenConfigured s <| outcome <| (readyBytes s).map fun bytes => s.reply (.bytes bytes)

/-- ADVANCE (R143, R153). -/
def execAdvance (n : BitVec 17) (s : State) : Host.Outcome State Fault Refusal :=
  whenConfigured s <|
    if readyLength s < n.toNat then argError s .argAdvance else .next ((retire s n.toNat).reply .ok)

/-- FLUSH (R144, R151). A fatal entry on the way is no failure of the command (log 10). -/
def execFlush (s : State) : Host.Outcome State Fault Refusal :=
  whenConfigured s <|
    match s.cfg.dir with
    | .decompress => .next (s.reply .ok)
    | .compress =>
      if statusCompressor s ≠ .needInput then argError s .argState
      else outcome <| (emitPending s).map fun s => s.reply .ok

/-- COMPLETE (R145, R152). -/
def execComplete (s : State) : Host.Outcome State Fault Refusal :=
  whenConfigured s <|
    match s.cfg.dir with
    | .decompress =>
      if statusDecompressor s = .writeOutput then argError s .argState
      else if s.fstate.terminal then .next (s.reply .ok)
      else .next ((s.enterFatal .invalidData .truncated).reply .ok)
    | .compress =>
      if statusCompressor s ≠ .needInput then argError s .argState
      else outcome <| (completeStream s).map fun s => s.reply .ok

/-- RESET (R155). -/
def execReset (s : State) : Host.Outcome State Fault Refusal :=
  whenConfigured s <| .next (s.sessionReset.reply .ok)

/-- NEED (R157). -/
def execNeed (s : State) : Host.Outcome State Fault Refusal :=
  whenConfigured s <| .next (s.reply (.need (needOutput s)))

/-- ERRCAUSE (R157). -/
def execErrcause (s : State) : Host.Outcome State Fault Refusal :=
  whenConfigured s <| .next (s.reply (.cause s.errcause))

/-- DRAIN (30_encoding.md R58): OUTPUT, then ADVANCE of the number of bytes it returned; the bytes are the result. -/
def execDrain (s : State) : Host.Outcome State Fault Refusal :=
  whenConfigured s <| outcome <| (readyBytes s).map fun bytes => (retire s bytes.length).reply (.bytes bytes)

end Sys2Proof.Machine
end

