-- ==== Sys2Proof/Machine/Wire.lean ====
section
/-! DEFINITION. The meanings of the wire elements (30_encoding.md R41 to R47). An element reaches the block only as its
bytes, offered through SETINPUT; the decompressor's field actions R134 to R141 decode it where it is expected, and
anywhere else the bytes do what 47_container.md says offered bytes do (log 5). -/

namespace Sys2Proof.Machine

/-- FHDR (R41; action R134). -/
def execFhdr (tag : U32) (k : Byte) (s : State) : Host.Outcome State Fault Refusal := offerInput (fhdrBytes tag k) s

/-- BLK.CMP (R44; actions R135, R136, R137, R140). -/
def execBlkCmp (reserved : BitVec 5) (rawSize cSize : BitVec 16) (payload : List Byte) (s : State) :
    Host.Outcome State Fault Refusal := offerInput (blkCmpBytes reserved rawSize cSize payload) s

/-- BLK.CMP.F (R44; actions R135, R137, R140). -/
def execBlkCmpF (reserved : BitVec 5) (cSize : BitVec 16) (payload : List Byte) (s : State) :
    Host.Outcome State Fault Refusal := offerInput (blkCmpFBytes reserved cSize payload) s

/-- BLK.RAW (R45; actions R135, R136, R138). -/
def execBlkRaw (reserved : BitVec 5) (rawSize : BitVec 16) (data : List Byte) (s : State) :
    Host.Outcome State Fault Refusal := offerInput (blkRawBytes reserved rawSize data) s

/-- BLK.RAW.F (R45; actions R135, R138). -/
def execBlkRawF (reserved : BitVec 5) (data : List Byte) (s : State) : Host.Outcome State Fault Refusal :=
  offerInput (blkRawFBytes reserved data) s

/-- BLK.RLE (R46; actions R135, R136, R139). -/
def execBlkRle (reserved : BitVec 5) (rawSize : BitVec 16) (byte : Byte) (s : State) :
    Host.Outcome State Fault Refusal := offerInput (blkRleBytes reserved rawSize byte) s

/-- BLK.RLE.F (R46; actions R135, R139). -/
def execBlkRleF (reserved : BitVec 5) (byte : Byte) (s : State) : Host.Outcome State Fault Refusal :=
  offerInput (blkRleFBytes reserved byte) s

/-- BLK.CRC (R47; actions R135, R141). -/
def execBlkCrc (crcHi6 : BitVec 6) (crcLo16 : BitVec 16) (s : State) : Host.Outcome State Fault Refusal :=
  offerInput (blkCrcBytes crcHi6 crcLo16) s

end Sys2Proof.Machine
end

