-- ==== Sys2Proof/Machine/Dispatch.lean ====
section
/-! DEFINITION. The dispatch: one arm for each constructor of Instr, in the order of spec/opcode_table.json. -/

namespace Sys2Proof.Machine

def exec (i : Instr) (s : State) : Host.Outcome State Fault Refusal :=
  match i with
  | .fhdr tag k => Sys2Proof.Machine.execFhdr tag k s
  | .blkCmp reserved rawSize cSize payload => Sys2Proof.Machine.execBlkCmp reserved rawSize cSize payload s
  | .blkCmpF reserved cSize payload => Sys2Proof.Machine.execBlkCmpF reserved cSize payload s
  | .blkRaw reserved rawSize data => Sys2Proof.Machine.execBlkRaw reserved rawSize data s
  | .blkRawF reserved data => Sys2Proof.Machine.execBlkRawF reserved data s
  | .blkRle reserved rawSize byte => Sys2Proof.Machine.execBlkRle reserved rawSize byte s
  | .blkRleF reserved byte => Sys2Proof.Machine.execBlkRleF reserved byte s
  | .blkCrc crcHi6 crcLo16 => Sys2Proof.Machine.execBlkCrc crcHi6 crcLo16 s
  | .configure dir k tlReq ckEn strictTail oneByteRle => Sys2Proof.Machine.execConfigure dir k tlReq ckEn strictTail oneByteRle s
  | .setinput bytes => Sys2Proof.Machine.execSetinput bytes s
  | .state => Sys2Proof.Machine.execState s
  | .output => Sys2Proof.Machine.execOutput s
  | .advance n => Sys2Proof.Machine.execAdvance n s
  | .flush => Sys2Proof.Machine.execFlush s
  | .complete => Sys2Proof.Machine.execComplete s
  | .reset => Sys2Proof.Machine.execReset s
  | .need => Sys2Proof.Machine.execNeed s
  | .errcause => Sys2Proof.Machine.execErrcause s
  | .drain => Sys2Proof.Machine.execDrain s
  | .bwInit cap => Sys2Proof.Machine.execBwInit cap s
  | .bwAdd value width => Sys2Proof.Machine.execBwAdd value width s
  | .bwFlush => Sys2Proof.Machine.execBwFlush s
  | .bwClose => Sys2Proof.Machine.execBwClose s
  | .brInit buf => Sys2Proof.Machine.execBrInit buf s
  | .brRead n => Sys2Proof.Machine.execBrRead n s
  | .brPeek n => Sys2Proof.Machine.execBrPeek n s
  | .brSkip n => Sys2Proof.Machine.execBrSkip n s
  | .histCount src n msvIn strict => Sys2Proof.Machine.execHistCount src n msvIn strict s
  | .normMinlog n msv => Sys2Proof.Machine.execNormMinlog n msv s
  | .normOptlog req n msv => Sys2Proof.Machine.execNormOptlog req n msv s
  | .normNormalize count total msv tl => Sys2Proof.Machine.execNormNormalize count total msv tl s
  | .normM2 tl count total msv => Sys2Proof.Machine.execNormM2 tl count total msv s
  | .ncWrite norm msv tl => Sys2Proof.Machine.execNcWrite norm msv tl s
  | .ncRead buf => Sys2Proof.Machine.execNcRead buf s
  | .tbSpread norm msv tl => Sys2Proof.Machine.execTbSpread norm msv tl s
  | .tbCtable norm msv tl => Sys2Proof.Machine.execTbCtable norm msv tl s
  | .tbDtable norm msv tl => Sys2Proof.Machine.execTbDtable norm msv tl s
  | .fseInitc j sym => Sys2Proof.Machine.execFseInitc j sym s
  | .fseEncsym j v sym => Sys2Proof.Machine.execFseEncsym j v sym s
  | .fseEncode src n cap => Sys2Proof.Machine.execFseEncode src n cap s
  | .fseInitd j tl => Sys2Proof.Machine.execFseInitd j tl s
  | .fseDecsym j st update => Sys2Proof.Machine.execFseDecsym j st update s
  | .fseDecode buf tl n strictTail => Sys2Proof.Machine.execFseDecode buf tl n strictTail s
  | .bcCompress src n tlReq oneByteRle => Sys2Proof.Machine.execBcCompress src n tlReq oneByteRle s
  | .bcDecompress payload len rawSize strictTail => Sys2Proof.Machine.execBcDecompress payload len rawSize strictTail s
  | .ckInit => Sys2Proof.Machine.execCkInit s
  | .ckUpdate bytes => Sys2Proof.Machine.execCkUpdate bytes s
  | .ckDigest => Sys2Proof.Machine.execCkDigest s
  | .ckTrunc22 h => Sys2Proof.Machine.execCkTrunc22 h s

end Sys2Proof.Machine
end

