-- ==== Sys2Proof/Machine/Step.lean ====
section
/-! DEFINITION. One step: the oldest pending packet is taken, decoded and executed (00_scope.md R5, 20_memory.md R38). -/

namespace Sys2Proof.Machine

/-- One step. With nothing pending the block takes no step of its own and its state stays (70_reset_and_hazards.md
R184, 60_exceptions.md R173). A command code outside 0x01..0x0A fails with E_ARG_COMMAND (R164). Bytes of the stream that
are no whole element are offered bytes all the same (47_container.md R133, R147; log 5). What is left names no operation
or carries a value no operand has bits for (log 15). -/
def step (s : State) : Host.Outcome State Fault Refusal :=
  match s.pending with
  | [] => .next s
  | p :: rest =>
    match decode p with
    | .ok i => exec i { s with pending := rest }
    | .error .commandCode => argError { s with pending := rest } .argCommand
    | .error e =>
      match p.streamBytes with
      | some bytes => offerInput bytes { s with pending := rest }
      | none => .refused (.undecodable e)

/-- The state with a table word as the next packet (log 7). -/
def State.withFetchWord (s : State) (nbits w : Nat) : State :=
  { s with pending := tablePacket nbits w :: s.pending }

end Sys2Proof.Machine
end

