-- ==== Sys2Proof/Machine/Realisations.lean ====
section
/-! DEFINITION. Two realisations the spec permits beside the rules the machine uses, and which must give the same
results: the accumulator writer (40_bitstream.md R62, 10_state.md R23) and the four-lane histogram (41_histogram.md
R73). No instruction calls them. -/

namespace Sys2Proof.Machine

/-- The accumulator writer: the whole bytes already written to the destination, then `bitPos` pending bits in `acc`. -/
structure AccWriter where
  dest : List Byte
  acc : Nat
  bitPos : Nat
  deriving DecidableEq, Repr

/-- BW.INIT on the accumulator. -/
def accInit : AccWriter := ⟨[], 0, 0⟩

/-- The flush: `bitPos // 8` whole bytes go to the destination, `bitPos mod 8` bits stay (R62). -/
def accFlush (a : AccWriter) : AccWriter :=
  ⟨a.dest ++ leBytes (a.bitPos / 8) a.acc, a.acc / 2 ^ (8 * (a.bitPos / 8)), a.bitPos % 8⟩

/-- BW.ADD on the accumulator: it flushes whenever `bitPos + width > ACC_WIDTH` would otherwise occur (R62). -/
def accAdd (a : AccWriter) (v n : Nat) : AccWriter :=
  let a := if accWidth < a.bitPos + n then accFlush a else a
  { a with acc := a.acc + v % 2 ^ n * 2 ^ a.bitPos, bitPos := a.bitPos + n }

/-- BW.CLOSE on the accumulator: the end mark, then every pending bit out, the last byte filled with 0 bits (R63). -/
def accClose (a : AccWriter) : List Byte :=
  let a := accAdd a 1 1
  a.dest ++ leBytes ((a.bitPos + 7) / 8) a.acc

/-- The bits written so far: the destination's, then the accumulator's. -/
def AccWriter.bits (a : AccWriter) : Bits := (Bits.ofBytes a.dest).append a.acc a.bitPos

/-- The four lane counters (R73). -/
structure Lanes where
  lane0 : List Nat
  lane1 : List Nat
  lane2 : List Nat
  lane3 : List Nat
  deriving DecidableEq, Repr

/-- Byte `j` of a little-endian 32-bit load. -/
def laneByte (w : U32) (j : Nat) : Byte := w.extractLsb' (8 * j) 8

/-- The loop of R73 over the 32-bit loads; the tail goes to lane 0. -/
def laneLoop : List Byte → Lanes → Lanes
  | b0 :: b1 :: b2 :: b3 :: rest, l =>
    let w := le32 b0 b1 b2 b3
    laneLoop rest ⟨countByte l.lane0 (laneByte w 0), countByte l.lane1 (laneByte w 1),
      countByte l.lane2 (laneByte w 2), countByte l.lane3 (laneByte w 3)⟩
  | tail, l => { l with lane0 := tail.foldl countByte l.lane0 }

/-- The sum of two lanes. -/
def mergeLanes (x y : List Nat) : List Nat := List.zipWith (fun a b => a + b) x y

/-- The four-lane counts (R73). -/
def laneCounts (src : List Byte) : List Nat :=
  let z := List.replicate 256 0
  let l := laneLoop src ⟨z, z, z, z⟩
  mergeLanes (mergeLanes (mergeLanes l.lane0 l.lane1) l.lane2) l.lane3

end Sys2Proof.Machine
end

