-- ==== Sys2Proof/Safety.lean ====
section
/-! DEFINITION. What the claims call a legal state (`Inv`: the field ranges of 10_state.md and 20_memory.md, and which
bytes of the memories are written), which instructions a host can cause, and what an answered instruction is. A run is
safe when no step of it faults or refuses. -/

namespace Sys2Proof.Machine

/-- Every listed byte lies inside a memory of `size` bytes (20_memory.md R30). -/
def Memory.within (m : Memory) (size : Nat) : Bool := m.all fun c => decide (c.1 < size)

/-- Bytes `0 .. n-1` are written. -/
def Memory.writtenTo (m : Memory) (n : Nat) : Prop := ∀ a, a < n → (m.get? a).isSome = true

/-- The legal values of 10_state.md R11. -/
def legalCfg (c : Cfg) : Bool := decide (c.k ≤ 6) && (c.tlReq == 0 || decide (5 ≤ c.tlReq ∧ c.tlReq ≤ 15))

/-- The field states in which a block size has been read (10_state.md R15, R16). -/
def FState.pastHeader : FState → Bool
  | .blockType => true
  | .rawSize => true
  | .compSize => true
  | .blockContent => true
  | .crcBlock => true
  | _ => false

/-- The field states in which the raw size of the current block is known (47_container.md R135, R136). -/
def FState.sized : FState → Bool
  | .compSize => true
  | .blockContent => true
  | _ => false

/-- The legal states: what every step keeps. -/
structure Inv (s : State) : Prop where
  cfgLegal : legalCfg s.cfg = true
  /-- the session of the other direction is as after reset (R11 "exactly one direction per session") -/
  otherSession :
    (s.cfg.dir = .compress → s.fstate = .fileHeader ∧ s.stageLen = 0) ∧
      (s.cfg.dir = .decompress → s.cphase = .opened ∧ s.bufLen = 0)
  inStageForm : s.inStage.wf = true ∧ s.inStage.within inStageSize = true
  blockBufForm : s.blockBuf.wf = true ∧ s.blockBuf.within (blockSizeCfg s) = true
  outBufForm : s.outBuf.wf = true ∧ s.outBuf.within (outBufSize s) = true
  payBufForm : s.payBuf.wf = true ∧ s.payBuf.within payCap = true
  /-- `outPos <= outLen`, and the queue lies in written bytes of `OutBuf` (R15, R17) -/
  queue : s.outPos ≤ s.outLen ∧ s.outLen ≤ outBufSize s ∧ s.outBuf.writtenTo s.outLen
  /-- fewer bytes are held than a checksum group has (R18) -/
  checksum : s.ck.mem.length < 16
  /-- the staged bytes are part of the field and are written (47_container.md R132) -/
  staging : s.stageLen ≤ fieldLength s ∧ s.inStage.writtenTo s.stageLen
  /-- the block size is one of the seven -/
  blockSizeRead : s.fstate.pastHeader = true → isBlockSize s.blockSize = true
  rawSizeRead : s.fstate.sized = true → s.rawSize ≤ s.blockSize
  cSizeRead : s.cSize ≤ 65535
  /-- a Crc block has no raw size and no content (30_encoding.md R51) -/
  sizedType : s.fstate = .rawSize ∨ s.fstate.sized = true → s.btype ≠ .crc
  compSizeType : s.fstate = .compSize → s.btype = .compressed
  /-- the output queue is empty in a terminal state (47_container.md R146) -/
  terminalQueue : s.fstate.terminal = true → s.outPos = s.outLen
  /-- the block buffer is not full between commands, and its bytes are written (47_container.md R147) -/
  blockBuffer : s.bufLen < blockSizeCfg s ∧ s.blockBuf.writtenTo s.bufLen
  /-- `Completing` has bytes queued, `Completed` none (R153, R154) -/
  completingQueue : s.cphase = .completing → s.outPos < s.outLen
  completedQueue : s.cphase = .completed → s.outPos = s.outLen
  /-- no output precedes the file header (R148, R152) -/
  headerFirst : s.cfg.dir = .compress → s.hdrDone = false → s.outLen = 0
  /-- room for the Crc block is left in `OutBuf` (R152, R158) -/
  crcRoom : s.cfg.dir = .compress → s.cphase = .opened → s.outLen + 3 ≤ outCap

/-- The instructions a host can cause: the wire elements, the commands and DRAIN; the unit operations are internal
(30_encoding.md R55). -/
def hostInstr : Instr → Bool
  | .fhdr _ _ => true
  | .blkCmp _ _ _ _ => true
  | .blkCmpF _ _ _ => true
  | .blkRaw _ _ _ => true
  | .blkRawF _ _ => true
  | .blkRle _ _ _ => true
  | .blkRleF _ _ => true
  | .blkCrc _ _ => true
  | .configure _ _ _ _ _ _ => true
  | .setinput _ => true
  | .state => true
  | .output => true
  | .advance _ => true
  | .flush => true
  | .complete => true
  | .reset => true
  | .need => true
  | .errcause => true
  | .drain => true
  | .bwInit _ => false
  | .bwAdd _ _ => false
  | .bwFlush => false
  | .bwClose => false
  | .brInit _ => false
  | .brRead _ => false
  | .brPeek _ => false
  | .brSkip _ => false
  | .histCount _ _ _ _ => false
  | .normMinlog _ _ => false
  | .normOptlog _ _ _ => false
  | .normNormalize _ _ _ _ => false
  | .normM2 _ _ _ _ => false
  | .ncWrite _ _ _ => false
  | .ncRead _ => false
  | .tbSpread _ _ _ => false
  | .tbCtable _ _ _ => false
  | .tbDtable _ _ _ => false
  | .fseInitc _ _ => false
  | .fseEncsym _ _ _ => false
  | .fseEncode _ _ _ => false
  | .fseInitd _ _ => false
  | .fseDecsym _ _ _ => false
  | .fseDecode _ _ _ _ => false
  | .bcCompress _ _ _ _ => false
  | .bcDecompress _ _ _ _ => false
  | .ckInit => false
  | .ckUpdate _ => false
  | .ckDigest => false
  | .ckTrunc22 _ => false

/-- A distribution over symbols `0..msv` at table log `tl` that meets the slot-sum invariant (42_normalizer.md R83). -/
def IsDist (norm : List Int) (msv tl : Nat) : Prop :=
  5 ≤ tl ∧ tl ≤ 15 ∧ msv ≤ 255 ∧ norm.length = msv + 1 ∧ (∀ w ∈ norm, -1 ≤ w) ∧ (norm.map slots).sum = 2 ^ tl

/-- No cell of a table RAM is written: what "unwritten at the start of every block" says of the RAMs (10_state.md R21,
R22). -/
def Work.tablesUnwritten (w : Work) : Prop :=
  w.tableSymbol = [] ∧ w.ct.cumul = [] ∧ w.ct.stateTable = [] ∧ w.ct.symbolTT = [] ∧ w.dt.entries = [] ∧
    w.dt.symbolNext = []

/-- The decompressor is configured, at the start of field `f`, with its output drained. -/
def Expects (s : State) (f : FState) : Prop :=
  s.configured = true ∧ s.cfg.dir = .decompress ∧ s.fstate = f ∧ s.stageLen = 0 ∧ s.outPos = s.outLen

/-- The compressor is configured and takes input: `State` is `NeedInput` (47_container.md R154). -/
def Accepts (s : State) : Prop :=
  s.configured = true ∧ s.cfg.dir = .compress ∧ s.cphase ≠ .failed ∧ s.cphase ≠ .completed ∧ s.outLen ≤ s.outPos

/-- The compressor's state once the block `src` has been coded as `r` and queued: the file header first if it is still
due, then the framed block (47_container.md R148). -/
def afterEmit (s : State) (src : List Byte) (r : BlockResult) : State :=
  let run := compressBlock src s.cfg.tlReq s.cfg.oneByteRle
  let header : List Byte := if s.hdrDone then [] else [0x09, 0x23, 0x3E, 0x18, BitVec.ofNat 8 s.cfg.k]
  let q := header ++ frame r src (1024 * 2 ^ s.cfg.k)
  { s with
    work := run.work, payBuf := Memory.write s.payBuf 0 run.pay
    hdrDone := true, ck := ckFold s.ck src
    outBuf := Memory.write s.outBuf 0 q, outPos := 0, outLen := q.length, bufLen := 0 }

/-- The compressor's state once the block coder has raised the fatal code `e` on `src`: E_NORMALIZE or E_TABLE_SPREAD
(47_container.md R148, 60_exceptions.md R162). -/
def afterBlockError (s : State) (src : List Byte) (e : ErrCode) : State :=
  let run := compressBlock src s.cfg.tlReq s.cfg.oneByteRle
  { s with
    work := run.work, payBuf := Memory.write s.payBuf 0 run.pay
    cphase := .failed, errcause := e, bufLen := 0 }

/-- The compressor's state once the stream's end is queued: the file header if it is still due, then the Crc block,
after the bytes already queued (47_container.md R150, R152). -/
def afterComplete (s : State) : State :=
  let header : List Byte := if s.hdrDone then [] else [0x09, 0x23, 0x3E, 0x18, BitVec.ofNat 8 s.cfg.k]
  let c := (ckHash s.ck).toNat / 32 % 2 ^ 22
  let q := header ++ [0xC0 ||| BitVec.ofNat 8 (c / 65536), BitVec.ofNat 8 (c / 256), BitVec.ofNat 8 c]
  { s with
    hdrDone := true, outBuf := Memory.write s.outBuf s.outLen q, outLen := s.outLen + q.length
    cphase := .completing }

/-- The results of a sequence of instructions and the state after it; none if one of them faults or is refused. -/
def results : List Instr → State → Option (List Result × State)
  | [], s => some ([], s)
  | i :: is, s =>
    match exec i s with
    | .next t => (results is t).map fun x => (t.result :: x.1, x.2)
    | .fault _ => none
    | .refused _ => none

/-- The instruction completes: neither a fault nor a refusal. -/
def Answers (o : Host.Outcome State Fault Refusal) : Prop := ∃ t, o = .next t

end Sys2Proof.Machine
end

