-- ==== Sys2Proof/Certificates/Slice0/Obligations.lean ====
section
/-! DEFINITION. The statements for the provers. Each docstring names the rule of spec/ it formalises. A next state is
written as the state before with the changed fields, so each such statement is a frame too: every field it does not
name is unchanged, and a memory it names is unchanged outside the bytes of `Memory.write`. -/

open Sys2Proof Sys2Proof.Machine

/-! ### Host commands -/

/-- 47_container.md R157 with R132, R146 and R154: the three status reads change nothing but the result. -/
def Obligations.StatusReadsReturnSessionStatus : Prop :=
  ∀ s : State, s.configured = true →
    exec .state s = .next { s with
      result := .status (
        match s.cfg.dir with
        | .decompress =>
          if s.fstate = .completed then .completed
          else if s.fstate = .invalidData then .invalidData
          else if s.fstate = .invalidChecksum then .invalidChecksum
          else if s.outPos < s.outLen then .writeOutput
          else .needInput
        | .compress =>
          if s.cphase = .failed then .invalidData
          else if s.outPos < s.outLen then .writeOutput
          else if s.cphase = .completed then .completed
          else .needInput) } ∧
    exec .need s = .next { s with
      result := .need (
        match s.cfg.dir, s.fstate with
        | .compress, _ => 0
        | .decompress, .fileHeader => 5 - s.stageLen
        | .decompress, .blockType => 1 - s.stageLen
        | .decompress, .rawSize => 2 - s.stageLen
        | .decompress, .compSize => 2 - s.stageLen
        | .decompress, .crcBlock => 2 - s.stageLen
        | .decompress, .blockContent =>
          (if s.btype = .compressed then s.cSize else if s.btype = .raw then s.rawSize
            else if s.btype = .rle then 1 else 0) - s.stageLen
        | .decompress, .completed => 0
        | .decompress, .invalidData => 0
        | .decompress, .invalidChecksum => 0) } ∧
    exec .errcause s = .next { s with result := .cause s.errcause }

/-- 47_container.md R156: the ready bytes, the same again if asked again. -/
def Obligations.OutputReturnsReadyBytes : Prop :=
  ∀ s : State, s.configured = true → s.outBuf.wf = true → s.outPos ≤ s.outLen → s.outBuf.writtenTo s.outLen →
    ∃ bs : List Byte,
      exec .output s = .next { s with result := .bytes bs } ∧
      exec .output { s with result := .bytes bs } = .next { s with result := .bytes bs } ∧
      bs.length = s.outLen - s.outPos ∧ ∀ i, i < bs.length → bs[i]? = s.outBuf.get? (s.outPos + i)

/-- 47_container.md R143 and R153: ADVANCE in both directions. -/
def Obligations.AdvanceRetiresReadyBytes : Prop :=
  ∀ (n : BitVec 17) (s : State), s.configured = true →
    (s.outLen - s.outPos < n.toNat → exec (.advance n) s = .next { s with result := .error .argAdvance }) ∧
    (n.toNat ≤ s.outLen - s.outPos →
      exec (.advance n) s = .next { s with
        outPos := s.outPos + n.toNat
        cphase :=
          if s.cfg.dir = .compress ∧ s.outPos + n.toNat = s.outLen ∧ s.cphase = .completing then .completed
          else s.cphase
        result := .ok })

/-- 30_encoding.md R58: DRAIN is OUTPUT, then ADVANCE of the number of bytes OUTPUT returned; nothing is left queued. -/
def Obligations.DrainIsOutputThenAdvance : Prop :=
  ∀ s : State, s.configured = true → s.outBuf.wf = true → s.outPos ≤ s.outLen → s.outLen < 131072 →
    s.outBuf.writtenTo s.outLen →
    ∃ (bs : List Byte) (u : State),
      exec .output s = .next { s with result := .bytes bs } ∧
      exec (.advance (BitVec.ofNat 17 bs.length)) { s with result := .bytes bs } = .next u ∧
      exec .drain s = .next { u with result := .bytes bs } ∧ u.outPos = u.outLen

/-- 47_container.md R144 and R145: FLUSH and COMPLETE of the decompressor. -/
def Obligations.DecompressorFlushAndComplete : Prop :=
  ∀ s : State, s.configured = true → s.cfg.dir = .decompress →
    exec .flush s = .next { s with result := .ok } ∧
    (s.fstate = .completed ∨ s.fstate = .invalidData ∨ s.fstate = .invalidChecksum →
      exec .complete s = .next { s with result := .ok }) ∧
    (¬(s.fstate = .completed ∨ s.fstate = .invalidData ∨ s.fstate = .invalidChecksum) →
      (s.outPos < s.outLen → exec .complete s = .next { s with result := .error .argState }) ∧
      (s.outLen ≤ s.outPos →
        exec .complete s = .next { s with
          fstate := .invalidData, errcause := .truncated, stageLen := 0, result := .ok }))

/-- 47_container.md R151 with R148: FLUSH of the compressor emits the block it holds, and emits nothing without one. The
model's reading: that FLUSH answers ok when EMIT enters the failed state (log 10), that E_TABLE_SPREAD, which never fires,
enters it as E_NORMALIZE does (44_tables.md R96, I7; log 16), and the last two cases of the match, the assertions of
93_implementation_defined.md I5 and I3 (log 16), which a block never reaches (Obligations.BlockRoundTrip). -/
def Obligations.CompressorFlushEmitsHeldBlock : Prop :=
  ∀ s : State, Inv s → s.configured = true → s.cfg.dir = .compress →
    (¬Accepts s → exec .flush s = .next { s with result := .error .argState }) ∧
    (Accepts s → s.bufLen = 0 → exec .flush s = .next { s with result := .ok }) ∧
    (∀ (src : List Byte), Accepts s → 1 ≤ s.bufLen → Memory.read s.blockBuf 0 s.bufLen = .ok src →
      exec .flush s =
        match (compressBlock src s.cfg.tlReq s.cfg.oneByteRle).out with
        | .ok r => .next { afterEmit s src r with result := .ok }
        | .error (.raise .normalize) => .next { afterBlockError s src .normalize with result := .ok }
        | .error (.raise .tableSpread) => .next { afterBlockError s src .tableSpread with result := .ok }
        | .error (.raise _) => .fault .unitArgument
        | .error (.stuck f) => .fault f)

/-- 47_container.md R152 with R148 and R150: COMPLETE of the compressor. The model's reading: that it answers ok when EMIT
enters the failed state (log 10), that the end is appended at `outLen` also when the queue has been drained, where program
P10 lists other numbers (log 9), and the cases of E_TABLE_SPREAD and of the assertions I5 and I3 (log 16). -/
def Obligations.CompressorCompleteEndsStream : Prop :=
  ∀ s : State, Inv s → s.configured = true → s.cfg.dir = .compress →
    (¬Accepts s → exec .complete s = .next { s with result := .error .argState }) ∧
    (Accepts s → s.bufLen = 0 → exec .complete s = .next { afterComplete s with result := .ok }) ∧
    (∀ (src : List Byte), Accepts s → 1 ≤ s.bufLen → Memory.read s.blockBuf 0 s.bufLen = .ok src →
      exec .complete s =
        match (compressBlock src s.cfg.tlReq s.cfg.oneByteRle).out with
        | .ok r => .next { afterComplete (afterEmit s src r) with result := .ok }
        | .error (.raise .normalize) => .next { afterBlockError s src .normalize with result := .ok }
        | .error (.raise .tableSpread) => .next { afterBlockError s src .tableSpread with result := .ok }
        | .error (.raise _) => .fault .unitArgument
        | .error (.stuck f) => .fault f)

/-- 47_container.md R131: CONFIGURE writes the configuration and resets, or fails and writes nothing. -/
def Obligations.ConfigureChecksWritesAndResets : Prop :=
  ∀ (dir k tlReq ckEn strictTail oneByteRle : Nat) (s : State),
    let legal := dir ≤ 1 ∧ k ≤ 6 ∧ (tlReq = 0 ∨ 5 ≤ tlReq ∧ tlReq ≤ 15) ∧ ckEn ≤ 1 ∧ strictTail ≤ 1 ∧ oneByteRle ≤ 1
    (¬legal →
      exec (.configure dir k tlReq ckEn strictTail oneByteRle) s = .next { s with result := .error .argConfig }) ∧
    (legal → ∀ cfg : Cfg,
      cfg.dir = (if dir = 0 then .compress else .decompress) → cfg.k = k → cfg.tlReq = tlReq →
      (cfg.ckEn = true ↔ ckEn = 1) → (cfg.strictTail = true ↔ strictTail = 1) →
      (cfg.oneByteRle = true ↔ oneByteRle = 1) →
      exec (.configure dir k tlReq ckEn strictTail oneByteRle) s
        = .next { State.sessionReset { s with cfg := cfg, configured := true } with result := .ok })

/-- 70_reset_and_hazards.md R180: the values RESET gives, the memories and tables unwritten, the configuration kept.
The registers the rule makes unwritten are not mentioned: their values are the model's choice (log 1). -/
def Obligations.ResetGivesInitialSession : Prop :=
  ∀ s : State, s.configured = true →
    ∃ t, exec .reset s = .next t ∧ t.result = .ok ∧ t.cfg = s.cfg ∧ t.configured = true ∧ t.pending = s.pending ∧
      t.fstate = .fileHeader ∧ t.stageLen = 0 ∧ t.cphase = .opened ∧ t.bufLen = 0 ∧ t.hdrDone = false ∧
      t.outLen = 0 ∧ t.outPos = 0 ∧ t.errcause = .none ∧ status t = .needInput ∧
      t.ck = ⟨0x24234428, 0x85EBCA77, 0, 0x61C8864F, 0, false, []⟩ ∧
      (∀ a, t.inStage.get? a = none ∧ t.blockBuf.get? a = none ∧ t.outBuf.get? a = none ∧ t.payBuf.get? a = none) ∧
      t.work.tablesUnwritten

/-- 70_reset_and_hazards.md R183: RESET is CONFIGURE with the current configuration, and twice is once; COMPLETE does
not reset a completed session. -/
def Obligations.ResetIsIdempotent : Prop :=
  ∀ s : State, s.configured = true → legalCfg s.cfg = true →
    (∃ t, exec .reset s = .next t ∧ exec .reset t = .next t ∧
      exec (.configure (if s.cfg.dir = .compress then 0 else 1) s.cfg.k s.cfg.tlReq (flagNum s.cfg.ckEn)
        (flagNum s.cfg.strictTail) (flagNum s.cfg.oneByteRle)) s = .next t) ∧
    (status s = .completed → ∀ bytes : List Byte, ∃ t, exec .complete s = .next t ∧ status t = .completed ∧
      exec (.setinput bytes) t = .next { t with result := .consumed 0 })

/-- 60_exceptions.md R164: the five checks in their order, each leaving every field but the result; the commands without an
argument error, and SETINPUT's 0 where no input is taken. The model's reading: that the wire elements and DRAIN, which
are no commands of R164, answer E_ARG_UNCONFIGURED as SETINPUT and OUTPUT do (log 5), and the queue of the first clause
(log 3). -/
def Obligations.CommandChecksChangeNothing : Prop :=
  (∀ (code : Byte) (ops : Operands) (rest : List Packet) (s : State),
    s.pending = .command code ops :: rest → (code.toNat = 0 ∨ 11 ≤ code.toNat) →
      step s = .next { s with pending := rest, result := .error .argCommand }) ∧
  (∀ (i : Instr) (s : State), s.configured = false → hostInstr i = true →
    (∀ dir k tlReq ckEn strictTail oneByteRle, i ≠ .configure dir k tlReq ckEn strictTail oneByteRle) →
      exec i s = .next { s with result := .error .argUnconfigured }) ∧
  (∀ (dir k tlReq ckEn strictTail oneByteRle : Nat) (s : State),
    2 ≤ dir ∨ 7 ≤ k ∨ (1 ≤ tlReq ∧ tlReq ≤ 4) ∨ 16 ≤ tlReq ∨ 2 ≤ ckEn ∨ 2 ≤ strictTail ∨ 2 ≤ oneByteRle →
      exec (.configure dir k tlReq ckEn strictTail oneByteRle) s = .next { s with result := .error .argConfig }) ∧
  (∀ (n : BitVec 17) (s : State), s.configured = true → s.outLen - s.outPos < n.toNat →
    exec (.advance n) s = .next { s with result := .error .argAdvance }) ∧
  (∀ s : State, s.configured = true → s.cfg.dir = .compress → status s ≠ .needInput →
    exec .flush s = .next { s with result := .error .argState } ∧
    exec .complete s = .next { s with result := .error .argState }) ∧
  (∀ s : State, s.configured = true → s.cfg.dir = .decompress → status s = .writeOutput →
    exec .complete s = .next { s with result := .error .argState }) ∧
  (∀ (bytes : List Byte) (i : Instr) (s t : State) (e : ErrCode), s.configured = true →
    i = .setinput bytes ∨ i = .state ∨ i = .output ∨ i = .need ∨ i = .errcause ∨ i = .reset →
      exec i s = .next t → t.result ≠ .error e) ∧
  (∀ (bytes : List Byte) (s : State), s.configured = true → status s ≠ .needInput →
    exec (.setinput bytes) s = .next { s with result := .consumed 0 })

/-! ### SETINPUT -/

/-- 47_container.md R142 and R147, 70_reset_and_hazards.md R186: outside `NeedInput` nothing is taken. -/
def Obligations.NoInputTakenOutsideNeedInput : Prop :=
  ∀ (bytes : List Byte) (s : State), s.configured = true → status s ≠ .needInput →
    exec (.setinput bytes) s = .next { s with result := .consumed 0 }

/-- 47_container.md R133: the bytes of a field that stays incomplete are held in `InStage`. -/
def Obligations.PartialFieldIsStaged : Prop :=
  ∀ (bytes : List Byte) (s : State), Inv s → s.configured = true → s.cfg.dir = .decompress →
    status s = .needInput → s.stageLen + bytes.length < fieldLength s →
      exec (.setinput bytes) s = .next { s with
        inStage := Memory.write s.inStage s.stageLen bytes, stageLen := s.stageLen + bytes.length
        result := .consumed bytes.length }

/-- 47_container.md R147 with R148: SETINPUT of the compressor, in a state that takes nothing, below a full block and
completing one. The cases of E_TABLE_SPREAD and of the assertions 93_implementation_defined.md I5 and I3 are the model's
reading (log 16). -/
def Obligations.CompressorInputFillsBlock : Prop :=
  ∀ (bytes : List Byte) (s : State), Inv s → s.configured = true → s.cfg.dir = .compress →
    let n := 1024 * 2 ^ s.cfg.k
    (¬Accepts s → exec (.setinput bytes) s = .next { s with result := .consumed 0 }) ∧
    (Accepts s → s.bufLen + bytes.length < n →
      exec (.setinput bytes) s = .next { s with
        blockBuf := Memory.write s.blockBuf s.bufLen bytes, bufLen := s.bufLen + bytes.length
        result := .consumed bytes.length }) ∧
    (Accepts s → n ≤ s.bufLen + bytes.length →
      ∀ (src : List Byte) (u : State),
        u = { s with blockBuf := Memory.write s.blockBuf s.bufLen (bytes.take (n - s.bufLen)), bufLen := n } →
        Memory.read u.blockBuf 0 n = .ok src →
        exec (.setinput bytes) s =
          match (compressBlock src s.cfg.tlReq s.cfg.oneByteRle).out with
          | .ok r => .next { afterEmit u src r with result := .consumed (n - s.bufLen) }
          | .error (.raise .normalize) => .next { afterBlockError u src .normalize with result := .consumed (n - s.bufLen) }
          | .error (.raise .tableSpread) =>
            .next { afterBlockError u src .tableSpread with result := .consumed (n - s.bufLen) }
          | .error (.raise _) => .fault .unitArgument
          | .error (.stuck f) => .fault f)

/-- 47_container.md R135, R136 and R137: the actions of the block-header fields, each where it stops short of content. No
table cell is written after the header byte (10_state.md R21, R22): that a block starts there is the model's reading
(log 24). -/
def Obligations.BlockHeaderFieldActions : Prop :=
  (∀ (h : Byte) (s : State), Expects s .blockType → 1 ≤ s.blockSize → ∃ w : Work, w.tablesUnwritten ∧
    let u := { s with inStage := Memory.write s.inStage 0 [h], work := w, result := .consumed 1 }
    let type := h.toNat / 64
    let full := h.toNat / 32 % 2 = 1
    let btype : BlockType := if type = 0 then .compressed else if type = 1 then .raw else .rle
    (type = 3 → exec (.setinput [h]) s = .next { u with
      btype := .crc, crcHi6 := BitVec.ofNat 6 (h.toNat % 64), fstate := .crcBlock }) ∧
    (type ≠ 3 → full → exec (.setinput [h]) s = .next { u with
      btype := btype, full := true, rawSize := s.blockSize
      fstate := if type = 0 then .compSize else .blockContent }) ∧
    (type ≠ 3 → ¬full → exec (.setinput [h]) s = .next { u with btype := btype, full := false, fstate := .rawSize })) ∧
  (∀ (b0 b1 : Byte) (s : State), Expects s .rawSize → s.btype ≠ .crc →
    let u := { s with inStage := Memory.write s.inStage 0 [b0, b1], result := .consumed 2 }
    let n := b0.toNat * 256 + b1.toNat
    (s.blockSize < n → exec (.setinput [b0, b1]) s = .next { u with
      rawSize := n, fstate := .invalidData, errcause := .rawSize }) ∧
    (n ≤ s.blockSize → s.btype = .raw → 1 ≤ n → exec (.setinput [b0, b1]) s = .next { u with
      rawSize := n, fstate := .blockContent }) ∧
    (n ≤ s.blockSize → s.btype = .rle → exec (.setinput [b0, b1]) s = .next { u with
      rawSize := n, fstate := .blockContent }) ∧
    (n ≤ s.blockSize → s.btype = .compressed → exec (.setinput [b0, b1]) s = .next { u with
      rawSize := n, fstate := .compSize })) ∧
  (∀ (b0 b1 : Byte) (s : State), Expects s .compSize → s.btype = .compressed → 1 ≤ b0.toNat * 256 + b1.toNat →
    exec (.setinput [b0, b1]) s = .next { s with
      inStage := Memory.write s.inStage 0 [b0, b1], cSize := b0.toNat * 256 + b1.toNat, fstate := .blockContent
      result := .consumed 2 })

/-- 47_container.md R159 (a), for one split point: a piece taken whole and then the next piece leave the state that both
offered as one leave; a piece not taken whole is where the longer offer stops too. -/
def Obligations.InputSplitIsNotObservable : Prop :=
  ∀ (x y : List Byte) (s t : State) (c : Nat), Inv s → s.configured = true → s.cfg.dir = .decompress →
    exec (.setinput x) s = .next t → t.result = .consumed c →
    (c < x.length → exec (.setinput (x ++ y)) s = .next t) ∧
    (c = x.length → ∀ (u : State) (d : Nat), exec (.setinput y) t = .next u → u.result = .consumed d →
      exec (.setinput (x ++ y)) s = .next { u with result := .consumed (c + d) })

/-! ### Wire elements -/

/-- An element is executed as its bytes offered through SETINPUT (30_encoding.md R41 to R47, 47_container.md R133): the
model's reading, log 5. -/
def Obligations.WireElementIsItsBytes : Prop :=
  ∀ (i : Instr) (bytes : List Byte) (s : State), encode i = .block bytes ∨ encode i = .fileHeader bytes →
    exec i s = exec (.setinput bytes) s

/-- 47_container.md R134 on a whole file header: the four outcomes, the tag checked before `k`. -/
def Obligations.FileHeaderIsChecked : Prop :=
  ∀ (tag : U32) (k : Byte) (s : State), Expects s .fileHeader →
    let u := { s with inStage := Memory.write s.inStage 0 (le32Bytes tag ++ [k]), result := .consumed 5 }
    exec (.fhdr tag k) s = .next (
      if tag = 0x183E3309 ∨ tag = 0x183E4309 then { u with fstate := .invalidData, errcause := .tagUnsupported }
      else if tag ≠ 0x183E2309 then { u with fstate := .invalidData, errcause := .tagUnknown }
      else if 6 < k.toNat then { u with fstate := .invalidData, errcause := .blockSizeId }
      else { u with blockSize := 1024 * 2 ^ k.toNat, fstate := .blockType })

/-- 47_container.md R138 with R135 and R136: a Raw block, not full and full; it leaves no table cell written (10_state.md
R21, R22; that a block starts at its header byte is log 24). -/
def Obligations.RawBlockDeliversItsBytes : Prop :=
  ∀ (reserved : BitVec 5) (s : State), Expects s .blockType → ∃ w : Work, w.tablesUnwritten ∧
    (∀ (rawSize : BitVec 16) (data : List Byte), data.length = rawSize.toNat →
      let m := Memory.write (Memory.write s.inStage 0 [headerByte 1 false reserved]) 0 (be16Bytes rawSize)
      (s.blockSize < rawSize.toNat →
        exec (.blkRaw reserved rawSize data) s = .next { s with
          inStage := m, work := w, btype := .raw, full := false, rawSize := rawSize.toNat
          fstate := .invalidData, errcause := .rawSize, result := .consumed 3 }) ∧
      (rawSize.toNat ≤ s.blockSize →
        exec (.blkRaw reserved rawSize data) s = .next { s with
          inStage := Memory.write m 0 data, work := w, btype := .raw, full := false, rawSize := rawSize.toNat
          outBuf := Memory.write s.outBuf 0 data, outPos := 0, outLen := rawSize.toNat
          ck := if s.cfg.ckEn then ckFold s.ck data else s.ck
          result := .consumed (3 + data.length) })) ∧
    (∀ data : List Byte, data.length = s.blockSize → s.blockSize ≤ 65536 →
      exec (.blkRawF reserved data) s = .next { s with
        inStage := Memory.write (Memory.write s.inStage 0 [headerByte 1 true reserved]) 0 data
        work := w, btype := .raw, full := true, rawSize := s.blockSize
        outBuf := Memory.write s.outBuf 0 data, outPos := 0, outLen := s.blockSize
        ck := if s.cfg.ckEn then ckFold s.ck data else s.ck
        result := .consumed (1 + data.length) })

/-- 47_container.md R139 with R135 and R136: an Rle block, not full and full; it leaves no table cell written (10_state.md
R21, R22; that a block starts at its header byte is log 24). -/
def Obligations.RleBlockDeliversCopies : Prop :=
  ∀ (reserved : BitVec 5) (b : Byte) (s : State), Expects s .blockType → ∃ w : Work, w.tablesUnwritten ∧
    (∀ rawSize : BitVec 16,
      let m := Memory.write (Memory.write s.inStage 0 [headerByte 2 false reserved]) 0 (be16Bytes rawSize)
      (s.blockSize < rawSize.toNat →
        exec (.blkRle reserved rawSize b) s = .next { s with
          inStage := m, work := w, btype := .rle, full := false, rawSize := rawSize.toNat
          fstate := .invalidData, errcause := .rawSize, result := .consumed 3 }) ∧
      (rawSize.toNat ≤ s.blockSize →
        exec (.blkRle reserved rawSize b) s = .next { s with
          inStage := Memory.write m 0 [b], work := w, btype := .rle, full := false, rawSize := rawSize.toNat
          outBuf := Memory.write s.outBuf 0 (List.replicate rawSize.toNat b), outPos := 0, outLen := rawSize.toNat
          ck := if s.cfg.ckEn then ckFold s.ck (List.replicate rawSize.toNat b) else s.ck
          result := .consumed 4 })) ∧
    (s.blockSize ≤ 65536 →
      exec (.blkRleF reserved b) s = .next { s with
        inStage := Memory.write (Memory.write s.inStage 0 [headerByte 2 true reserved]) 0 [b]
        work := w, btype := .rle, full := true, rawSize := s.blockSize
        outBuf := Memory.write s.outBuf 0 (List.replicate s.blockSize b), outPos := 0, outLen := s.blockSize
        ck := if s.cfg.ckEn then ckFold s.ck (List.replicate s.blockSize b) else s.ck
        result := .consumed 2 })

/-- 47_container.md R140 with R135 to R137: a Compressed block, not full and full, whose payload decodes or raises an
error; an error queues and folds nothing (60_exceptions.md R162). A raw size that is refused leaves no table cell
written (10_state.md R21, R22; that a block starts at its header byte is log 24). -/
def Obligations.CompressedBlockDeliversOrFails : Prop :=
  ∀ (reserved : BitVec 5) (cSize : BitVec 16) (payload : List Byte) (s : State), Expects s .blockType →
    payload.length = cSize.toNat → s.blockSize ≤ 65536 → ∃ w : Work, w.tablesUnwritten ∧
    (∀ rawSize : BitVec 16,
      let m := Memory.write (Memory.write s.inStage 0 [headerByte 0 false reserved]) 0 (be16Bytes rawSize)
      let run := decompressBlock payload rawSize.toNat s.cfg.strictTail
      let u := { s with
        inStage := Memory.write (Memory.write m 0 (be16Bytes cSize)) 0 payload
        btype := .compressed, full := false, rawSize := rawSize.toNat, cSize := cSize.toNat, work := run.work
        result := .consumed (5 + payload.length) }
      (s.blockSize < rawSize.toNat →
        exec (.blkCmp reserved rawSize cSize payload) s = .next { s with
          inStage := m, work := w, btype := .compressed, full := false, rawSize := rawSize.toNat
          fstate := .invalidData, errcause := .rawSize, result := .consumed 3 }) ∧
      (rawSize.toNat ≤ s.blockSize → ∀ content, run.out = .ok content →
        exec (.blkCmp reserved rawSize cSize payload) s = .next { u with
          outBuf := Memory.write s.outBuf 0 content, outPos := 0, outLen := rawSize.toNat
          ck := if s.cfg.ckEn then ckFold s.ck content else s.ck }) ∧
      (rawSize.toNat ≤ s.blockSize → ∀ e, run.out = .error (.raise e) →
        exec (.blkCmp reserved rawSize cSize payload) s = .next { u with fstate := .invalidData, errcause := e })) ∧
    (let run := decompressBlock payload s.blockSize s.cfg.strictTail
      let u := { s with
        inStage := Memory.write (Memory.write (Memory.write s.inStage 0 [headerByte 0 true reserved]) 0 (be16Bytes cSize))
          0 payload
        btype := .compressed, full := true, rawSize := s.blockSize, cSize := cSize.toNat, work := run.work
        result := .consumed (3 + payload.length) }
      (∀ content, run.out = .ok content →
        exec (.blkCmpF reserved cSize payload) s = .next { u with
          outBuf := Memory.write s.outBuf 0 content, outPos := 0, outLen := s.blockSize
          ck := if s.cfg.ckEn then ckFold s.ck content else s.ck }) ∧
      (∀ e, run.out = .error (.raise e) →
        exec (.blkCmpF reserved cSize payload) s = .next { u with fstate := .invalidData, errcause := e }))

/-- 47_container.md R141 with R135, and 46_checksum.md R126: the Crc block ends the stream, or a mismatch is fatal; it
leaves no table cell written (10_state.md R21, R22; that a Crc block too starts at its header byte is log 24). -/
def Obligations.CrcBlockComparesChecksum : Prop :=
  ∀ (hi : BitVec 6) (lo : BitVec 16) (s : State), Expects s .blockType → ∃ w : Work, w.tablesUnwritten ∧
    let u := { s with
      inStage := Memory.write (Memory.write s.inStage 0 [crcHeaderByte hi]) 0 (be16Bytes lo)
      work := w, btype := .crc, crcHi6 := hi, result := .consumed 3 }
    exec (.blkCrc hi lo) s = .next (
      if s.cfg.ckEn = true ∧ hi.toNat * 2 ^ 16 + lo.toNat ≠ (ckHash s.ck).toNat / 32 % 2 ^ 22 then
        { u with fstate := .invalidChecksum, errcause := .checksum }
      else { u with fstate := .completed })

/-- 47_container.md R149: FRAME, byte by byte. -/
def Obligations.FrameWritesBlockForms : Prop :=
  ∀ (src p : List Byte) (b : Byte) (n : Nat),
    let be (x : Nat) : List Byte := [BitVec.ofNat 8 (x / 256), BitVec.ofNat 8 x]
    (src.length = n →
      frame (.cmp p) src n = 0x20 :: (be p.length ++ p) ∧ frame (.rle b) src n = [0xA0, b] ∧
      frame .raw src n = 0x60 :: src) ∧
    (src.length ≠ n →
      frame (.cmp p) src n = 0x00 :: (be src.length ++ (be p.length ++ p)) ∧
      frame (.rle b) src n = 0x80 :: (be src.length ++ [b]) ∧
      frame .raw src n = 0x40 :: (be src.length ++ src))

/-! ### Bit streams -/

/-- 40_bitstream.md R60, R61 and R62: BW.INIT, BW.ADD with its assertion, BW.FLUSH. -/
def Obligations.WriterAppendsBits : Prop :=
  ∀ s : State,
    (∀ cap, ∃ wr : Writer, exec (.bwInit cap) s = .next { s with work := { s.work with writer := wr }, result := .ok } ∧
      wr.w.len = 0 ∧ wr.ovf = false ∧ wr.wcap = cap) ∧
    (∀ (value : U32) (width : Nat), width ≤ 32 →
      ∃ wr : Writer,
        exec (.bwAdd value width) s = .next { s with work := { s.work with writer := wr }, result := .ok } ∧
        wr.w.len = s.work.writer.w.len + width ∧ wr.wcap = s.work.writer.wcap ∧
        (wr.ovf = true ↔ s.work.writer.ovf = true ∨ wr.wcap < (wr.w.len + 7) / 8) ∧
        (∀ j, j < s.work.writer.w.len → wr.w.bit j = s.work.writer.w.bit j) ∧
        (∀ j, j < width → wr.w.bit (s.work.writer.w.len + j) = value.getLsbD j)) ∧
    (∀ (value : U32) (width : Nat), 32 < width → exec (.bwAdd value width) s = .fault .widthAssertion) ∧
    exec .bwFlush s = .next { s with result := .ok }

/-- 40_bitstream.md R63 and R64: BW.CLOSE gives the bits, the end mark and 0 bits to the byte boundary, and stores no
byte beyond the capacity. That its bytes go to `PayBuf` from 65536 - `wcap` is the model's reading of R60 (log 14). -/
def Obligations.WriterCloseGivesBytes : Prop :=
  ∀ s : State, s.work.writer.wcap ≤ 65536 →
    ∃ (wr : Writer) (bs : List Byte),
      exec .bwClose s = .next { s with
        work := { s.work with writer := wr }
        payBuf := Memory.write s.payBuf (65536 - s.work.writer.wcap) (bs.take s.work.writer.wcap)
        result := .closed bs wr.ovf } ∧
      bs.length = s.work.writer.w.len / 8 + 1 ∧ wr.w.len = 8 * bs.length ∧ wr.wcap = s.work.writer.wcap ∧
      (wr.ovf = true ↔ s.work.writer.ovf = true ∨ wr.wcap < bs.length) ∧
      ∀ j, j < 8 * bs.length → wr.w.bit j = (bs.getD (j / 8) 0).getLsbD (j % 8) ∧
        wr.w.bit j = (if j < s.work.writer.w.len then s.work.writer.w.bit j else decide (j = s.work.writer.w.len))

/-- 40_bitstream.md R65: BR.INIT finds the end mark, or raises one of two errors. -/
def Obligations.ReaderInitFindsEndMark : Prop :=
  ∀ (buf : List Byte) (s : State),
    (buf = [] → exec (.brInit buf) s = .next { s with result := .error .streamEmpty }) ∧
    (∀ front, buf = front ++ [0] → exec (.brInit buf) s = .next { s with result := .error .streamNoSentinel }) ∧
    (∀ front (last : Byte), buf = front ++ [last] → last ≠ 0 →
      ∃ r : Reader, exec (.brInit buf) s = .next { s with work := { s.work with reader := r }, result := .ok } ∧
        r.w.len = 8 * buf.length ∧ (∀ j, r.w.bit j = (buf.getD (j / 8) 0).getLsbD (j % 8)) ∧
        8 * front.length ≤ r.p ∧ r.w.bit r.p = true ∧ ∀ j, r.p < j → r.w.bit j = false)

/-- 40_bitstream.md R66, R67 and R68: BR.READ, BR.PEEK and BR.SKIP. -/
def Obligations.ReaderReadsFromTheEnd : Prop :=
  ∀ (n : Nat) (s : State),
    let r := s.work.reader
    (r.p < n →
      exec (.brRead n) s = .next { s with result := .error .streamExhausted } ∧
      exec (.brPeek n) s = .next { s with result := .error .streamExhausted } ∧
      exec (.brSkip n) s = .next { s with result := .error .streamExhausted }) ∧
    (n ≤ r.p →
      ∃ v : Nat, (∀ i, v.testBit i = (decide (i < n) && r.w.bit (r.p - n + i))) ∧
        exec (.brRead n) s = .next { s with work := { s.work with reader := ⟨r.w, r.p - n⟩ }, result := .value v } ∧
        exec (.brPeek n) s = .next { s with result := .value v } ∧
        exec (.brSkip n) s = .next { s with work := { s.work with reader := ⟨r.w, r.p - n⟩ }, result := .ok })

/-- 40_bitstream.md R69: fields written and closed are read back in the opposite order, and no bit is left. -/
def Obligations.WriteThenReadBack : Prop :=
  ∀ (fields : List (U32 × Nat)) (cap : Nat) (s : State), (∀ f ∈ fields, f.2 ≤ 16) → cap ≤ 65536 →
    ∃ (rs : List Result) (bs : List Byte) (ovf : Bool) (t u v : State),
      results (.bwInit cap :: (fields.map fun f => Instr.bwAdd f.1 f.2) ++ [.bwClose]) s = some (rs, t) ∧
      t.result = .closed bs ovf ∧
      exec (.brInit bs) t = .next u ∧ u.work.reader.p = (fields.map fun f => f.2).sum ∧
      results (fields.reverse.map fun f => .brRead f.2) u
        = some (fields.reverse.map fun f => .value (f.1.toNat % 2 ^ f.2), v) ∧
      v.work.reader.p = 0

/-- 40_bitstream.md R62: the accumulator realisation produces the bytes of R63. -/
def Obligations.AccumulatorWriterProducesSameBytes : Prop :=
  ∀ (fields : List (Nat × Nat)) (cap : Nat), (∀ f ∈ fields, f.2 ≤ 32) →
    accClose (fields.foldl (fun a f => accAdd a f.1 f.2) accInit)
      = (writerClose (fields.foldl (fun w f => w.put f.1 f.2) (writerInit cap))).bytes

/-! ### Histogram and normalizer -/

/-- 41_histogram.md R70 and R71: HIST.COUNT. -/
def Obligations.HistogramCountsSymbols : Prop :=
  ∀ (src : List Byte) (msvIn : Byte) (strict : Bool) (s : State),
    ∃ h : Hist, h.count.length = 256 ∧ (∀ b : Byte, h.count[b.toNat]? = some (src.count b)) ∧
      h.count.sum = src.length ∧
      (src = [] → h.msv = 0 ∧ h.largest = 0) ∧
      (src ≠ [] → (BitVec.ofNat 8 h.msv) ∈ src ∧ h.msv ≤ 255 ∧ (∀ b ∈ src, b.toNat ≤ h.msv) ∧
        (∃ b, src.count b = h.largest) ∧ ∀ b : Byte, src.count b ≤ h.largest) ∧
      (strict = false ∨ (∀ b ∈ src, b.toNat ≤ msvIn.toNat) →
        exec (.histCount src src.length msvIn strict) s
          = .next { s with work := { s.work with hist := h }, result := .ok }) ∧
      (strict = true → (∃ b ∈ src, msvIn.toNat < b.toNat) →
        ∃ t, exec (.histCount src src.length msvIn strict) s = .next t ∧ t.result = .error .argHistRange ∧
          t = { s with work := { s.work with hist := t.work.hist }, result := t.result })

/-- 41_histogram.md R73: the four-lane method counts what the direct method counts. -/
def Obligations.FourLaneHistogramIsDirect : Prop := ∀ src : List Byte, laneCounts src = countBytes src

/-- 42_normalizer.md R75 and R76: the two table-log operations and the bounds of their results. -/
def Obligations.TableLogChoiceIsBounded : Prop :=
  ∀ (req n msv : Nat) (s : State), 1 ≤ n → n ≤ 65536 → 1 ≤ msv → msv ≤ 255 → (req = 0 ∨ 5 ≤ req ∧ req ≤ 15) →
    let minTl := min (Nat.log2 n + 1) (Nat.log2 msv + 2)
    let wanted := if req = 0 then 11 else req
    exec (.normMinlog n msv) s = .next { s with result := .value minTl } ∧ minTl ≤ 9 ∧
    (2 ≤ n → ∃ tl,
      exec (.normOptlog req n msv) s = .next { s with work := { s.work with tl := tl }, result := .value tl } ∧
      5 ≤ tl ∧ tl ≤ 15 ∧ minTl ≤ tl ∧
      (n ≤ 4 → tl = max wanted minTl) ∧
      (5 ≤ n → tl = max (max (min wanted (Nat.log2 (n - 1) - 2)) minTl) 5 ∧ tl ≤ 13))

/-- 42_normalizer.md R77 and R82: the argument checks of NORM.NORMALIZE, made before anything is written, and the RLE
signal of a symbol that is the whole block, which writes the 0 of the symbols before it and `tl` (log 12). For the block of
repeated symbol 0 (`msv = 0`) that R77's third check is passed is the model's choice (log 26). -/
def Obligations.NormalizeChecksAndRleSignal : Prop :=
  ∀ (count : List Nat) (total msv tl : Nat) (s : State), isCounts count total msv = true →
    let tl' := if tl = 0 then 11 else tl
    let legal := 5 ≤ tl' ∧ tl' ≤ 15 ∧ min (Nat.log2 total + 1) (Nat.log2 msv + 2) ≤ tl'
    (¬legal → exec (.normNormalize count total msv tl) s = .next { s with result := .error .argTableLog }) ∧
    (legal → total ∈ count →
      let i := count.idxOf total
      exec (.normNormalize count total msv tl) s
        = .next { s with
          work := { s.work with norm := List.replicate i 0 ++ s.work.norm.drop i, tl := tl' }, result := .rleSignal })

/-- 42_normalizer.md R79, R80, R83 and R84: what NORM.NORMALIZE returns otherwise. It answers a distribution where the
residual test fails, which is then R79's weights with the residual added to the first largest, and where R81's first pass
assigns every symbol; where it raises E_NORMALIZE it has written `norm[0..msv]` and `tl` and nothing else
(60_exceptions.md R162; log 12). -/
def Obligations.NormalizeKeepsSlotSum : Prop :=
  ∀ (count : List Nat) (total msv tl : Nat) (s : State), isCounts count total msv = true → total ∉ count →
    let tl' := if tl = 0 then 11 else tl
    5 ≤ tl' → tl' ≤ 15 → min (Nat.log2 total + 1) (Nat.log2 msv + 2) ≤ tl' →
      let weight (c : Nat) : Int :=
        let x := c * (2 ^ 62 / total)
        let proba := x / 2 ^ (62 - tl')
        let bias := [0, 473195, 504333, 520860, 550000, 700000, 750000, 830000].getD proba 0
        if c = 0 then 0
        else if c ≤ total / 2 ^ tl' then -1
        else if proba < 8 ∧ 2 ^ (42 - tl') * bias < x - proba * 2 ^ (62 - tl') then proba + 1
        else proba
      let primary := count.map weight
      let still : Int := 2 ^ tl' - ((primary.map slots).sum : Nat)
      let top := primary.foldl max 0
      let filled := ∃ norm : List Int,
        exec (.normNormalize count total msv tl) s
          = .next { s with
            work := { s.work with norm := norm ++ s.work.norm.drop (msv + 1), tl := tl' }, result := .ok } ∧
        (-still < top / 2 → norm = primary.set (primary.idxOf top) (top + still)) ∧
        norm.length = msv + 1 ∧ (norm.map slots).sum = 2 ^ tl' ∧
        ∀ i, i ≤ msv →
          (norm.getD i 0 = 0 ↔ count.getD i 0 = 0) ∧
          (norm.getD i 0 = -1 → count.getD i 0 ≤ total / 2 ^ tl') ∧
          -1 ≤ norm.getD i 0 ∧ norm.getD i 0 < 2 ^ tl'
      (-still < top / 2 ∨ (∀ c ∈ count, c ≤ total * 3 / 2 ^ (tl' + 1)) → filled) ∧
      (filled ∨ ∃ norm : List Int, norm.length = msv + 1 ∧
        exec (.normNormalize count total msv tl) s
          = .next { s with
            work := { s.work with norm := norm ++ s.work.norm.drop (msv + 1), tl := tl' }
            result := .error .normalize })

/-- 42_normalizer.md R81: NORM.M2 completes on all counts, at most the register of its `distributed = msv + 1` ending holding
a weight below -1, so no mark -2 (that a free value stands in its place is the model's choice, logs 12 and 27). On its own operands it gives a distribution that fills the table and
every present symbol a slot, or E_NORMALIZE, `norm[0..msv]` alone written (60_exceptions.md R162; log 12); the
distribution when the first pass assigns every symbol. -/
def Obligations.FallbackFillsTable : Prop :=
  (∀ (tl : Nat) (count : List Nat) (total msv : Nat) (s : State), count.length = msv + 1 → ∃ norm : List Int, ∃ r : Result,
    (r = .ok ∨ r = .error .normalize) ∧ norm.length = msv + 1 ∧ (∀ w ∈ norm, -32768 ≤ w ∧ w ≤ 32768) ∧
    ((∃ w ∈ norm, w < -1) → r = .ok ∧ (∀ c ∈ count, c ≠ 0) ∧ (norm.filter fun w => w < -1).length = 1) ∧
    exec (.normM2 tl count total msv) s
      = .next { s with work := { s.work with norm := norm ++ s.work.norm.drop (msv + 1) }, result := r }) ∧
  ∀ (tl : Nat) (count : List Nat) (total msv : Nat) (s : State), WellFormed (.normM2 tl count total msv) = true →
    let filled := ∃ norm : List Int,
      exec (.normM2 tl count total msv) s
        = .next { s with work := { s.work with norm := norm ++ s.work.norm.drop (msv + 1) }, result := .ok } ∧
      norm.length = msv + 1 ∧ (norm.map slots).sum = 2 ^ tl ∧
      ∀ i, i ≤ msv →
        (norm.getD i 0 = 0 ↔ count.getD i 0 = 0) ∧
        (norm.getD i 0 = -1 → 1 ≤ count.getD i 0 ∧ count.getD i 0 ≤ total / 2 ^ tl) ∧ -1 ≤ norm.getD i 0
    (filled ∨ ∃ norm : List Int, norm.length = msv + 1 ∧
      exec (.normM2 tl count total msv) s
        = .next { s with
          work := { s.work with norm := norm ++ s.work.norm.drop (msv + 1) }, result := .error .normalize }) ∧
    ((∀ c ∈ count, c ≤ total * 3 / 2 ^ (tl + 1)) → filled)

/-! ### NCount header -/

/-- 43_ncount.md R94, with R89 for the length: a header written is read back, whatever bytes follow it. -/
def Obligations.NCountHeaderRoundTrip : Prop :=
  ∀ (norm : List Int) (msv tl : Nat) (rest : List Byte) (s : State), IsDist norm msv tl → norm.getD msv 0 ≠ 0 →
    ∃ bs : List Byte, bs.length < 600 ∧
      exec (.ncWrite norm msv tl) s
        = .next { s with payBuf := Memory.write s.payBuf 0 bs, result := .bytes bs } ∧
      exec (.ncRead (bs ++ rest)) s
        = .next { s with
          work := { s.work with norm := norm ++ List.replicate (256 - norm.length) 0, tl := tl }
          result := .header msv bs.length }

/-- 43_ncount.md R91 to R94: NC.READ of any bytes completes, with one of four errors or with a distribution that fills
the table. On an error `norm` and the `tl` of the first four bits stay written and nothing else is (60_exceptions.md R162;
log 12); an illegal `tl` leaves a free value of its register's range (log 12). -/
def Obligations.NCountReaderIsTotal : Prop :=
  ∀ (buf : List Byte) (s : State),
    (∃ (e : ErrCode) (norm : List Int) (tl : Nat),
      (e = .ncountOverrun ∨ e = .ncountTableLog ∨ e = .ncountSymbol ∨ e = .ncountRemaining) ∧ norm.length = 256 ∧
      (buf = [] → e = .ncountOverrun ∧ tl = s.work.tl) ∧
      (∀ b rest, buf = b :: rest →
        (e = .ncountTableLog ↔ 15 < b.toNat % 16 + 5) ∧ 5 ≤ tl ∧ tl ≤ 15 ∧ (e ≠ .ncountTableLog → tl = b.toNat % 16 + 5)) ∧
      exec (.ncRead buf) s
        = .next { s with work := { s.work with norm := norm, tl := tl }, result := .error e }) ∨
    ∃ (norm : List Int) (msv tl hlen : Nat), IsDist norm msv tl ∧ norm.getD msv 0 ≠ 0 ∧ hlen ≤ buf.length ∧
      exec (.ncRead buf) s
        = .next { s with
          work := { s.work with norm := norm ++ List.replicate (256 - norm.length) 0, tl := tl }
          result := .header msv hlen }

/-! ### Tables -/

/-- 44_tables.md R96 and R97: TB.SPREAD completes on every distribution that fills the table; each symbol holds its
number of slots, the low-probability symbols stand at the top in symbol order, and the others, each as often as its
weight and in symbol order, stand where the walk from slot 0 by the step comes, without the slots at the top. -/
def Obligations.SpreadFillsEverySlot : Prop :=
  ∀ (norm : List Int) (msv tl : Nat) (s : State), IsDist norm msv tl →
    ∃ table : List Byte,
      exec (.tbSpread norm msv tl) s
        = .next { s with work := { s.work with tableSymbol := table.map some }, result := .ok } ∧
      table.length = 2 ^ tl ∧
      (∀ b : Byte, table.count b = slots (norm.getD b.toNat 0)) ∧
      let low := (norm.filter fun w => w == -1).length
      let walk := ((List.range (2 ^ tl)).map fun j => j * (2 ^ tl / 2 + 2 ^ tl / 8 + 3) % 2 ^ tl).filter fun p =>
        p < 2 ^ tl - low
      let placed : List Byte := (List.range (msv + 1)).flatMap fun i =>
        List.replicate (norm.getD i 0).toNat (BitVec.ofNat 8 i)
      (∀ k, k < low →
        table[2 ^ tl - 1 - k]? = (((List.range (msv + 1)).filter fun i => norm.getD i 0 == -1).map (BitVec.ofNat 8))[k]?) ∧
      ∀ k p : Nat, walk[k]? = some p → table[p]? = placed[k]?

/-- 44_tables.md R98 to R101: TB.CTABLE completes, on the spread's table, with the entries the rules give. The model's reading
(log 18): that the new table has no `symbolTT` cell above `msv`, whatever an older one had, and that `deltaFindState` of a
symbol of weight 0 is held as absent. -/
def Obligations.EncodeTableEntries : Prop :=
  ∀ (norm : List Int) (msv tl : Nat) (s : State), IsDist norm msv tl →
    ∃ (table : List Byte) (ct : CTable),
      exec (.tbSpread norm msv tl) s
        = .next { s with work := { s.work with tableSymbol := table.map some }, result := .ok } ∧
      exec (.tbCtable norm msv tl) s
        = .next { s with work := { s.work with tableSymbol := table.map some, ct := ct }, result := .ok } ∧
      ct.tl = tl ∧ ct.msv = msv ∧ ct.stateTable.length = 2 ^ tl ∧ ct.symbolTT.length = msv + 1 ∧
      let cumul (i : Nat) := ((norm.take i).map slots).sum
      (∀ i, i ≤ msv → ct.cumul[i]? = some (cumul i)) ∧ ct.cumul[msv + 1]? = some (2 ^ tl + 1) ∧
      (∀ u b, table[u]? = some b →
        ct.stateTable[cumul b.toNat + (table.take u).count b]? = some (some (2 ^ tl + u))) ∧
      ∀ i, i ≤ msv →
        let w := norm.getD i 0
        let mbo := tl - Nat.log2 (w.toNat - 1)
        (w = 0 → ct.symbolTT[i]? = some ⟨BitVec.ofNat 32 ((tl + 1) * 2 ^ 16 - 2 ^ tl), none⟩) ∧
        (w = -1 ∨ w = 1 →
          ct.symbolTT[i]? = some ⟨BitVec.ofNat 32 (tl * 2 ^ 16 - 2 ^ tl), some ((cumul i : Int) - 1)⟩) ∧
        (2 ≤ w → ct.symbolTT[i]? = some ⟨BitVec.ofNat 32 (mbo * 2 ^ 16 - w.toNat * 2 ^ mbo), some ((cumul i : Int) - w)⟩)

/-- 44_tables.md R102 and R104, and the bound of R103: TB.DTABLE completes, on the spread's table, with the entries the
rules give. That its spread writes the one `tableSymbol` RAM is the model's reading (log 18). -/
def Obligations.DecodeTableEntries : Prop :=
  ∀ (norm : List Int) (msv tl : Nat) (s : State), IsDist norm msv tl →
    ∃ (table : List Byte) (dt : DTable),
      exec (.tbSpread norm msv tl) s
        = .next { s with work := { s.work with tableSymbol := table.map some }, result := .ok } ∧
      exec (.tbDtable norm msv tl) s
        = .next { s with work := { s.work with tableSymbol := table.map some, dt := dt }, result := .ok } ∧
      dt.entries.length = 2 ^ tl ∧ dt.symbolNext = norm.map (fun w => 2 * slots w) ∧
      ∀ u b, table[u]? = some b →
        let x := slots (norm.getD b.toNat 0) + (table.take u).count b
        let nb := tl - Nat.log2 x
        dt.entries[u]? = some ⟨b, nb, x * 2 ^ nb - 2 ^ tl⟩ ∧ 2 ^ tl ≤ x * 2 ^ nb ∧ x * 2 ^ nb - 2 ^ tl + 2 ^ nb ≤ 2 ^ tl

/-! ### Block codec -/

/-- 45_block_codec.md R105 and R106: FSE.INITC gives the lowest slot of the symbol (a symbol without a slot is an
assertion, 93_implementation_defined.md I6); FSE.ENCSYM writes the low `nb` bits of `V` as BW.ADD does (40_bitstream.md
R61) and follows `stateTable`. -/
def Obligations.EncoderSteps : Prop :=
  ∀ (j : Bool) (b : Byte) (s : State),
    (some b ∉ s.work.tableSymbol → exec (.fseInitc j b) s = .fault .absentSymbol) ∧
    (∀ u, s.work.tableSymbol[u]? = some (some b) → (∀ u', u' < u → s.work.tableSymbol[u']? ≠ some (some b)) →
      exec (.fseInitc j b) s = .next { s with
        work := { s.work with
          v0 := if j then s.work.v0 else 2 ^ s.work.ct.tl + u, v1 := if j then 2 ^ s.work.ct.tl + u else s.work.v1 }
        result := .value (2 ^ s.work.ct.tl + u) }) ∧
    (∀ (v v' : Nat) (dnb : U32) (dfs : Int), s.work.ct.symbolTT[b.toNat]? = some ⟨dnb, some dfs⟩ →
      let nb := (v + dnb.toNat) % 2 ^ 32 / 2 ^ 16
      nb ≤ 32 → 0 ≤ ((v / 2 ^ nb : Nat) : Int) + dfs →
      s.work.ct.stateTable[(((v / 2 ^ nb : Nat) : Int) + dfs).toNat]? = some (some v') →
        ∃ wr : Writer,
          exec (.fseEncsym j v b) s = .next { s with
            work := { s.work with
              v0 := if j then s.work.v0 else v', v1 := if j then v' else s.work.v1, writer := wr }
            result := .value v' } ∧
          wr.w.len = s.work.writer.w.len + nb ∧ wr.wcap = s.work.writer.wcap ∧
          (wr.ovf = true ↔ s.work.writer.ovf = true ∨ wr.wcap < (wr.w.len + 7) / 8) ∧
          (∀ i, i < s.work.writer.w.len → wr.w.bit i = s.work.writer.w.bit i) ∧
          ∀ i, i < nb → wr.w.bit (s.work.writer.w.len + i) = v.testBit i)

/-- 44_tables.md R103 and 45_block_codec.md R107: on tables of one distribution, FSE.ENCSYM completes for every state
value and every present symbol, writes at most `tl` bits, and the decode entry of the slot it reaches undoes it; every
entry leads to a state of the table. -/
def Obligations.DecodeEntryUndoesEncodeStep : Prop :=
  ∀ (norm : List Int) (msv tl v : Nat) (b : Byte) (j : Bool) (s : State), IsDist norm msv tl →
    b.toNat ≤ msv → norm.getD b.toNat 0 ≠ 0 → 2 ^ tl ≤ v → v < 2 * 2 ^ tl →
    ∃ (rs : List Result) (t u : State) (v' nb newState : Nat),
      results [.tbCtable norm msv tl, .tbDtable norm msv tl] s = some (rs, t) ∧
      (∀ e ∈ t.work.dt.entries, e.newState + 2 ^ e.nbBits ≤ 2 ^ tl) ∧
      exec (.fseEncsym j v b) t = .next u ∧ u.result = .value v' ∧ 2 ^ tl ≤ v' ∧ v' < 2 * 2 ^ tl ∧
      nb ≤ tl ∧ u.work.writer.w.len = s.work.writer.w.len + nb ∧
      t.work.dt.entries[v' - 2 ^ tl]? = some ⟨b, nb, newState⟩ ∧ newState + v % 2 ^ nb = v - 2 ^ tl

/-- 45_block_codec.md R109 and R110: FSE.INITD and FSE.DECSYM. That an unwritten entry stops FSE.DECSYM is
93_implementation_defined.md I3, with a table RAM held as the list of its cells (logs 2 and 16). -/
def Obligations.DecoderSteps : Prop :=
  ∀ (j : Bool) (s : State),
    let r := s.work.reader
    (∀ tl, r.p < tl → exec (.fseInitd j tl) s = .next { s with result := .error .streamExhausted }) ∧
    (∀ tl, tl ≤ r.p → ∃ v : Nat, (∀ i, v.testBit i = (decide (i < tl) && r.w.bit (r.p - tl + i))) ∧
      exec (.fseInitd j tl) s = .next { s with
        work := { s.work with
          s0 := if j then s.work.s0 else v, s1 := if j then v else s.work.s1, reader := ⟨r.w, r.p - tl⟩ }
        result := .value v }) ∧
    (∀ st, s.work.dt.entries[st]? = none → ∀ update, exec (.fseDecsym j st update) s = .fault .tableUnwritten) ∧
    (∀ st e, s.work.dt.entries[st]? = some e →
      exec (.fseDecsym j st false) s = .next { s with
        work := { s.work with s0 := if j then s.work.s0 else st, s1 := if j then st else s.work.s1 }
        result := .symbol e.symbol st } ∧
      (r.p < e.nbBits → exec (.fseDecsym j st true) s = .next { s with result := .error .streamExhausted }) ∧
      (e.nbBits ≤ r.p →
        ∃ v : Nat, (∀ i, v.testBit i = (decide (i < e.nbBits) && r.w.bit (r.p - e.nbBits + i))) ∧
          exec (.fseDecsym j st true) s = .next { s with
            work := { s.work with
              s0 := if j then s.work.s0 else e.newState + v, s1 := if j then e.newState + v else s.work.s1
              reader := ⟨r.w, r.p - e.nbBits⟩ }
            result := .symbol e.symbol (e.newState + v) }))

/-- 45_block_codec.md R108 and R111: on tables of one distribution, what FSE.ENCODE writes of a block of present
symbols, FSE.DECODE reads back with no bit left over. The model's reading: that the bytes go to `PayBuf` from 65536 - `cap`
(log 14), and a block of fewer than the three symbols of R108, which has the effect its pseudocode gives (log 15), a state
without a symbol being a free value (log 27). -/
def Obligations.EncodedBlockDecodes : Prop :=
  ∀ (norm : List Int) (msv tl cap : Nat) (src : List Byte) (s : State), IsDist norm msv tl → cap ≤ 65536 →
    (∀ b ∈ src, b.toNat ≤ msv ∧ norm.getD b.toNat 0 ≠ 0) →
    ∃ (rs : List Result) (t u v : State) (bs : List Byte) (ovf : Bool),
      results [.tbCtable norm msv tl, .tbDtable norm msv tl] s = some (rs, t) ∧
      exec (.fseEncode src src.length cap) t = .next u ∧
      u = { t with
        work := { t.work with v0 := u.work.v0, v1 := u.work.v1, writer := u.work.writer }
        payBuf := Memory.write t.payBuf (65536 - cap) (bs.take cap), result := .closed bs ovf } ∧
      (ovf = true ↔ cap < bs.length) ∧
      exec (.fseDecode bs tl src.length true) u = .next v ∧
      v = { u with
        work := { u.work with s0 := v.work.s0, s1 := v.work.s1, reader := v.work.reader }, result := .bytes src } ∧
      v.work.reader.p = 0

/-- 45_block_codec.md R113 and R115: the gates of BC.COMPRESS that end without a table; and past them it is HIST.COUNT,
NORM.OPTLOG, NORM.NORMALIZE, NC.WRITE, TB.CTABLE and FSE.ENCODE in order, from the working state that is unwritten at the
start of a block (log 24): Compressed exactly when the writer has not overflowed and the size is below `n - 1`, else Raw. -/
def Obligations.DispatchGates : Prop :=
  ∀ (src : List Byte) (b : Byte) (tlReq : Nat) (oneByteRle : Bool) (s : State),
    let n := src.length
    let run := exec (.bcCompress src src.length tlReq oneByteRle) s
    let rle := ∃ w : Work, run = .next { s with work := w, result := .block (.rle b) } ∧ w.hist = histogram src
    let raw := ∃ w : Work, run = .next { s with work := w, result := .block .raw } ∧ w.hist = histogram src
    (2 ≤ src.length → src = List.replicate src.length b → rle) ∧
    (src = [b] → oneByteRle = true → rle) ∧
    (src = [b] → oneByteRle = false → raw) ∧
    (src.length = 2 → src ≠ List.replicate 2 b → b ∈ src → raw) ∧
    (3 ≤ src.length → (∀ c, src.count c ≤ 1) → raw) ∧
    (3 ≤ src.length → (∀ c, 128 * src.count c < src.length) → raw) ∧
    (3 ≤ n → src.count b ≠ 1 → (∀ c, src.count c ≤ src.count b) → src.count b ≠ n → n ≤ 128 * src.count b →
      ∀ t0 t1 t2 : State, exec (.histCount src n 255 false) { s with work := Work.unwritten } = .next t0 →
        let msv := t0.work.hist.msv
        exec (.normOptlog tlReq n msv) t0 = .next t1 →
        let tl := t1.work.tl
        exec (.normNormalize t0.work.hist.count n msv tl) t1 = .next t2 →
          (∀ e, t2.result = .error e → run = .next t2) ∧
          (t2.result = .ok →
            let norm := t2.work.norm.take (msv + 1)
            ∀ (t3 t4 t5 : State) (hdr body : List Byte) (ovf : Bool),
              exec (.ncWrite norm msv tl) t2 = .next t3 → t3.result = .bytes hdr →
              exec (.tbCtable norm msv tl) t3 = .next t4 → t4.result = .ok →
              exec (.fseEncode src n (65536 - hdr.length)) t4 = .next t5 → t5.result = .closed body ovf →
                run = .next { t5 with
                  result := .block (if ovf = false ∧ hdr.length + body.length < n - 1 then .cmp (hdr ++ body) else .raw) }))

/-- 45_block_codec.md R118, with R115 for the Compressed payload: the size of a framed block. The bound is of a block of at
least the one byte of R113. -/
def Obligations.FramedBlockIsBounded : Prop :=
  ∀ (src : List Byte) (tlReq n : Nat) (oneByteRle : Bool) (s t : State) (r : BlockResult),
    exec (.bcCompress src src.length tlReq oneByteRle) s = .next t → t.result = .block r →
      (1 ≤ src.length → (frame r src n).length ≤ src.length + 3) ∧
      (∀ p, r = .cmp p → p.length + 2 ≤ src.length ∧
        (frame r src n).length = p.length + (if src.length = n then 3 else 5)) ∧
      (r = .raw → (frame r src n).length = src.length + (if src.length = n then 1 else 3)) ∧
      ∀ b, r = .rle b → (frame r src n).length = (if src.length = n then 2 else 4)

/-- 45_block_codec.md R117: BC.COMPRESS completes on every block, and what it makes stands for the block; of the memories
it writes `PayBuf` alone, from byte 0, and a Compressed payload is what it writes there. -/
def Obligations.BlockRoundTrip : Prop :=
  ∀ (src : List Byte) (tlReq : Nat) (oneByteRle : Bool) (s : State),
    WellFormed (.bcCompress src src.length tlReq oneByteRle) = true →
    let run := compressBlock src tlReq oneByteRle
    ∃ t, exec (.bcCompress src src.length tlReq oneByteRle) s = .next t ∧
      t = { s with work := run.work, payBuf := Memory.write s.payBuf 0 run.pay, result := t.result } ∧
      (t.result = .error .normalize ∨ t.result = .block .raw ∨
        (∃ b, t.result = .block (.rle b) ∧ src = List.replicate src.length b) ∨
        ∃ p, t.result = .block (.cmp p) ∧ run.pay = p ∧ ∀ (strict : Bool) (u : State),
          ∃ w : Work, exec (.bcDecompress p p.length src.length strict) u
            = .next { u with work := w, result := .bytes src })

/-- 45_block_codec.md R116: BC.DECOMPRESS completes on every payload: with exactly `rawSize` bytes where no error is raised,
else with one of the eight data errors. It is NC.READ, then TB.DTABLE, then FSE.DECODE on the payload's rest, and leaves
what they leave; that of an error's working state is log 12. -/
def Obligations.BlockDecompressIsItsUnits : Prop :=
  ∀ (payload : List Byte) (rawSize : Nat) (strict : Bool) (s : State),
    let run := decompressBlock payload rawSize strict
    let o := exec (.bcDecompress payload payload.length rawSize strict) s
    (∃ t, o = .next t) ∧ ((∃ content, run.out = .ok content) ∨ ∃ e, run.out = .error (.raise e)) ∧
    (∀ content, run.out = .ok content →
      o = .next { s with work := run.work, result := .bytes content } ∧ content.length = rawSize) ∧
    (∀ e, run.out = .error (.raise e) →
      o = .next { s with work := run.work, result := .error e } ∧
      (e = .ncountOverrun ∨ e = .ncountTableLog ∨ e = .ncountSymbol ∨ e = .ncountRemaining ∨ e = .streamEmpty ∨
        e = .streamNoSentinel ∨ e = .streamExhausted ∨ (e = .streamTail ∧ strict = true))) ∧
    ∀ t, exec (.ncRead payload) s = .next t →
      (∀ e, t.result = .error e →
        ∃ w : Work, w.norm = t.work.norm ∧ (payload ≠ [] → w.tl = t.work.tl) ∧
          o = .next { s with work := w, result := .error e }) ∧
      (∀ msv hlen, t.result = .header msv hlen →
        ∀ u v, exec (.tbDtable (t.work.norm.take (msv + 1)) msv t.work.tl) t = .next u → u.result = .ok →
          exec (.fseDecode (payload.drop hlen) t.work.tl rawSize strict) u = .next v →
            ∃ w : Work, w.norm = t.work.norm ∧ w.tl = t.work.tl ∧ w.tableSymbol = v.work.tableSymbol ∧
              w.dt = v.work.dt ∧
              (∀ content, v.result = .bytes content →
                w.s0 = v.work.s0 ∧ w.s1 = v.work.s1 ∧ w.reader = v.work.reader) ∧
              o = .next { s with work := w, result := v.result })

/-! ### Checksum -/

/-- 46_checksum.md R121, R122, R123, R124 and R126: CK.INIT, CK.UPDATE one byte at a time, the sixteenth folding the group's
four little-endian words into the lanes, CK.DIGEST, CK.TRUNC22. -/
def Obligations.ChecksumOperations : Prop :=
  ∀ s : State,
    exec .ckInit s = .next { s with ck := ⟨0x24234428, 0x85EBCA77, 0, 0x61C8864F, 0, false, []⟩, result := .ok } ∧
    exec (.ckUpdate []) s = .next { s with result := .ok } ∧
    (∀ (b : Byte) (bs : List Byte), ∃ t, exec (.ckUpdate [b]) s = .next t ∧
      t = { s with ck := t.ck, result := .ok } ∧ t.ck.totalLen = s.ck.totalLen + 1 ∧
      (s.ck.mem.length < 15 → t.ck = { s.ck with mem := s.ck.mem ++ [b], totalLen := s.ck.totalLen + 1 }) ∧
      (s.ck.mem.length = 15 →
        let group (i : Nat) : Nat := ((s.ck.mem ++ [b]).getD i 0).toNat
        let lane (i : Nat) : U32 :=
          BitVec.ofNat 32 (group i + 2 ^ 8 * group (i + 1) + 2 ^ 16 * group (i + 2) + 2 ^ 24 * group (i + 3))
        let round (acc lane : U32) : U32 := (acc + lane * 0x85EBCA77).rotateLeft 13 * 0x9E3779B1
        t.ck = ⟨round s.ck.acc1 (lane 0), round s.ck.acc2 (lane 4), round s.ck.acc3 (lane 8), round s.ck.acc4 (lane 12),
          s.ck.totalLen + 1, true, []⟩) ∧
      exec (.ckUpdate (b :: bs)) s = exec (.ckUpdate bs) t) ∧
    exec .ckDigest s = .next { s with result := .value (ckHash s.ck).toNat } ∧
    ∀ h : U32, exec (.ckTrunc22 h) s = .next { s with result := .value (h.toNat / 32 % 2 ^ 22) }

/-- 46_checksum.md R125: any split of a byte sequence into CK.UPDATE calls gives the one-shot XXH32. -/
def Obligations.StreamingDigestIsOneShot : Prop :=
  ∀ (pieces : List (List Byte)) (s : State),
    ∃ rs t, results (.ckInit :: (pieces.map .ckUpdate ++ [.ckDigest])) s = some (rs, t) ∧
      t.result = .value (xxh32 pieces.flatten).toNat

/-! ### Encoding -/

/-- Decoding undoes encoding, for every well-formed instruction (30_encoding.md R41 to R47, R54, R55); where the operands
of a command or unit operation stand is the model's choice (log 6). -/
def Obligations.DecodeOfEncode : Prop := ∀ i : Instr, WellFormed i = true → decode (encode i) = .ok i

/-- 30_encoding.md R42, R43 and R53: every header byte has exactly one form, by its range, and its fields make it up; so
a wire element's bytes have one meaning, and encoding what they decode to gives them back. -/
def Obligations.WireBytesHaveOneMeaning : Prop :=
  (∀ h : Byte,
    (h.toNat < 0x20 ↔ blockForm h = .cmp) ∧ (0x20 ≤ h.toNat ∧ h.toNat < 0x40 ↔ blockForm h = .cmpF) ∧
    (0x40 ≤ h.toNat ∧ h.toNat < 0x60 ↔ blockForm h = .raw) ∧ (0x60 ≤ h.toNat ∧ h.toNat < 0x80 ↔ blockForm h = .rawF) ∧
    (0x80 ≤ h.toNat ∧ h.toNat < 0xA0 ↔ blockForm h = .rle) ∧ (0xA0 ≤ h.toNat ∧ h.toNat < 0xC0 ↔ blockForm h = .rleF) ∧
    (0xC0 ≤ h.toNat ↔ blockForm h = .crc) ∧
    (blockForm h ≠ .crc → headerByte (BitVec.ofNat 2 (h.toNat / 64)) (fullFlagOf h) (reservedOf h) = h) ∧
    (blockForm h = .crc → crcHeaderByte (crcHi6Of h) = h)) ∧
  ∀ (bytes : List Byte) (i : Instr),
    (decode (.block bytes) = .ok i → encode i = .block bytes) ∧
    (decode (.fileHeader bytes) = .ok i → encode i = .fileHeader bytes)

/-- Words written out from 30_encoding.md R41 to R47 (the wire elements), and the codes of R54 and the opcode table's unit
numbers; R54 gives operands no bits, and where they stand on the operand lines in the last four is the model's choice
(log 6). -/
def Obligations.SampleWordsDecode : Prop :=
  decode (.fileHeader [0x09, 0x23, 0x3E, 0x18, 0x05]) = .ok (.fhdr 0x183E2309 5) ∧
  decode (.block [0x00, 0x00, 0x37, 0x00, 0x02, 0xA0, 0x0F]) = .ok (.blkCmp 0 55 2 [0xA0, 0x0F]) ∧
  decode (.block [0x5F, 0x00, 0x02, 0x41, 0x42]) = .ok (.blkRaw 31 2 [0x41, 0x42]) ∧
  decode (.block [0xA0, 0x41]) = .ok (.blkRleF 0 0x41) ∧
  decode (.block [0xED, 0x41, 0x17]) = .ok (.blkCrc 0x2D 0x4117) ∧
  decode (.command 0x01 ⟨[1, 0, 0, 1, 0, 1], [], []⟩) = .ok (.configure 1 0 0 1 0 1) ∧
  decode (.command 0x05 ⟨[12], [], []⟩) = .ok (.advance 12) ∧
  decode (.unitOp 0x41 ⟨[5, 3], [], []⟩) = .ok (.bwAdd 5 3) ∧
  decode (.unitOp 0x5D ⟨[0x02CC5D05], [], []⟩) = .ok (.ckTrunc22 0x02CC5D05)

/-! ### The machine -/

/-- 20_memory.md R38, 70_reset_and_hazards.md R184: a step takes the oldest pending packet and executes what it decodes
to; with nothing pending the state stays. Bytes of the stream that are no whole element are offered bytes (log 5); an
unused command code is E_ARG_COMMAND (60_exceptions.md R164); what names no operation, or carries a value no operand has
bits for, is refused (log 15). -/
def Obligations.StepRunsTheDecodedInstruction : Prop :=
  ∀ s : State,
    (s.pending = [] → step s = .next s) ∧
    ∀ p rest, s.pending = p :: rest →
      (∀ i, decode p = .ok i → step s = exec i { s with pending := rest }) ∧
      (∀ e bytes, decode p = .error e → p = .block bytes ∨ p = .fileHeader bytes →
        step s = exec (.setinput bytes) { s with pending := rest }) ∧
      (∀ e code ops, decode p = .error e → p = .command code ops →
        step s = if e = .commandCode then .next { s with pending := rest, result := .error .argCommand }
          else .refused (.undecodable e)) ∧
      (∀ e code ops, decode p = .error e → p = .unitOp code ops → step s = .refused (.undecodable e))

/-- The state at power-on (70_reset_and_hazards.md R181) is legal. -/
def Obligations.InvAtReset : Prop := Inv State.reset ∧ State.reset.configured = false ∧ status State.reset = .needInput

/-- Every step keeps the legal states: the field ranges of 10_state.md R11 to R18, the canonical form and the sizes of
the memories (20_memory.md R30), and that the queue, the staged field and the held block lie in written bytes. -/
def Obligations.StepKeepsInv : Prop := ∀ s t : State, Inv s → step s = .next t → Inv t

/-- 93_implementation_defined.md I3, I4, I6: from a legal state no host instruction makes the decompressor fault,
whatever bytes it is given. -/
def Obligations.DecompressorNeverFaults : Prop :=
  ∀ (i : Instr) (s : State), Inv s → s.cfg.dir = .decompress → hostInstr i = true → Answers (exec i s)

/-- 10_state.md R11 and R13: the configuration registers are written only by CONFIGURE; `errcause` is written by RESET
and CONFIGURE, and on entry to a fatal state. -/
def Obligations.WritersOfConfigurationAndErrcause : Prop :=
  ∀ (i : Instr) (s t : State), exec i s = .next t →
    let isConfigure := ∃ dir k tlReq ckEn strictTail oneByteRle, i = .configure dir k tlReq ckEn strictTail oneByteRle
    (¬isConfigure → t.cfg = s.cfg ∧ t.configured = s.configured) ∧
    (t.errcause ≠ s.errcause →
      (t.errcause = .none ∧ (i = .reset ∨ isConfigure)) ∨
      (status s = .needInput ∧ (status t = .invalidData ∨ status t = .invalidChecksum)))

/-- The "State written" of 40_bitstream.md R60 to R68, 41_histogram.md R70, 42_normalizer.md R75 to R81, 43_ncount.md R86
and R91, 44_tables.md R96 to R104, 45_block_codec.md R105 to R116 and 46_checksum.md R121 to R126: a unit operation leaves
both sessions alone; of the checksum and `PayBuf` each operation touches what its rule names. -/
def Obligations.UnitOperationsLeaveSessions : Prop :=
  ∀ (i : Instr) (s t : State), hostInstr i = false → exec i s = .next t →
    t = { s with work := t.work, payBuf := t.payBuf, ck := t.ck, result := t.result } ∧
    ((i = .ckInit ∨ i = .ckDigest ∨ (∃ bs, i = .ckUpdate bs) ∨ ∃ h, i = .ckTrunc22 h) →
      t.work = s.work ∧ t.payBuf = s.payBuf) ∧
    (i ≠ .ckInit → (∀ bs, i ≠ .ckUpdate bs) → t.ck = s.ck) ∧
    (i ≠ .bwClose → (∀ n m tl, i ≠ .ncWrite n m tl) → (∀ src n cap, i ≠ .fseEncode src n cap) →
      (∀ src n tl o, i ≠ .bcCompress src n tl o) → t.payBuf = s.payBuf)

/-- 45_block_codec.md R119, 10_state.md R27: the block codec reads its operands alone, so what a host sees does not
depend on the working state left by an earlier block or unit operation. -/
def Obligations.NoWorkingStateSurvivesABlock : Prop :=
  ∀ s u : State,
    (∀ (src : List Byte) (n tlReq : Nat) (oneByteRle : Bool) (t : State),
      exec (.bcCompress src n tlReq oneByteRle) s = .next t →
        ∃ v, exec (.bcCompress src n tlReq oneByteRle) u = .next v ∧ v.result = t.result ∧ v.work = t.work) ∧
    (∀ (payload : List Byte) (len rawSize : Nat) (strictTail : Bool) (t : State),
      exec (.bcDecompress payload len rawSize strictTail) s = .next t →
        exec (.bcDecompress payload len rawSize strictTail) u
          = .next { u with work := t.work, result := t.result }) ∧
    ∀ (i : Instr) (t : State) (w : Work), hostInstr i = true → exec i s = .next t →
      ∃ t', exec i { s with work := w } = .next t' ∧ t = { t' with work := t.work }
end

