-- ==== Sys2Proof/Laws/Bits.lean ====
section
/-! SUPPORT. The laws of byte order and of bit sequences: what `leBytes`, `leNat`, `be16` and `le32` give back, and which
bits an append, a byte sequence and a field hold. -/

namespace Sys2Proof

@[simp] theorem leBytes_length (m x : Nat) : (leBytes m x).length = m := by
  induction m generalizing x with
  | zero => rfl
  | succ m ih => simp [leBytes, ih]

theorem leNat_lt (bs : List Byte) : leNat bs < 256 ^ bs.length := by
  induction bs with
  | nil => simp [leNat]
  | cons b bs ih =>
    have hb : b.toNat < 256 := b.isLt
    simp only [leNat, List.length_cons, Nat.pow_succ]
    omega

/-- The bytes of a number, read back. -/
theorem leNat_leBytes (m x : Nat) : leNat (leBytes m x) = x % 256 ^ m := by
  induction m generalizing x with
  | zero => simp [leBytes, leNat, Nat.mod_one]
  | succ m ih =>
    have h : (BitVec.ofNat 8 x).toNat = x % 256 := by simp
    simp only [leBytes, leNat, h, ih, Nat.pow_succ]
    rw [Nat.mul_comm (256 ^ m) 256, Nat.mod_mul]

theorem leNat_append (p q : List Byte) : leNat (p ++ q) = leNat p + 256 ^ p.length * leNat q := by
  induction p with
  | nil => simp [leNat]
  | cons b p ih =>
    simp only [List.cons_append, leNat, ih, List.length_cons, Nat.pow_succ]
    ring

/-- Bit `j` of a byte sequence is bit `j mod 8` of byte `j // 8` (20_memory.md R33). -/
theorem leNat_testBit (bs : List Byte) (j : Nat) :
    (leNat bs).testBit j = (bs.getD (j / 8) 0).getLsbD (j % 8) := by
  induction bs generalizing j with
  | nil => simp [leNat]
  | cons b bs ih =>
    have hb : b.toNat < 2 ^ 8 := b.isLt
    rw [leNat, Nat.add_comm, show (256 : Nat) = 2 ^ 8 from rfl, Nat.testBit_two_pow_mul_add _ hb]
    by_cases h : j < 8
    · simp [h, Nat.div_eq_of_lt h, Nat.mod_eq_of_lt h, BitVec.testBit_toNat]
    · rw [if_neg h, ih, show j / 8 = (j - 8) / 8 + 1 by omega, show (j - 8) % 8 = j % 8 by omega]
      simp

theorem be16_be16Bytes (x : BitVec 16) : be16 (x.extractLsb' 8 8) (x.extractLsb' 0 8) = x := by
  unfold be16
  ext i hi
  simp only [BitVec.getElem_append, BitVec.getElem_extractLsb']
  split <;> rename_i h
  · simp [BitVec.getLsbD_eq_getElem hi]
  · rw [show 8 + (i - 8) = i by omega]; exact BitVec.getLsbD_eq_getElem hi

theorem be16_toNat (b0 b1 : Byte) : (be16 b0 b1).toNat = b0.toNat * 256 + b1.toNat := by
  have h1 : b1.toNat < 2 ^ 8 := b1.isLt
  rw [be16, BitVec.toNat_append, ← Nat.shiftLeft_add_eq_or_of_lt h1, Nat.shiftLeft_eq]

theorem le32_le32Bytes (x : U32) :
    le32 (x.extractLsb' 0 8) (x.extractLsb' 8 8) (x.extractLsb' 16 8) (x.extractLsb' 24 8) = x := by
  have h : x.toNat < 2 ^ 32 := x.isLt
  have a : ∀ i, (x.extractLsb' i 8).toNat < 2 ^ 8 := fun i => (x.extractLsb' i 8).isLt
  apply BitVec.eq_of_toNat_eq
  rw [le32, BitVec.toNat_append, ← Nat.shiftLeft_add_eq_or_of_lt (BitVec.isLt _), BitVec.toNat_append,
    ← Nat.shiftLeft_add_eq_or_of_lt (BitVec.isLt _), BitVec.toNat_append, ← Nat.shiftLeft_add_eq_or_of_lt (BitVec.isLt _)]
  simp only [BitVec.extractLsb'_toNat, Nat.shiftLeft_eq, Nat.shiftRight_eq_div_pow]
  omega

end Sys2Proof

namespace Sys2Proof.Machine

theorem Bits.bit_of_ge (w : Bits) (j : Nat) (h : w.len ≤ j) : w.bit j = false := by
  simp [Bits.bit, show ¬j < w.len by omega]

@[simp] theorem Bits.append_len (w : Bits) (v n : Nat) : (w.append v n).len = w.len + n := rfl

/-- The bits of an append: those of `W`, then the low `n` bits of `v` (00_scope.md R7). -/
theorem Bits.append_bit (w : Bits) (v n j : Nat) :
    (w.append v n).bit j = if j < w.len then w.bit j else decide (j < w.len + n) && v.testBit (j - w.len) := by
  have hlt : w.val % 2 ^ w.len < 2 ^ w.len := Nat.mod_lt _ (by positivity)
  have hval : (w.append v n).val.testBit j =
      if j < w.len then (w.val % 2 ^ w.len).testBit j else (v % 2 ^ n).testBit (j - w.len) := by
    simp only [Bits.append]
    rw [Nat.add_comm, Nat.mul_comm, Nat.testBit_two_pow_mul_add _ hlt]
  simp only [Bits.bit, hval, Bits.append_len]
  by_cases h : j < w.len
  · simp [h, show j < w.len + n by omega, Nat.testBit_mod_two_pow]
  · simp only [h, if_false, Nat.testBit_mod_two_pow]
    by_cases h2 : j < w.len + n
    · simp [h2, show j - w.len < n by omega]
    · simp [h2]

/-- Appending no bit changes no bit. -/
theorem Bits.append_zero_bit (w : Bits) (v j : Nat) : (w.append v 0).bit j = w.bit j := by
  rw [Bits.append_bit]
  by_cases h : j < w.len
  · simp [h]
  · simp [h, Bits.bit_of_ge w j (by omega)]

/-- The bits of a byte sequence. -/
theorem Bits.ofBytes_bit (bs : List Byte) (j : Nat) :
    (Bits.ofBytes bs).bit j = (bs.getD (j / 8) 0).getLsbD (j % 8) := by
  simp only [Bits.bit, Bits.ofBytes, leNat_testBit]
  by_cases h : j < 8 * bs.length
  · simp [h]
  · simp [h, List.getElem?_eq_none (show bs.length ≤ j / 8 by omega)]

@[simp] theorem Bits.toBytes_length (w : Bits) : w.toBytes.length = (w.len + 7) / 8 := by simp [Bits.toBytes]

/-- A sequence of whole bytes, written out and read back, has the same bits. -/
theorem Bits.ofBytes_toBytes_bit (w : Bits) (j : Nat) : (Bits.ofBytes w.toBytes).bit j = w.bit j := by
  have hlt : w.val % 2 ^ w.len < 256 ^ ((w.len + 7) / 8) := by
    refine Nat.lt_of_lt_of_le (Nat.mod_lt _ (by positivity)) ?_
    rw [show (256 : Nat) = 2 ^ 8 from rfl, ← Nat.pow_mul]
    exact Nat.pow_le_pow_right (by omega) (by omega)
  simp only [Bits.bit, Bits.ofBytes, Bits.toBytes, leNat_leBytes, Nat.mod_eq_of_lt hlt, Nat.testBit_mod_two_pow,
    leBytes_length]
  by_cases h : j < w.len
  · simp [h, show j < 8 * ((w.len + 7) / 8) by omega]
  · simp [h]

/-- The bits of a field: those of the sequence from `q` on. -/
theorem Bits.field_testBit (w : Bits) (q n i : Nat) : (w.field q n).testBit i = (decide (i < n) && w.bit (q + i)) := by
  simp only [Bits.field, Bits.bit, Nat.testBit_mod_two_pow, Nat.testBit_div_two_pow, Nat.add_comm i q]

theorem Bits.field_lt (w : Bits) (q n : Nat) : w.field q n < 2 ^ n := Nat.mod_lt _ (by positivity)

end Sys2Proof.Machine
end

