-- ==== Sys2Proof/Laws/Memory.lean ====
section
/-! SUPPORT. The laws of the memories: what a byte reads after a write, that a write keeps the canonical form, that a
canonical memory is its bytes, and what a read and a store can answer. -/

namespace Sys2Proof.Machine

/-! ### One byte -/

@[simp] theorem Memory.get?_nil (a : Nat) : Memory.get? [] a = none := rfl

theorem Memory.get?_append (m m' : Memory) (a : Nat) :
    Memory.get? (m ++ m') a = (Memory.get? m a).or (Memory.get? m' a) := by
  induction m with
  | nil => simp
  | cons c m ih =>
    obtain ⟨x, b⟩ := c
    by_cases h : x = a <;> simp [Memory.get?, h, ih]

theorem Memory.get?_filter (p : Nat → Bool) (m : Memory) (a : Nat) :
    Memory.get? (m.filter fun c => p c.1) a = if p a then Memory.get? m a else none := by
  induction m with
  | nil => simp
  | cons c m ih =>
    obtain ⟨x, b⟩ := c
    by_cases hx : x = a
    · subst hx
      by_cases hp : p x <;> simp [Memory.get?, hp, ih]
    · by_cases hp : p x <;> simp [Memory.get?, hp, hx, ih]

theorem Memory.get?_cells (a : Nat) (bs : List Byte) (x : Nat) :
    Memory.get? (Memory.cells a bs) x = if a ≤ x then bs[x - a]? else none := by
  induction bs generalizing a with
  | nil => simp [Memory.cells]
  | cons b bs ih =>
    simp only [Memory.cells, Memory.get?, ih]
    by_cases h : a = x
    · subst h; simp
    · by_cases hlt : a + 1 ≤ x
      · have : x - a = (x - (a + 1)) + 1 := by omega
        simp [h, hlt, show a ≤ x by omega, this]
      · simp [h, hlt, show ¬a ≤ x by omega]

/-- Every byte after a write: the new bytes where they stand, every other byte as before. -/
theorem Memory.get?_write (m : Memory) (a : Nat) (bs : List Byte) (x : Nat) :
    (Memory.write m a bs).get? x =
      if a ≤ x ∧ x < a + bs.length then bs[x - a]? else m.get? x := by
  have hlo := Memory.get?_filter (fun k => decide (k < a)) m x
  have hhi := Memory.get?_filter (fun k => decide (a + bs.length ≤ k)) m x
  simp only [decide_eq_true_eq] at hlo hhi
  rw [Memory.write, Memory.get?_append, Memory.get?_append, hlo, hhi, Memory.get?_cells]
  by_cases h1 : x < a
  · simp [h1, show ¬a ≤ x by omega, show ¬a + bs.length ≤ x by omega]
  · by_cases h2 : x < a + bs.length
    · simp [h1, h2, show a ≤ x by omega, show ¬a + bs.length ≤ x by omega]
    · simp [h1, h2, show a ≤ x by omega, show a + bs.length ≤ x by omega,
        List.getElem?_eq_none (show bs.length ≤ x - a by omega)]

theorem Memory.get?_write_of_lt (m : Memory) (a : Nat) (bs : List Byte) (x : Nat) (h : x < a) :
    (Memory.write m a bs).get? x = m.get? x := by
  rw [Memory.get?_write, if_neg (by omega)]

theorem Memory.get?_write_of_ge (m : Memory) (a : Nat) (bs : List Byte) (x : Nat) (h : a + bs.length ≤ x) :
    (Memory.write m a bs).get? x = m.get? x := by
  rw [Memory.get?_write, if_neg (by omega)]

/-! ### The canonical form -/

theorem Memory.risesFrom_iff (lo : Nat) (m : Memory) :
    Memory.risesFrom lo m = true ↔ m.Pairwise (fun c d => c.1 < d.1) ∧ ∀ c ∈ m, lo ≤ c.1 := by
  induction m generalizing lo with
  | nil => simp [Memory.risesFrom]
  | cons c m ih =>
    obtain ⟨x, b⟩ := c
    simp only [Memory.risesFrom, Bool.and_eq_true, decide_eq_true_eq, ih, List.pairwise_cons, List.forall_mem_cons]
    constructor
    · rintro ⟨h, hp, hm⟩
      exact ⟨⟨fun d hd => by have := hm d hd; omega, hp⟩, h, fun d hd => by have := hm d hd; omega⟩
    · rintro ⟨⟨hx, hp⟩, h, _⟩
      exact ⟨h, hp, fun d hd => by have := hx d hd; omega⟩

theorem Memory.wf_iff (m : Memory) : m.wf = true ↔ m.Pairwise fun c d => c.1 < d.1 := by
  simp [Memory.wf, Memory.risesFrom_iff]

theorem Memory.cells_mem (a : Nat) (bs : List Byte) (c : Host.Cell) (h : c ∈ Memory.cells a bs) :
    a ≤ c.1 ∧ c.1 < a + bs.length := by
  induction bs generalizing a with
  | nil => simp [Memory.cells] at h
  | cons b bs ih =>
    simp only [Memory.cells, List.mem_cons] at h
    obtain rfl | h := h
    · simp
    · have := ih _ h
      simp only [List.length_cons]; omega

theorem Memory.cells_pairwise (a : Nat) (bs : List Byte) :
    (Memory.cells a bs).Pairwise fun c d => c.1 < d.1 := by
  induction bs generalizing a with
  | nil => simp [Memory.cells]
  | cons b bs ih =>
    simp only [Memory.cells, List.pairwise_cons]
    exact ⟨fun d hd => by have := Memory.cells_mem _ _ _ hd; omega, ih _⟩

/-- A write keeps the canonical form. -/
theorem Memory.wf_write (m : Memory) (a : Nat) (bs : List Byte) (h : m.wf = true) : (Memory.write m a bs).wf = true := by
  rw [Memory.wf_iff] at h ⊢
  rw [Memory.write, List.pairwise_append, List.pairwise_append]
  refine ⟨h.filter _, ⟨Memory.cells_pairwise _ _, h.filter _, ?_⟩, ?_⟩
  · intro c hc d hd
    have := Memory.cells_mem _ _ _ hc
    have hd := (List.mem_filter.mp hd).2
    simp only [decide_eq_true_eq] at hd; omega
  · intro c hc d hd
    have hc := (List.mem_filter.mp hc).2
    simp only [decide_eq_true_eq] at hc
    rcases List.mem_append.mp hd with hd | hd
    · have := Memory.cells_mem _ _ _ hd; omega
    · have hd := (List.mem_filter.mp hd).2
      simp only [decide_eq_true_eq] at hd; omega

/-- A write inside a memory's size stays inside it. -/
theorem Memory.within_write (m : Memory) (a size : Nat) (bs : List Byte) (h : m.within size = true)
    (hs : a + bs.length ≤ size) : (Memory.write m a bs).within size = true := by
  simp only [Memory.within, List.all_eq_true, decide_eq_true_eq] at h ⊢
  intro c hc
  rw [Memory.write] at hc
  rcases List.mem_append.mp hc with hc | hc
  · exact h c (List.mem_filter.mp hc).1
  · rcases List.mem_append.mp hc with hc | hc
    · have := Memory.cells_mem _ _ _ hc; omega
    · exact h c (List.mem_filter.mp hc).1

theorem Memory.get?_eq_none_of_forall_lt (m : Memory) (a : Nat) (h : ∀ c ∈ m, a < c.1) : m.get? a = none := by
  induction m with
  | nil => rfl
  | cons c m ih =>
    obtain ⟨x, b⟩ := c
    have hx := h (x, b) (by simp)
    simp only at hx
    simp [Memory.get?, show ¬x = a by omega, ih fun d hd => h d (by simp [hd])]

/-- A canonical memory is its bytes: two of them that read alike everywhere are equal data. -/
theorem Memory.ext_of_wf (m m' : Memory) (h : m.wf = true) (h' : m'.wf = true)
    (heq : ∀ a, m.get? a = m'.get? a) : m = m' := by
  rw [Memory.wf_iff] at h h'
  induction m generalizing m' with
  | nil =>
    cases m' with
    | nil => rfl
    | cons c m' =>
      have := heq c.1
      simp [Memory.get?] at this
  | cons c m ih =>
    obtain ⟨x, b⟩ := c
    rw [List.pairwise_cons] at h
    cases m' with
    | nil =>
      have := heq x
      simp [Memory.get?] at this
    | cons c' m' =>
      obtain ⟨y, b'⟩ := c'
      rw [List.pairwise_cons] at h'
      have hxy : x = y := by
        have h1 := heq x
        have h2 := heq y
        simp only [Memory.get?, if_true] at h1 h2
        by_contra hne
        rcases Nat.lt_or_gt_of_ne hne with hlt | hgt
        · rw [if_neg (Ne.symm hne),
            Memory.get?_eq_none_of_forall_lt m' x fun d hd => Nat.lt_trans hlt (h'.1 d hd)] at h1
          simp at h1
        · rw [if_neg hne, Memory.get?_eq_none_of_forall_lt m y fun d hd => Nat.lt_trans hgt (h.1 d hd)] at h2
          simp at h2
      subst hxy
      have hb : b = b' := by
        have := heq x
        simpa [Memory.get?] using this
      subst hb
      congr 1
      refine ih m' h.2 h'.2 fun a => ?_
      by_cases hax : x = a
      · subst hax
        rw [Memory.get?_eq_none_of_forall_lt m x fun d hd => h.1 d hd,
          Memory.get?_eq_none_of_forall_lt m' x fun d hd => h'.1 d hd]
      · have := heq a
        simpa [Memory.get?, hax] using this

/-- Writing nothing changes nothing. -/
theorem Memory.write_nil (m : Memory) (a : Nat) (h : m.wf = true) : Memory.write m a [] = m := by
  refine Memory.ext_of_wf _ _ (Memory.wf_write _ _ _ h) h fun x => ?_
  rw [Memory.get?_write, if_neg (by simp)]

/-- At address 0 that needs no canonical form. -/
@[simp] theorem Memory.write_zero_nil (m : Memory) : Memory.write m 0 [] = m := by
  simp [Memory.write, Memory.cells]

/-- Two writes side by side are one. -/
theorem Memory.write_append (m : Memory) (a : Nat) (p q : List Byte) (h : m.wf = true) :
    Memory.write (Memory.write m a p) (a + p.length) q = Memory.write m a (p ++ q) := by
  refine Memory.ext_of_wf _ _ (Memory.wf_write _ _ _ (Memory.wf_write _ _ _ h)) (Memory.wf_write _ _ _ h) fun x => ?_
  simp only [Memory.get?_write, List.length_append]
  by_cases h1 : a ≤ x
  · by_cases h2 : x < a + p.length
    · rw [if_neg (by omega), if_pos ⟨h1, h2⟩, if_pos (by omega), List.getElem?_append_left (by omega)]
    · by_cases h3 : x < a + p.length + q.length
      · rw [if_pos (by omega), if_pos (by omega), List.getElem?_append_right (by omega)]
        congr 1; omega
      · rw [if_neg (by omega), if_neg (by omega), if_neg (by omega)]
  · rw [if_neg (by omega), if_neg (by omega), if_neg (by omega)]

/-! ### Written bytes -/

/-- A write from address 0 leaves its bytes written. -/
theorem Memory.writtenTo_write_zero (m : Memory) (bs : List Byte) :
    (Memory.write m 0 bs).writtenTo bs.length := by
  intro a ha
  rw [Memory.get?_write, if_pos (by omega)]
  simp [ha]

/-- A write at the end of the written bytes extends them. -/
theorem Memory.writtenTo_write_end (m : Memory) (n : Nat) (bs : List Byte) (h : m.writtenTo n) :
    (Memory.write m n bs).writtenTo (n + bs.length) := by
  intro a ha
  rw [Memory.get?_write]
  by_cases h1 : n ≤ a
  · rw [if_pos ⟨h1, ha⟩]; simp; omega
  · rw [if_neg (by omega)]; exact h a (by omega)

theorem Memory.writtenTo_mono {m : Memory} {n k : Nat} (h : m.writtenTo n) (hk : k ≤ n) : m.writtenTo k :=
  fun a ha => h a (by omega)

/-! ### Reading a run of bytes -/

theorem Memory.run?_zero (m : Memory) (a : Nat) : Memory.run? m a 0 = some [] := by
  cases m <;> rfl

/-- What a read of a canonical memory answers, byte by byte. -/
theorem Memory.run?_eq_some_iff (m : Memory) (a n : Nat) (bs : List Byte) (h : m.wf = true) :
    Memory.run? m a n = some bs ↔ bs.length = n ∧ ∀ i, i < n → m.get? (a + i) = bs[i]? := by
  rw [Memory.wf_iff] at h
  induction m generalizing a n bs with
  | nil =>
    cases n with
    | zero => cases bs <;> simp [Memory.run?_zero]
    | succ n =>
      simp only [Memory.run?, Memory.get?_nil, reduceCtorEq, false_iff, not_and]
      intro hl hall
      have := hall 0 (by omega)
      rw [List.getElem?_eq_getElem (by omega)] at this
      simp at this
  | cons c m ih =>
    obtain ⟨x, b⟩ := c
    rw [List.pairwise_cons] at h
    cases n with
    | zero => cases bs <;> simp [Memory.run?_zero]
    | succ n =>
      simp only [Memory.run?]
      by_cases h1 : x < a
      · rw [if_pos h1, ih _ _ _ h.2]
        refine and_congr_right fun _ => forall_congr' fun i => ?_
        simp [Memory.get?, show ¬x = a + i by omega]
      · rw [if_neg h1]
        by_cases h2 : x = a
        · subst h2
          rw [if_pos rfl]
          cases bs with
          | nil => simp
          | cons b' bs =>
            have hnone : ∀ i, Memory.get? m (x + (i + 1)) = Memory.get? ((x, b) :: m) (x + (i + 1)) := fun i => by
              simp [Memory.get?]
            constructor
            · intro hs
              simp only [Option.map_eq_some_iff, List.cons.injEq] at hs
              obtain ⟨l, hl, rfl, rfl⟩ := hs
              obtain ⟨hlen, hall⟩ := (ih _ _ _ h.2).mp hl
              refine ⟨by simp [hlen], fun i hi => ?_⟩
              cases i with
              | zero => simp [Memory.get?]
              | succ i =>
                rw [← hnone, show x + (i + 1) = x + 1 + i by omega, hall i (by omega)]
                rfl
            · rintro ⟨hlen, hall⟩
              have hb := hall 0 (by omega)
              simp only [Nat.add_zero, Memory.get?, if_true, List.getElem?_cons_zero, Option.some.injEq] at hb
              subst hb
              rw [(ih (x + 1) n bs h.2).mpr ⟨by simpa using hlen, fun i hi => ?_⟩]
              · rfl
              · have := hall (i + 1) (by omega)
                rw [← hnone] at this
                rw [show x + 1 + i = x + (i + 1) by omega, this]
                rfl
        · rw [if_neg h2]
          simp only [reduceCtorEq, false_iff, not_and]
          intro hlen hall
          have h0 := hall 0 (by omega)
          rw [List.getElem?_eq_getElem (by omega)] at h0
          simp only [Nat.add_zero] at h0
          rw [Memory.get?_eq_none_of_forall_lt _ a fun d hd => ?_] at h0
          · simp at h0
          · rcases List.mem_cons.mp hd with rfl | hd
            · simp only; omega
            · have := h.1 d hd
              simp only at this; omega

/-- Reading bytes that are all written answers them. -/
theorem Memory.read_of_writtenTo (m : Memory) (a n : Nat) (h : m.wf = true) (hw : m.writtenTo (a + n)) :
    ∃ bs, Memory.read m a n = .ok bs ∧ bs.length = n ∧ ∀ i, i < n → m.get? (a + i) = bs[i]? := by
  have key := Memory.run?_eq_some_iff m a n ((List.range n).map fun i => (m.get? (a + i)).getD 0) h
  have hrun := key.mpr ⟨by simp, fun i hi => by
    obtain ⟨b, hb⟩ := Option.isSome_iff_exists.mp (hw (a + i) (by omega))
    simp [hi, hb]⟩
  refine ⟨_, ?_, (key.mp hrun).1, (key.mp hrun).2⟩
  simp [Memory.read, hrun]

/-- Reading back what was just written from an address. -/
theorem Memory.run?_write (m : Memory) (a : Nat) (bs : List Byte) :
    Memory.run? (Memory.write m a bs) a bs.length = some bs := by
  have hskip : ∀ (l m' : Memory) (n : Nat), (∀ c ∈ l, c.1 < a) → Memory.run? (l ++ m') a n = Memory.run? m' a n := by
    intro l m' n hl
    induction l with
    | nil => rfl
    | cons c l ih =>
      obtain ⟨x, b⟩ := c
      have hx := hl (x, b) (by simp)
      cases n with
      | zero => simp [Memory.run?_zero]
      | succ n =>
        simp only [List.cons_append, Memory.run?]
        rw [if_pos hx, ih fun d hd => hl d (by simp [hd])]
  have hcells : ∀ (bs : List Byte) (a : Nat) (m' : Memory),
      Memory.run? (Memory.cells a bs ++ m') a bs.length = some bs := by
    intro bs
    induction bs with
    | nil => intro a m'; simp [Memory.run?_zero]
    | cons b bs ih =>
      intro a m'
      simp [Memory.cells, Memory.run?, ih]
  rw [Memory.write, hskip _ _ _ fun c hc => by simpa using (List.mem_filter.mp hc).2, hcells]

/-- MemRead after MemWrite at the same place (00_scope.md R7). -/
@[simp] theorem Memory.read_write (m : Memory) (a : Nat) (bs : List Byte) :
    Memory.read (Memory.write m a bs) a bs.length = .ok bs := by
  simp [Memory.read, Memory.run?_write]

/-! ### Stores -/

/-- What a store can answer: the written memory inside the size, a fault beyond it. -/
theorem Memory.store_eq_ok_iff (size : Nat) (m m' : Memory) (a : Nat) (bs : List Byte) :
    Memory.store size m a bs = .ok m' ↔ a + bs.length ≤ size ∧ m' = Memory.write m a bs := by
  unfold Memory.store
  split <;> simp_all [eq_comm]

theorem Memory.store_of_le {size : Nat} (m : Memory) {a : Nat} {bs : List Byte} (h : a + bs.length ≤ size) :
    Memory.store size m a bs = .ok (Memory.write m a bs) := by
  simp [Memory.store, h]

end Sys2Proof.Machine
end

