-- ==== Sys2Proof/Laws/State.lean ====
section
/-! SUPPORT. One lemma per field per named update of State, each true by definition, so that no later proof unfolds a
record update; and that the result port is read by nothing. -/

namespace Sys2Proof.Machine

/-! ### `reply`: a result given to the host -/

@[simp] theorem State.reply_configured (s : State) (r : Result) : (s.reply r).configured = s.configured := rfl
@[simp] theorem State.reply_cfg (s : State) (r : Result) : (s.reply r).cfg = s.cfg := rfl
@[simp] theorem State.reply_fstate (s : State) (r : Result) : (s.reply r).fstate = s.fstate := rfl
@[simp] theorem State.reply_stageLen (s : State) (r : Result) : (s.reply r).stageLen = s.stageLen := rfl
@[simp] theorem State.reply_blockSize (s : State) (r : Result) : (s.reply r).blockSize = s.blockSize := rfl
@[simp] theorem State.reply_btype (s : State) (r : Result) : (s.reply r).btype = s.btype := rfl
@[simp] theorem State.reply_full (s : State) (r : Result) : (s.reply r).full = s.full := rfl
@[simp] theorem State.reply_rawSize (s : State) (r : Result) : (s.reply r).rawSize = s.rawSize := rfl
@[simp] theorem State.reply_cSize (s : State) (r : Result) : (s.reply r).cSize = s.cSize := rfl
@[simp] theorem State.reply_crcHi6 (s : State) (r : Result) : (s.reply r).crcHi6 = s.crcHi6 := rfl
@[simp] theorem State.reply_outLen (s : State) (r : Result) : (s.reply r).outLen = s.outLen := rfl
@[simp] theorem State.reply_outPos (s : State) (r : Result) : (s.reply r).outPos = s.outPos := rfl
@[simp] theorem State.reply_errcause (s : State) (r : Result) : (s.reply r).errcause = s.errcause := rfl
@[simp] theorem State.reply_ck (s : State) (r : Result) : (s.reply r).ck = s.ck := rfl
@[simp] theorem State.reply_cphase (s : State) (r : Result) : (s.reply r).cphase = s.cphase := rfl
@[simp] theorem State.reply_bufLen (s : State) (r : Result) : (s.reply r).bufLen = s.bufLen := rfl
@[simp] theorem State.reply_hdrDone (s : State) (r : Result) : (s.reply r).hdrDone = s.hdrDone := rfl
@[simp] theorem State.reply_work (s : State) (r : Result) : (s.reply r).work = s.work := rfl
@[simp] theorem State.reply_inStage (s : State) (r : Result) : (s.reply r).inStage = s.inStage := rfl
@[simp] theorem State.reply_blockBuf (s : State) (r : Result) : (s.reply r).blockBuf = s.blockBuf := rfl
@[simp] theorem State.reply_outBuf (s : State) (r : Result) : (s.reply r).outBuf = s.outBuf := rfl
@[simp] theorem State.reply_payBuf (s : State) (r : Result) : (s.reply r).payBuf = s.payBuf := rfl
@[simp] theorem State.reply_result (s : State) (r : Result) : (s.reply r).result = r := rfl
@[simp] theorem State.reply_pending (s : State) (r : Result) : (s.reply r).pending = s.pending := rfl

/-! ### `enterFatal`: the decompressor's fatal entry (60_exceptions.md R162) -/

@[simp] theorem State.enterFatal_configured (s : State) (f : FState) (e : ErrCode) : (s.enterFatal f e).configured = s.configured := rfl
@[simp] theorem State.enterFatal_cfg (s : State) (f : FState) (e : ErrCode) : (s.enterFatal f e).cfg = s.cfg := rfl
@[simp] theorem State.enterFatal_fstate (s : State) (f : FState) (e : ErrCode) : (s.enterFatal f e).fstate = f := rfl
@[simp] theorem State.enterFatal_stageLen (s : State) (f : FState) (e : ErrCode) : (s.enterFatal f e).stageLen = 0 := rfl
@[simp] theorem State.enterFatal_blockSize (s : State) (f : FState) (e : ErrCode) : (s.enterFatal f e).blockSize = s.blockSize := rfl
@[simp] theorem State.enterFatal_btype (s : State) (f : FState) (e : ErrCode) : (s.enterFatal f e).btype = s.btype := rfl
@[simp] theorem State.enterFatal_full (s : State) (f : FState) (e : ErrCode) : (s.enterFatal f e).full = s.full := rfl
@[simp] theorem State.enterFatal_rawSize (s : State) (f : FState) (e : ErrCode) : (s.enterFatal f e).rawSize = s.rawSize := rfl
@[simp] theorem State.enterFatal_cSize (s : State) (f : FState) (e : ErrCode) : (s.enterFatal f e).cSize = s.cSize := rfl
@[simp] theorem State.enterFatal_crcHi6 (s : State) (f : FState) (e : ErrCode) : (s.enterFatal f e).crcHi6 = s.crcHi6 := rfl
@[simp] theorem State.enterFatal_outLen (s : State) (f : FState) (e : ErrCode) : (s.enterFatal f e).outLen = s.outLen := rfl
@[simp] theorem State.enterFatal_outPos (s : State) (f : FState) (e : ErrCode) : (s.enterFatal f e).outPos = s.outPos := rfl
@[simp] theorem State.enterFatal_errcause (s : State) (f : FState) (e : ErrCode) : (s.enterFatal f e).errcause = e := rfl
@[simp] theorem State.enterFatal_ck (s : State) (f : FState) (e : ErrCode) : (s.enterFatal f e).ck = s.ck := rfl
@[simp] theorem State.enterFatal_cphase (s : State) (f : FState) (e : ErrCode) : (s.enterFatal f e).cphase = s.cphase := rfl
@[simp] theorem State.enterFatal_bufLen (s : State) (f : FState) (e : ErrCode) : (s.enterFatal f e).bufLen = s.bufLen := rfl
@[simp] theorem State.enterFatal_hdrDone (s : State) (f : FState) (e : ErrCode) : (s.enterFatal f e).hdrDone = s.hdrDone := rfl
@[simp] theorem State.enterFatal_work (s : State) (f : FState) (e : ErrCode) : (s.enterFatal f e).work = s.work := rfl
@[simp] theorem State.enterFatal_inStage (s : State) (f : FState) (e : ErrCode) : (s.enterFatal f e).inStage = s.inStage := rfl
@[simp] theorem State.enterFatal_blockBuf (s : State) (f : FState) (e : ErrCode) : (s.enterFatal f e).blockBuf = s.blockBuf := rfl
@[simp] theorem State.enterFatal_outBuf (s : State) (f : FState) (e : ErrCode) : (s.enterFatal f e).outBuf = s.outBuf := rfl
@[simp] theorem State.enterFatal_payBuf (s : State) (f : FState) (e : ErrCode) : (s.enterFatal f e).payBuf = s.payBuf := rfl
@[simp] theorem State.enterFatal_result (s : State) (f : FState) (e : ErrCode) : (s.enterFatal f e).result = s.result := rfl
@[simp] theorem State.enterFatal_pending (s : State) (f : FState) (e : ErrCode) : (s.enterFatal f e).pending = s.pending := rfl

/-! ### `enterFailed`: the compressor's fatal entry (R162) -/

@[simp] theorem State.enterFailed_configured (s : State) (e : ErrCode) : (s.enterFailed e).configured = s.configured := rfl
@[simp] theorem State.enterFailed_cfg (s : State) (e : ErrCode) : (s.enterFailed e).cfg = s.cfg := rfl
@[simp] theorem State.enterFailed_fstate (s : State) (e : ErrCode) : (s.enterFailed e).fstate = s.fstate := rfl
@[simp] theorem State.enterFailed_stageLen (s : State) (e : ErrCode) : (s.enterFailed e).stageLen = s.stageLen := rfl
@[simp] theorem State.enterFailed_blockSize (s : State) (e : ErrCode) : (s.enterFailed e).blockSize = s.blockSize := rfl
@[simp] theorem State.enterFailed_btype (s : State) (e : ErrCode) : (s.enterFailed e).btype = s.btype := rfl
@[simp] theorem State.enterFailed_full (s : State) (e : ErrCode) : (s.enterFailed e).full = s.full := rfl
@[simp] theorem State.enterFailed_rawSize (s : State) (e : ErrCode) : (s.enterFailed e).rawSize = s.rawSize := rfl
@[simp] theorem State.enterFailed_cSize (s : State) (e : ErrCode) : (s.enterFailed e).cSize = s.cSize := rfl
@[simp] theorem State.enterFailed_crcHi6 (s : State) (e : ErrCode) : (s.enterFailed e).crcHi6 = s.crcHi6 := rfl
@[simp] theorem State.enterFailed_outLen (s : State) (e : ErrCode) : (s.enterFailed e).outLen = s.outLen := rfl
@[simp] theorem State.enterFailed_outPos (s : State) (e : ErrCode) : (s.enterFailed e).outPos = s.outPos := rfl
@[simp] theorem State.enterFailed_errcause (s : State) (e : ErrCode) : (s.enterFailed e).errcause = e := rfl
@[simp] theorem State.enterFailed_ck (s : State) (e : ErrCode) : (s.enterFailed e).ck = s.ck := rfl
@[simp] theorem State.enterFailed_cphase (s : State) (e : ErrCode) : (s.enterFailed e).cphase = .failed := rfl
@[simp] theorem State.enterFailed_bufLen (s : State) (e : ErrCode) : (s.enterFailed e).bufLen = 0 := rfl
@[simp] theorem State.enterFailed_hdrDone (s : State) (e : ErrCode) : (s.enterFailed e).hdrDone = s.hdrDone := rfl
@[simp] theorem State.enterFailed_work (s : State) (e : ErrCode) : (s.enterFailed e).work = s.work := rfl
@[simp] theorem State.enterFailed_inStage (s : State) (e : ErrCode) : (s.enterFailed e).inStage = s.inStage := rfl
@[simp] theorem State.enterFailed_blockBuf (s : State) (e : ErrCode) : (s.enterFailed e).blockBuf = s.blockBuf := rfl
@[simp] theorem State.enterFailed_outBuf (s : State) (e : ErrCode) : (s.enterFailed e).outBuf = s.outBuf := rfl
@[simp] theorem State.enterFailed_payBuf (s : State) (e : ErrCode) : (s.enterFailed e).payBuf = s.payBuf := rfl
@[simp] theorem State.enterFailed_result (s : State) (e : ErrCode) : (s.enterFailed e).result = s.result := rfl
@[simp] theorem State.enterFailed_pending (s : State) (e : ErrCode) : (s.enterFailed e).pending = s.pending := rfl

/-! ### `sessionReset`: the reset (70_reset_and_hazards.md R180) -/

@[simp] theorem State.sessionReset_configured (s : State) : (s.sessionReset).configured = s.configured := rfl
@[simp] theorem State.sessionReset_cfg (s : State) : (s.sessionReset).cfg = s.cfg := rfl
@[simp] theorem State.sessionReset_fstate (s : State) : (s.sessionReset).fstate = .fileHeader := rfl
@[simp] theorem State.sessionReset_stageLen (s : State) : (s.sessionReset).stageLen = 0 := rfl
@[simp] theorem State.sessionReset_blockSize (s : State) : (s.sessionReset).blockSize = 0 := rfl
@[simp] theorem State.sessionReset_btype (s : State) : (s.sessionReset).btype = .compressed := rfl
@[simp] theorem State.sessionReset_full (s : State) : (s.sessionReset).full = false := rfl
@[simp] theorem State.sessionReset_rawSize (s : State) : (s.sessionReset).rawSize = 0 := rfl
@[simp] theorem State.sessionReset_cSize (s : State) : (s.sessionReset).cSize = 0 := rfl
@[simp] theorem State.sessionReset_crcHi6 (s : State) : (s.sessionReset).crcHi6 = 0 := rfl
@[simp] theorem State.sessionReset_outLen (s : State) : (s.sessionReset).outLen = 0 := rfl
@[simp] theorem State.sessionReset_outPos (s : State) : (s.sessionReset).outPos = 0 := rfl
@[simp] theorem State.sessionReset_errcause (s : State) : (s.sessionReset).errcause = .none := rfl
@[simp] theorem State.sessionReset_ck (s : State) : (s.sessionReset).ck = ckInitial := rfl
@[simp] theorem State.sessionReset_cphase (s : State) : (s.sessionReset).cphase = .opened := rfl
@[simp] theorem State.sessionReset_bufLen (s : State) : (s.sessionReset).bufLen = 0 := rfl
@[simp] theorem State.sessionReset_hdrDone (s : State) : (s.sessionReset).hdrDone = false := rfl
@[simp] theorem State.sessionReset_work (s : State) : (s.sessionReset).work = Work.unwritten := rfl
@[simp] theorem State.sessionReset_inStage (s : State) : (s.sessionReset).inStage = [] := rfl
@[simp] theorem State.sessionReset_blockBuf (s : State) : (s.sessionReset).blockBuf = [] := rfl
@[simp] theorem State.sessionReset_outBuf (s : State) : (s.sessionReset).outBuf = [] := rfl
@[simp] theorem State.sessionReset_payBuf (s : State) : (s.sessionReset).payBuf = [] := rfl
@[simp] theorem State.sessionReset_result (s : State) : (s.sessionReset).result = s.result := rfl
@[simp] theorem State.sessionReset_pending (s : State) : (s.sessionReset).pending = s.pending := rfl

/-! ### The result port is read by nothing -/

@[simp] theorem status_reply (s : State) (r : Result) : status (s.reply r) = status s := rfl
@[simp] theorem statusDecompressor_reply (s : State) (r : Result) : statusDecompressor (s.reply r) = statusDecompressor s := rfl
@[simp] theorem statusCompressor_reply (s : State) (r : Result) : statusCompressor (s.reply r) = statusCompressor s := rfl
@[simp] theorem fieldLength_reply (s : State) (r : Result) : fieldLength (s.reply r) = fieldLength s := rfl
@[simp] theorem needOutput_reply (s : State) (r : Result) : needOutput (s.reply r) = needOutput s := rfl
@[simp] theorem readyLength_reply (s : State) (r : Result) : readyLength (s.reply r) = readyLength s := rfl
@[simp] theorem outBufSize_reply (s : State) (r : Result) : outBufSize (s.reply r) = outBufSize s := rfl
@[simp] theorem blockSizeCfg_reply (s : State) (r : Result) : blockSizeCfg (s.reply r) = blockSizeCfg s := rfl
@[simp] theorem lazyHeader_reply (s : State) (r : Result) : lazyHeader (s.reply r) = lazyHeader s := rfl
@[simp] theorem readyBytes_reply (s : State) (r : Result) : readyBytes (s.reply r) = readyBytes s := rfl

@[simp] theorem State.reply_reply (s : State) (r r' : Result) : (s.reply r).reply r' = s.reply r' := rfl

/-- Two resets are one (70_reset_and_hazards.md R183). -/
@[simp] theorem State.sessionReset_sessionReset (s : State) : s.sessionReset.sessionReset = s.sessionReset := rfl

@[simp] theorem State.sessionReset_reply (s : State) (r : Result) : (s.reply r).sessionReset = s.sessionReset.reply r :=
  rfl

/-- The checksum after power-on is the one CK.INIT gives (46_checksum.md R121). -/
theorem Checksum.initial_eq_ckInitial : Checksum.initial = ckInitial := by decide

end Sys2Proof.Machine
end

