-- ==== Sys2Proof/Laws/Ops.lean ====
section
/-! SUPPORT. What each shared operation can answer, said once: the outcomes, the writer and reader, the content actions,
EMIT, and what a field action and SETINPUT leave alone. Later proofs cite these and do not unfold the operations. -/

namespace Sys2Proof.Machine

/-! ### Outcomes -/

theorem whenConfigured_of_configured {s : State} (h : s.configured = true) (k : Host.Outcome State Fault Refusal) :
    whenConfigured s k = k := by
  simp [whenConfigured, h]

theorem whenConfigured_of_unconfigured {s : State} (h : s.configured = false) (k : Host.Outcome State Fault Refusal) :
    whenConfigured s k = .next (s.reply (.error .argUnconfigured)) := by
  simp [whenConfigured, h, argError]

/-- A command that answers has failed check 2 or done its work. -/
theorem whenConfigured_eq_next {s t : State} {k : Host.Outcome State Fault Refusal} (h : whenConfigured s k = .next t) :
    (s.configured = true ∧ k = .next t) ∨ (s.configured = false ∧ t = s.reply (.error .argUnconfigured)) := by
  unfold whenConfigured at h
  split at h
  · exact .inl ⟨‹_›, h⟩
  · rename_i hc
    simp only [argError, Host.Outcome.next.injEq] at h
    exact .inr ⟨by simpa using hc, h.symm⟩

theorem outcome_eq_next_iff {x : Except Fault State} {t : State} : outcome x = .next t ↔ x = .ok t := by
  cases x <;> simp [outcome]

/-- A unit operation that answers has done its work or raised a code that changes nothing else. -/
theorem unitOutcome_eq_next {s t : State} {x : Except Stop State} (h : unitOutcome s x = .next t) :
    x = .ok t ∨ ∃ e, x = .error (.raise e) ∧ t = s.reply (.error e) := by
  rcases x with (e | f) | u
  · simp only [unitOutcome, Host.Outcome.next.injEq] at h
    exact .inr ⟨e, rfl, h.symm⟩
  · simp [unitOutcome] at h
  · simp only [unitOutcome, Host.Outcome.next.injEq] at h
    exact .inl (by rw [h])

theorem runOutcome_eq_next {s t : State} {w : Work} {r : Except Stop Result} (h : runOutcome s w r = .next t) :
    (∃ res, r = .ok res ∧ t = { s with work := w }.reply res) ∨
      ∃ e, r = .error (.raise e) ∧ t = { s with work := w }.reply (.error e) := by
  rcases r with (e | f) | res
  · simp only [runOutcome, Host.Outcome.next.injEq] at h
    exact .inr ⟨e, rfl, h.symm⟩
  · simp [runOutcome] at h
  · simp only [runOutcome, Host.Outcome.next.injEq] at h
    exact .inl ⟨res, rfl, h.symm⟩

theorem whenGiven_of_le {given needed : Nat} (h : needed ≤ given) (f : Fault) (k : Host.Outcome State Fault Refusal) :
    whenGiven given needed f k = k := by
  simp [whenGiven, Nat.not_lt.mpr h]

/-- A unit operation that answers was given every cell it names. -/
theorem whenGiven_eq_next {given needed : Nat} {f : Fault} {k : Host.Outcome State Fault Refusal} {t : State}
    (h : whenGiven given needed f k = .next t) : needed ≤ given ∧ k = .next t := by
  unfold whenGiven at h
  split at h
  · simp at h
  · exact ⟨by omega, h⟩

/-! ### Arithmetic and weights on the operands the rules give -/

theorem quotient_of_pos {a b : Int} (ha : 0 ≤ a) (hb : 0 < b) : quotient a b = a / b := by simp [quotient, ha, hb]

theorem shiftRight_of_nonneg {a : Int} (h : 0 ≤ a) (n : Nat) : shiftRight a n = a / 2 ^ n := by simp [shiftRight, h]

/-- An open weight is one of the range of 10_state.md R20. -/
theorem openWeight_range (tl total s c : Nat) (w : Int) :
    -1 ≤ openWeight tl total s c w ∧ openWeight tl total s c w ≤ 32767 := by
  unfold openWeight
  omega

/-- A weight of the register's width is held as it is written. -/
theorem heldWeight_of_range {w : Int} (h : -32768 ≤ w ∧ w ≤ 32768) (tl total s c : Nat) :
    heldWeight tl total s c w = w := by
  simp [heldWeight, h]

/-- Whatever is written, the register holds a weight of its width. -/
theorem heldWeight_range (tl total s c : Nat) (w : Int) :
    -32768 ≤ heldWeight tl total s c w ∧ heldWeight tl total s c w ≤ 32768 := by
  unfold heldWeight
  have := openWeight_range tl total s c w
  split <;> omega

theorem heldWeights_length {norm : Marked} {count : List Nat} (h : norm.length = count.length) (tl total s : Nat) :
    (heldWeights tl total s count norm).length = count.length := by
  induction count generalizing s norm with
  | nil => cases norm <;> rfl
  | cons c cs ih =>
    cases norm with
    | nil => simp at h
    | cons w norm => simp [heldWeights, ih (norm := norm) (by simpa using h)]

/-- Where every symbol is assigned a weight of the register's width, that is what it holds. -/
theorem heldWeights_map_some {norm : List Int} {count : List Nat} (hl : norm.length = count.length)
    (h : ∀ w ∈ norm, -32768 ≤ w ∧ w ≤ 32768) (tl total s : Nat) :
    heldWeights tl total s count (norm.map some) = norm := by
  induction count generalizing s norm with
  | nil =>
    cases norm with
    | nil => rfl
    | cons w norm => simp at hl
  | cons c cs ih =>
    cases norm with
    | nil => simp at hl
    | cons w norm =>
      simp only [List.map_cons, heldWeights, heldWeight_of_range (h w (by simp))]
      rw [ih (by simpa using hl) fun w' hw => h w' (by simp [hw])]

theorem codeField_of_nonneg {c : Int} (h : 0 ≤ c) (n : Nat) : codeField c n = c.toNat := by simp [codeField, h]

theorem firstNext_of_weight {w : Int} (h : -1 ≤ w) : firstNext w = slots w := by
  simp [firstNext, show ¬w < -1 by omega]

/-! ### Table RAMs -/

@[simp] theorem ramWritten_length {α : Type} (n : Nat) (ws : List (Nat × α)) : (ramWritten n ws).length = 2 ^ n := by
  induction n generalizing ws with
  | zero => rfl
  | succ n ih => simp [ramWritten, ih, Nat.pow_succ]; omega

@[simp] theorem ramKeep_length {α : Type} (old new : List (Option α)) : (ramKeep old new).length = new.length := by
  induction new generalizing old with
  | nil => cases old <;> rfl
  | cons c new ih => cases old <;> simp [ramKeep, ih]

/-- Where every cell is written, what the RAM held does not matter. -/
@[simp] theorem ramKeep_map_some {α : Type} (old : List (Option α)) (new : List α) :
    ramKeep old (new.map some) = new.map some := by
  induction new generalizing old with
  | nil => cases old <;> rfl
  | cons c new ih => cases old <;> simp [ramKeep, ih]

@[simp] theorem ramKeep_nil {α : Type} (new : List (Option α)) : ramKeep [] new = new := by cases new <;> rfl

theorem ramWrite_eq_ok {α : Type} {n : Nat} {old ram : List (Option α)} {ws : List (Nat × α)}
    (h : ramWrite n old ws = .ok ram) :
    (∀ p ∈ ws, p.1 < 2 ^ n) ∧ ram = ramKeep old (ramWritten n ws) := by
  unfold ramWrite at h
  split at h
  · simp only [Except.ok.injEq] at h
    rename_i hw
    exact ⟨by simpa using hw, h.symm⟩
  · simp at h

@[simp] theorem readSlots_map_some (l : List Byte) : readSlots (l.map some) = .ok l := by
  induction l with
  | nil => rfl
  | cons b l ih => simp [readSlots, ih, Except.map]

/-! ### Bit writer and reader -/

theorem writerAdd_of_le {wr : Writer} {v n : Nat} (h : n ≤ 32) : writerAdd wr v n = .ok (wr.put v n) := by
  simp [writerAdd, h]

theorem writerAdd_eq_ok {wr wr' : Writer} {v n : Nat} (h : writerAdd wr v n = .ok wr') : n ≤ 32 ∧ wr' = wr.put v n := by
  unfold writerAdd at h
  split at h <;> simp_all [eq_comm]

theorem readerRead_of_le {r : Reader} {n : Nat} (h : n ≤ r.p) :
    readerRead r n = .ok (r.top n, { r with p := r.p - n }) := by
  simp [readerRead, show ¬r.p < n by omega]

theorem readerRead_of_lt {r : Reader} {n : Nat} (h : r.p < n) : readerRead r n = .error (.raise .streamExhausted) := by
  simp [readerRead, h]

/-! ### Content and emission -/

/-- The end of a content action: the bytes are queued from offset 0 and folded when the check is on. -/
theorem produce_eq_ok {s t : State} {content : List Byte} (h : produce s content = .ok t) :
    content.length ≤ outBufSize s ∧
      t = { s with
        outBuf := Memory.write s.outBuf 0 content, outPos := 0, outLen := content.length
        ck := if s.cfg.ckEn then ckFold s.ck content else s.ck, fstate := .blockType } := by
  unfold produce at h
  split at h
  · simp at h
  · rename_i m hm
    obtain ⟨hle, rfl⟩ := (Memory.store_eq_ok_iff _ _ _ _ _).mp hm
    simp only [Except.ok.injEq] at h
    exact ⟨by omega, h.symm⟩

theorem queueBlock_eq_ok {s t : State} {r : BlockResult} {src : List Byte} (h : queueBlock s r src = .ok t) :
    (lazyHeader s ++ frame r src (blockSizeCfg s)).length ≤ outBufSize s ∧
      t = { s with
        hdrDone := true, ck := ckFold s.ck src
        outBuf := Memory.write s.outBuf 0 (lazyHeader s ++ frame r src (blockSizeCfg s)), outPos := 0
        outLen := (lazyHeader s ++ frame r src (blockSizeCfg s)).length, bufLen := 0 } := by
  simp only [queueBlock] at h
  split at h
  · simp at h
  · rename_i m hm
    obtain ⟨hle, rfl⟩ := (Memory.store_eq_ok_iff _ _ _ _ _).mp hm
    simp only [Except.ok.injEq] at h
    exact ⟨by omega, h.symm⟩

/-- EMIT queues a framed block or enters the failed state; either way the block buffer is empty after it. -/
theorem emit_eq_ok {s t : State} (h : emit s = .ok t) :
    ∃ src, Memory.read s.blockBuf 0 s.bufLen = .ok src ∧
      let run := compressBlock src s.cfg.tlReq s.cfg.oneByteRle
      let u := { s with work := run.work, payBuf := Memory.write s.payBuf 0 run.pay }
      run.pay.length ≤ payCap ∧
        ((∃ r, run.out = .ok r ∧ queueBlock u r src = .ok t) ∨
          ∃ e, (e = .normalize ∨ e = .tableSpread) ∧ run.out = .error (.raise e) ∧ t = u.enterFailed e) := by
  simp only [emit] at h
  split at h
  · simp at h
  · rename_i src hsrc
    split at h
    · simp at h
    · rename_i m hm
      obtain ⟨hle, rfl⟩ := (Memory.store_eq_ok_iff _ _ _ _ _).mp hm
      refine ⟨src, hsrc, by omega, ?_⟩
      split at h
      · exact .inl ⟨_, ‹_›, h⟩
      · simp only [Except.ok.injEq] at h
        exact .inr ⟨_, .inl rfl, ‹_›, h.symm⟩
      · simp only [Except.ok.injEq] at h
        exact .inr ⟨_, .inr rfl, ‹_›, h.symm⟩
      · simp at h
      · simp at h

/-! ### What a field action and SETINPUT leave alone -/

/-- The fields of the other session, the configuration and the host's own ports. -/
def State.sameOutside (s t : State) : Prop :=
  t.configured = s.configured ∧ t.cfg = s.cfg ∧ t.cphase = s.cphase ∧ t.bufLen = s.bufLen ∧ t.hdrDone = s.hdrDone ∧
    t.blockBuf = s.blockBuf ∧ t.payBuf = s.payBuf ∧ t.result = s.result ∧ t.pending = s.pending

theorem State.sameOutside_refl (s : State) : s.sameOutside s := by simp [State.sameOutside]

theorem State.sameOutside_trans {s t u : State} (h : s.sameOutside t) (h' : t.sameOutside u) : s.sameOutside u := by
  simp only [State.sameOutside] at *
  simp_all

theorem produce_sameOutside {s t : State} {content : List Byte} (h : produce s content = .ok t) : s.sameOutside t := by
  obtain ⟨_, rfl⟩ := produce_eq_ok h
  simp [State.sameOutside]

/-- A field action of the decompressor touches neither the compressor's session nor the configuration, and stages
nothing. -/
theorem fieldAction_sameOutside {s t : State} {f : List Byte} (h : fieldAction s f = .ok t) :
    s.sameOutside t ∧ t.inStage = s.inStage := by
  unfold fieldAction at h
  split at h
  · simp only [Except.ok.injEq] at h
    subst h
    unfold fileHeaderAction
    repeat' split
    all_goals simp [State.sameOutside, State.enterFatal]
  · simp only [Except.ok.injEq] at h
    subst h
    unfold blockTypeAction
    repeat' split
    all_goals simp [State.sameOutside]
  · simp only [Except.ok.injEq] at h
    subst h
    unfold rawSizeAction
    split <;> simp [State.sameOutside, State.enterFatal]
  · simp only [Except.ok.injEq] at h
    subst h
    simp [State.sameOutside, compSizeAction]
  · simp only [Except.ok.injEq] at h
    subst h
    unfold crcBlockAction
    split <;> simp [State.sameOutside, State.enterFatal]
  · have hp : ∀ c, produce s c = .ok t → s.sameOutside t ∧ t.inStage = s.inStage := fun c hc => by
      obtain ⟨_, rfl⟩ := produce_eq_ok hc
      simp [State.sameOutside]
    split at h
    · unfold compressedAction at h
      simp only at h
      split at h
      · obtain ⟨_, rfl⟩ := produce_eq_ok h
        simp [State.sameOutside]
      · simp only [Except.ok.injEq] at h
        subst h
        simp [State.sameOutside, State.enterFatal]
      · simp at h
    · exact hp _ h
    · exact hp _ h
    · simp at h
  · simp at h

/-- The loop of SETINPUT (47_container.md R133) leaves the same alone, and takes no more than it is offered. -/
theorem inputLoop_sameOutside {fuel : Nat} {bytes : List Byte} {c d : Nat} {s t : State}
    (h : inputLoop fuel bytes c s = .ok (d, t)) : s.sameOutside t ∧ c ≤ d ∧ d ≤ c + bytes.length := by
  induction fuel generalizing bytes c s with
  | zero => simp [inputLoop] at h
  | succ fuel ih =>
    unfold inputLoop at h
    split at h
    · simp only [Except.ok.injEq, Prod.mk.injEq] at h
      obtain ⟨rfl, rfl⟩ := h
      exact ⟨State.sameOutside_refl _, by omega, by omega⟩
    · split at h
      · split at h
        · simp at h
        · split at h
          · simp at h
          · rename_i u hu
            obtain ⟨h1, h2, h3⟩ := ih h
            exact ⟨State.sameOutside_trans (by simpa [State.sameOutside] using (fieldAction_sameOutside hu).1) h1, h2, h3⟩
      · split at h
        · simp at h
        · split at h
          · simp only [Except.ok.injEq, Prod.mk.injEq] at h
            obtain ⟨rfl, rfl⟩ := h
            exact ⟨State.sameOutside_refl _, by omega, by omega⟩
          · dsimp only at h
            split at h
            · simp at h
            · obtain ⟨h1, h2, h3⟩ := ih h
              refine ⟨State.sameOutside_trans (by simp [State.sameOutside]) h1, by omega, ?_⟩
              simp only [List.length_drop] at h3
              omega

end Sys2Proof.Machine
end

