-- ==== Sys2Proof/Laws/PerInstr.lean ====
section
/-! SUPPORT. A law of every instruction as syntax: what `encode` gives carries the bits that the instruction's row of
spec/opcode_table.json fixes (30_encoding.md R41 to R47, R54, R55). -/

namespace Sys2Proof.Laws.TableBits

/-- The bits of a packet that the table numbers: the first four bytes of a file header, the header byte of a block, the
code of a command or unit operation. -/
def packetWord : Packet → Nat
  | .fileHeader bytes => leNat (bytes.take 4)
  | .block bytes => (bytes.headD 0).toNat
  | .command code _ => code.toNat
  | .unitOp code _ => code.toNat
  | .drain => 0

/-- An instruction's row: its mask and match. FHDR's row fixes the one legal tag; DRAIN's has no bits. -/
def tableRow : Instr → Option (Nat × Nat)
  | .fhdr tag _ => if tag = 0x183E2309 then some (0xFFFFFFFF, 0x183E2309) else none
  | .blkCmp _ _ _ _ => some (0xE0, 0x00)
  | .blkCmpF _ _ _ => some (0xE0, 0x20)
  | .blkRaw _ _ _ => some (0xE0, 0x40)
  | .blkRawF _ _ => some (0xE0, 0x60)
  | .blkRle _ _ _ => some (0xE0, 0x80)
  | .blkRleF _ _ => some (0xE0, 0xA0)
  | .blkCrc _ _ => some (0xC0, 0xC0)
  | .configure _ _ _ _ _ _ => some (0xFF, 0x01)
  | .setinput _ => some (0xFF, 0x02)
  | .state => some (0xFF, 0x03)
  | .output => some (0xFF, 0x04)
  | .advance _ => some (0xFF, 0x05)
  | .flush => some (0xFF, 0x06)
  | .complete => some (0xFF, 0x07)
  | .reset => some (0xFF, 0x08)
  | .need => some (0xFF, 0x09)
  | .errcause => some (0xFF, 0x0A)
  | .drain => none
  | .bwInit _ => some (0xFF, 0x40)
  | .bwAdd _ _ => some (0xFF, 0x41)
  | .bwFlush => some (0xFF, 0x42)
  | .bwClose => some (0xFF, 0x43)
  | .brInit _ => some (0xFF, 0x44)
  | .brRead _ => some (0xFF, 0x45)
  | .brPeek _ => some (0xFF, 0x46)
  | .brSkip _ => some (0xFF, 0x47)
  | .histCount _ _ _ _ => some (0xFF, 0x48)
  | .normMinlog _ _ => some (0xFF, 0x49)
  | .normOptlog _ _ _ => some (0xFF, 0x4A)
  | .normNormalize _ _ _ _ => some (0xFF, 0x4B)
  | .normM2 _ _ _ _ => some (0xFF, 0x4C)
  | .ncWrite _ _ _ => some (0xFF, 0x4D)
  | .ncRead _ => some (0xFF, 0x4E)
  | .tbSpread _ _ _ => some (0xFF, 0x4F)
  | .tbCtable _ _ _ => some (0xFF, 0x50)
  | .tbDtable _ _ _ => some (0xFF, 0x51)
  | .fseInitc _ _ => some (0xFF, 0x52)
  | .fseEncsym _ _ _ => some (0xFF, 0x53)
  | .fseEncode _ _ _ => some (0xFF, 0x54)
  | .fseInitd _ _ => some (0xFF, 0x55)
  | .fseDecsym _ _ _ => some (0xFF, 0x56)
  | .fseDecode _ _ _ _ => some (0xFF, 0x57)
  | .bcCompress _ _ _ _ => some (0xFF, 0x58)
  | .bcDecompress _ _ _ _ => some (0xFF, 0x59)
  | .ckInit => some (0xFF, 0x5A)
  | .ckUpdate _ => some (0xFF, 0x5B)
  | .ckDigest => some (0xFF, 0x5C)
  | .ckTrunc22 _ => some (0xFF, 0x5D)

/-- The encoded instruction carries its row's bits. -/
def Statement (i : Instr) : Prop := ∀ r, tableRow i = some r → packetWord (encode i) &&& r.1 = r.2

theorem of_row {i : Instr} {mask bits : Nat} (h : tableRow i = some (mask, bits))
    (w : packetWord (encode i) &&& mask = bits) : Statement i := fun r hr => by
  rw [h] at hr; cases hr; exact w

theorem code_bits : ∀ c : Byte, c.toNat &&& 0xFF = c.toNat := by decide

theorem header_bits.blkCmp : ∀ r : BitVec 5, (headerByte 0 false r).toNat &&& 0xE0 = 0x00 := by decide

theorem header_bits.blkCmpF : ∀ r : BitVec 5, (headerByte 0 true r).toNat &&& 0xE0 = 0x20 := by decide

theorem header_bits.blkRaw : ∀ r : BitVec 5, (headerByte 1 false r).toNat &&& 0xE0 = 0x40 := by decide

theorem header_bits.blkRawF : ∀ r : BitVec 5, (headerByte 1 true r).toNat &&& 0xE0 = 0x60 := by decide

theorem header_bits.blkRle : ∀ r : BitVec 5, (headerByte 2 false r).toNat &&& 0xE0 = 0x80 := by decide

theorem header_bits.blkRleF : ∀ r : BitVec 5, (headerByte 2 true r).toNat &&& 0xE0 = 0xA0 := by decide

theorem header_bits.blkCrc : ∀ r : BitVec 6, (crcHeaderByte r).toNat &&& 0xC0 = 0xC0 := by decide

theorem fhdr (tag : U32) (k : Byte) : Statement (.fhdr tag k) := by
  intro r h
  simp only [tableRow] at h
  split at h
  · subst ‹tag = _›; cases h; simp [packetWord, encode, fhdrBytes, le32Bytes, leNat]
  · cases h

theorem blkCmp (reserved : BitVec 5) (rawSize cSize : BitVec 16) (payload : List Byte) :
    Statement (.blkCmp reserved rawSize cSize payload) :=
  of_row rfl (header_bits.blkCmp reserved)

theorem blkCmpF (reserved : BitVec 5) (cSize : BitVec 16) (payload : List Byte) :
    Statement (.blkCmpF reserved cSize payload) :=
  of_row rfl (header_bits.blkCmpF reserved)

theorem blkRaw (reserved : BitVec 5) (rawSize : BitVec 16) (data : List Byte) :
    Statement (.blkRaw reserved rawSize data) :=
  of_row rfl (header_bits.blkRaw reserved)

theorem blkRawF (reserved : BitVec 5) (data : List Byte) : Statement (.blkRawF reserved data) :=
  of_row rfl (header_bits.blkRawF reserved)

theorem blkRle (reserved : BitVec 5) (rawSize : BitVec 16) (byte : Byte) :
    Statement (.blkRle reserved rawSize byte) :=
  of_row rfl (header_bits.blkRle reserved)

theorem blkRleF (reserved : BitVec 5) (byte : Byte) : Statement (.blkRleF reserved byte) :=
  of_row rfl (header_bits.blkRleF reserved)

theorem blkCrc (crcHi6 : BitVec 6) (crcLo16 : BitVec 16) : Statement (.blkCrc crcHi6 crcLo16) :=
  of_row rfl (header_bits.blkCrc crcHi6)

theorem configure (dir k tlReq ckEn strictTail oneByteRle : Nat) :
    Statement (.configure dir k tlReq ckEn strictTail oneByteRle) :=
  of_row rfl (code_bits 0x01)

theorem setinput (bytes : List Byte) : Statement (.setinput bytes) :=
  of_row rfl (code_bits 0x02)

theorem state : Statement (.state) :=
  of_row rfl (code_bits 0x03)

theorem output : Statement (.output) :=
  of_row rfl (code_bits 0x04)

theorem advance (n : BitVec 17) : Statement (.advance n) :=
  of_row rfl (code_bits 0x05)

theorem flush : Statement (.flush) :=
  of_row rfl (code_bits 0x06)

theorem complete : Statement (.complete) :=
  of_row rfl (code_bits 0x07)

theorem reset : Statement (.reset) :=
  of_row rfl (code_bits 0x08)

theorem need : Statement (.need) :=
  of_row rfl (code_bits 0x09)

theorem errcause : Statement (.errcause) :=
  of_row rfl (code_bits 0x0A)

theorem drain : Statement (.drain) := by simp [Statement, tableRow]

theorem bwInit (cap : Nat) : Statement (.bwInit cap) :=
  of_row rfl (code_bits 0x40)

theorem bwAdd (value : U32) (width : Nat) : Statement (.bwAdd value width) :=
  of_row rfl (code_bits 0x41)

theorem bwFlush : Statement (.bwFlush) :=
  of_row rfl (code_bits 0x42)

theorem bwClose : Statement (.bwClose) :=
  of_row rfl (code_bits 0x43)

theorem brInit (buf : List Byte) : Statement (.brInit buf) :=
  of_row rfl (code_bits 0x44)

theorem brRead (n : Nat) : Statement (.brRead n) :=
  of_row rfl (code_bits 0x45)

theorem brPeek (n : Nat) : Statement (.brPeek n) :=
  of_row rfl (code_bits 0x46)

theorem brSkip (n : Nat) : Statement (.brSkip n) :=
  of_row rfl (code_bits 0x47)

theorem histCount (src : List Byte) (n : Nat) (msvIn : Byte) (strict : Bool) :
    Statement (.histCount src n msvIn strict) :=
  of_row rfl (code_bits 0x48)

theorem normMinlog (n msv : Nat) : Statement (.normMinlog n msv) :=
  of_row rfl (code_bits 0x49)

theorem normOptlog (req n msv : Nat) : Statement (.normOptlog req n msv) :=
  of_row rfl (code_bits 0x4A)

theorem normNormalize (count : List Nat) (total msv tl : Nat) :
    Statement (.normNormalize count total msv tl) :=
  of_row rfl (code_bits 0x4B)

theorem normM2 (tl : Nat) (count : List Nat) (total msv : Nat) :
    Statement (.normM2 tl count total msv) :=
  of_row rfl (code_bits 0x4C)

theorem ncWrite (norm : List Int) (msv tl : Nat) : Statement (.ncWrite norm msv tl) :=
  of_row rfl (code_bits 0x4D)

theorem ncRead (buf : List Byte) : Statement (.ncRead buf) :=
  of_row rfl (code_bits 0x4E)

theorem tbSpread (norm : List Int) (msv tl : Nat) : Statement (.tbSpread norm msv tl) :=
  of_row rfl (code_bits 0x4F)

theorem tbCtable (norm : List Int) (msv tl : Nat) : Statement (.tbCtable norm msv tl) :=
  of_row rfl (code_bits 0x50)

theorem tbDtable (norm : List Int) (msv tl : Nat) : Statement (.tbDtable norm msv tl) :=
  of_row rfl (code_bits 0x51)

theorem fseInitc (j : Bool) (s : Byte) : Statement (.fseInitc j s) :=
  of_row rfl (code_bits 0x52)

theorem fseEncsym (j : Bool) (v : Nat) (s : Byte) : Statement (.fseEncsym j v s) :=
  of_row rfl (code_bits 0x53)

theorem fseEncode (src : List Byte) (n cap : Nat) : Statement (.fseEncode src n cap) :=
  of_row rfl (code_bits 0x54)

theorem fseInitd (j : Bool) (tl : Nat) : Statement (.fseInitd j tl) :=
  of_row rfl (code_bits 0x55)

theorem fseDecsym (j : Bool) (st : Nat) (update : Bool) : Statement (.fseDecsym j st update) :=
  of_row rfl (code_bits 0x56)

theorem fseDecode (buf : List Byte) (tl n : Nat) (strictTail : Bool) :
    Statement (.fseDecode buf tl n strictTail) :=
  of_row rfl (code_bits 0x57)

theorem bcCompress (src : List Byte) (n tlReq : Nat) (oneByteRle : Bool) :
    Statement (.bcCompress src n tlReq oneByteRle) :=
  of_row rfl (code_bits 0x58)

theorem bcDecompress (payload : List Byte) (len rawSize : Nat) (strictTail : Bool) :
    Statement (.bcDecompress payload len rawSize strictTail) :=
  of_row rfl (code_bits 0x59)

theorem ckInit : Statement (.ckInit) :=
  of_row rfl (code_bits 0x5A)

theorem ckUpdate (bytes : List Byte) : Statement (.ckUpdate bytes) :=
  of_row rfl (code_bits 0x5B)

theorem ckDigest : Statement (.ckDigest) :=
  of_row rfl (code_bits 0x5C)

theorem ckTrunc22 (h : U32) : Statement (.ckTrunc22 h) :=
  of_row rfl (code_bits 0x5D)

end Sys2Proof.Laws.TableBits
end

