-- ==== Sys2Proof/Machine/Assembler.lean ====
section
/-! DEFINITION. The assembler syntax of command programs (30_encoding.md R56 to R58): a program's text to the packets
the host issues. A word is a run of characters without a space; hexadecimal is read in pairs of digits (log 22). -/

namespace Sys2Proof.Machine

/-- The words of a line. -/
def wordsOf : List Char → List (List Char)
  | [] => [[]]
  | c :: cs =>
    if c = ' ' then [] :: wordsOf cs
    else
      match wordsOf cs with
      | w :: ws => (c :: w) :: ws
      | [] => [[c]]

/-- A line up to `;` (a comment) or `=>` (an expected result). -/
def codePart : List Char → List Char
  | [] => []
  | ';' :: _ => []
  | '=' :: '>' :: _ => []
  | c :: cs => c :: codePart cs

/-- The words that carry the command and its operands. -/
def lineWords (line : List Char) : List (List Char) := (wordsOf (codePart line)).filter fun w => !w.isEmpty

/-- One hexadecimal digit. -/
def hexDigit (c : Char) : Option Nat :=
  if '0' ≤ c ∧ c ≤ '9' then some (c.toNat - 48)
  else if 'A' ≤ c ∧ c ≤ 'F' then some (c.toNat - 55)
  else if 'a' ≤ c ∧ c ≤ 'f' then some (c.toNat - 87)
  else none

/-- A hexadecimal number; the digits read so far make `acc`. -/
def hexNumber (acc : Nat) : List Char → Option Nat
  | [] => some acc
  | c :: cs => (hexDigit c).bind fun d => hexNumber (16 * acc + d) cs

/-- A decimal number; the digits read so far make `acc`. -/
def decNumber (acc : Nat) : List Char → Option Nat
  | [] => some acc
  | c :: cs => if '0' ≤ c ∧ c ≤ '9' then decNumber (10 * acc + (c.toNat - 48)) cs else none

/-- Hexadecimal bytes, two digits each. -/
def hexBytes : List Char → Option (List Byte)
  | [] => some []
  | [_] => none
  | a :: b :: cs => do
    let x ← hexDigit a
    let y ← hexDigit b
    let rest ← hexBytes cs
    some (BitVec.ofNat 8 (16 * x + y) :: rest)

/-- The value of the operand `key=<value>`, if it is written. -/
def operand? (key : List Char) (ops : List (List Char)) : Option (List Char) :=
  (ops.find? fun w => (key ++ ['=']).isPrefixOf w).map fun w => w.drop (key.length + 1)

/-- A decimal operand that must be written. -/
def decOperand (key : List Char) (ops : List (List Char)) : Option Nat :=
  match operand? key ops with
  | some (c :: cs) => decNumber 0 (c :: cs)
  | _ => none

/-- A decimal operand with a default. -/
def decDefault (key : List Char) (dflt : Nat) (ops : List (List Char)) : Option Nat :=
  match operand? key ops with
  | none => some dflt
  | some [] => none
  | some cs => decNumber 0 cs

/-- A hexadecimal number operand. -/
def hexOperand (key : List Char) (ops : List (List Char)) : Option Nat :=
  match operand? key ops with
  | some (c :: cs) => hexNumber 0 (c :: cs)
  | _ => none

/-- A hexadecimal byte-sequence operand. -/
def bytesOperand (key : List Char) (ops : List (List Char)) : Option (List Byte) :=
  (operand? key ops).bind hexBytes

/-- One hexadecimal byte operand. -/
def byteOperand (key : List Char) (ops : List (List Char)) : Option Byte :=
  match bytesOperand key ops with
  | some [b] => some b
  | _ => none

/-- A number of `w` bits. -/
def fitBits (w n : Nat) : Option (BitVec w) := if n < 2 ^ w then some (BitVec.ofNat w n) else none

/-- No word is written twice. -/
def noRepeats : List (List Char) → Bool
  | [] => true
  | w :: ws => !ws.contains w && noRepeats ws

/-- The operands a line of `CONFIGURE` or of a wire element may write (R56, R57). -/
def operandKeys (mnemonic : List Char) : List (List Char) :=
  (if mnemonic = "CONFIGURE".toList then ["dir", "k", "tl", "ck", "strict", "rle1"]
    else if mnemonic = "FHDR".toList then ["tag", "k"]
    else if mnemonic = "BLK.CMP".toList then ["raw", "csize", "payload"]
    else if mnemonic = "BLK.CMP.F".toList then ["csize", "payload"]
    else if mnemonic = "BLK.RAW".toList then ["raw", "data"]
    else if mnemonic = "BLK.RAW.F".toList then ["data"]
    else if mnemonic = "BLK.RLE".toList then ["raw", "byte"]
    else if mnemonic = "BLK.RLE.F".toList then ["byte"]
    else if mnemonic = "BLK.CRC".toList then ["crc"]
    else []).map fun k => k.toList

/-- Every word of a line is an operand `key=<value>` of its mnemonic, and none is given twice. R56 and R57 do not say what
another word does; here the line assembles to nothing (DESIGN CHOICE, log 22). -/
def operandsFit (mnemonic : List Char) (ops : List (List Char)) : Bool :=
  let keys := ops.map fun w => w.takeWhile fun c => c != '='
  (ops.all fun w => w.contains '=') && (keys.all fun k => (operandKeys mnemonic).contains k) && noRepeats keys

/-- `dir=<C|D>`. -/
def dirOperand (ops : List (List Char)) : Option Nat :=
  match operand? "dir".toList ops with
  | some ['C'] => some 0
  | some ['D'] => some 1
  | _ => none

/-- `CONFIGURE`: `k` has no default; the others take those of 00_scope.md R4 (R56). The values are not checked here; the
words are, by `operandsFit` (log 22). -/
def assembleConfigure (ops : List (List Char)) : Option Instr := do
  let dir ← dirOperand ops
  let k ← decOperand "k".toList ops
  let tl ← decDefault "tl".toList 0 ops
  let ck ← decDefault "ck".toList 1 ops
  let strict ← decDefault "strict".toList 0 ops
  let rle1 ← decDefault "rle1".toList 1 ops
  some (.configure dir k tl ck strict rle1)

/-- `SETINPUT <hex bytes>` or `SETINPUT @<name>` (R56). -/
def assembleSetinput (names : List (List Char × List Byte)) (ops : List (List Char)) : Option Instr :=
  match ops with
  | [] => some (.setinput [])
  | ('@' :: name) :: rest =>
    if rest.isEmpty then (names.lookup name).map .setinput else none
  | words => (hexBytes words.flatten).map .setinput

/-- The lines of wire elements (R57); reserved bits are 0. -/
def assembleWire (mnemonic : List Char) (ops : List (List Char)) : Option Instr :=
  if mnemonic = "FHDR".toList then do
    let tag ← hexOperand "tag".toList ops
    let k ← decOperand "k".toList ops
    some (.fhdr (← fitBits 32 tag) (← fitBits 8 k))
  else if mnemonic = "BLK.CMP".toList then do
    let raw ← decOperand "raw".toList ops
    let csize ← decOperand "csize".toList ops
    some (.blkCmp 0 (← fitBits 16 raw) (← fitBits 16 csize) (← bytesOperand "payload".toList ops))
  else if mnemonic = "BLK.CMP.F".toList then do
    let csize ← decOperand "csize".toList ops
    some (.blkCmpF 0 (← fitBits 16 csize) (← bytesOperand "payload".toList ops))
  else if mnemonic = "BLK.RAW".toList then do
    let raw ← decOperand "raw".toList ops
    some (.blkRaw 0 (← fitBits 16 raw) (← bytesOperand "data".toList ops))
  else if mnemonic = "BLK.RAW.F".toList then do
    some (.blkRawF 0 (← bytesOperand "data".toList ops))
  else if mnemonic = "BLK.RLE".toList then do
    let raw ← decOperand "raw".toList ops
    some (.blkRle 0 (← fitBits 16 raw) (← byteOperand "byte".toList ops))
  else if mnemonic = "BLK.RLE.F".toList then do
    some (.blkRleF 0 (← byteOperand "byte".toList ops))
  else if mnemonic = "BLK.CRC".toList then do
    let crc ← hexOperand "crc".toList ops
    let c ← fitBits 22 crc
    some (.blkCrc (c.extractLsb' 16 6) (c.extractLsb' 0 16))
  else none

/-- The lines without operands. -/
def assembleBare (mnemonic : List Char) : Option Instr :=
  if mnemonic = "STATE".toList then some .state
  else if mnemonic = "OUTPUT".toList then some .output
  else if mnemonic = "FLUSH".toList then some .flush
  else if mnemonic = "COMPLETE".toList then some .complete
  else if mnemonic = "RESET".toList then some .reset
  else if mnemonic = "NEED".toList then some .need
  else if mnemonic = "ERRCAUSE".toList then some .errcause
  else if mnemonic = "DRAIN".toList then some .drain
  else none

/-- One command line's words to its instruction. -/
def assembleWords (names : List (List Char × List Byte)) : List (List Char) → Option Instr
  | [] => none
  | m :: ops =>
    if m = "CONFIGURE".toList then
      if operandsFit m ops then assembleConfigure ops else none
    else if m = "SETINPUT".toList then assembleSetinput names ops
    else if m = "ADVANCE".toList then
      match ops with
      | [n] => (decNumber 0 n).bind fun n => (fitBits 17 n).map .advance
      | _ => none
    else
      match assembleBare m with
      | some i => if ops.isEmpty then some i else none
      | none => if operandsFit m ops then assembleWire m ops else none

/-- A program's lines to the packets they issue, in order. A line `NAME = <hex>` names a byte sequence; a line without
words issues nothing; a line that is none of R56 to R58 assembles to nothing at all. -/
def assembleLines (names : List (List Char × List Byte)) : List (List Char) → Option (List Packet)
  | [] => some []
  | line :: rest =>
    match lineWords line with
    | [] => assembleLines names rest
    | name :: ['='] :: hex =>
      (hexBytes hex.flatten).bind fun bytes => assembleLines ((name, bytes) :: names) rest
    | words =>
      match assembleWords names words with
      | none => none
      | some i => (assembleLines names rest).map fun ps => encode i :: ps

/-- A program, one line of text each, to the packets the host issues. -/
def assemble (lines : List String) : Option (List Packet) := assembleLines [] (lines.map fun l => l.toList)

end Sys2Proof.Machine
end

