-- ==== Sys2Proof/Tests/Slice0.lean ====
section
/-! SUPPORT. The model's own tests. Expected results come from spec/95_test_vectors.md (the vector's id stands in the
comment) or from the rule named there, never from the model. Then one witness for each obligation with hypotheses, with
each of its clauses at a boundary value. -/

open Sys2Proof Sys2Proof.Machine

set_option Elab.async false

namespace Sys2Proof.Tests

/-! ### Helpers -/

/-- The result of an answered instruction. -/
def replyOf : Host.Outcome State Fault Refusal → Option Result
  | .next t => some t.result
  | .fault _ => none
  | .refused _ => none

/-- A view of the state an answered instruction leaves. -/
def viewOf {α : Type} (f : State → α) : Host.Outcome State Fault Refusal → Option α
  | .next t => some (f t)
  | .fault _ => none
  | .refused _ => none

/-- The fault of a stopped instruction. -/
def faultOf : Host.Outcome State Fault Refusal → Option Fault
  | .next _ => none
  | .fault f => some f
  | .refused _ => none

/-- The state an answered instruction leaves. -/
def stateOf : Host.Outcome State Fault Refusal → State
  | .next t => t
  | .fault _ => State.reset
  | .refused _ => State.reset

theorem next_stateOf {o : Host.Outcome State Fault Refusal} (h : (replyOf o).isSome = true) : o = .next (stateOf o) := by
  cases o <;> simp_all [replyOf, stateOf]

/-- A fresh decompressor. -/
def dec : State := { State.reset with configured := true, cfg := ⟨.decompress, 0, 0, true, false, true⟩ }

/-- A decompressor at the start of a field, in a stream of 1024-byte blocks. -/
def decAt (f : FState) : State := { dec with fstate := f, blockSize := 1024 }

/-- The same where a block is 2 bytes, a size no stream has, so that a full block stays small. -/
def decTiny : State := { decAt .blockType with blockSize := 2 }

/-- A decompressor in a Raw block, before its raw size. -/
def decRaw : State := { decAt .rawSize with btype := .raw }

/-- A decompressor with two bytes ready. -/
def ready : State := { decAt .blockType with outBuf := [(0, 0x41), (1, 0x42)], outLen := 2 }

/-- The same, drained. -/
def drained : State := { ready with outPos := 2 }

/-- A decompressor whose stream has ended. -/
def decDone : State := decAt .completed

/-- A fresh compressor of 1024-byte blocks. -/
def com : State := { State.reset with configured := true, cfg := ⟨.compress, 0, 0, true, false, true⟩ }

/-- A compressor that holds the `n` bytes 0x41. -/
def comHeld (n : Nat) : State := { com with blockBuf := Memory.cells 0 (List.replicate n 0x41), bufLen := n }

/-- A compressor with three bytes ready. -/
def comReady : State := { com with outBuf := [(0, 0xD6), (1, 0x62), (2, 0xE8)], outLen := 3, hdrDone := true }

/-- Weights `norm[0..msv]` from the present symbols. -/
def weights (l : List (Nat × Int)) (msv : Nat) : List Int := (List.range (msv + 1)).map fun i => (l.lookup i).getD 0

/-- Counts `count[0..msv]` from the present symbols. -/
def counts (l : List (Nat × Nat)) (msv : Nat) : List Nat := (List.range (msv + 1)).map fun i => (l.lookup i).getD 0

/-- "abracadabra". -/
def abra : List Byte := [0x61, 0x62, 0x72, 0x61, 0x63, 0x61, 0x64, 0x61, 0x62, 0x72, 0x61]

/-- The distribution N1 of "abracadabra" at table log 5. -/
def n1 : List Int := weights [(0x61, 14), (0x62, 6), (0x63, 3), (0x64, 3), (0x72, 6)] 0x72

/-- The header H2 of N1. -/
def h2 : List Byte := [0x10, 0xFE, 0xFF, 0xFF, 0xFF, 0xFF, 0xFF, 0xFF, 0xFF, 0x79, 0x47, 0xCC, 0x3F, 0x07]

/-- `D3`, the block of programs P3 to P5. -/
def d3 : List Byte := List.replicate 40 0x41 ++ (List.replicate 10 0x42 ++ List.replicate 5 0x43)

/-- 129 bytes, no two the same. -/
def src129 : List Byte := (List.range 129).map (BitVec.ofNat 8)

/-- A state whose tables are those of a distribution. -/
def tabled (norm : List Int) (msv tl : Nat) : State :=
  let run := buildCTable [] [] norm msv tl
  match run.out, (buildDTable [] norm msv tl).out with
  | .ok ct, .ok dt => { com with work := { Work.unwritten with tableSymbol := run.table, ct := ct, dt := dt } }
  | _, _ => com

/-- A state with given bits in the writer. -/
def writing (len val cap : Nat) : State :=
  { com with work := { Work.unwritten with writer := ⟨⟨len, val⟩, false, cap⟩ } }

/-- A state with the reader on the byte 1D (bits 1, 0, 1, 1 below the end mark). -/
def reading (p : Nat) : State := { com with work := { Work.unwritten with reader := ⟨⟨8, 0x1D⟩, p⟩ } }

/-! ### WellFormed: an ill-formed term for each check -/

theorem test_illFormed_wire :
    WellFormed (.blkCmp 0 55 2 [0xA0]) = false ∧ WellFormed (.blkCmpF 0 2 [0xA0, 0x0F, 0x01]) = false ∧
    WellFormed (.blkRaw 0 2 [0x41]) = false ∧ WellFormed (.blkRawF 0 (List.replicate 1023 0x41)) = false := by
  decide +kernel

theorem test_illFormed_bitstream :
    WellFormed (.bwInit 65537) = false ∧ WellFormed (.bwAdd 5 33) = false ∧ WellFormed (.brRead 17) = false ∧
    WellFormed (.brPeek 17) = false ∧ WellFormed (.brSkip 17) = false := by decide

theorem test_illFormed_longBuffer :
    WellFormed (.brInit (List.replicate 65536 0x41)) = false ∧ WellFormed (.ncRead (List.replicate 65536 0x41)) = false ∧
    WellFormed (.fseDecode (List.replicate 65536 0x41) 5 2 false) = false := by
  simp only [WellFormed, List.length_replicate]; decide

theorem test_illFormed_counts :
    WellFormed (.histCount [0x41] 2 0xFF false) = false ∧ WellFormed (.normMinlog 0 1) = false ∧
    WellFormed (.normMinlog 65537 1) = false ∧ WellFormed (.normMinlog 1 0) = false ∧
    WellFormed (.normMinlog 1 256) = false ∧ WellFormed (.normOptlog 4 100 3) = false ∧
    WellFormed (.normOptlog 11 1 3) = false ∧ WellFormed (.normNormalize [1, 1, 1] 3 1 5) = false ∧
    WellFormed (.normNormalize (List.replicate 257 1) 257 256 5) = false ∧ WellFormed (.normNormalize [0, 0] 0 1 5) = false ∧
    WellFormed (.normNormalize [1, 1] 3 1 5) = false ∧ WellFormed (.normM2 4 [1, 1] 2 1) = false ∧
    WellFormed (.normM2 5 (List.replicate 33 1) 33 32) = false := by decide +kernel

theorem test_illFormed_weights :
    WellFormed (.ncWrite [32, 0] 0 5) = false ∧ WellFormed (.ncWrite [-2, 34] 1 5) = false ∧
    WellFormed (.ncWrite [32769] 0 5) = false ∧ WellFormed (.ncWrite (List.replicate 257 1) 256 8) = false ∧
    WellFormed (.tbSpread [32] 0 4) = false ∧ WellFormed (.tbCtable [32] 0 16) = false ∧
    WellFormed (.tbDtable [32, 0] 0 5) = false := by decide +kernel

theorem test_illFormed_codec :
    WellFormed (.fseEncsym false 65536 0x41) = false ∧ WellFormed (.fseEncode [0x41, 0x42] 2 100) = false ∧
    WellFormed (.fseEncode [0x41, 0x42, 0x43] 2 100) = false ∧ WellFormed (.fseEncode [0, 0, 0] 3 65537) = false ∧
    WellFormed (.fseInitd false 4) = false ∧ WellFormed (.fseDecsym false 32768 true) = false ∧
    WellFormed (.fseDecode [1] 16 2 false) = false ∧ WellFormed (.fseDecode [1] 5 65537 false) = false ∧
    WellFormed (.bcCompress [0x41] 1 4 true) = false ∧ WellFormed (.bcCompress [0x41] 2 11 true) = false ∧
    WellFormed (.bcCompress [] 0 11 true) = false ∧ WellFormed (.bcDecompress [1] 2 3 false) = false ∧
    WellFormed (.bcDecompress [1] 1 65537 false) = false := by decide

theorem test_wellFormed_boundaries :
    WellFormed (.bwInit 65536) = true ∧ WellFormed (.bwAdd 5 32) = true ∧ WellFormed (.brRead 16) = true ∧
    WellFormed (.normMinlog 65536 255) = true ∧ WellFormed (.normOptlog 15 2 1) = true ∧
    WellFormed (.ncWrite [32768] 0 15) = true ∧ WellFormed (.fseDecsym true 32767 true) = true := by decide

/-! ### Decode: words written out from 30_encoding.md R41 to R47, R54 and the table's unit numbers -/

theorem test_decode_wire :
    decode (.fileHeader [0x09, 0x23, 0x3E, 0x18, 0x06]) = .ok (.fhdr 0x183E2309 6) ∧
    decode (.block [0x00, 0x00, 0x37, 0x00, 0x02, 0xA0, 0x0F]) = .ok (.blkCmp 0 0x37 2 [0xA0, 0x0F]) ∧
    decode (.block [0x3F, 0x00, 0x02, 0xA0, 0x0F]) = .ok (.blkCmpF 31 2 [0xA0, 0x0F]) ∧
    decode (.block [0x5F, 0x00, 0x02, 0x41, 0x42]) = .ok (.blkRaw 31 2 [0x41, 0x42]) ∧
    decode (.block [0x60, 0x41, 0x42]) = .ok (.blkRawF 0 [0x41, 0x42]) ∧
    decode (.block [0x80, 0x04, 0x01, 0x41]) = .ok (.blkRle 0 1025 0x41) ∧
    decode (.block [0xA0, 0x41]) = .ok (.blkRleF 0 0x41) ∧
    decode (.block [0xFF, 0x12, 0x34]) = .ok (.blkCrc 0x3F 0x1234) := by decide

theorem test_decode_commands :
    decode (.command 0x01 ⟨[0, 6, 15, 1, 0, 1], [], []⟩) = .ok (.configure 0 6 15 1 0 1) ∧
    decode (.command 0x02 ⟨[], [0x41, 0x42], []⟩) = .ok (.setinput [0x41, 0x42]) ∧
    decode (.command 0x03 ⟨[], [], []⟩) = .ok .state ∧ decode (.command 0x04 ⟨[], [], []⟩) = .ok .output ∧
    decode (.command 0x05 ⟨[131071], [], []⟩) = .ok (.advance 131071) ∧
    decode (.command 0x06 ⟨[], [], []⟩) = .ok .flush ∧ decode (.command 0x07 ⟨[], [], []⟩) = .ok .complete ∧
    decode (.command 0x08 ⟨[], [], []⟩) = .ok .reset ∧ decode (.command 0x09 ⟨[], [], []⟩) = .ok .need ∧
    decode (.command 0x0A ⟨[], [], []⟩) = .ok .errcause ∧ decode .drain = .ok .drain := by decide

theorem test_decode_bitstream :
    decode (.unitOp 0x40 ⟨[100], [], []⟩) = .ok (.bwInit 100) ∧
    decode (.unitOp 0x41 ⟨[5, 3], [], []⟩) = .ok (.bwAdd 5 3) ∧ decode (.unitOp 0x42 ⟨[], [], []⟩) = .ok .bwFlush ∧
    decode (.unitOp 0x43 ⟨[], [], []⟩) = .ok .bwClose ∧ decode (.unitOp 0x44 ⟨[], [0x1D], []⟩) = .ok (.brInit [0x1D]) ∧
    decode (.unitOp 0x45 ⟨[3], [], []⟩) = .ok (.brRead 3) ∧ decode (.unitOp 0x46 ⟨[4], [], []⟩) = .ok (.brPeek 4) ∧
    decode (.unitOp 0x47 ⟨[2], [], []⟩) = .ok (.brSkip 2) := by decide

theorem test_decode_modelling :
    decode (.unitOp 0x48 ⟨[2, 16, 1], [5, 0xFF], []⟩) = .ok (.histCount [5, 0xFF] 2 16 true) ∧
    decode (.unitOp 0x49 ⟨[11, 0x72], [], []⟩) = .ok (.normMinlog 11 0x72) ∧
    decode (.unitOp 0x4A ⟨[15, 4, 255], [], []⟩) = .ok (.normOptlog 15 4 255) ∧
    decode (.unitOp 0x4B ⟨[3, 1, 5, 1, 2], [], []⟩) = .ok (.normNormalize [1, 2] 3 1 5) ∧
    decode (.unitOp 0x4C ⟨[5, 3, 1, 1, 2], [], []⟩) = .ok (.normM2 5 [1, 2] 3 1) ∧
    decode (.unitOp 0x4D ⟨[2, 5], [], [25, 6, -1]⟩) = .ok (.ncWrite [25, 6, -1] 2 5) ∧
    decode (.unitOp 0x4E ⟨[], [0xA0, 0x0F], []⟩) = .ok (.ncRead [0xA0, 0x0F]) ∧
    decode (.unitOp 0x4F ⟨[2, 5], [], [25, 6, -1]⟩) = .ok (.tbSpread [25, 6, -1] 2 5) ∧
    decode (.unitOp 0x50 ⟨[2, 5], [], [25, 6, -1]⟩) = .ok (.tbCtable [25, 6, -1] 2 5) ∧
    decode (.unitOp 0x51 ⟨[2, 5], [], [25, 6, -1]⟩) = .ok (.tbDtable [25, 6, -1] 2 5) := by decide

theorem test_decode_codec :
    decode (.unitOp 0x52 ⟨[1, 0x61], [], []⟩) = .ok (.fseInitc true 0x61) ∧
    decode (.unitOp 0x53 ⟨[0, 32, 0x62], [], []⟩) = .ok (.fseEncsym false 32 0x62) ∧
    decode (.unitOp 0x54 ⟨[3, 100], [1, 2, 3], []⟩) = .ok (.fseEncode [1, 2, 3] 3 100) ∧
    decode (.unitOp 0x55 ⟨[1, 5], [], []⟩) = .ok (.fseInitd true 5) ∧
    decode (.unitOp 0x56 ⟨[0, 14, 1], [], []⟩) = .ok (.fseDecsym false 14 true) ∧
    decode (.unitOp 0x57 ⟨[5, 11, 1], [0x3F, 0x08], []⟩) = .ok (.fseDecode [0x3F, 0x08] 5 11 true) ∧
    decode (.unitOp 0x58 ⟨[1, 11, 1], [0x41], []⟩) = .ok (.bcCompress [0x41] 1 11 true) ∧
    decode (.unitOp 0x59 ⟨[2, 3, 0], [0xA0, 0x0F], []⟩) = .ok (.bcDecompress [0xA0, 0x0F] 2 3 false) ∧
    decode (.unitOp 0x5A ⟨[], [], []⟩) = .ok .ckInit ∧ decode (.unitOp 0x5B ⟨[], [0x41], []⟩) = .ok (.ckUpdate [0x41]) ∧
    decode (.unitOp 0x5C ⟨[], [], []⟩) = .ok .ckDigest ∧
    decode (.unitOp 0x5D ⟨[0x02CC5D05], [], []⟩) = .ok (.ckTrunc22 0x02CC5D05) := by decide

theorem test_decode_refuses :
    decode (.fileHeader [0x09, 0x23, 0x3E, 0x18]) = .error .shortElement ∧ decode (.block []) = .error .shortElement ∧
    decode (.block [0x40, 0x00]) = .error .shortElement ∧ decode (.block [0x40, 0x00, 0x02, 0x41]) = .error .contentLength ∧
    decode (.command 0x00 ⟨[], [], []⟩) = .error .commandCode ∧ decode (.command 0x0B ⟨[], [], []⟩) = .error .commandCode ∧
    decode (.command 0x05 ⟨[131072], [], []⟩) = .error .operandWidth ∧
    decode (.unitOp 0x3F ⟨[], [], []⟩) = .error .unitCode ∧ decode (.unitOp 0x5E ⟨[], [], []⟩) = .error .unitCode ∧
    decode (.unitOp 0x52 ⟨[2, 0x61], [], []⟩) = .error .operandWidth ∧
    decode (.unitOp 0x4F ⟨[256, 5], [], [32]⟩) = .error .operandWidth ∧
    decode (.unitOp 0x4F ⟨[0, 16], [], [32]⟩) = .error .operandWidth ∧
    decode (.unitOp 0x4D ⟨[0, 5], [], [-32769]⟩) = .error .operandWidth ∧
    decode (.unitOp 0x4D ⟨[0, 5], [], [-32768]⟩) = .ok (.ncWrite [-32768] 0 5) ∧
    decode (.unitOp 0x55 ⟨[0, 16], [], []⟩) = .error .operandWidth ∧
    decode (.unitOp 0x4C ⟨[5, 131072, 0, 131072], [], []⟩) = .error .operandWidth := by decide

/-- Table words, one of each kind; 0x40 is BLK.RAW's header (log 7). -/
theorem test_tableWord :
    decodeTableWord 40 0x05183E2309 = some (.fhdr 0x183E2309 5) ∧ decodeTableWord 8 0xA0 = some (.blkRleF 0 0) ∧
    decodeTableWord 8 0x40 = some (.blkRaw 0 0 []) ∧ decodeTableWord 8 0x07 = some .complete ∧
    decodeTableWord 8 0x43 = some .bwClose ∧ decodeTableWord 8 0x0B = some (.blkCmp 11 0 0 []) := by decide +kernel

/-! ### Assembler (30_encoding.md R56 to R58) -/

theorem test_assemble_program :
    assemble ["D = 4142 43", "CONFIGURE dir=D k=3 ck=0 ; a comment", "SETINPUT @D => 3", "DRAIN", "ADVANCE 12", ""]
      = some [.command 0x01 ⟨[1, 3, 0, 0, 0, 1], [], []⟩, .command 0x02 ⟨[], [0x41, 0x42, 0x43], []⟩, .drain,
        .command 0x05 ⟨[12], [], []⟩] := by decide +kernel

theorem test_assemble_wire :
    assemble ["FHDR tag=183E2309 k=6", "BLK.RAW raw=2 data=4142", "BLK.CRC crc=2D4117"]
      = some [.fileHeader [0x09, 0x23, 0x3E, 0x18, 0x06], .block [0x40, 0x00, 0x02, 0x41, 0x42],
        .block [0xED, 0x41, 0x17]] ∧
    assemble ["CONFIGURE dir=C"] = none ∧ assemble ["CONFIGURE dir=C k=0 k=1"] = none ∧
    assemble ["BLK.RLE.F byte=41 raw=2"] = none ∧ assemble ["SETINPUT 4"] = none := by decide +kernel

/-! ### Wire elements -/

/-- 95_test_vectors.md W7, P6. -/
theorem test_fhdr :
    viewOf (fun t => (t.result, t.fstate, t.blockSize)) (exec (.fhdr 0x183E2309 6) dec)
      = some (.consumed 5, .blockType, 65536) ∧
    viewOf (fun t => (t.fstate, t.errcause)) (exec (.fhdr 0x183E2309 7) dec) = some (.invalidData, .blockSizeId) := by
  decide +kernel

/-- P6: the tag is checked before `k`. -/
theorem test_fhdr_tags :
    viewOf (fun t => (t.fstate, t.errcause)) (exec (.fhdr 0x183E3309 7) dec) = some (.invalidData, .tagUnsupported) ∧
    viewOf (fun t => (t.fstate, t.errcause)) (exec (.fhdr 0x193E2309 0) dec) = some (.invalidData, .tagUnknown) := by
  decide +kernel

/-- P9 session 5, E9. -/
theorem test_blkCmp :
    viewOf (fun t => (t.result, t.outBuf, t.outLen, t.fstate)) (exec (.blkCmp 0 2 4 [0xA0, 0x0F, 0x3F, 0x08]) (decAt .blockType))
      = some (.consumed 9, [(0, 0), (1, 2)], 2, .blockType) := by decide +kernel

/-- P9 session 3: a payload of no bytes. -/
theorem test_blkCmp_empty :
    viewOf (fun t => (t.result, t.fstate, t.errcause)) (exec (.blkCmp 0 3 0 []) (decAt .blockType))
      = some (.consumed 5, .invalidData, .ncountOverrun) := by decide +kernel

/-- E9 with the strict tail test of R111 as in P9 session 5. -/
theorem test_blkCmpF :
    viewOf (fun t => (t.result, t.outBuf, t.rawSize)) (exec (.blkCmpF 0 4 [0xA0, 0x0F, 0x3F, 0x08]) decTiny)
      = some (.consumed 7, [(0, 0), (1, 2)], 2) ∧
    viewOf (fun t => (t.fstate, t.errcause))
      (exec (.blkCmpF 0 4 [0xA0, 0x0F, 0x3F, 0x08]) { decTiny with cfg := { dec.cfg with strictTail := true } })
      = some (.invalidData, .streamTail) := by decide +kernel

/-- P9 session 1: reserved bits ignored, and a zero-size block queues nothing. -/
theorem test_blkRaw :
    viewOf (fun t => (t.result, t.outBuf, t.outLen)) (exec (.blkRaw 31 2 [0x41, 0x42]) (decAt .blockType))
      = some (.consumed 5, [(0, 0x41), (1, 0x42)], 2) ∧
    viewOf (fun t => (t.result, t.outLen, t.fstate, status t)) (exec (.blkRaw 0 0 []) (decAt .blockType))
      = some (.consumed 3, 0, .blockType, .needInput) := by decide +kernel

/-- 47_container.md R138. -/
theorem test_blkRawF :
    viewOf (fun t => (t.result, t.outBuf, t.outLen, t.full)) (exec (.blkRawF 0 [0x41, 0x42]) decTiny)
      = some (.consumed 3, [(0, 0x41), (1, 0x42)], 2, true) := by decide +kernel

/-- P7 and P6: `80 04 01` is one byte above the block size. -/
theorem test_blkRle :
    viewOf (fun t => (t.result, t.outLen, t.outBuf.get? 4)) (exec (.blkRle 0 5 0x41) (decAt .blockType))
      = some (.consumed 4, 5, some 0x41) ∧
    viewOf (fun t => (t.result, t.fstate, t.errcause, t.rawSize)) (exec (.blkRle 0 1025 0x41) (decAt .blockType))
      = some (.consumed 3, .invalidData, .rawSize, 1025) := by decide +kernel

/-- P9 session 2; no table of the block before survives (10_state.md R21, R22). -/
theorem test_blkRleF :
    viewOf (fun t => (t.work.tableSymbol, t.work.dt.entries))
      (exec (.blkRleF 0 0x41) { decTiny with work := (tabled [25, 6, -1] 2 5).work }) = some ([], []) ∧
    viewOf (fun t => (t.result, t.outLen, t.outBuf.get? 1023, t.outBuf.get? 1024)) (exec (.blkRleF 0 0x41) (decAt .blockType))
      = some (.consumed 2, 1024, some 0x41, none) := by decide +kernel

/-- P9 session 4: the empty stream's checksum is 1662E8, and it is not compared with `ckEn = 0`. -/
theorem test_blkCrc :
    viewOf (fun t => (t.result, t.fstate, t.errcause)) (exec (.blkCrc 0x16 0x62E8) (decAt .blockType))
      = some (.consumed 3, .completed, .none) ∧
    viewOf (fun t => (t.fstate, t.errcause)) (exec (.blkCrc 0x3F 0x1234) (decAt .blockType))
      = some (.invalidChecksum, .checksum) ∧
    viewOf (fun t => t.fstate)
      (exec (.blkCrc 0x3F 0x1234) { decAt .blockType with cfg := { dec.cfg with ckEn := false } })
      = some .completed := by decide +kernel

/-! ### Commands -/

/-- P10: the values just outside their ranges. -/
theorem test_configure :
    viewOf (fun t => (t.result, t.configured, t.cfg)) (exec (.configure 1 6 15 0 1 0) .reset)
      = some (.ok, true, ⟨.decompress, 6, 15, false, true, false⟩) ∧
    viewOf (fun t => (t.result, t.configured)) (exec (.configure 0 7 0 1 0 1) .reset) = some (.error .argConfig, false) ∧
    replyOf (exec (.configure 0 0 4 1 0 1) .reset) = some (.error .argConfig) ∧
    replyOf (exec (.configure 0 0 16 1 0 1) .reset) = some (.error .argConfig) ∧
    replyOf (exec (.configure 1 0 0 2 0 1) .reset) = some (.error .argConfig) := by decide +kernel

/-- P4's first piece; P8's refused bytes (backpressure). -/
theorem test_setinput :
    viewOf (fun t => (t.result, t.stageLen, needOutput t)) (exec (.setinput [0x09, 0x23, 0x3E]) dec)
      = some (.consumed 3, 3, 2) ∧
    replyOf (exec (.setinput [0, 0]) comReady) = some (.consumed 0) := by decide +kernel

/-- P7's first input: the call stops once a block is queued. -/
theorem test_setinput_stopsAtOutput :
    viewOf (fun t => (t.result, status t, needOutput t))
      (exec (.setinput [0x09, 0x23, 0x3E, 0x18, 0x00, 0x80, 0x00, 0x05, 0x41, 0xC2, 0xEF]) dec)
      = some (.consumed 9, .writeOutput, 1) := by decide +kernel

/-- A1, P3. -/
theorem test_state :
    replyOf (exec .state .reset) = some (.error .argUnconfigured) ∧
    replyOf (exec .state ready) = some (.status .writeOutput) ∧
    replyOf (exec .state (decAt .invalidChecksum)) = some (.status .invalidChecksum) := by decide +kernel

/-- 47_container.md R156. -/
theorem test_output :
    replyOf (exec .output ready) = some (.bytes [0x41, 0x42]) ∧ replyOf (exec .output drained) = some (.bytes []) := by
  decide +kernel

/-- A4, and P2's last byte: the compressor leaves Completing. -/
theorem test_advance :
    viewOf (fun t => (t.result, t.outPos)) (exec (.advance 3) ready) = some (.error .argAdvance, 0) ∧
    viewOf (fun t => (t.result, t.outPos, t.cphase)) (exec (.advance 3) { comReady with cphase := .completing })
      = some (.ok, 3, .completed) := by decide +kernel

/-- A6, A5. -/
theorem test_flush_nothing :
    viewOf (fun t => (t.result, t.outLen, t.hdrDone)) (exec .flush com) = some (.ok, 0, false) ∧
    replyOf (exec .flush comReady) = some (.error .argState) := by decide +kernel

/-- W7 and W1: the lazy file header and an Rle block of five bytes. -/
theorem test_flush_emits :
    viewOf (fun t => (t.result, t.outBuf, t.bufLen)) (exec .flush (comHeld 5))
      = some (.ok, Memory.cells 0 [0x09, 0x23, 0x3E, 0x18, 0x00, 0x80, 0x00, 0x05, 0x41], 0) := by decide +kernel

/-- W8: the empty stream. -/
theorem test_complete :
    viewOf (fun t => (t.result, t.outBuf, t.cphase)) (exec .complete { com with cfg := { com.cfg with k := 3 } })
      = some (.ok, Memory.cells 0 [0x09, 0x23, 0x3E, 0x18, 0x03, 0xD6, 0x62, 0xE8], .completing) := by decide +kernel

/-- P7: truncation; A8: no effect in a terminal state. -/
theorem test_complete_truncated :
    viewOf (fun t => (t.result, t.fstate, t.errcause, t.stageLen)) (exec .complete { decAt .crcBlock with stageLen := 1 })
      = some (.ok, .invalidData, .truncated, 0) ∧
    viewOf (fun t => (t.result, t.fstate, t.errcause)) (exec .complete decDone) = some (.ok, .completed, .none) := by
  decide +kernel

/-- P5: RESET from InvalidChecksum. -/
theorem test_reset :
    viewOf (fun t => (t.result, status t, t.errcause, t.cfg))
      (exec .reset { decAt .invalidChecksum with errcause := .checksum })
      = some (.ok, .needInput, .none, dec.cfg) := by decide +kernel

/-- P4. -/
theorem test_need :
    replyOf (exec .need { dec with stageLen := 3 }) = some (.need 2) ∧ replyOf (exec .need decDone) = some (.need 0) ∧
    replyOf (exec .need { decAt .blockContent with cSize := 18, stageLen := 10 }) = some (.need 8) := by decide +kernel

/-- P6. -/
theorem test_errcause :
    replyOf (exec .errcause { decAt .invalidData with errcause := .rawSize }) = some (.cause .rawSize) ∧
    ErrCode.rawSize.code = 4 ∧ ErrCode.argUnconfigured.code = 24 := by decide +kernel

/-- P7's DRAIN. -/
theorem test_drain :
    viewOf (fun t => (t.result, t.outPos)) (exec .drain ready) = some (.bytes [0x41, 0x42], 2) := by decide +kernel

/-! ### Bit streams -/

/-- B1, and B8's capacity 0. -/
theorem test_bwInit :
    viewOf (fun t => t.work.writer) (exec (.bwInit 100) com) = some ⟨⟨0, 0⟩, false, 100⟩ ∧
    replyOf (exec .bwClose (writing 0 0 0)) = some (.closed [0x01] true) := by decide +kernel

/-- B2 (the bits above the width are ignored), B3. -/
theorem test_bwAdd :
    viewOf (fun t => (t.work.writer.w.len, (List.range 4).map t.work.writer.w.bit)) (exec (.bwAdd 0xFF 1) (writing 3 5 100))
      = some (4, [true, false, true, true]) ∧
    viewOf (fun t => t.work.writer.w.len) (exec (.bwAdd 0xFF 0) (writing 3 5 100)) = some 3 := by decide +kernel

/-- B9. -/
theorem test_bwFlush :
    viewOf (fun t => t.work.writer) (exec .bwFlush (writing 4 13 100)) = some ⟨⟨4, 13⟩, false, 100⟩ := by decide +kernel

/-- B4, B6. -/
theorem test_bwClose :
    viewOf (fun t => (t.result, t.payBuf)) (exec .bwClose (writing 4 13 65536))
      = some (.closed [0x1D] false, [(0, 0x1D)]) ∧
    replyOf (exec .bwClose (writing 8 255 9)) = some (.closed [0xFF, 0x01] false) := by decide +kernel

/-- B7: the end mark fills bit 7. -/
theorem test_bwClose_markAtTop : replyOf (exec .bwClose (writing 7 127 9)) = some (.closed [0xFF] false) := by
  decide +kernel

/-- B10, B11, B12, B15. -/
theorem test_brInit :
    viewOf (fun t => t.work.reader.p) (exec (.brInit [0x1D]) com) = some 4 ∧
    replyOf (exec (.brInit []) com) = some (.error .streamEmpty) ∧
    replyOf (exec (.brInit [0x1D, 0x00]) com) = some (.error .streamNoSentinel) ∧
    viewOf (fun t => t.work.reader.p) (exec (.brInit [0x34, 0x12]) com) = some 12 := by decide +kernel

/-- B16, B17. -/
theorem test_brRead :
    viewOf (fun t => (t.result, t.work.reader.p)) (exec (.brRead 1) (reading 4)) = some (.value 1, 3) ∧
    viewOf (fun t => (t.result, t.work.reader.p)) (exec (.brRead 3) (reading 3)) = some (.value 5, 0) ∧
    viewOf (fun t => (t.result, t.work.reader.p)) (exec (.brRead 1) (reading 0)) = some (.error .streamExhausted, 0) ∧
    replyOf (exec (.brRead 0) (reading 0)) = some (.value 0) := by decide +kernel

/-- B18, B19. -/
theorem test_brPeek :
    viewOf (fun t => (t.result, t.work.reader.p)) (exec (.brPeek 4) (reading 4)) = some (.value 13, 4) ∧
    replyOf (exec (.brPeek 5) (reading 4)) = some (.error .streamExhausted) := by decide +kernel

/-- B20. -/
theorem test_brSkip :
    viewOf (fun t => (t.result, t.work.reader.p)) (exec (.brSkip 2) (reading 4)) = some (.ok, 2) ∧
    replyOf (exec (.brRead 2) (reading 2)) = some (.value 1) := by decide +kernel

/-! ### Histogram and normalizer -/

/-- G1. -/
theorem test_histCount :
    viewOf (fun t => (t.result, t.work.hist.msv, t.work.hist.largest)) (exec (.histCount abra 11 0xFF false) com)
      = some (.ok, 0x72, 5) ∧
    viewOf (fun t => t.work.hist.count) (exec (.histCount abra 11 0xFF false) com)
      = some (counts [(0x61, 5), (0x62, 2), (0x63, 1), (0x64, 1), (0x72, 2)] 255) := by decide +kernel

/-- G6, G7. -/
theorem test_histCount_strict :
    replyOf (exec (.histCount [0x05, 0xFF] 2 0x10 true) com) = some (.error .argHistRange) ∧
    viewOf (fun t => t.work.hist.msv) (exec (.histCount [0x05, 0xFF] 2 0x10 false) com) = some 0xFF := by decide +kernel

/-- L1, L6 and L7's `minTl`. -/
theorem test_normMinlog :
    replyOf (exec (.normMinlog 11 0x72) com) = some (.value 4) ∧
    replyOf (exec (.normMinlog 128 0xFF) com) = some (.value 8) ∧
    replyOf (exec (.normMinlog 1000 1) com) = some (.value 2) := by decide +kernel

/-- L1, L2, L3, L4, L9, L10. -/
theorem test_normOptlog :
    viewOf (fun t => (t.result, t.work.tl)) (exec (.normOptlog 11 11 0x72) com) = some (.value 5, 5) ∧
    replyOf (exec (.normOptlog 11 2 1) com) = some (.value 11) ∧ replyOf (exec (.normOptlog 15 4 255) com) = some (.value 15) ∧
    replyOf (exec (.normOptlog 11 5 1) com) = some (.value 5) ∧
    replyOf (exec (.normOptlog 15 65536 255) com) = some (.value 13) ∧
    replyOf (exec (.normOptlog 0 100 3) com) = some (.value 5) := by decide +kernel

/-- N1, and N11's fallback. -/
theorem test_normNormalize :
    viewOf (fun t => (t.result, t.work.norm.take 0x73, t.work.tl))
      (exec (.normNormalize (counts [(0x61, 5), (0x62, 2), (0x63, 1), (0x64, 1), (0x72, 2)] 0x72) 11 0x72 5) com)
      = some (.ok, n1, 5) ∧
    viewOf (fun t => t.work.norm.take 0x28)
      (exec (.normNormalize (counts [(0, 2), (4, 1), (0x16, 1), (0x18, 1), (0x1E, 1), (0x22, 1), (0x23, 1), (0x27, 1)] 0x27)
        9 0x27 5) com)
      = some (weights [(0, 7), (4, 4), (0x16, 3), (0x18, 4), (0x1E, 4), (0x22, 3), (0x23, 4), (0x27, 3)] 0x27) := by
  decide +kernel

/-- N7, N9, N12; R82 for the block of repeated symbol 0 (log 26). -/
theorem test_normNormalize_edges :
    viewOf (fun t => t.work.norm.take 0x64) (exec (.normNormalize (counts [(0x61, 997), (0x62, 2), (0x63, 1)] 0x63) 1000 0x63 9) com)
      = some (weights [(0x61, 510), (0x62, 1), (0x63, -1)] 0x63) ∧
    replyOf (exec (.normNormalize (counts [(0x61, 997), (0x62, 2), (0x63, 1)] 0x63) 1000 0x63 7) com)
      = some (.error .argTableLog) ∧
    replyOf (exec (.normNormalize (counts [(0x41, 5)] 0x41) 5 0x41 0) com) = some .rleSignal ∧
    viewOf (fun t => (t.result, t.work.tl)) (exec (.normNormalize [5] 5 0 0) com) = some (.rleSignal, 11) := by
  decide +kernel

/-- M2, M3. -/
theorem test_normM2 :
    viewOf (fun t => t.work.norm.take 24) (exec (.normM2 5 (List.replicate 24 1) 24 0x17) com)
      = some (9 :: List.replicate 23 1) ∧
    viewOf (fun t => t.work.norm.take 0x2F)
      (exec (.normM2 5 ((List.range 0x2F).map fun i => 1 - i % 2) 24 0x2E) com)
      = some ((List.range 0x2F).map fun i => if i % 2 = 1 then 0 else if i ≤ 0x0E then 2 else 1) := by decide +kernel

/-- M4: the second pass. -/
theorem test_normM2_secondPass :
    viewOf (fun t => t.work.norm.take 32) (exec (.normM2 6 (List.replicate 30 1 ++ [930, 40]) 1000 0x1F) com)
      = some (List.replicate 30 (-1) ++ [33, 1]) := by decide +kernel

/-- 42_normalizer.md R81 by hand: 15 counts of 1 and 19 of 16 at `tl` 5. The second pass (17 slots for 304, `lowOne` 26)
assigns all 34 symbols, so `ToDist` is -2 and goes to the first symbol of count 16. With 16 counts of 1 and 21 of 100 it
is -5, so that symbol's weight is -4. -/
theorem test_normM2_moreSymbolsThanSlots :
    viewOf (fun t => (t.result, t.work.norm.take 34))
      (exec (.normM2 5 (List.replicate 15 1 ++ List.replicate 19 16) 319 33) com)
      = some (.ok, List.replicate 16 (-1) ++ List.replicate 18 1) ∧
    viewOf (fun t => (t.result, t.work.norm.take 37))
      (exec (.normM2 5 (List.replicate 16 1 ++ List.replicate 21 100) 2116 36) com)
      = some (.ok, List.replicate 16 (-1) ++ -4 :: List.replicate 20 1) := by decide +kernel

/-! ### NCount header -/

/-- H1, H2. -/
theorem test_ncWrite :
    viewOf (fun t => (t.result, t.payBuf)) (exec (.ncWrite [25, 6, -1] 2 5) com)
      = some (.bytes [0xA0, 0x0F], [(0, 0xA0), (1, 0x0F)]) ∧
    replyOf (exec (.ncWrite n1 0x72 5) com) = some (.bytes h2) := by decide +kernel

/-- H4; R89's E_ARG_DIST on a slot sum below 32. -/
theorem test_ncWrite_lowProbability :
    replyOf (exec (.ncWrite (weights [(0x61, 254), (0x62, -1), (0x63, -1)] 0x63) 0x63 8) com)
      = some (.bytes [0x13, 0xF0, 0xFF, 0xFF, 0xFF, 0xFF, 0xFF, 0xFF, 0xFF, 0xCF, 0x3F, 0x00]) ∧
    replyOf (exec (.ncWrite [25, 6] 1 5) com) = some (.error .argDist) := by decide +kernel

/-- 43_ncount.md R86: the table log is checked first, and a weight that is not given is named only while `remaining > 1`
(one weight 32 ends it: the fields 0 in 4 bits and 63 in 6). -/
theorem test_ncWrite_missingWeight :
    replyOf (exec (.ncWrite [] 0 4) com) = some (.error .argTableLog) ∧
    replyOf (exec (.ncWrite [32] 1 5) com) = some (.bytes [0xF0, 0x03]) ∧
    faultOf (exec (.ncWrite [25] 1 5) com) = some .tableUnwritten := by decide +kernel

/-- H14. -/
theorem test_ncRead :
    viewOf (fun t => (t.result, t.work.norm.take 0x73, t.work.tl)) (exec (.ncRead (h2 ++ [0xAA, 0x55])) com)
      = some (.header 0x72 14, n1, 5) := by decide +kernel

/-- H9 to H13; what R91 to R93 wrote before the error stays (60_exceptions.md R162): `A0` reads `tl` 5 and no weight. -/
theorem test_ncRead_errors :
    viewOf (fun t => (t.work.tl, t.work.norm[0]?)) (exec (.ncRead [0xA0]) com) = some (5, some 0) ∧
    viewOf (fun t => (t.work.tl, t.work.norm[0]?)) (exec (.ncRead [0xA0, 0x01]) com) = some (5, some 25) ∧
    replyOf (exec (.ncRead []) com) = some (.error .ncountOverrun) ∧
    replyOf (exec (.ncRead [0x0B]) com) = some (.error .ncountTableLog) ∧
    replyOf (exec (.ncRead [0xA0]) com) = some (.error .ncountOverrun) ∧
    replyOf (exec (.ncRead ([0x10, 0xFE] ++ List.replicate 20 0xFF ++ [0x1F])) com) = some (.error .ncountSymbol) ∧
    replyOf (exec (.ncRead ([0x10, 0xFE] ++ List.replicate 20 0xFF ++ [0x15])) com) = some (.error .ncountRemaining) := by
  decide +kernel

/-! ### Tables -/

/-- T1, T4's top slots. -/
theorem test_tbSpread :
    viewOf (fun t => t.work.tableSymbol) (exec (.tbSpread [25, 6, -1] 2 5) com)
      = some (([0, 0, 0, 0, 1, 0, 0, 0, 0, 1, 0, 0, 0, 1, 0, 0, 0, 0, 1, 0, 0, 0, 1, 0, 0, 0, 0, 1, 0, 0, 0, 2] : List Byte).map
        some) ∧
    viewOf (fun t => t.work.tableSymbol.drop 253)
      (exec (.tbSpread (weights [(0x61, 254), (0x62, -1), (0x63, -1)] 0x63) 0x63 8) com)
      = some [some 0x61, some 0x63, some 0x62] := by
  decide +kernel

/-- 44_tables.md R96 on weights that do not fill the table: it ends with slots free where no weight is positive, and raises
E_TABLE_SPREAD with what it placed where the walk (0, 23, 14, ..) does not come back to 0. -/
theorem test_tbSpread_unfilled :
    viewOf (fun t => (t.result, t.work.tableSymbol)) (exec (.tbSpread [-1, 0, -1] 2 5) com)
      = some (.ok, List.replicate 30 none ++ [some 2, some 0]) ∧
    viewOf (fun t => (t.result, t.work.tableSymbol[0]?, t.work.tableSymbol[23]?, t.work.tableSymbol[14]?))
      (exec (.tbSpread [2] 0 5) com) = some (.error .tableSpread, some (some 0), some (some 0), some none) := by
  decide +kernel

/-- T1. -/
theorem test_tbCtable :
    viewOf (fun t => (t.work.ct.cumul, t.work.ct.symbolTT)) (exec (.tbCtable [25, 6, -1] 2 5) com)
      = some ([0, 25, 31, 33], [⟨0xFFCE, some (-25)⟩, ⟨0x2FFD0, some 19⟩, ⟨0x4FFE0, some 30⟩]) := by decide +kernel

/-- T1, T2. -/
theorem test_tbDtable :
    viewOf (fun t => [0, 4, 8, 13, 31].map fun i => t.work.dt.entries[i]?) (exec (.tbDtable [25, 6, -1] 2 5) com)
      = some [some ⟨0, 1, 18⟩, some ⟨1, 3, 16⟩, some ⟨0, 0, 0⟩, some ⟨1, 2, 0⟩, some ⟨2, 5, 0⟩] ∧
    viewOf (fun t => t.work.dt.entries[14]?) (exec (.tbDtable n1 0x72 5) com) = some (some ⟨0x61, 1, 8⟩) := by
  decide +kernel

/-! ### Block codec -/

/-- E1; a symbol without a slot (93_implementation_defined.md I6). -/
theorem test_fseInitc :
    viewOf (fun t => (t.result, t.work.v0)) (exec (.fseInitc false 0x61) (tabled n1 0x72 5)) = some (.value 32, 32) ∧
    viewOf (fun t => (t.result, t.work.v1)) (exec (.fseInitc true 0x72) (tabled n1 0x72 5)) = some (.value 36, 36) ∧
    faultOf (exec (.fseInitc false 0x65) (tabled n1 0x72 5)) = some .absentSymbol := by decide +kernel

/-- E2. -/
theorem test_fseEncsym :
    viewOf (fun t => (t.result, t.work.v1, t.work.writer.w.len, t.work.writer.w.val)) (exec (.fseEncsym true 32 0x62) (tabled n1 0x72 5))
      = some (.value 48, 48, 2, 0) := by decide +kernel

/-- E3. -/
theorem test_fseEncode :
    viewOf (fun t => (t.result, t.work.v0, t.work.v1)) (exec (.fseEncode abra 11 100) (tabled n1 0x72 5))
      = some (.closed [0x00, 0x28, 0x16, 0x2E] false, 46, 34) := by decide +kernel

/-- E4. -/
theorem test_fseInitd :
    viewOf (fun t => (t.result, t.work.s0, t.work.reader.p))
      (exec (.fseInitd false 5) { com with work := { Work.unwritten with reader := ⟨⟨32, 0x2E162800⟩, 29⟩ } })
      = some (.value 14, 14, 24) := by decide +kernel

/-- T2's entry 14, `{a, 1, 8}`: the next bit of the body of E4 after both states is 0, below it 1. -/
theorem test_fseDecsym :
    viewOf (fun t => (t.result, t.work.s1))
      (exec (.fseDecsym true 14 true) { tabled n1 0x72 5 with work := { (tabled n1 0x72 5).work with reader := ⟨⟨8, 0x1D⟩, 4⟩ } })
      = some (.symbol 0x61 9, 9) ∧
    viewOf (fun t => (t.result, t.work.s0)) (exec (.fseDecsym false 14 false) (tabled n1 0x72 5))
      = some (.symbol 0x61 14, 14) := by decide +kernel

/-- E5, E6. -/
theorem test_fseDecode :
    viewOf (fun t => (t.result, t.work.reader.p)) (exec (.fseDecode [0x00, 0x28, 0x16, 0x2E] 5 11 true) (tabled n1 0x72 5))
      = some (.bytes abra, 0) ∧
    replyOf (exec (.fseDecode [0x00, 0x28, 0x16, 0x2E] 5 12 true) (tabled n1 0x72 5))
      = some (.error .streamExhausted) := by decide +kernel

/-- E7, E10. -/
theorem test_fseDecode_tail :
    replyOf (exec (.fseDecode [0x00, 0x28, 0x16, 0x2E] 5 10 false) (tabled n1 0x72 5)) = some (.bytes (abra.take 10)) ∧
    replyOf (exec (.fseDecode [0x00, 0x28, 0x16, 0x2E] 5 10 true) (tabled n1 0x72 5)) = some (.error .streamTail) ∧
    replyOf (exec (.fseDecode [0x01] 5 0 false) (tabled [25, 6, -1] 2 5)) = some (.error .streamExhausted) := by
  decide +kernel

/-- K9. -/
theorem test_bcCompress :
    replyOf (exec (.bcCompress d3 55 11 true) com)
      = some (.block (.cmp [0x11, 0xFC, 0xFF, 0xFF, 0xFF, 0xFF, 0x1F, 0xCC, 0x07, 0xA4, 0xBB, 0xB6, 0xB2, 0xB2, 0xA3, 0x2A,
        0x1B, 0x03])) := by decide +kernel

/-- K1, K2, K4, K8. -/
theorem test_bcCompress_gates :
    replyOf (exec (.bcCompress (List.replicate 5 0x41) 5 11 true) com) = some (.block (.rle 0x41)) ∧
    replyOf (exec (.bcCompress [0x41] 1 11 false) com) = some (.block .raw) ∧
    replyOf (exec (.bcCompress [0x41, 0x42] 2 11 true) com) = some (.block .raw) ∧
    replyOf (exec (.bcCompress abra 11 11 true) com) = some (.block .raw) := by decide +kernel

/-- Q1. -/
theorem test_bcDecompress :
    replyOf (exec (.bcDecompress (h2 ++ [0x00, 0x28, 0x16, 0x2E]) 18 11 true) com) = some (.bytes abra) := by decide +kernel

/-- Q2 to Q5. -/
theorem test_bcDecompress_errors :
    replyOf (exec (.bcDecompress [] 0 3 false) com) = some (.error .ncountOverrun) ∧
    replyOf (exec (.bcDecompress [0xA0, 0x0F] 2 3 false) com) = some (.error .streamEmpty) ∧
    replyOf (exec (.bcDecompress [0xA0, 0x0F, 0x00] 3 3 false) com) = some (.error .streamNoSentinel) ∧
    replyOf (exec (.bcDecompress [0xA0, 0x0F, 0x01] 3 3 false) com) = some (.error .streamExhausted) := by decide +kernel

/-! ### Checksum -/

/-- 10_state.md R18. -/
theorem test_ckInit :
    viewOf (fun t => (t.ck.acc1, t.ck.acc2, t.ck.acc3, t.ck.acc4)) (exec .ckInit { com with ck := ⟨1, 1, 1, 1, 1, true, [1]⟩ })
      = some (0x24234428, 0x85EBCA77, 0, 0x61C8864F) := by decide +kernel

/-- X4 (two bytes stay in the buffer); the sixteenth byte empties it (46_checksum.md R122). -/
theorem test_ckUpdate :
    viewOf (fun t => (ckHash t.ck, t.ck.mem.length)) (exec (.ckUpdate [0x41, 0x42]) com) = some (0x86DC7075, 2) ∧
    viewOf (fun t => (t.ck.large, t.ck.mem)) (exec (.ckUpdate (List.replicate 16 0x41)) com) = some (true, []) := by
  decide +kernel

/-- 46_checksum.md R129: the digest of no bytes; P7's of 41^5. -/
theorem test_ckDigest :
    replyOf (exec .ckDigest com) = some (.value 0x02CC5D05) ∧
    replyOf (exec .ckDigest { com with ck := ckFold ckInitial (List.replicate 5 0x41) }) = some (.value 0x205DE5FA) := by
  decide +kernel

/-- X3, X4. -/
theorem test_ckTrunc22 :
    replyOf (exec (.ckTrunc22 0xF705335D) com) = some (.value 0x38299A) ∧
    replyOf (exec (.ckTrunc22 0x86DC7075) com) = some (.value 0x36E383) := by decide +kernel

/-! ### Step and realisations -/

/-- A2: an unused command code is an error of the command; a number that names no operation is refused; an operand beyond
its rule's range has the effect of the pseudocode (40_bitstream.md R66); a piece of an element is offered bytes (P4). -/
theorem test_step_unused :
    replyOf (step { com with pending := [.command 0x0B ⟨[], [], []⟩] }) = some (.error .argCommand) ∧
    replyOf (step { com with pending := [.unitOp 0x3F ⟨[], [], []⟩] }) = none ∧
    replyOf (step { com with pending := [.unitOp 0x45 ⟨[17], [], []⟩] }) = some (.error .streamExhausted) ∧
    replyOf (step { dec with pending := [.fileHeader [0x09, 0x23, 0x3E]] }) = some (.consumed 3) := by decide +kernel

/-- A table word is the next instruction. -/
theorem test_withFetchWord :
    replyOf (step (State.reset.withFetchWord 8 0x03)) = some (.error .argUnconfigured) ∧
    replyOf (step (State.reset.withFetchWord 8 0x5C)) = some (.value 0x02CC5D05) := by decide +kernel

/-- G8. -/
theorem test_lanes :
    laneCounts [1, 2, 3, 4, 1, 2, 3, 4, 9] = counts [(1, 2), (2, 2), (3, 2), (4, 2), (9, 1)] 255 := by decide +kernel

/-- B21. -/
theorem test_accumulator : accClose (accAdd (accAdd accInit 5 3) 0x2A 6) = [0x55, 0x03] := by decide +kernel

/-- X7, one-shot. -/
theorem test_xxh32 :
    xxh32 [0x30, 0x31, 0x32, 0x33, 0x34, 0x35, 0x36, 0x37, 0x38, 0x39, 0x41, 0x42, 0x43, 0x44, 0x45, 0x46] = 0xF9F50986 := by
  decide +kernel

/-! ### Witnesses: states and operands that meet the hypotheses of the obligations, clause by clause -/

theorem next_of_reply {o : Host.Outcome State Fault Refusal} {r : Result} (h : replyOf o = some r) :
    ∃ t, o = .next t ∧ t.result = r := by
  cases o <;> simp_all [replyOf]

theorem writtenTo_of_all {m : Memory} {n : Nat} (h : ((List.range n).all fun a => (m.get? a).isSome) = true) :
    m.writtenTo n := by
  simpa [Memory.writtenTo] using h

theorem inv_dec : Inv dec := by
  constructor <;>
    first
    | decide
    | exact ⟨by decide, by decide, writtenTo_of_all (by decide)⟩
    | exact ⟨by decide, writtenTo_of_all (by decide)⟩

theorem inv_com : Inv com := by
  constructor <;>
    first
    | decide
    | exact ⟨by decide, by decide, writtenTo_of_all (by decide)⟩
    | exact ⟨by decide, writtenTo_of_all (by decide)⟩

theorem inv_comHeld : Inv (comHeld 1) := by
  constructor <;>
    first
    | decide
    | exact ⟨by decide, by decide, writtenTo_of_all (by decide)⟩
    | exact ⟨by decide, writtenTo_of_all (by decide)⟩

theorem inv_comReady : Inv comReady := by
  constructor <;>
    first
    | decide
    | exact ⟨by decide, by decide, writtenTo_of_all (by decide)⟩
    | exact ⟨by decide, writtenTo_of_all (by decide)⟩

theorem isDist_small : IsDist [25, 6, -1] 2 5 := by unfold IsDist; decide

theorem witness_StatusReadsReturnSessionStatus : dec.configured = true ∧ com.configured = true := by decide

theorem witness_OutputReturnsReadyBytes :
    ready.configured = true ∧ ready.outBuf.wf = true ∧ ready.outPos ≤ ready.outLen ∧ ready.outBuf.writtenTo ready.outLen ∧
    drained.outPos ≤ drained.outLen ∧ drained.outBuf.writtenTo drained.outLen :=
  ⟨by decide, by decide, by decide, writtenTo_of_all (by decide), by decide, writtenTo_of_all (by decide)⟩

theorem witness_AdvanceRetiresReadyBytes :
    ready.configured = true ∧ ready.outLen - ready.outPos < (3 : BitVec 17).toNat ∧
    (2 : BitVec 17).toNat ≤ ready.outLen - ready.outPos ∧ (0 : BitVec 17).toNat ≤ drained.outLen - drained.outPos := by decide

theorem witness_DrainIsOutputThenAdvance :
    ready.configured = true ∧ ready.outBuf.wf = true ∧ ready.outPos ≤ ready.outLen ∧ ready.outLen < 131072 ∧
    ready.outBuf.writtenTo ready.outLen :=
  ⟨by decide, by decide, by decide, by decide, writtenTo_of_all (by decide)⟩

theorem witness_DecompressorFlushAndComplete :
    ready.configured = true ∧ ready.cfg.dir = .decompress ∧ decDone.fstate = .completed ∧
    ¬(ready.fstate = .completed ∨ ready.fstate = .invalidData ∨ ready.fstate = .invalidChecksum) ∧
    ready.outPos < ready.outLen ∧ drained.fstate = ready.fstate ∧ drained.outLen ≤ drained.outPos := by decide

theorem witness_CompressorFlushEmitsHeldBlock :
    Inv comReady ∧ comReady.configured = true ∧ comReady.cfg.dir = .compress ∧ ¬Accepts comReady ∧
    Inv com ∧ Accepts com ∧ com.bufLen = 0 ∧
    Inv (comHeld 1) ∧ Accepts (comHeld 1) ∧ 1 ≤ (comHeld 1).bufLen ∧
    Memory.read (comHeld 1).blockBuf 0 (comHeld 1).bufLen = .ok [0x41] := by
  refine ⟨inv_comReady, ?_, ?_, ?_, inv_com, ?_, ?_, inv_comHeld, ?_, ?_, ?_⟩ <;> (try unfold Accepts) <;> decide

theorem witness_CompressorCompleteEndsStream :
    Inv comReady ∧ ¬Accepts comReady ∧ Inv com ∧ Accepts com ∧ com.bufLen = 0 ∧ Inv (comHeld 1) ∧ Accepts (comHeld 1) ∧
    1 ≤ (comHeld 1).bufLen ∧ Memory.read (comHeld 1).blockBuf 0 1 = .ok [0x41] := by
  refine ⟨inv_comReady, ?_, inv_com, ?_, ?_, inv_comHeld, ?_, ?_, ?_⟩ <;> (try unfold Accepts) <;> decide

theorem witness_ConfigureChecksWritesAndResets :
    (∃ cfg : Cfg, cfg.dir = (if 1 = 0 then .compress else .decompress) ∧ cfg.k = 6 ∧ cfg.tlReq = 15 ∧
      (cfg.ckEn = true ↔ 1 = 1) ∧ (cfg.strictTail = true ↔ 0 = 1) ∧ (cfg.oneByteRle = true ↔ 1 = 1)) ∧
    ∃ cfg : Cfg, cfg.dir = (if 0 = 0 then .compress else .decompress) ∧ cfg.k = 0 ∧ cfg.tlReq = 5 ∧
      (cfg.ckEn = true ↔ 0 = 1) ∧ (cfg.strictTail = true ↔ 1 = 1) ∧ (cfg.oneByteRle = true ↔ 0 = 1) :=
  ⟨⟨⟨.decompress, 6, 15, true, false, true⟩, by decide⟩, ⟨.compress, 0, 5, false, true, false⟩, by decide⟩

theorem witness_ResetIsIdempotent :
    decDone.configured = true ∧ legalCfg decDone.cfg = true ∧ status decDone = .completed := by decide

theorem witness_CommandChecksChangeNothing :
    ({ com with pending := [.command 0x0B .zero] } : State).pending = .command 0x0B .zero :: [] ∧
    ((0x0B : Byte).toNat = 0 ∨ 11 ≤ (0x0B : Byte).toNat) ∧
    State.reset.configured = false ∧ hostInstr .drain = true ∧
    ready.configured = true ∧ ready.outLen - ready.outPos < (3 : BitVec 17).toNat ∧
    comReady.configured = true ∧ comReady.cfg.dir = .compress ∧ status comReady ≠ .needInput ∧
    ready.cfg.dir = .decompress ∧ status ready = .writeOutput ∧ ∃ t, exec .state dec = .next t := by
  refine ⟨by decide, by decide, by decide, by decide, by decide, by decide, by decide, by decide, by decide, by decide,
    by decide, _, rfl⟩

theorem witness_NoInputTakenOutsideNeedInput :
    decDone.configured = true ∧ status decDone ≠ .needInput ∧ status ready ≠ .needInput ∧ status comReady ≠ .needInput := by
  decide

theorem witness_PartialFieldIsStaged :
    Inv dec ∧ dec.configured = true ∧ dec.cfg.dir = .decompress ∧ status dec = .needInput ∧
    dec.stageLen + [0x09, 0x23, 0x3E, (0x18 : Byte)].length < fieldLength dec :=
  ⟨inv_dec, by decide, by decide, by decide, by decide⟩

theorem witness_CompressorInputFillsBlock :
    Inv comReady ∧ comReady.configured = true ∧ comReady.cfg.dir = .compress ∧ ¬Accepts comReady ∧
    Inv com ∧ Accepts com ∧ com.bufLen + (List.replicate 1023 (0x41 : Byte)).length < 1024 * 2 ^ com.cfg.k ∧
    1024 * 2 ^ com.cfg.k ≤ com.bufLen + (List.replicate 1024 (0x41 : Byte)).length ∧
    Memory.read (Memory.write com.blockBuf com.bufLen (List.replicate 1024 (0x41 : Byte))) 0 1024
      = .ok (List.replicate 1024 0x41) := by
  refine ⟨inv_comReady, by decide, by decide, by unfold Accepts; decide, inv_com, by unfold Accepts; decide,
    (by rw [List.length_replicate]; decide), (by rw [List.length_replicate]; decide), ?_⟩
  have h := Memory.read_write com.blockBuf 0 (List.replicate 1024 0x41)
  rwa [List.length_replicate] at h

theorem witness_BlockHeaderFieldActions :
    Expects (decAt .blockType) .blockType ∧ 1 ≤ (decAt .blockType).blockSize ∧
    (0xC0 : Byte).toNat / 64 = 3 ∧ (0xBF : Byte).toNat / 64 ≠ 3 ∧ (0xBF : Byte).toNat / 32 % 2 = 1 ∧
    ¬(0x9F : Byte).toNat / 32 % 2 = 1 ∧
    Expects decRaw .rawSize ∧ decRaw.btype ≠ .crc ∧ decRaw.blockSize < 4 * 256 + 1 ∧ 4 * 256 + 0 ≤ decRaw.blockSize ∧
    Expects (decAt .compSize) .compSize ∧ (decAt .compSize).btype = .compressed := by unfold Expects; decide

theorem witness_InputSplitIsNotObservable :
    Inv dec ∧ dec.configured = true ∧ dec.cfg.dir = .decompress ∧
    (∃ t, exec (.setinput [0x09, 0x23, 0x3E, 0x19, 0x00, 0x80]) dec = .next t ∧ t.result = .consumed 5) ∧
    (∃ t, exec (.setinput [0x09, 0x23, 0x3E, 0x18]) dec = .next t ∧ t.result = .consumed 4 ∧
      ∃ u, exec (.setinput [0x00, 0x80]) t = .next u ∧ u.result = .consumed 2) := by
  refine ⟨inv_dec, by decide, by decide, next_of_reply (by decide +kernel), ?_⟩
  refine ⟨_, rfl, by decide +kernel, next_of_reply (by decide +kernel)⟩

theorem witness_WireElementIsItsBytes :
    encode (.blkRleF 0 0x41) = .block [0xA0, 0x41] ∧
    encode (.fhdr 0x183E2309 0) = .fileHeader [0x09, 0x23, 0x3E, 0x18, 0x00] := by decide

theorem witness_FileHeaderIsChecked : Expects dec .fileHeader := by unfold Expects; decide

theorem witness_RawBlockDeliversItsBytes :
    Expects (decAt .blockType) .blockType ∧ Expects decTiny .blockType ∧
    [(0x41 : Byte), 0x42, 0x43].length = (3 : BitVec 16).toNat ∧ decTiny.blockSize < (3 : BitVec 16).toNat ∧
    [(0x41 : Byte), 0x42].length = (2 : BitVec 16).toNat ∧ (2 : BitVec 16).toNat ≤ decTiny.blockSize ∧
    [(0x41 : Byte), 0x42].length = decTiny.blockSize ∧ decTiny.blockSize ≤ 65536 := by unfold Expects; decide

theorem witness_RleBlockDeliversCopies :
    Expects (decAt .blockType) .blockType ∧ (decAt .blockType).blockSize < (1025 : BitVec 16).toNat ∧
    (1024 : BitVec 16).toNat ≤ (decAt .blockType).blockSize ∧ (decAt .blockType).blockSize ≤ 65536 := by
  unfold Expects; decide

theorem witness_CompressedBlockDeliversOrFails :
    Expects decTiny .blockType ∧ [(0xA0 : Byte), 0x0F, 0x3F, 0x08].length = (4 : BitVec 16).toNat ∧
    decTiny.blockSize ≤ 65536 ∧ decTiny.blockSize < (3 : BitVec 16).toNat ∧ (2 : BitVec 16).toNat ≤ decTiny.blockSize ∧
    (decompressBlock [0xA0, 0x0F, 0x3F, 0x08] 2 false).out = .ok [0, 2] ∧
    (decompressBlock [0xA0, 0x0F, 0x3F, 0x08] 2 true).out = .error (.raise .streamTail) := by
  refine ⟨by unfold Expects; decide, by decide, by decide, by decide, by decide, ?_, ?_⟩ <;> decide +kernel

theorem witness_CrcBlockComparesChecksum : Expects (decAt .blockType) .blockType := by unfold Expects; decide

theorem witness_FrameWritesBlockForms : [(0x41 : Byte)].length = 1 ∧ [(0x41 : Byte)].length ≠ 1024 := by decide

theorem witness_WriterAppendsBits : 32 ≤ 32 ∧ 32 < 33 := by decide

theorem witness_WriterCloseGivesBytes : (writing 4 13 65536).work.writer.wcap ≤ 65536 := by decide

theorem witness_ReaderInitFindsEndMark :
    ([0x1D, 0] : List Byte) = [0x1D] ++ [0] ∧ ([0x80] : List Byte) = [] ++ [0x80] ∧ (0x80 : Byte) ≠ 0 ∧ (1 : Byte) ≠ 0 := by
  decide

theorem witness_ReaderReadsFromTheEnd : (reading 4).work.reader.p < 5 ∧ 4 ≤ (reading 4).work.reader.p := by decide

theorem witness_WriteThenReadBack :
    (∀ f ∈ [((5 : U32), 0), (0x2A, 16)], f.2 ≤ 16) ∧ 65536 ≤ 65536 := by decide

theorem witness_AccumulatorWriterProducesSameBytes : ∀ f ∈ [(5, 0), (0x2A, 32)], f.2 ≤ 32 := by decide

theorem witness_HistogramCountsSymbols :
    ([] : List Byte) = [] ∧ [(0x05 : Byte), 0xFF] ≠ [] ∧ (∀ b ∈ [(0x05 : Byte), 0xFF], b.toNat ≤ (0xFF : Byte).toNat) ∧
    ∃ b ∈ [(0x05 : Byte), 0xFF], (0xFE : Byte).toNat < b.toNat := by decide

theorem witness_TableLogChoiceIsBounded :
    (1 ≤ 1 ∧ 1 ≤ 65536 ∧ 1 ≤ 1 ∧ 1 ≤ 255 ∧ (0 = 0 ∨ 5 ≤ 0 ∧ 0 ≤ 15)) ∧
    (1 ≤ 65536 ∧ 65536 ≤ 65536 ∧ 1 ≤ 255 ∧ 255 ≤ 255 ∧ (15 = 0 ∨ 5 ≤ 15 ∧ 15 ≤ 15)) ∧ 2 ≤ 4 ∧ 4 ≤ 4 ∧ 5 ≤ 5 := by decide

theorem witness_NormalizeChecksAndRleSignal :
    isCounts [5] 5 0 = true ∧ 5 ∈ [5] ∧ isCounts [5, 0] 5 1 = true ∧ ¬(5 ≤ 4) ∧ (5 ≤ 15 ∧ min (Nat.log2 5 + 1) (Nat.log2 1 + 2) ≤ 5) ∧ 5 ∈ [5, 0] ∧
    isCounts (List.replicate 128 1) 128 127 = true ∧ ¬min (Nat.log2 128 + 1) (Nat.log2 127 + 2) ≤ 7 := by decide +kernel

theorem witness_NormalizeKeepsSlotSum :
    isCounts [3, 2] 5 1 = true ∧ 5 ∉ [3, 2] ∧ 5 ≤ 5 ∧ 5 ≤ 15 ∧ min (Nat.log2 5 + 1) (Nat.log2 1 + 2) ≤ 5 ∧
    ([3, 2] : List Nat).map (scaledWeight 5 5) = [19, 12] ∧
    -(2 ^ 5 - (([19, 12] : List Int).map slots).sum : Int) < ([19, 12] : List Int).foldl max 0 / 2 ∧
    isCounts (List.replicate 24 1) 24 23 = true ∧ 24 ∉ List.replicate 24 1 ∧
    min (Nat.log2 24 + 1) (Nat.log2 23 + 2) ≤ 5 ∧ ∀ c ∈ List.replicate 24 1, c ≤ 24 * 3 / 2 ^ (5 + 1) := by decide +kernel

theorem witness_FallbackFillsTable :
    WellFormed (.normM2 5 [1, 1] 2 1) = true ∧ WellFormed (.normM2 15 [32768, 32768] 65536 1) = true ∧
    WellFormed (.normM2 5 (List.replicate 24 1) 24 23) = true ∧ (List.replicate 64 1).length = 63 + 1 ∧
    ∀ c ∈ List.replicate 24 1, c ≤ 24 * 3 / 2 ^ (5 + 1) := by decide +kernel

theorem witness_NCountHeaderRoundTrip :
    IsDist [25, 6, -1] 2 5 ∧ ([25, 6, -1] : List Int).getD 2 0 ≠ 0 ∧ IsDist [32768] 0 15 ∧ ([32768] : List Int).getD 0 0 ≠ 0 :=
  ⟨isDist_small, by decide, by unfold IsDist; decide, by decide⟩

theorem witness_SpreadFillsEverySlot :
    IsDist [25, 6, -1] 2 5 ∧ 0 < (([25, 6, -1] : List Int).filter fun w => w == -1).length ∧
    (((List.range (2 ^ 5)).map fun j => j * (2 ^ 5 / 2 + 2 ^ 5 / 8 + 3) % 2 ^ 5).filter fun p => p < 2 ^ 5 - 1)[25]? = some 22 :=
  ⟨isDist_small, by decide, by decide⟩

theorem witness_EncodeTableEntries :
    IsDist [0, 25, 1, 5, -1] 4 5 ∧ ([0, 25, 1, 5, -1] : List Int).getD 0 0 = 0 ∧
    ([0, 25, 1, 5, -1] : List Int).getD 4 0 = -1 ∧ (2 : Int) ≤ ([0, 25, 1, 5, -1] : List Int).getD 1 0 := by
  unfold IsDist; decide

theorem witness_DecodeTableEntries : IsDist [25, 6, -1] 2 5 ∧ IsDist [32768] 0 15 :=
  ⟨isDist_small, by unfold IsDist; decide⟩

theorem witness_EncoderSteps :
    let s := tabled n1 0x72 5
    some 0x65 ∉ s.work.tableSymbol ∧ s.work.tableSymbol[4]? = some (some 0x72) ∧
    (∀ u', u' < 4 → s.work.tableSymbol[u']? ≠ some (some 0x72)) ∧
    ∃ dnb dfs v', s.work.ct.symbolTT[0x62]? = some ⟨dnb, some dfs⟩ ∧ (32 + dnb.toNat) % 2 ^ 32 / 2 ^ 16 = 2 ∧
      0 ≤ ((32 / 2 ^ 2 : Nat) : Int) + dfs ∧ s.work.ct.stateTable[(((32 / 2 ^ 2 : Nat) : Int) + dfs).toNat]? = some (some v') := by
  refine ⟨by decide +kernel, by decide +kernel, by decide +kernel, 3 * 2 ^ 16 - 6 * 2 ^ 3, 8, 48, ?_⟩
  decide +kernel

theorem witness_DecodeEntryUndoesEncodeStep :
    IsDist [25, 6, -1] 2 5 ∧ (2 : Byte).toNat ≤ 2 ∧ ([25, 6, -1] : List Int).getD (2 : Byte).toNat 0 ≠ 0 ∧ 2 ^ 5 ≤ 32 ∧
    32 < 2 * 2 ^ 5 ∧ 2 ^ 5 ≤ 63 ∧ 63 < 2 * 2 ^ 5 := ⟨isDist_small, by decide⟩

theorem witness_DecoderSteps :
    (reading 4).work.reader.p < 5 ∧ 4 ≤ (reading 4).work.reader.p ∧ (tabled n1 0x72 5).work.dt.entries[32]? = none ∧
    (tabled n1 0x72 5).work.dt.entries[14]? = some ⟨0x61, 1, 8⟩ ∧ (reading 0).work.reader.p < 1 ∧
    1 ≤ (reading 1).work.reader.p := by decide +kernel

theorem witness_EncodedBlockDecodes :
    IsDist [25, 6, -1] 2 5 ∧ 0 ≤ 65536 ∧ (∀ b ∈ ([] : List Byte), b.toNat ≤ 2) ∧
    ∀ b ∈ [(0 : Byte), 2], b.toNat ≤ 2 ∧ ([25, 6, -1] : List Int).getD b.toNat 0 ≠ 0 := ⟨isDist_small, by decide⟩

theorem witness_DispatchGates :
    (2 ≤ [(0x41 : Byte), 0x41].length ∧ [(0x41 : Byte), 0x41] = List.replicate 2 0x41) ∧
    ([(0x41 : Byte), 0x42] ≠ List.replicate 2 0x41 ∧ (0x41 : Byte) ∈ [0x41, 0x42]) ∧
    (3 ≤ [(1 : Byte), 2, 3].length ∧ ∀ c : Byte, [(1 : Byte), 2, 3].count c ≤ 1) ∧
    3 ≤ src129.length ∧ ∀ c : Byte, 128 * src129.count c < src129.length := by
  refine ⟨by decide, by decide, ⟨by decide, by decide +kernel⟩, by decide +kernel, by decide +kernel⟩

/-- Past the gates (the payload of `D3` in program P3): the six units answer one after the other, and the payload is below 54 bytes. -/
theorem witness_DispatchGates_units :
    3 ≤ d3.length ∧ d3.count 0x41 ≠ 1 ∧ (∀ c : Byte, d3.count c ≤ d3.count 0x41) ∧ d3.count 0x41 ≠ d3.length ∧
    d3.length ≤ 128 * d3.count 0x41 ∧
    ∃ t0 t1 t2 t3 t4 t5 : State,
      exec (.histCount d3 d3.length 255 false) { com with work := Work.unwritten } = .next t0 ∧
      exec (.normOptlog 11 d3.length t0.work.hist.msv) t0 = .next t1 ∧
      exec (.normNormalize t0.work.hist.count d3.length t0.work.hist.msv t1.work.tl) t1 = .next t2 ∧ t2.result = .ok ∧
      exec (.ncWrite (t2.work.norm.take (t0.work.hist.msv + 1)) t0.work.hist.msv t1.work.tl) t2 = .next t3 ∧
      t3.result = .bytes [0x11, 0xFC, 0xFF, 0xFF, 0xFF, 0xFF, 0x1F, 0xCC, 0x07] ∧
      exec (.tbCtable (t2.work.norm.take (t0.work.hist.msv + 1)) t0.work.hist.msv t1.work.tl) t3 = .next t4 ∧ t4.result = .ok ∧
      exec (.fseEncode d3 d3.length (65536 - 9)) t4 = .next t5 ∧
      t5.result = .closed [0xA4, 0xBB, 0xB6, 0xB2, 0xB2, 0xA3, 0x2A, 0x1B, 0x03] false := by
  let u : State := { com with work := Work.unwritten }
  let t0 := stateOf (exec (.histCount d3 d3.length 255 false) u)
  let t1 := stateOf (exec (.normOptlog 11 d3.length t0.work.hist.msv) t0)
  let t2 := stateOf (exec (.normNormalize t0.work.hist.count d3.length t0.work.hist.msv t1.work.tl) t1)
  let norm := t2.work.norm.take (t0.work.hist.msv + 1)
  let t3 := stateOf (exec (.ncWrite norm t0.work.hist.msv t1.work.tl) t2)
  let t4 := stateOf (exec (.tbCtable norm t0.work.hist.msv t1.work.tl) t3)
  let t5 := stateOf (exec (.fseEncode d3 d3.length (65536 - 9)) t4)
  refine ⟨by decide +kernel, by decide +kernel, by decide +kernel, by decide +kernel, by decide +kernel,
    t0, t1, t2, t3, t4, t5, ?_, ?_, ?_, ?_, ?_, ?_, ?_, ?_, ?_, ?_⟩
  · exact next_stateOf (by decide +kernel)
  · exact next_stateOf (by decide +kernel)
  · exact next_stateOf (by decide +kernel)
  · decide +kernel
  · exact next_stateOf (by decide +kernel)
  · decide +kernel
  · exact next_stateOf (by decide +kernel)
  · decide +kernel
  · exact next_stateOf (by decide +kernel)
  · decide +kernel

theorem witness_FramedBlockIsBounded :
    (∃ t, exec (.bcCompress [0x41] 1 11 true) com = .next t ∧ t.result = .block (.rle 0x41)) ∧
    (∃ t, exec (.bcCompress [0x41] 1 11 false) com = .next t ∧ t.result = .block .raw) ∧
    ∃ t, exec (.bcCompress d3 d3.length 11 true) com = .next t ∧
      t.result = .block (.cmp [0x11, 0xFC, 0xFF, 0xFF, 0xFF, 0xFF, 0x1F, 0xCC, 0x07, 0xA4, 0xBB, 0xB6, 0xB2, 0xB2, 0xA3, 0x2A,
        0x1B, 0x03]) :=
  ⟨next_of_reply (by decide +kernel), next_of_reply (by decide +kernel), next_of_reply (by decide +kernel)⟩

theorem witness_BlockRoundTrip :
    WellFormed (.bcCompress [0x41] [(0x41 : Byte)].length 0 true) = true ∧
    WellFormed (.bcCompress d3 d3.length 15 false) = true := by decide +kernel

theorem witness_BlockDecompressIsItsUnits :
    (decompressBlock [0xA0, 0x0F, 0x3F, 0x08] 2 false).out = .ok [0, 2] ∧
    (decompressBlock [] 3 false).out = .error (.raise .ncountOverrun) ∧
    (∃ t, exec (.ncRead []) com = .next t ∧ t.result = .error .ncountOverrun) ∧
    ∃ t, exec (.ncRead [0xA0, 0x0F, 0x3F, 0x08]) com = .next t ∧ t.result = .header 2 2 ∧
      ∃ u, exec (.tbDtable (t.work.norm.take 3) 2 t.work.tl) t = .next u ∧ u.result = .ok ∧
        ∃ v, exec (.fseDecode [0x3F, 0x08] t.work.tl 2 false) u = .next v ∧ v.result = .bytes [0, 2] := by
  refine ⟨by decide +kernel, by decide +kernel, next_of_reply (by decide +kernel), ?_⟩
  have ht := next_of_reply (o := exec (.ncRead [0xA0, 0x0F, 0x3F, 0x08]) com) (r := .header 2 2) (by decide +kernel)
  obtain ⟨t, ht, hr⟩ := ht
  have htv : viewOf (fun t => t) (exec (.ncRead [0xA0, 0x0F, 0x3F, 0x08]) com) = some t := by rw [ht]; rfl
  refine ⟨t, ht, hr, ?_⟩
  have hu := next_of_reply (o := exec (.tbDtable (t.work.norm.take 3) 2 t.work.tl) t) (r := .ok) (by
    have h : replyOf ((viewOf (fun t => exec (.tbDtable (t.work.norm.take 3) 2 t.work.tl) t)
      (exec (.ncRead [0xA0, 0x0F, 0x3F, 0x08]) com)).getD (.next com)) = some .ok := by decide +kernel
    simpa only [ht, viewOf, Option.getD_some] using h)
  obtain ⟨u, hu, hur⟩ := hu
  refine ⟨u, hu, hur, next_of_reply ?_⟩
  have h : replyOf ((viewOf (fun t => (viewOf (fun u => exec (.fseDecode [0x3F, 0x08] t.work.tl 2 false) u)
      (exec (.tbDtable (t.work.norm.take 3) 2 t.work.tl) t)).getD (.next com))
      (exec (.ncRead [0xA0, 0x0F, 0x3F, 0x08]) com)).getD (.next com)) = some (.bytes [0, 2]) := by decide +kernel
  simpa only [ht, hu, viewOf, Option.getD_some] using h

theorem witness_ChecksumOperations :
    com.ck.mem.length < 15 ∧ ({ com with ck := { com.ck with mem := List.replicate 15 0x41 } } : State).ck.mem.length = 15 := by
  decide

theorem witness_DecodeOfEncode :
    WellFormed (.blkCmp 31 65535 2 [0xA0, 0x0F]) = true ∧ WellFormed (.bwAdd 0xFFFFFFFF 32) = true ∧
    WellFormed (.ncWrite [25, 6, -1] 2 5) = true ∧ WellFormed (.advance 131071) = true := by decide

theorem witness_WireBytesHaveOneMeaning :
    decode (.block [0x80, 0x00, 0x05, 0x41]) = .ok (.blkRle 0 5 0x41) ∧
    decode (.fileHeader [0x09, 0x23, 0x3E, 0x18, 0x05]) = .ok (.fhdr 0x183E2309 5) := by decide

theorem witness_StepRunsTheDecodedInstruction :
    State.reset.pending = [] ∧ decode (.command 0x03 .zero) = .ok .state ∧
    decode (.unitOp 0x45 (.ofNums [17])) = .ok (.brRead 17) ∧ WellFormed (.brRead 17) = false ∧
    decode (.block [0x40, 0x00, 0x02, 0x41]) = .error .contentLength ∧
    decode (.fileHeader [0x09]) = .error .shortElement ∧ decode (.command 0x0B .zero) = .error .commandCode ∧
    decode (.command 0x05 (.ofNums [131072])) = .error .operandWidth ∧
    decode (.unitOp 0x3F .zero) = .error .unitCode := by decide

theorem witness_StepKeepsInv :
    Inv com ∧ Inv dec ∧ ∃ t, step dec = .next t := ⟨inv_com, inv_dec, _, rfl⟩

theorem witness_DecompressorNeverFaults : Inv dec ∧ dec.cfg.dir = .decompress ∧ hostInstr (.setinput []) = true :=
  ⟨inv_dec, by decide, by decide⟩

theorem witness_WritersOfConfigurationAndErrcause :
    (∃ t, exec .state dec = .next t) ∧
    ∃ t, exec (.fhdr 0x183E2309 7) dec = .next t ∧ t.errcause ≠ dec.errcause := by
  refine ⟨⟨_, rfl⟩, ?_⟩
  obtain ⟨t, ht, -⟩ := next_of_reply (o := exec (.fhdr 0x183E2309 7) dec) (r := .consumed 5) (by decide +kernel)
  have h : viewOf (fun t => t.errcause) (exec (.fhdr 0x183E2309 7) dec) = some .blockSizeId := by decide +kernel
  refine ⟨t, ht, ?_⟩
  rw [ht] at h
  simp only [viewOf, Option.some.injEq] at h
  rw [h]; decide

theorem witness_UnitOperationsLeaveSessions : hostInstr .ckInit = false ∧ ∃ t, exec .ckInit com = .next t := ⟨rfl, _, rfl⟩

theorem witness_NoWorkingStateSurvivesABlock :
    (∃ t, exec (.bcCompress [0x41] 1 11 true) com = .next t) ∧
    (∃ t, exec (.bcDecompress [] 0 3 false) com = .next t) ∧ hostInstr .flush = true ∧ ∃ t, exec .flush com = .next t := by
  refine ⟨?_, ?_, rfl, _, rfl⟩
  · obtain ⟨t, h, -⟩ := next_of_reply (o := exec (.bcCompress [0x41] 1 11 true) com) (r := .block (.rle 0x41)) (by decide +kernel)
    exact ⟨t, h⟩
  · obtain ⟨t, h, -⟩ := next_of_reply (o := exec (.bcDecompress [] 0 3 false) com) (r := .error .ncountOverrun) (by decide +kernel)
    exact ⟨t, h⟩

end Sys2Proof.Tests
end

section
/-! SUPPORT. What one instruction can do, said once (`Effect`, `exec_effect`): a unit operation writes the working state,
`PayBuf` and the checksum alone; a host instruction gives an answer, writes the configuration, resets, takes input,
retires output, emits, ends the stream or enters a fatal state. Each case names the operation that does it. -/

namespace Sys2Proof.Machine

/-! ### Reading -/

theorem Memory.run?_length {m : Memory} {a n : Nat} {bs : List Byte} (h : Memory.run? m a n = some bs) :
    bs.length = n := by
  induction m generalizing a n bs with
  | nil => cases n <;> simp_all [Memory.run?]
  | cons c m ih =>
    cases n with
    | zero => simp_all [Memory.run?]
    | succ n =>
      simp only [Memory.run?] at h
      split at h
      · exact ih h
      · split at h
        · obtain ⟨l, hl, rfl⟩ := Option.map_eq_some_iff.mp h
          simp [ih hl]
        · cases h

theorem Memory.read_length {m : Memory} {a n : Nat} {bs : List Byte} (h : Memory.read m a n = .ok bs) :
    bs.length = n := by
  unfold Memory.read at h
  split at h
  · cases h; exact Memory.run?_length ‹_›
  · cases h

theorem exceptMap_eq_ok {ε α β : Type} {x : Except ε α} {f : α → β} {b : β} (h : x.map f = .ok b) :
    ∃ a, x = .ok a ∧ b = f a := by
  cases x with
  | error e => cases h
  | ok a => cases h; exact ⟨a, rfl, rfl⟩

/-! ### Unit operations -/

/-- What a unit operation may write: the working state, bytes of `PayBuf` and the checksum. -/
structure UnitFrame (s t : State) : Prop where
  frame : t = { s with work := t.work, payBuf := t.payBuf, ck := t.ck, result := t.result }
  pay : t.payBuf = s.payBuf ∨ ∃ a bs, a + bs.length ≤ payCap ∧ t.payBuf = Memory.write s.payBuf a bs
  ck : t.ck = s.ck ∨ t.ck = ckInitial ∨ ∃ bs, t.ck = ckFold s.ck bs

theorem unitFrame_work (s : State) (w : Work) (r : Result) : UnitFrame s ({ s with work := w }.reply r) :=
  ⟨rfl, .inl rfl, .inl rfl⟩

theorem unitFrame_reply (s : State) (r : Result) : UnitFrame s (s.reply r) := unitFrame_work s s.work r

theorem unitOutcome_frame {α : Type} {s t : State} {x : Except Stop α} {f : α → State} (hf : ∀ a, UnitFrame s (f a))
    (h : unitOutcome s (x.map f) = .next t) : UnitFrame s t := by
  obtain h | ⟨e, -, rfl⟩ := unitOutcome_eq_next h
  · obtain ⟨a, -, rfl⟩ := exceptMap_eq_ok h
    exact hf a
  · exact unitFrame_reply s _

/-- A unit operation that ends without a result changes nothing else than the result port. -/
theorem unitOutcome_error_frame {s t : State} {e : Stop} (h : unitOutcome s (.error e) = .next t) : UnitFrame s t := by
  obtain h | ⟨e, -, rfl⟩ := unitOutcome_eq_next h
  · cases h
  · exact unitFrame_reply s _

theorem runOutcome_frame {s t : State} {w : Work} {r : Except Stop Result} (h : runOutcome s w r = .next t) :
    UnitFrame s t := by
  obtain ⟨res, -, rfl⟩ | ⟨e, -, rfl⟩ := runOutcome_eq_next h <;> exact unitFrame_work s w _

theorem tableOutcome_frame {α : Type} {s t : State} {norm : List Int} {msv : Nat} {run : TableRun α}
    {leave : Work → α → Work} (h : tableOutcome s norm msv run leave = .next t) : UnitFrame s t := by
  have h := (whenGiven_eq_next h).2
  dsimp only at h
  split at h <;> exact runOutcome_frame h

/-- Bytes put into `PayBuf` with a change of the working state. -/
theorem storePay_frame {s t : State} {a : Nat} {bs : List Byte} {w : Work} {r : Result}
    (h : outcome ((Memory.store payCap s.payBuf a bs).map fun m => { s with work := w, payBuf := m }.reply r) = .next t) :
    UnitFrame s t := by
  obtain ⟨m, hm, rfl⟩ := exceptMap_eq_ok (outcome_eq_next_iff.mp h)
  obtain ⟨hle, rfl⟩ := (Memory.store_eq_ok_iff _ _ _ _ _).mp hm
  exact ⟨rfl, .inr ⟨a, bs, hle, rfl⟩, .inl rfl⟩

theorem execHistCount_frame {src : List Byte} {n : Nat} {msvIn : Byte} {strict : Bool} {s t : State}
    (h : execHistCount src n msvIn strict s = .next t) : UnitFrame s t := by
  have h := (whenGiven_eq_next h).2
  split at h <;> exact runOutcome_frame h

theorem execNormNormalize_frame {count : List Nat} {total msv tl : Nat} {s t : State}
    (h : execNormNormalize count total msv tl s = .next t) : UnitFrame s t := by
  unfold execNormNormalize at h
  split at h
  · exact unitOutcome_error_frame h
  · exact runOutcome_frame h

theorem execNcWrite_frame {norm : List Int} {msv tl : Nat} {s t : State} (h : execNcWrite norm msv tl s = .next t) :
    UnitFrame s t := by
  unfold execNcWrite at h
  split at h
  · exact unitOutcome_error_frame h
  · exact storePay_frame h

theorem execFseEncode_frame {src : List Byte} {n cap : Nat} {s t : State} (h : execFseEncode src n cap s = .next t) :
    UnitFrame s t := by
  have h := (whenGiven_eq_next h).2
  split at h
  · exact unitOutcome_error_frame h
  · exact storePay_frame h

theorem execBcCompress_frame {src : List Byte} {n tlReq : Nat} {oneByteRle : Bool} {s t : State}
    (h : execBcCompress src n tlReq oneByteRle s = .next t) : UnitFrame s t := by
  have h := (whenGiven_eq_next h).2
  split at h
  · cases h
  · obtain ⟨hle, rfl⟩ := (Memory.store_eq_ok_iff _ _ _ _ _).mp ‹_›
    obtain ⟨res, -, rfl⟩ | ⟨e, -, rfl⟩ := runOutcome_eq_next h <;> exact ⟨rfl, .inr ⟨0, _, hle, rfl⟩, .inl rfl⟩

/-- Every unit operation leaves both sessions, the configuration and the other memories alone. -/
theorem exec_unitFrame {i : Instr} {s t : State} (hi : hostInstr i = false) (h : exec i s = .next t) :
    UnitFrame s t := by
  have work (w : Work) (r : Result) := unitFrame_work s w r
  cases i with
  | bwInit | bwFlush | ckDigest | ckTrunc22 => cases h; exact work _ _
  | bwClose => exact storePay_frame h
  | bwAdd | brInit | brRead | brPeek | brSkip | normMinlog | normOptlog | fseInitc | fseEncsym | fseInitd | fseDecsym =>
    exact unitOutcome_frame (fun _ => work _ _) h
  | histCount => exact execHistCount_frame h
  | normNormalize => exact execNormNormalize_frame h
  | normM2 | bcDecompress => exact runOutcome_frame (whenGiven_eq_next h).2
  | ncRead | fseDecode => exact runOutcome_frame h
  | ncWrite => exact execNcWrite_frame h
  | tbSpread | tbCtable | tbDtable =>
    simp only [exec, execTbSpread, execTbCtable, execTbDtable] at h
    exact tableOutcome_frame h
  | fseEncode => exact execFseEncode_frame h
  | bcCompress => exact execBcCompress_frame h
  | ckInit => cases h; exact ⟨rfl, .inl rfl, .inr (.inl rfl)⟩
  | ckUpdate bytes => cases h; exact ⟨rfl, .inl rfl, .inr (.inr ⟨bytes, rfl⟩)⟩
  | _ => cases hi

/-! ### Every instruction -/

theorem configOf_legal {dir k tlReq ckEn strictTail oneByteRle : Nat} {c : Cfg}
    (h : configOf dir k tlReq ckEn strictTail oneByteRle = some c) : legalCfg c = true := by
  unfold configOf at h
  split at h
  · cases h
    simp_all [legalCfg, minTableLog, maxTableLog]
  · cases h

/-- The ways an instruction can end with a next state. -/
inductive Effect (i : Instr) (s : State) : State → Prop
  | unit {t : State} (hi : hostInstr i = false) (h : UnitFrame s t) : Effect i s t
  /-- a query, a failed check, or a command with nothing to do: the result port alone -/
  | answer (r : Result) : Effect i s (s.reply r)
  | configure {dir k tlReq ckEn strictTail oneByteRle : Nat} {c : Cfg}
      (hi : i = .configure dir k tlReq ckEn strictTail oneByteRle) (hc : legalCfg c = true) :
      Effect i s ({ s with cfg := c, configured := true }.sessionReset.reply .ok)
  | reset (hi : i = .reset) : Effect i s (s.sessionReset.reply .ok)
  | input {bytes : List Byte} {n : Nat} {u : State} (h : offer bytes s = .ok (n, u)) : Effect i s (u.reply (.consumed n))
  | retire {n : Nat} (hn : n ≤ readyLength s) (r : Result) : Effect i s ((retire s n).reply r)
  | flush {u : State} (hd : s.cfg.dir = .compress) (hs : statusCompressor s = .needInput) (h : emitPending s = .ok u) :
      Effect i s (u.reply .ok)
  | complete {u : State} (hd : s.cfg.dir = .compress) (hs : statusCompressor s = .needInput)
      (h : completeStream s = .ok u) : Effect i s (u.reply .ok)
  /-- COMPLETE of a decompressor in the middle of a stream -/
  | truncate (hd : s.cfg.dir = .decompress) (hs : statusDecompressor s = .needInput) :
      Effect i s ((s.enterFatal .invalidData .truncated).reply .ok)

theorem statusDecompressor_eq_needInput {s : State} :
    statusDecompressor s = .needInput ↔ s.fstate.terminal = false ∧ s.outLen ≤ s.outPos := by
  unfold statusDecompressor
  cases s.fstate <;> simp [FState.terminal]

theorem statusCompressor_eq_needInput {s : State} :
    statusCompressor s = .needInput ↔ s.cphase ≠ .failed ∧ s.cphase ≠ .completed ∧ s.outLen ≤ s.outPos := by
  unfold statusCompressor
  cases s.cphase with
  | completed => by_cases h : s.outPos < s.outLen <;> simp [h]
  | opened | completing | failed => simp

/-- A decompressor session that neither offers output nor has ended takes input. -/
theorem statusDecompressor_of_open {s : State} (hw : statusDecompressor s ≠ .writeOutput) (ht : s.fstate.terminal = false) :
    statusDecompressor s = .needInput := by
  unfold statusDecompressor at *
  cases hf : s.fstate <;> simp_all [FState.terminal]

/-- A command that checks only that the block is configured answers with the work's effect or with the code alone. -/
theorem Effect.of_whenConfigured {i : Instr} {s t : State} {k : Host.Outcome State Fault Refusal}
    (h : whenConfigured s k = .next t) (hk : k = .next t → Effect i s t) : Effect i s t := by
  obtain ⟨-, h⟩ | ⟨-, rfl⟩ := whenConfigured_eq_next h
  · exact hk h
  · exact .answer _

theorem offerInput_effect {i : Instr} {bytes : List Byte} {s t : State} (h : offerInput bytes s = .next t) :
    Effect i s t := by
  refine .of_whenConfigured h fun h => ?_
  obtain ⟨⟨n, u⟩, hu, rfl⟩ := exceptMap_eq_ok (outcome_eq_next_iff.mp h)
  exact .input hu

theorem execConfigure_effect {dir k tlReq ckEn strictTail oneByteRle : Nat} {s t : State}
    (h : execConfigure dir k tlReq ckEn strictTail oneByteRle s = .next t) :
    Effect (.configure dir k tlReq ckEn strictTail oneByteRle) s t := by
  unfold execConfigure at h
  split at h
  · cases h; exact .answer _
  · cases h; exact .configure rfl (configOf_legal ‹_›)

theorem execOutput_effect {i : Instr} {s t : State} (h : execOutput s = .next t) : Effect i s t := by
  refine .of_whenConfigured h fun h => ?_
  obtain ⟨bytes, -, rfl⟩ := exceptMap_eq_ok (outcome_eq_next_iff.mp h)
  exact .answer _

theorem execAdvance_effect {i : Instr} {n : BitVec 17} {s t : State} (h : execAdvance n s = .next t) : Effect i s t := by
  refine .of_whenConfigured h fun h => ?_
  split at h
  · cases h; exact .answer _
  · cases h; exact .retire (by omega) _

theorem execDrain_effect {i : Instr} {s t : State} (h : execDrain s = .next t) : Effect i s t := by
  refine .of_whenConfigured h fun h => ?_
  obtain ⟨bytes, hb, rfl⟩ := exceptMap_eq_ok (outcome_eq_next_iff.mp h)
  exact .retire (Memory.read_length hb).le _

theorem execFlush_effect {i : Instr} {s t : State} (h : execFlush s = .next t) : Effect i s t := by
  refine .of_whenConfigured h fun h => ?_
  split at h
  · cases h; exact .answer _
  · split at h
    · cases h; exact .answer _
    · obtain ⟨u, hu, rfl⟩ := exceptMap_eq_ok (outcome_eq_next_iff.mp h)
      exact .flush ‹_› (not_not.mp ‹_›) hu

theorem execComplete_effect {i : Instr} {s t : State} (h : execComplete s = .next t) : Effect i s t := by
  refine .of_whenConfigured h fun h => ?_
  split at h
  · split at h
    · cases h; exact .answer _
    · split at h
      · cases h; exact .answer _
      · cases h; exact .truncate ‹_› (statusDecompressor_of_open ‹_› (Bool.eq_false_of_not_eq_true ‹_›))
  · split at h
    · cases h; exact .answer _
    · obtain ⟨u, hu, rfl⟩ := exceptMap_eq_ok (outcome_eq_next_iff.mp h)
      exact .complete ‹_› (not_not.mp ‹_›) hu

theorem exec_effect {i : Instr} {s t : State} (h : exec i s = .next t) : Effect i s t := by
  cases i with
  | fhdr | blkCmp | blkCmpF | blkRaw | blkRawF | blkRle | blkRleF | blkCrc | setinput => exact offerInput_effect h
  | configure => exact execConfigure_effect h
  | state | need | errcause => exact .of_whenConfigured h fun h => by cases h; exact .answer _
  | output => exact execOutput_effect h
  | advance => exact execAdvance_effect h
  | flush => exact execFlush_effect h
  | complete => exact execComplete_effect h
  | reset => exact .of_whenConfigured h fun h => by cases h; exact .reset rfl
  | drain => exact execDrain_effect h
  | _ => exact .unit rfl (exec_unitFrame rfl h)

end Sys2Proof.Machine
end

section
/-! SUPPORT. What a complete field can do (`FieldStep`), how many bytes EMIT can queue, and the induction over SETINPUT's
loop (`inputLoop_keeps`). -/

namespace Sys2Proof.Machine

/-! ### The field actions of the decompressor -/

/-- The ways a field action (47_container.md R134 to R141) can end. -/
inductive FieldStep (s : State) : State → Prop
  | fileHeader (hf : s.fstate = .fileHeader) (tag : U32) (k : Byte) : FieldStep s (fileHeaderAction s tag k)
  | blockType (hf : s.fstate = .blockType) (h : Byte) : FieldStep s (blockTypeAction s h)
  | rawSize (hf : s.fstate = .rawSize) (size : BitVec 16) : FieldStep s (rawSizeAction s size)
  | compSize (hf : s.fstate = .compSize) (size : BitVec 16) : FieldStep s (compSizeAction s size)
  | crcBlock (hf : s.fstate = .crcBlock) (lo : BitVec 16) : FieldStep s (crcBlockAction s lo)
  | content {t : State} (hf : s.fstate = .blockContent) (w : Work) (bytes : List Byte)
      (h : produce { s with work := w } bytes = .ok t) : FieldStep s t
  | badPayload (hf : s.fstate = .blockContent) (w : Work) (e : ErrCode) :
      FieldStep s ({ s with work := w }.enterFatal .invalidData e)

theorem compressedAction_step {s t : State} {payload : List Byte} (hf : s.fstate = .blockContent)
    (h : compressedAction s payload = .ok t) : FieldStep s t := by
  simp only [compressedAction] at h
  split at h
  · exact .content hf _ _ h
  · cases h; exact .badPayload hf _ _
  · cases h

theorem fieldAction_step {s t : State} {f : List Byte} (h : fieldAction s f = .ok t) : FieldStep s t := by
  unfold fieldAction at h
  split at h
  · cases h; exact .fileHeader ‹_› _ _
  · cases h; exact .blockType ‹_› _
  · cases h; exact .rawSize ‹_› _
  · cases h; exact .compSize ‹_› _
  · cases h; exact .crcBlock ‹_› _
  · split at h
    · exact compressedAction_step ‹_› h
    · exact .content ‹_› s.work _ h
    · exact .content ‹_› s.work _ h
    · cases h
  · cases h

/-- A header byte opens a Crc block, a full block of the session's size, or a block whose size follows (R135). -/
theorem blockTypeAction_cases (s : State) (h : Byte) :
    (blockTypeAction s h =
        { s with work := Work.unwritten, btype := .crc, crcHi6 := crcHi6Of h, fstate := .crcBlock }) ∨
      ∃ t, t ≠ .crc ∧
        (blockTypeAction s h =
            { s with work := Work.unwritten, btype := t, full := true, rawSize := s.blockSize, fstate := afterRawSize t } ∨
          blockTypeAction s h = { s with work := Work.unwritten, btype := t, full := false, fstate := .rawSize }) := by
  simp only [blockTypeAction]
  split
  · exact .inl rfl
  · refine .inr ⟨_, ‹_›, ?_⟩
    split
    · exact .inl rfl
    · exact .inr rfl

/-! ### EMIT -/

theorem sizeTest_cmp_length {n : Nat} {hdr p : List Byte} {wr : Writer} (h : sizeTest n hdr wr = .cmp p) :
    p.length < n - 1 := by
  unfold sizeTest at h
  split at h
  · cases h
  · cases h
    simp only [List.length_append]
    omega

/-- Past the gates, a coded block is the size test's answer (45_block_codec.md R115). -/
theorem codeBlock_out {src : List Byte} {tlReq : Nat} {w : Work} {r : BlockResult}
    (h : (codeBlock src tlReq w).out = .ok r) : ∃ hdr wr, r = sizeTest src.length hdr wr := by
  simp only [codeBlock] at h
  repeat' split at h
  all_goals cases h
  exact ⟨_, _, rfl⟩

/-- A payload is kept only where it saves at least two bytes. -/
theorem compressBlock_cmp_length {src p : List Byte} {tlReq : Nat} {oneByteRle : Bool}
    (h : (compressBlock src tlReq oneByteRle).out = .ok (.cmp p)) : p.length < src.length - 1 := by
  simp only [compressBlock] at h
  split_ifs at h
  case neg =>
    obtain ⟨hdr, wr, hr⟩ := codeBlock_out h
    exact sizeTest_cmp_length hr.symm
  all_goals cases h

/-- A framed block is at most two bytes longer than the session's block size (30_encoding.md R44 to R46). -/
theorem frame_length_le {r : BlockResult} {src : List Byte} {size : Nat} (hs : src.length ≤ size) (h2 : 2 ≤ size)
    (hr : ∀ p, r = .cmp p → p.length < src.length - 1) : (frame r src size).length ≤ size + 2 := by
  cases r with
  | cmp p =>
    have := hr p rfl
    simp only [frame]
    split <;> simp [blkCmpFBytes, blkCmpBytes, be16Bytes] <;> omega
  | rle b => simp only [frame]; split <;> simp [blkRleFBytes, blkRleBytes, be16Bytes, h2]
  | raw => simp only [frame]; split <;> simp [blkRawFBytes, blkRawBytes, be16Bytes] <;> omega

theorem lazyHeader_length_le (s : State) : (lazyHeader s).length ≤ 5 := by
  unfold lazyHeader
  split <;> simp [streamHeader, fhdrBytes, le32Bytes]

theorem isBlockSize_blockSizeOf {k : Nat} (hk : k ≤ 6) : isBlockSize (blockSizeOf k) = true := by
  simp only [isBlockSize, List.any_eq_true, List.mem_range]
  exact ⟨k, by omega, by simp [blockSizeOf]⟩

/-! ### SETINPUT's loop, once -/

/-- What a property must do to be kept by the loop of 47_container.md R133: survive the action of a complete field, and
the staging of bytes the field still needs. -/
structure LoopKeeps (P : State → Prop) : Prop where
  act : ∀ {s u : State} {f : List Byte}, P s → statusDecompressor s = .needInput →
    fieldAction { s with stageLen := 0 } f = .ok u → P u
  stage : ∀ {s : State} (bs : List Byte), P s → s.stageLen + bs.length ≤ fieldLength s →
    s.stageLen + bs.length ≤ inStageSize →
    P { s with inStage := Memory.write s.inStage s.stageLen bs, stageLen := s.stageLen + bs.length }

theorem inputLoop_keeps {P : State → Prop} (hP : LoopKeeps P) {fuel : Nat} {bytes : List Byte} {c d : Nat} {s t : State}
    (hs : P s) (h : inputLoop fuel bytes c s = .ok (d, t)) : P t := by
  induction fuel generalizing bytes c s with
  | zero => cases h
  | succ fuel ih =>
    unfold inputLoop at h
    split_ifs at h with hstatus hfull hover
    · cases h; exact hs
    · split at h
      · cases h
      · split at h
        · cases h
        · exact ih (hP.act hs (not_not.mp hstatus) ‹_›) h
    · split at h
      · cases h; exact hs
      · rename_i b bs
        dsimp only at h
        split at h
        · cases h
        · obtain ⟨hle, rfl⟩ := (Memory.store_eq_ok_iff _ _ _ _ _).mp ‹_›
          have hlen : ((b :: bs).take (min (fieldLength s - s.stageLen) (b :: bs).length)).length =
              min (fieldLength s - s.stageLen) (b :: bs).length := by simp
          have hstage := hP.stage _ hs (by omega) hle
          rw [hlen] at hstage
          exact ih hstage h

/-- A session that takes no input is left as it is. -/
theorem inputLoop_of_not_needInput {fuel : Nat} {bytes : List Byte} {c d : Nat} {s t : State}
    (hs : statusDecompressor s ≠ .needInput) (h : inputLoop fuel bytes c s = .ok (d, t)) : t = s := by
  cases fuel with
  | zero => cases h
  | succ fuel =>
    simp only [inputLoop, if_pos hs] at h
    cases h; rfl

end Sys2Proof.Machine
end

section
/-! Who writes the configuration registers and `errcause` (10_state.md R11, R13). -/

namespace Sys2Proof.Machine

/-- R11 and R13 of an instruction that is neither CONFIGURE nor RESET: the configuration stays, and `errcause` too unless
a session that took input has entered a fatal state. -/
def KeepsOrFails (s t : State) : Prop :=
  t.cfg = s.cfg ∧ t.configured = s.configured ∧
    (t.errcause = s.errcause ∨ status s = .needInput ∧ (status t = .invalidData ∨ status t = .invalidChecksum))

theorem KeepsOrFails.reply {s t : State} (h : KeepsOrFails s t) (r : Result) : KeepsOrFails s (t.reply r) := h

theorem keepsOrFails_refl (s : State) : KeepsOrFails s s := ⟨rfl, rfl, .inl rfl⟩

theorem status_of_decompress {s : State} (hd : s.cfg.dir = .decompress) : status s = statusDecompressor s := by
  simp [status, hd]

theorem status_of_compress {s : State} (hd : s.cfg.dir = .compress) : status s = statusCompressor s := by
  simp [status, hd]

theorem statusCompressor_of_failed {s : State} (h : s.cphase = .failed) : statusCompressor s = .invalidData := by
  simp [statusCompressor, h]

/-! ### The decompressor -/

/-- The two fatal states of the decompressor (60_exceptions.md R162). -/
def FState.fatal (f : FState) : Prop := f = .invalidData ∨ f = .invalidChecksum

theorem statusDecompressor_of_fatal {s : State} (h : s.fstate.fatal) :
    statusDecompressor s = .invalidData ∨ statusDecompressor s = .invalidChecksum := by
  obtain h | h := h <;> simp [statusDecompressor, h]

theorem fieldStep_errcause {s t : State} (h : FieldStep s t) : t.errcause = s.errcause ∨ t.fstate.fatal := by
  cases h with
  | fileHeader hf tag k => unfold fileHeaderAction; split_ifs <;> simp [FState.fatal]
  | blockType hf h => obtain h | ⟨t, -, h | h⟩ := blockTypeAction_cases s h <;> exact .inl (by rw [h])
  | rawSize hf size => unfold rawSizeAction; split <;> simp [FState.fatal]
  | compSize hf size => exact .inl rfl
  | crcBlock hf lo => unfold crcBlockAction; split <;> simp [FState.fatal]
  | content hf w bytes h => obtain ⟨-, rfl⟩ := produce_eq_ok h; exact .inl rfl
  | badPayload hf w e => exact .inr (.inl rfl)

theorem loopKeeps_errcause (e : ErrCode) : LoopKeeps fun s => s.errcause = e ∨ s.fstate.fatal where
  act hs hstatus h := by
    obtain rfl | hfatal := hs
    · simpa using fieldStep_errcause (fieldAction_step h)
    · rcases statusDecompressor_of_fatal hfatal with h | h <;> simp [h] at hstatus
  stage _ hs _ _ := hs

theorem inputDecompressor_keepsOrFails {s t : State} {bytes : List Byte} {n : Nat} (hd : s.cfg.dir = .decompress)
    (h : inputDecompressor bytes s = .ok (n, t)) : KeepsOrFails s t := by
  obtain ⟨hconf, hcfg, -⟩ := (inputLoop_sameOutside h).1
  refine ⟨hcfg, hconf, ?_⟩
  by_cases hs : statusDecompressor s = .needInput
  · obtain he | hfatal := inputLoop_keeps (loopKeeps_errcause s.errcause) (.inl rfl) h
    · exact .inl he
    · rw [status_of_decompress hd, status_of_decompress (by rw [hcfg, hd])]
      exact .inr ⟨hs, statusDecompressor_of_fatal hfatal⟩
  · rw [inputLoop_of_not_needInput hs h]
    exact .inl rfl

/-! ### The compressor -/

/-- EMIT keeps the configuration, and either `errcause` and the control state or it fails the session. -/
theorem emit_session {s t : State} (h : emit s = .ok t) :
    t.cfg = s.cfg ∧ t.configured = s.configured ∧
      (t.errcause = s.errcause ∧ t.cphase = s.cphase ∨ t.cphase = .failed) := by
  obtain ⟨src, -, -, ⟨r, -, hq⟩ | ⟨e, -, -, rfl⟩⟩ := emit_eq_ok h
  · obtain ⟨-, rfl⟩ := queueBlock_eq_ok hq
    exact ⟨rfl, rfl, .inl ⟨rfl, rfl⟩⟩
  · exact ⟨rfl, rfl, .inr rfl⟩

theorem emitPending_session {s t : State} (h : emitPending s = .ok t) :
    t.cfg = s.cfg ∧ t.configured = s.configured ∧
      (t.errcause = s.errcause ∧ t.cphase = s.cphase ∨ t.cphase = .failed) := by
  unfold emitPending at h
  split at h
  · exact emit_session h
  · cases h; exact ⟨rfl, rfl, .inl ⟨rfl, rfl⟩⟩

/-- The end of COMPLETE, from the state the held block's EMIT leaves. -/
theorem queueCrc_eq_ok {s t : State} (h : queueCrc s = .ok t) :
    let q := lazyHeader s ++ crcBlockBytes (ckTrunc (ckHash s.ck))
    s.outLen + q.length ≤ outBufSize s ∧
      t = { s with
        hdrDone := true, outBuf := Memory.write s.outBuf s.outLen q, outLen := s.outLen + q.length
        cphase := .completing } := by
  simp only [queueCrc] at h
  split at h
  · cases h
  · obtain ⟨hle, rfl⟩ := (Memory.store_eq_ok_iff _ _ _ _ _).mp ‹_›
    cases h
    exact ⟨hle, rfl⟩

/-- COMPLETE ends where the held block's EMIT fails the session, else with the Crc block. -/
theorem completeStream_eq_ok {s t : State} (h : completeStream s = .ok t) :
    ∃ u, emitPending s = .ok u ∧ (u.cphase = .failed ∧ t = u ∨ u.cphase ≠ .failed ∧ queueCrc u = .ok t) := by
  unfold completeStream at h
  split at h
  · cases h
  · split at h
    · cases h; exact ⟨_, ‹_›, .inl ⟨‹_›, rfl⟩⟩
    · exact ⟨_, ‹_›, .inr ⟨‹_›, h⟩⟩

/-- SETINPUT of the compressor takes nothing, or takes bytes into the block buffer and emits it when it is full. -/
theorem inputCompressor_eq_ok {s t : State} {bytes : List Byte} {n : Nat} (h : inputCompressor bytes s = .ok (n, t)) :
    (statusCompressor s ≠ .needInput ∧ t = s) ∨
      ∃ bs : List Byte, statusCompressor s = .needInput ∧ s.bufLen + bs.length ≤ blockSizeCfg s ∧
        let u := { s with blockBuf := Memory.write s.blockBuf s.bufLen bs, bufLen := s.bufLen + bs.length }
        (u.bufLen ≠ blockSizeCfg s ∧ t = u) ∨ (u.bufLen = blockSizeCfg s ∧ emit u = .ok t) := by
  unfold inputCompressor at h
  split at h
  · cases h; exact .inl ⟨‹_›, rfl⟩
  · dsimp only at h
    split at h
    · cases h
    · obtain ⟨hle, rfl⟩ := (Memory.store_eq_ok_iff _ _ _ _ _).mp ‹_›
      refine .inr ⟨_, not_not.mp ‹_›, hle, ?_⟩
      have hlen : (bytes.take (min (blockSizeCfg s - s.bufLen) bytes.length)).length =
          min (blockSizeCfg s - s.bufLen) bytes.length := by simp
      rw [hlen]
      split at h
      · obtain ⟨u, hu, hp⟩ := exceptMap_eq_ok h
        cases hp
        exact .inr ⟨‹_›, hu⟩
      · cases h; exact .inl ⟨‹_›, rfl⟩

/-- A compressor that took input and has failed is in `InvalidData`. -/
theorem keepsOrFails_of_session {s t : State} (hd : s.cfg.dir = .compress) (hs : statusCompressor s = .needInput)
    (h : t.cfg = s.cfg ∧ t.configured = s.configured ∧ (t.errcause = s.errcause ∨ t.cphase = .failed)) :
    KeepsOrFails s t := by
  obtain ⟨hcfg, hconf, he⟩ := h
  refine ⟨hcfg, hconf, he.imp_right fun hfail => ?_⟩
  rw [status_of_compress hd, status_of_compress (by rw [hcfg, hd])]
  exact ⟨hs, .inl (statusCompressor_of_failed hfail)⟩

theorem emitPending_keepsOrFails {s t : State} (hd : s.cfg.dir = .compress) (hs : statusCompressor s = .needInput)
    (h : emitPending s = .ok t) : KeepsOrFails s t :=
  have ⟨hcfg, hconf, he⟩ := emitPending_session h
  keepsOrFails_of_session hd hs ⟨hcfg, hconf, he.imp_left And.left⟩

theorem completeStream_keepsOrFails {s t : State} (hd : s.cfg.dir = .compress) (hs : statusCompressor s = .needInput)
    (h : completeStream s = .ok t) : KeepsOrFails s t := by
  obtain ⟨u, hu, ⟨-, rfl⟩ | ⟨hrun, hcrc⟩⟩ := completeStream_eq_ok h
  · exact emitPending_keepsOrFails hd hs hu
  · obtain ⟨hcfg, hconf, ⟨he, -⟩ | hfail⟩ := emitPending_session hu
    · obtain ⟨-, rfl⟩ := queueCrc_eq_ok hcrc
      exact ⟨hcfg, hconf, .inl he⟩
    · exact absurd hfail hrun

theorem inputCompressor_keepsOrFails {s t : State} {bytes : List Byte} {n : Nat} (hd : s.cfg.dir = .compress)
    (h : inputCompressor bytes s = .ok (n, t)) : KeepsOrFails s t := by
  obtain ⟨-, rfl⟩ | ⟨bs, hs, -, ⟨-, rfl⟩ | ⟨-, hemit⟩⟩ := inputCompressor_eq_ok h
  · exact keepsOrFails_refl _
  · exact ⟨rfl, rfl, .inl rfl⟩
  · obtain ⟨hcfg, hconf, he⟩ := emit_session hemit
    exact keepsOrFails_of_session hd hs ⟨hcfg, hconf, he.imp_left And.left⟩

/-! ### Every instruction -/

theorem offer_keepsOrFails {s t : State} {bytes : List Byte} {n : Nat} (h : offer bytes s = .ok (n, t)) :
    KeepsOrFails s t := by
  unfold offer at h
  split at h
  · exact inputDecompressor_keepsOrFails ‹_› h
  · exact inputCompressor_keepsOrFails ‹_› h

theorem retire_keepsOrFails (s : State) (n : Nat) : KeepsOrFails s (retire s n) := by
  simp only [retire]
  repeat' split
  all_goals exact ⟨rfl, rfl, .inl rfl⟩

theorem truncate_keepsOrFails {s : State} (hd : s.cfg.dir = .decompress) (hs : statusDecompressor s = .needInput) :
    KeepsOrFails s (s.enterFatal .invalidData .truncated) :=
  ⟨rfl, rfl, .inr ⟨by rw [status_of_decompress hd, hs], .inl (by rw [status_of_decompress (by simpa using hd)]; rfl)⟩⟩

/-- The writers of the configuration and of `errcause`, instruction by instruction. -/
theorem Effect.keepsOrFails_or_resets {i : Instr} {s t : State} (h : Effect i s t) :
    KeepsOrFails s t ∨ t.errcause = .none ∧
      (i = .reset ∧ t.cfg = s.cfg ∧ t.configured = s.configured ∨
        ∃ dir k tlReq ckEn strictTail oneByteRle, i = .configure dir k tlReq ckEn strictTail oneByteRle) := by
  cases h with
  | unit hi h => rw [h.frame]; exact .inl ⟨rfl, rfl, .inl rfl⟩
  | answer r => exact .inl ((keepsOrFails_refl s).reply r)
  | configure hi hc => exact .inr ⟨rfl, .inr ⟨_, _, _, _, _, _, hi⟩⟩
  | reset hi => exact .inr ⟨rfl, .inl ⟨hi, rfl, rfl⟩⟩
  | input h => exact .inl ((offer_keepsOrFails h).reply _)
  | retire hn r => exact .inl ((retire_keepsOrFails s _).reply r)
  | flush hd hs h => exact .inl ((emitPending_keepsOrFails hd hs h).reply _)
  | complete hd hs h => exact .inl ((completeStream_keepsOrFails hd hs h).reply _)
  | truncate hd hs => exact .inl ((truncate_keepsOrFails hd hs).reply _)

/-- Settles O58: each effect of an instruction keeps the registers, enters a fatal state, or is a reset. -/
theorem writersOfConfigurationAndErrcause : Obligations.WritersOfConfigurationAndErrcause := by
  intro i s t h isConfigure
  obtain ⟨hcfg, hconf, he⟩ | ⟨hnone, ⟨hi, hcfg, hconf⟩ | hi⟩ := (exec_effect h).keepsOrFails_or_resets
  · exact ⟨fun _ => ⟨hcfg, hconf⟩, fun hne => .inr (he.resolve_left hne)⟩
  · exact ⟨fun _ => ⟨hcfg, hconf⟩, fun _ => .inl ⟨hnone, .inl hi⟩⟩
  · exact ⟨fun hn => absurd hi hn, fun _ => .inl ⟨hnone, .inr hi⟩⟩

end Sys2Proof.Machine
end

section
/-! Every step keeps the legal states `Inv`: one lemma per effect of `Effect` and `FieldStep`. -/

namespace Sys2Proof.Machine

/-! ### Memories and the checksum -/

/-- A memory in canonical form inside its size stays so when bytes inside the size are written. -/
theorem Memory.form_write {m : Memory} {size a : Nat} {bs : List Byte} (h : m.wf = true ∧ m.within size = true)
    (hs : a + bs.length ≤ size) :
    (Memory.write m a bs).wf = true ∧ (Memory.write m a bs).within size = true :=
  ⟨Memory.wf_write _ _ _ h.1, Memory.within_write _ _ _ _ h.2 hs⟩

theorem ckByte_mem_length {c : Checksum} (h : c.mem.length < 16) (b : Byte) : (ckByte c b).mem.length < 16 := by
  simp only [ckByte]
  split
  · simp
  · simp_all; omega

theorem ckFold_mem_length {c : Checksum} (h : c.mem.length < 16) (bs : List Byte) : (ckFold c bs).mem.length < 16 := by
  induction bs generalizing c with
  | nil => exact h
  | cons b bs ih => exact ih (ckByte_mem_length h b)

/-! ### What no field of `Inv` reads -/

theorem Inv.reply {s : State} (h : Inv s) (r : Result) : Inv (s.reply r) := { h with }

theorem Inv.withPending {s : State} (h : Inv s) (p : List Packet) : Inv { s with pending := p } := { h with }

theorem Inv.withWork {s : State} (h : Inv s) (w : Work) : Inv { s with work := w } := { h with }

/-! ### Unit operations, reset and retirement -/

theorem Inv.unitFrame {s t : State} (h : Inv s) (hf : UnitFrame s t) : Inv t := by
  obtain ⟨hframe, hpay, hck⟩ := hf
  have hpay : t.payBuf.wf = true ∧ t.payBuf.within payCap = true := by
    obtain hp | ⟨a, bs, hle, hp⟩ := hpay <;> rw [hp]
    · exact h.payBufForm
    · exact Memory.form_write h.payBufForm hle
  have hck : t.ck.mem.length < 16 := by
    obtain hc | hc | ⟨bs, hc⟩ := hck <;> rw [hc]
    · exact h.checksum
    · decide
    · exact ckFold_mem_length h.checksum bs
  rw [hframe]
  exact { h with payBufForm := hpay, checksum := hck }

theorem blockSizeOf_pos (k : Nat) : 0 < blockSizeOf k := by simp [blockSizeOf]

/-- The reset gives a legal state from any state whose configuration is legal. -/
theorem inv_sessionReset {s : State} (h : legalCfg s.cfg = true) : Inv s.sessionReset where
  cfgLegal := h
  otherSession := ⟨fun _ => ⟨rfl, rfl⟩, fun _ => ⟨rfl, rfl⟩⟩
  inStageForm := ⟨rfl, rfl⟩
  blockBufForm := ⟨rfl, rfl⟩
  outBufForm := ⟨rfl, rfl⟩
  payBufForm := ⟨rfl, rfl⟩
  queue := ⟨Nat.le_refl _, Nat.zero_le _, nofun⟩
  checksum := by simp [ckInitial]
  staging := ⟨Nat.zero_le _, nofun⟩
  blockSizeRead := nofun
  rawSizeRead := nofun
  cSizeRead := Nat.zero_le _
  sizedType := nofun
  compSizeType := nofun
  terminalQueue := nofun
  blockBuffer := ⟨blockSizeOf_pos _, nofun⟩
  completingQueue := nofun
  completedQueue := nofun
  headerFirst := fun _ _ => rfl
  crcRoom := fun _ _ => by simp [outCap]

/-- Retired bytes were ready, so the queue only shrinks; the compressor's Completing ends with its last byte. -/
theorem Inv.retire {s : State} (h : Inv s) {n : Nat} (hn : n ≤ readyLength s) : Inv (retire s n) := by
  have hpos := h.queue.1
  have hle : s.outPos + n ≤ s.outLen := by unfold readyLength at hn; omega
  have hterm (ht : s.fstate.terminal = true) : s.outPos + n = s.outLen := by have := h.terminalQueue ht; omega
  have hcompleted (hc : s.cphase = .completed) : s.outPos + n = s.outLen := by have := h.completedQueue hc; omega
  cases hd : s.cfg.dir with
  | decompress =>
    have hopen := (h.otherSession.2 hd).1
    simp only [Machine.retire, hd]
    exact { h with
      queue := ⟨hle, h.queue.2⟩
      terminalQueue := hterm
      completingQueue := by simp [hopen]
      completedQueue := hcompleted }
  | compress =>
    simp only [Machine.retire, hd]
    split
    · rename_i hdone
      exact { h with
        otherSession := ⟨h.otherSession.1, by simp [hd]⟩
        queue := ⟨hle, h.queue.2⟩
        terminalQueue := hterm
        completingQueue := nofun
        completedQueue := fun _ => hdone.1
        crcRoom := fun _ => nofun }
    · rename_i hmore
      exact { h with
        queue := ⟨hle, h.queue.2⟩
        terminalQueue := hterm
        completingQueue := fun hc => Nat.lt_of_le_of_ne hle fun he => hmore ⟨he, hc⟩
        completedQueue := hcompleted }

/-! ### The decompressor -/

/-- What `Inv` asks of a field state `f` with a block size, a block type and a raw size. -/
structure FieldLegal (f : FState) (blockSize : Nat) (btype : BlockType) (rawSize : Nat) : Prop where
  blockSizeRead : f.pastHeader = true → isBlockSize blockSize = true
  rawSizeRead : f.sized = true → rawSize ≤ blockSize
  sizedType : f = .rawSize ∨ f.sized = true → btype ≠ .crc
  compSizeType : f = .compSize → btype = .compressed

theorem FieldLegal.of_terminal {f : FState} (hf : f.terminal = true) (blockSize : Nat) (btype : BlockType) (rawSize : Nat) :
    FieldLegal f blockSize btype rawSize := by
  constructor <;> cases f <;> simp_all [FState.terminal, FState.pastHeader, FState.sized]

/-- Outside the states that know a raw size, a legal block size is enough. -/
theorem FieldLegal.of_not_sized {f : FState} (hf : f.sized = false) (hr : f ≠ .rawSize) {blockSize : Nat}
    (hb : isBlockSize blockSize = true) (btype : BlockType) (rawSize : Nat) : FieldLegal f blockSize btype rawSize where
  blockSizeRead _ := hb
  rawSizeRead := by simp [hf]
  sizedType := by simp [hf, hr]
  compSizeType := by rintro rfl; cases hf

/-- A block whose raw size is known goes on legally (47_container.md R135, R136). -/
theorem FieldLegal.afterRawSize {t : BlockType} (ht : t ≠ .crc) {blockSize rawSize : Nat}
    (hb : isBlockSize blockSize = true) (hr : rawSize ≤ blockSize) :
    FieldLegal (afterRawSize t) blockSize t rawSize where
  blockSizeRead _ := hb
  rawSizeRead _ := hr
  sizedType _ := ht
  compSizeType := by unfold Machine.afterRawSize; split <;> simp_all

theorem Inv.clearStage {s : State} (h : Inv s) : Inv { s with stageLen := 0 } :=
  { h with
    otherSession := ⟨fun hd => ⟨(h.otherSession.1 hd).1, rfl⟩, h.otherSession.2⟩
    staging := ⟨Nat.zero_le _, nofun⟩ }

/-- A session that takes input has no ready bytes. -/
theorem Inv.drained {s : State} (h : Inv s) (hs : s.outLen ≤ s.outPos) : s.outPos = s.outLen :=
  Nat.le_antisymm h.queue.1 hs

section

variable {s : State} (h : Inv s) (hd : s.cfg.dir = .decompress) (hq : s.outPos = s.outLen)

include h hd hq

/-- A drained decompressor with nothing staged may move to any legal field. -/
theorem Inv.toField (h0 : s.stageLen = 0) {f : FState} {blockSize rawSize cSize : Nat} {btype : BlockType}
    (hf : FieldLegal f blockSize btype rawSize) (hc : cSize ≤ 65535) :
    Inv { s with fstate := f, blockSize := blockSize, btype := btype, rawSize := rawSize, cSize := cSize } :=
  { h with
    otherSession := ⟨by simp [hd], h.otherSession.2⟩
    staging := ⟨by simp [h0], h.staging.2⟩
    blockSizeRead := hf.blockSizeRead
    rawSizeRead := hf.rawSizeRead
    cSizeRead := hc
    sizedType := hf.sizedType
    compSizeType := hf.compSizeType
    terminalQueue := fun _ => hq }

/-- The decompressor's fatal entry (60_exceptions.md R162). -/
theorem Inv.enterFatal {f : FState} (hf : f.terminal = true) (e : ErrCode) : Inv (s.enterFatal f e) :=
  { h.clearStage.toField hd hq rfl (.of_terminal hf s.blockSize s.btype s.rawSize) h.cSizeRead with }

variable (h0 : s.stageLen = 0)

include h0

theorem fileHeaderAction_inv (tag : U32) (k : Byte) : Inv (fileHeaderAction s tag k) := by
  unfold fileHeaderAction
  split_ifs with htag htag' hk
  · exact h.enterFatal hd hq rfl _
  · exact h.enterFatal hd hq rfl _
  · exact h.enterFatal hd hq rfl _
  · have hb := isBlockSize_blockSizeOf (Nat.not_lt.mp hk)
    exact h.toField hd hq h0 (.of_not_sized (f := .blockType) rfl nofun hb s.btype s.rawSize) h.cSizeRead

theorem blockTypeAction_inv (hf : s.fstate = .blockType) (b : Byte) : Inv (blockTypeAction s b) := by
  have hb : isBlockSize s.blockSize = true := h.blockSizeRead (by rw [hf]; rfl)
  obtain ht | ⟨t, hne, ht | ht⟩ := blockTypeAction_cases s b <;> rw [ht]
  · exact { h.toField hd hq h0 (.of_not_sized (f := .crcBlock) rfl nofun hb .crc s.rawSize) h.cSizeRead with }
  · exact { h.toField hd hq h0 (.afterRawSize hne hb (Nat.le_refl _)) h.cSizeRead with }
  · have hlegal : FieldLegal .rawSize s.blockSize t s.rawSize := ⟨fun _ => hb, nofun, fun _ => hne, nofun⟩
    exact { h.toField hd hq h0 hlegal h.cSizeRead with }

theorem rawSizeAction_inv (hf : s.fstate = .rawSize) (size : BitVec 16) : Inv (rawSizeAction s size) := by
  unfold rawSizeAction
  split
  · have hread := h.toField hd hq h0 (.of_terminal (f := .invalidData) rfl s.blockSize s.btype size.toNat) h.cSizeRead
    exact { hread.enterFatal hd hq (f := .invalidData) rfl .rawSize with }
  · have hb : isBlockSize s.blockSize = true := h.blockSizeRead (by rw [hf]; rfl)
    exact h.toField hd hq h0 (.afterRawSize (h.sizedType (.inl hf)) hb (Nat.not_lt.mp ‹_›)) h.cSizeRead

theorem compSizeAction_inv (hf : s.fstate = .compSize) (size : BitVec 16) : Inv (compSizeAction s size) := by
  have hsized : s.fstate.sized = true := by rw [hf]; rfl
  have hb : isBlockSize s.blockSize = true := h.blockSizeRead (by rw [hf]; rfl)
  have hlegal : FieldLegal .blockContent s.blockSize s.btype s.rawSize :=
    ⟨fun _ => hb, fun _ => h.rawSizeRead hsized, fun _ => h.sizedType (.inr hsized), nofun⟩
  exact h.toField hd hq h0 hlegal (Nat.le_of_lt_succ size.isLt)

theorem crcBlockAction_inv (lo : BitVec 16) : Inv (crcBlockAction s lo) := by
  unfold crcBlockAction
  split
  · exact h.enterFatal hd hq rfl _
  · exact h.toField hd hq h0 (.of_terminal rfl s.blockSize s.btype s.rawSize) h.cSizeRead

/-- A block's content is queued from offset 0, and the session is back at a header byte (R138 to R140). -/
theorem Inv.produce (hf : s.fstate = .blockContent) {content : List Byte} {t : State} (hp : produce s content = .ok t) :
    Inv t := by
  obtain ⟨hle, rfl⟩ := produce_eq_ok hp
  have hb : isBlockSize s.blockSize = true := h.blockSizeRead (by rw [hf]; rfl)
  have hopen := (h.otherSession.2 hd).1
  have hstore : 0 + content.length ≤ outBufSize s := by omega
  exact { h.toField hd hq h0 (.of_not_sized (f := .blockType) rfl nofun hb s.btype s.rawSize) h.cSizeRead with
    outBufForm := Memory.form_write h.outBufForm hstore
    queue := ⟨Nat.zero_le _, hle, Memory.writtenTo_write_zero _ _⟩
    checksum := by dsimp only; split; exacts [ckFold_mem_length h.checksum _, h.checksum]
    terminalQueue := nofun
    completingQueue := by simp [hopen]
    completedQueue := by simp [hopen]
    headerFirst := by simp [hd]
    crcRoom := by simp [hd] }

/-- Each field action keeps the legal states. -/
theorem fieldStep_inv {t : State} (hs : FieldStep s t) : Inv t := by
  cases hs with
  | fileHeader hf tag k => exact fileHeaderAction_inv h hd hq h0 tag k
  | blockType hf b => exact blockTypeAction_inv h hd hq h0 hf b
  | rawSize hf size => exact rawSizeAction_inv h hd hq h0 hf size
  | compSize hf size => exact compSizeAction_inv h hd hq h0 hf size
  | crcBlock hf lo => exact crcBlockAction_inv h hd hq h0 lo
  | content hf w bytes hp => exact (h.withWork w).produce hd hq h0 hf hp
  | badPayload hf w e => exact (h.withWork w).enterFatal hd hq rfl e

end

/-- Bytes staged after those of the same field. -/
theorem Inv.stage {s : State} (h : Inv s) (hd : s.cfg.dir = .decompress) {bs : List Byte}
    (hle : s.stageLen + bs.length ≤ fieldLength s) (hsize : s.stageLen + bs.length ≤ inStageSize) :
    Inv { s with inStage := Memory.write s.inStage s.stageLen bs, stageLen := s.stageLen + bs.length } :=
  { h with
    otherSession := ⟨by simp [hd], h.otherSession.2⟩
    inStageForm := Memory.form_write h.inStageForm hsize
    staging := ⟨hle, Memory.writtenTo_write_end _ _ _ h.staging.2⟩ }

theorem loopKeeps_inv : LoopKeeps fun s => Inv s ∧ s.cfg.dir = .decompress where
  act hs hstatus h := by
    obtain ⟨hinv, hd⟩ := hs
    have hq := hinv.drained (statusDecompressor_eq_needInput.mp hstatus).2
    obtain ⟨-, hcfg, -⟩ := (fieldAction_sameOutside h).1
    exact ⟨fieldStep_inv hinv.clearStage hd hq rfl (fieldAction_step h), by rw [hcfg]; exact hd⟩
  stage _ hs hle hsize := ⟨hs.1.stage hs.2 hle hsize, hs.2⟩

/-! ### The compressor -/

theorem blockSizeCfg_bounds {s : State} (h : legalCfg s.cfg = true) : 2 ≤ blockSizeCfg s ∧ blockSizeCfg s ≤ 65536 := by
  simp only [legalCfg, Bool.and_eq_true, decide_eq_true_eq] at h
  have hk := h.1
  unfold blockSizeCfg blockSizeOf
  interval_cases s.cfg.k <;> omega

/-- The compressor may drop the block it holds. -/
theorem Inv.emptyBuffer {s : State} (h : Inv s) : Inv { s with bufLen := 0 } :=
  { h with
    otherSession := ⟨h.otherSession.1, fun hd => ⟨(h.otherSession.2 hd).1, rfl⟩⟩
    blockBuffer := ⟨blockSizeOf_pos _, nofun⟩ }

/-- A block queued from offset 0 after the file header, if that is due, leaves room for the Crc block (R148, R158). -/
theorem queueBlock_inv {s t : State} {r : BlockResult} {src : List Byte} (hq : queueBlock s r src = .ok t)
    (h : Inv { s with bufLen := 0 }) (hd : s.cfg.dir = .compress) (hopen : s.cphase = .opened)
    (hsrc : src.length ≤ blockSizeCfg s) (hr : ∀ p, r = .cmp p → p.length < src.length - 1) : Inv t := by
  obtain ⟨hle, rfl⟩ := queueBlock_eq_ok hq
  have hbounds := blockSizeCfg_bounds (s := s) h.cfgLegal
  have hframe := frame_length_le hsrc hbounds.1 hr
  have hheader := lazyHeader_length_le s
  have hstore : 0 + (lazyHeader s ++ frame r src (blockSizeCfg s)).length ≤ outBufSize s := by omega
  have hfile : s.fstate = .fileHeader := (h.otherSession.1 hd).1
  exact { h with
    outBufForm := Memory.form_write h.outBufForm hstore
    queue := ⟨Nat.zero_le _, hle, Memory.writtenTo_write_zero _ _⟩
    checksum := ckFold_mem_length h.checksum _
    terminalQueue := by simp [hfile, FState.terminal]
    completingQueue := by simp [hopen]
    completedQueue := by simp [hopen]
    headerFirst := nofun
    crcRoom := fun _ _ => by simp only [List.length_append, outCap]; omega }

/-- EMIT of at most a block's bytes in an open session; the block buffer may be full. -/
theorem emit_inv {s t : State} (he : emit s = .ok t) (h : Inv { s with bufLen := 0 }) (hd : s.cfg.dir = .compress)
    (hopen : s.cphase = .opened) (hlen : s.bufLen ≤ blockSizeCfg s) : Inv t := by
  obtain ⟨src, hsrc, hpay, hout⟩ := emit_eq_ok he
  have hstore : 0 + (compressBlock src s.cfg.tlReq s.cfg.oneByteRle).pay.length ≤ payCap := by omega
  have hcoded : Inv { s with
      bufLen := 0, work := (compressBlock src s.cfg.tlReq s.cfg.oneByteRle).work
      payBuf := Memory.write s.payBuf 0 (compressBlock src s.cfg.tlReq s.cfg.oneByteRle).pay } :=
    { h with payBufForm := Memory.form_write h.payBufForm hstore }
  obtain ⟨r, hr, hq⟩ | ⟨e, -, -, rfl⟩ := hout
  · have hread : src.length ≤ blockSizeCfg s := by rw [Memory.read_length hsrc]; exact hlen
    exact queueBlock_inv hq hcoded hd hopen hread fun p hp => compressBlock_cmp_length (hp ▸ hr)
  · exact { hcoded with
      otherSession := ⟨h.otherSession.1, by simp [hd]⟩
      completingQueue := nofun
      completedQueue := nofun
      crcRoom := fun _ => nofun }

section

variable {s : State} (h : Inv s) (hd : s.cfg.dir = .compress)

include h

/-- A compressor that takes input is open: Completing has bytes to offer. -/
theorem Inv.opened_of_needInput (hs : statusCompressor s = .needInput) : s.cphase = .opened := by
  obtain ⟨hfailed, hcompleted, hdrained⟩ := statusCompressor_eq_needInput.mp hs
  have hcompleting (hc : s.cphase = .completing) : False := by have := h.completingQueue hc; omega
  cases hc : s.cphase with
  | opened => rfl
  | completing => exact (hcompleting hc).elim
  | completed => exact absurd hc hcompleted
  | failed => exact absurd hc hfailed

include hd

theorem emitPending_inv (hs : statusCompressor s = .needInput) {t : State} (he : emitPending s = .ok t) : Inv t := by
  unfold emitPending at he
  split at he
  · exact emit_inv he h.emptyBuffer hd (h.opened_of_needInput hs) h.blockBuffer.1.le
  · cases he; exact h

/-- The Crc block goes behind what is queued. -/
theorem Inv.queueCrc {t : State} (hq : queueCrc s = .ok t) : Inv t := by
  obtain ⟨hle, rfl⟩ := queueCrc_eq_ok hq
  have hcrc : (crcBlockBytes (ckTrunc (ckHash s.ck))).length = 3 := by simp [crcBlockBytes, blkCrcBytes, be16Bytes]
  have hfile := (h.otherSession.1 hd).1
  have hpos := h.queue.1
  exact { h with
    otherSession := ⟨h.otherSession.1, by simp [hd]⟩
    outBufForm := Memory.form_write h.outBufForm hle
    queue := ⟨Nat.le_add_right_of_le hpos, hle, Memory.writtenTo_write_end _ _ _ h.queue.2.2⟩
    terminalQueue := by simp [hfile, FState.terminal]
    completingQueue := fun _ => by simp only [List.length_append, hcrc]; omega
    completedQueue := nofun
    headerFirst := nofun
    crcRoom := fun _ => nofun }

theorem completeStream_inv (hs : statusCompressor s = .needInput) {t : State} (hc : completeStream s = .ok t) :
    Inv t := by
  obtain ⟨u, hu, ⟨-, rfl⟩ | ⟨-, hcrc⟩⟩ := completeStream_eq_ok hc
  · exact emitPending_inv h hd hs hu
  · exact (emitPending_inv h hd hs hu).queueCrc (by rw [(emitPending_session hu).1, hd]) hcrc

theorem inputCompressor_inv {bytes : List Byte} {n : Nat} {t : State} (hi : inputCompressor bytes s = .ok (n, t)) :
    Inv t := by
  obtain ⟨-, rfl⟩ | ⟨bs, hs, hle, hu⟩ := inputCompressor_eq_ok hi
  · exact h
  · have hform := Memory.form_write h.blockBufForm hle
    obtain ⟨hne, rfl⟩ | ⟨hfull, hemit⟩ := hu
    · exact { h with
        otherSession := ⟨h.otherSession.1, by simp [hd]⟩
        blockBufForm := hform
        blockBuffer := ⟨Nat.lt_of_le_of_ne hle hne, Memory.writtenTo_write_end _ _ _ h.blockBuffer.2⟩ }
    · have hheld : Inv { s with blockBuf := Memory.write s.blockBuf s.bufLen bs, bufLen := 0 } :=
        { h.emptyBuffer with blockBufForm := hform, blockBuffer := ⟨blockSizeOf_pos _, nofun⟩ }
      exact emit_inv hemit hheld hd (h.opened_of_needInput hs) hle

end

/-! ### Every instruction and every step -/

theorem offer_inv {s t : State} (h : Inv s) {bytes : List Byte} {n : Nat} (ho : offer bytes s = .ok (n, t)) : Inv t := by
  unfold offer at ho
  split at ho
  · exact (inputLoop_keeps loopKeeps_inv ⟨h, ‹_›⟩ ho).1
  · exact inputCompressor_inv h ‹_› ho

theorem Effect.inv {i : Instr} {s t : State} (h : Inv s) (he : Effect i s t) : Inv t := by
  cases he with
  | unit hi hf => exact h.unitFrame hf
  | answer r => exact h.reply r
  | configure hi hc => exact (inv_sessionReset hc).reply _
  | reset hi => exact (inv_sessionReset h.cfgLegal).reply _
  | input ho => exact (offer_inv h ho).reply _
  | retire hn r => exact (h.retire hn).reply r
  | flush hd hs hu => exact (emitPending_inv h hd hs hu).reply _
  | complete hd hs hu => exact (completeStream_inv h hd hs hu).reply _
  | truncate hd hs =>
    exact (h.enterFatal hd (h.drained (statusDecompressor_eq_needInput.mp hs).2) rfl _).reply _

/-- A step idles, executes an instruction, or answers a command code that has no meaning. -/
theorem step_cases {s t : State} (h : step s = .next t) :
    t = s ∨ ∃ rest, (∃ i, exec i { s with pending := rest } = .next t) ∨
      t = { s with pending := rest }.reply (.error .argCommand) := by
  unfold step at h
  split at h
  · cases h; exact .inl rfl
  · rename_i p rest _
    refine .inr ⟨rest, ?_⟩
    split at h
    · exact .inl ⟨_, h⟩
    · cases h; exact .inr rfl
    · split at h
      · exact .inl ⟨.setinput _, h⟩
      · cases h

/-- Settles O56: a step is one of the effects of an instruction, and each keeps the legal states. -/
theorem stepKeepsInv : Obligations.StepKeepsInv := by
  intro s t h hstep
  obtain rfl | ⟨rest, ⟨i, hi⟩ | rfl⟩ := step_cases hstep
  · exact h
  · exact (exec_effect hi).inv (h.withPending rest)
  · exact (h.withPending rest).reply _

end Sys2Proof.Machine
end

section
/-! What one step answers, case by case (20_memory.md R38), and which packets can miss as an unused command code. -/

namespace Sys2Proof

/-! ### A decoder error is `commandCode` for a command alone -/

/-- A sequence misses as its first part, or as what follows it. -/
theorem bind_eq_error_iff {ε α β : Type} {x : Except ε α} {f : α → Except ε β} {e : ε} :
    (x >>= f) = .error e ↔ x = .error e ∨ ∃ a, x = .ok a ∧ f a = .error e := by
  cases x <;> simp [bind, Except.bind]

@[simp] theorem asBits_ne_commandCode (w n : Nat) : asBits w n ≠ .error .commandCode := by
  unfold asBits; split <;> nofun

@[simp] theorem fits_ne_commandCode (w n : Nat) : fits w n ≠ .error .commandCode := by
  unfold fits; split <;> nofun

@[simp] theorem asCounts_ne_commandCode (l : List Nat) : asCounts l ≠ .error .commandCode := by
  unfold asCounts; split <;> nofun

@[simp] theorem asWeights_ne_commandCode (l : List Int) : asWeights l ≠ .error .commandCode := by
  unfold asWeights; split <;> nofun

@[simp] theorem asFlag_ne_commandCode (n : Nat) : asFlag n ≠ .error .commandCode := by
  unfold asFlag; split
  · nofun
  · split <;> nofun

theorem decodeFileHeader_ne_commandCode (bytes : List Byte) : decodeFileHeader bytes ≠ .error .commandCode := by
  unfold decodeFileHeader; split <;> nofun

/-- A block element misses by its length only (R51). -/
theorem decodeBlock_ne_commandCode (bytes : List Byte) : decodeBlock bytes ≠ .error .commandCode := by
  cases bytes with
  | nil => nofun
  | cons h rest =>
    cases hform : blockForm h with
    | rawF => simp [decodeBlock, hform]
    | cmp | cmpF | raw =>
      simp only [decodeBlock, hform]
      split
      · split <;> nofun
      · nofun
    | rle | rleF | crc => simp only [decodeBlock, hform]; split <;> nofun

/-- A unit operation misses by its number or by the width of an operand. -/
theorem decodeUnit_ne_commandCode (code : Byte) (o : Operands) : decodeUnit code o ≠ .error .commandCode := by
  unfold decodeUnit
  split <;> simp [bind_eq_error_iff]

theorem command_of_decode_commandCode {p : Packet} (h : decode p = .error .commandCode) :
    ∃ code ops, p = .command code ops := by
  cases p with
  | fileHeader bytes => exact absurd h (decodeFileHeader_ne_commandCode bytes)
  | block bytes => exact absurd h (decodeBlock_ne_commandCode bytes)
  | command code ops => exact ⟨code, ops, rfl⟩
  | unitOp code ops => exact absurd h (decodeUnit_ne_commandCode code ops)
  | drain => cases h

end Sys2Proof

namespace Sys2Proof.Machine

/-! ### The cases of a step -/

theorem step_of_pending_nil {s : State} (hp : s.pending = []) : step s = .next s := by
  simp only [step, hp]

section

variable {s : State} {p : Packet} {rest : List Packet} (hp : s.pending = p :: rest)
include hp

theorem step_of_decode_ok {i : Instr} (h : decode p = .ok i) : step s = exec i { s with pending := rest } := by
  simp only [step, hp, h]

theorem step_of_commandCode (h : decode p = .error .commandCode) :
    step s = argError { s with pending := rest } .argCommand := by
  simp only [step, hp, h]

theorem step_of_streamBytes {e : DecodeError} {bytes : List Byte} (h : decode p = .error e)
    (hb : p.streamBytes = some bytes) : step s = exec (.setinput bytes) { s with pending := rest } := by
  have he : e ≠ .commandCode := by
    rintro rfl
    obtain ⟨code, ops, rfl⟩ := command_of_decode_commandCode h
    cases hb
  cases e with
  | commandCode => exact absurd rfl he
  | _ => simp only [step, hp, h, hb]; rfl

theorem step_of_undecodable {e : DecodeError} (h : decode p = .error e) (he : e ≠ .commandCode)
    (hb : p.streamBytes = none) : step s = .refused (.undecodable e) := by
  cases e with
  | commandCode => exact absurd rfl he
  | _ => simp only [step, hp, h, hb]

end

/-- Settles O54: each clause is one case of `step`; bytes of the stream and unit operations never miss as an unused
command code, so they fall under the case of their kind. -/
theorem stepRunsTheDecodedInstruction : Obligations.StepRunsTheDecodedInstruction := by
  intro s
  refine ⟨step_of_pending_nil, fun p rest hp => ⟨fun i => step_of_decode_ok hp, ?_, ?_, ?_⟩⟩
  · rintro e bytes h (rfl | rfl) <;> exact step_of_streamBytes hp h rfl
  · rintro e code ops h rfl
    split
    · subst e; exact step_of_commandCode hp h
    · exact step_of_undecodable hp h ‹_› rfl
  · rintro e code ops h rfl
    have he : e ≠ .commandCode := fun he => decodeUnit_ne_commandCode code ops (he ▸ h)
    exact step_of_undecodable hp h he rfl

end Sys2Proof.Machine
end

section
/-! The encoding (30_encoding.md): the header byte and its fields, what each operand check answers on a value that has the
bits, and that the decoder and the encoder undo each other. -/

namespace Sys2Proof

/-! ### The header byte (R42, R43, R47, R53) -/

/-- The first header byte of a form's range: its type in bits 7..6, its full-size flag in bit 5 (R42, R53). -/
def BlockForm.first : BlockForm → Nat
  | .cmp => 0x00
  | .cmpF => 0x20
  | .raw => 0x40
  | .rawF => 0x60
  | .rle => 0x80
  | .rleF => 0xA0
  | .crc => 0xC0

/-- The first number above a form's range (R53). -/
def BlockForm.bound : BlockForm → Nat
  | .crc => 0x100
  | f => f.first + 0x20

theorem blockForm_eq_iff (h : Byte) (f : BlockForm) : blockForm h = f ↔ f.first ≤ h.toNat ∧ h.toNat < f.bound := by
  have hlt : h.toNat < 256 := h.isLt
  unfold blockForm
  cases f
  all_goals
    simp only [BlockForm.first, BlockForm.bound]
    split_ifs <;> simp <;> omega

theorem headerByte_toNat (type : BitVec 2) (full : Bool) (reserved : BitVec 5) :
    (headerByte type full reserved).toNat = type.toNat * 64 + full.toNat * 32 + reserved.toNat := by
  revert type full reserved; decide

theorem crcHeaderByte_toNat (hi : BitVec 6) : (crcHeaderByte hi).toNat = 0xC0 + hi.toNat := by
  revert hi; decide

@[simp] theorem reservedOf_headerByte (type : BitVec 2) (full : Bool) (reserved : BitVec 5) :
    reservedOf (headerByte type full reserved) = reserved :=
  (BitVec.extractLsb'_append_eq_of_add_le (by decide)).trans BitVec.extractLsb'_append_eq_right

@[simp] theorem crcHi6Of_crcHeaderByte (hi : BitVec 6) : crcHi6Of (crcHeaderByte hi) = hi :=
  BitVec.extractLsb'_append_eq_right

@[simp] theorem blockForm_crcHeaderByte (hi : BitVec 6) : blockForm (crcHeaderByte hi) = .crc := by
  have hr : hi.toNat < 64 := hi.isLt
  rw [blockForm_eq_iff, crcHeaderByte_toNat]
  simp only [BlockForm.first, BlockForm.bound]
  omega

theorem crcHeaderByte_crcHi6Of {h : Byte} (hform : blockForm h = .crc) : crcHeaderByte (crcHi6Of h) = h := by
  obtain ⟨hlo, hhi⟩ := (blockForm_eq_iff h .crc).mp hform
  simp only [BlockForm.first, BlockForm.bound] at hlo hhi
  apply BitVec.eq_of_toNat_eq
  rw [crcHeaderByte_toNat, crcHi6Of, BitVec.extractLsb'_toNat, Nat.shiftRight_zero]
  omega

section

/-! `f` is a form other than Crc, `type` and `full` are its type and flag. -/
variable {type : BitVec 2} {full : Bool} {f : BlockForm} (hf : f.first = type.toNat * 64 + full.toNat * 32)
  (hb : f.bound = f.first + 0x20)
include hf hb

theorem blockForm_headerByte (reserved : BitVec 5) : blockForm (headerByte type full reserved) = f := by
  have hr : reserved.toNat < 32 := reserved.isLt
  rw [blockForm_eq_iff, headerByte_toNat]
  omega

theorem headerByte_reservedOf {h : Byte} (hform : blockForm h = f) : headerByte type full (reservedOf h) = h := by
  obtain ⟨hlo, hhi⟩ := (blockForm_eq_iff h f).mp hform
  apply BitVec.eq_of_toNat_eq
  rw [headerByte_toNat, reservedOf, BitVec.extractLsb'_toNat, Nat.shiftRight_zero]
  omega

end

/-- Every byte is made up of its type, its flag and its reserved bits (R42). -/
theorem headerByte_fields : ∀ h : Byte,
    headerByte (BitVec.ofNat 2 (h.toNat / 64)) (Machine.fullFlagOf h) (reservedOf h) = h := by
  decide

/-! ### Byte order (00_scope.md R6) -/

@[simp] theorem be16Bytes_be16 (b0 b1 : Byte) : be16Bytes (be16 b0 b1) = [b0, b1] :=
  congrArg₂ (fun x y => [x, y]) BitVec.extractLsb'_append_eq_left BitVec.extractLsb'_append_eq_right

@[simp] theorem le32Bytes_le32 (b0 b1 b2 b3 : Byte) : le32Bytes (le32 b0 b1 b2 b3) = [b0, b1, b2, b3] := by
  have h0 : (le32 b0 b1 b2 b3).extractLsb' 0 8 = b0 :=
    (BitVec.extractLsb'_append_eq_of_add_le (by decide)).trans <|
      (BitVec.extractLsb'_append_eq_of_add_le (by decide)).trans BitVec.extractLsb'_append_eq_right
  have h1 : (le32 b0 b1 b2 b3).extractLsb' 8 8 = b1 :=
    (BitVec.extractLsb'_append_eq_of_add_le (by decide)).trans <|
      (BitVec.extractLsb'_append_eq_of_add_le (by decide)).trans BitVec.extractLsb'_append_eq_left
  have h2 : (le32 b0 b1 b2 b3).extractLsb' 16 8 = b2 :=
    (BitVec.extractLsb'_append_eq_of_add_le (by decide)).trans BitVec.extractLsb'_append_eq_left
  have h3 : (le32 b0 b1 b2 b3).extractLsb' 24 8 = b3 := BitVec.extractLsb'_append_eq_left
  rw [le32Bytes, h0, h1, h2, h3]

/-! ### Operand checks, on values that have the bits (log 15) -/

@[simp] theorem ok_bind {ε α β : Type} (a : α) (f : α → Except ε β) : (Except.ok a >>= f) = f a := rfl

@[simp] theorem asBits_toNat {w : Nat} (x : BitVec w) : asBits w x.toNat = .ok x := by
  simp [asBits, x.isLt]

@[simp] theorem asFlag_flagNum (b : Bool) : asFlag (flagNum b) = .ok b := by cases b <;> rfl

theorem fits_of_lt {w n : Nat} (h : n < 2 ^ w) : fits w n = .ok n := if_pos h

theorem fits_four_of_isTableLog {tl : Nat} (h : isTableLog tl = true) : fits 4 tl = .ok tl := by
  simp only [isTableLog, decide_eq_true_eq] at h
  exact fits_of_lt (by omega)

theorem asWeights_of_isWeights {norm : List Int} {msv : Nat} (h : isWeights norm msv = true) :
    asWeights norm = .ok norm := by
  simp only [isWeights, Bool.and_eq_true, List.all_eq_true, decide_eq_true_eq] at h
  obtain ⟨-, hall⟩ := h
  refine if_pos (List.all_eq_true.mpr fun w hw => decide_eq_true ?_)
  have := hall w hw
  omega

theorem fits_eight_of_isWeights {norm : List Int} {msv : Nat} (h : isWeights norm msv = true) :
    fits 8 msv = .ok msv := by
  simp only [isWeights, Bool.and_eq_true, decide_eq_true_eq] at h
  obtain ⟨⟨-, hmsv⟩, -⟩ := h
  exact fits_of_lt (by omega)

/-- A count is at most the total, which has 17 bits. -/
theorem asCounts_of_isCounts {count : List Nat} {total msv : Nat} (h : isCounts count total msv = true) :
    asCounts count = .ok count := by
  simp only [isCounts, Bool.and_eq_true, decide_eq_true_eq] at h
  obtain ⟨⟨-, -, htotal⟩, hsum⟩ := h
  refine if_pos (List.all_eq_true.mpr fun c hc => decide_eq_true ?_)
  have := List.le_sum_of_mem hc
  omega

theorem fits_eight_of_isCounts {count : List Nat} {total msv : Nat} (h : isCounts count total msv = true) :
    fits 8 msv = .ok msv := by
  simp only [isCounts, Bool.and_eq_true, decide_eq_true_eq] at h
  obtain ⟨⟨⟨-, hmsv⟩, -⟩, -⟩ := h
  exact fits_of_lt (by omega)

/-! ### The bytes of an element decode to it -/

theorem decodeFileHeader_fhdrBytes (tag : U32) (k : Byte) : decodeFileHeader (fhdrBytes tag k) = .ok (.fhdr tag k) := by
  simp only [fhdrBytes, le32Bytes, List.cons_append, List.nil_append, decodeFileHeader, le32_le32Bytes]

theorem decodeBlock_blkCmpBytes (r : BitVec 5) (raw c : BitVec 16) {p : List Byte} (h : p.length = c.toNat) :
    decodeBlock (blkCmpBytes r raw c p) = .ok (.blkCmp r raw c p) := by
  have hform : blockForm (headerByte 0 false r) = .cmp := blockForm_headerByte rfl rfl r
  simp only [blkCmpBytes, be16Bytes, List.cons_append, List.nil_append, decodeBlock, hform, reservedOf_headerByte,
    be16_be16Bytes, if_pos h]

theorem decodeBlock_blkCmpFBytes (r : BitVec 5) (c : BitVec 16) {p : List Byte} (h : p.length = c.toNat) :
    decodeBlock (blkCmpFBytes r c p) = .ok (.blkCmpF r c p) := by
  have hform : blockForm (headerByte 0 true r) = .cmpF := blockForm_headerByte rfl rfl r
  simp only [blkCmpFBytes, be16Bytes, List.cons_append, List.nil_append, decodeBlock, hform, reservedOf_headerByte,
    be16_be16Bytes, if_pos h]

theorem decodeBlock_blkRawBytes (r : BitVec 5) (raw : BitVec 16) {d : List Byte} (h : d.length = raw.toNat) :
    decodeBlock (blkRawBytes r raw d) = .ok (.blkRaw r raw d) := by
  have hform : blockForm (headerByte 1 false r) = .raw := blockForm_headerByte rfl rfl r
  simp only [blkRawBytes, be16Bytes, List.cons_append, List.nil_append, decodeBlock, hform, reservedOf_headerByte,
    be16_be16Bytes, if_pos h]

theorem decodeBlock_blkRawFBytes (r : BitVec 5) (d : List Byte) :
    decodeBlock (blkRawFBytes r d) = .ok (.blkRawF r d) := by
  have hform : blockForm (headerByte 1 true r) = .rawF := blockForm_headerByte rfl rfl r
  simp only [blkRawFBytes, decodeBlock, hform, reservedOf_headerByte]

theorem decodeBlock_blkRleBytes (r : BitVec 5) (raw : BitVec 16) (b : Byte) :
    decodeBlock (blkRleBytes r raw b) = .ok (.blkRle r raw b) := by
  have hform : blockForm (headerByte 2 false r) = .rle := blockForm_headerByte rfl rfl r
  simp only [blkRleBytes, be16Bytes, List.cons_append, List.nil_append, decodeBlock, hform, reservedOf_headerByte,
    be16_be16Bytes]

theorem decodeBlock_blkRleFBytes (r : BitVec 5) (b : Byte) :
    decodeBlock (blkRleFBytes r b) = .ok (.blkRleF r b) := by
  have hform : blockForm (headerByte 2 true r) = .rleF := blockForm_headerByte rfl rfl r
  simp only [blkRleFBytes, decodeBlock, hform, reservedOf_headerByte]

theorem decodeBlock_blkCrcBytes (hi : BitVec 6) (lo : BitVec 16) :
    decodeBlock (blkCrcBytes hi lo) = .ok (.blkCrc hi lo) := by
  simp only [blkCrcBytes, be16Bytes, decodeBlock, blockForm_crcHeaderByte, crcHi6Of_crcHeaderByte, be16_be16Bytes]

/-! ### Codes with operands (R54, R55) -/

@[simp] theorem Operands.num_eq (o : Operands) (i : Nat) : o.num i = o.nums.getD i 0 := rfl

@[simp] theorem Operands.ofNums_nums (l : List Nat) : (Operands.ofNums l).nums = l := rfl

@[simp] theorem Operands.ofBytes_nums (b : List Byte) (l : List Nat) : (Operands.ofBytes b l).nums = l := rfl

@[simp] theorem Operands.ofBytes_bytes (b : List Byte) (l : List Nat) : (Operands.ofBytes b l).bytes = b := rfl

@[simp] theorem Operands.ofInts_nums (w : List Int) (l : List Nat) : (Operands.ofInts w l).nums = l := rfl

@[simp] theorem Operands.ofInts_ints (w : List Int) (l : List Nat) : (Operands.ofInts w l).ints = w := rfl

/-- Settles O51: a wire element by the lemma of its bytes; a command or unit operation whose decoder checks nothing by
evaluation; the others because every check answers the operand it is given. -/
theorem decodeOfEncode : Obligations.DecodeOfEncode := by
  intro i hwf
  cases i with
  | fhdr tag k => exact decodeFileHeader_fhdrBytes tag k
  | blkCmp r raw c p => exact decodeBlock_blkCmpBytes r raw c (of_decide_eq_true hwf)
  | blkCmpF r c p => exact decodeBlock_blkCmpFBytes r c (of_decide_eq_true hwf)
  | blkRaw r raw d => exact decodeBlock_blkRawBytes r raw (of_decide_eq_true hwf)
  | blkRawF r d => exact decodeBlock_blkRawFBytes r d
  | blkRle r raw b => exact decodeBlock_blkRleBytes r raw b
  | blkRleF r b => exact decodeBlock_blkRleFBytes r b
  | blkCrc hi lo => exact decodeBlock_blkCrcBytes hi lo
  | configure | setinput | state | output | flush | complete | reset | need | errcause | drain => rfl
  | bwInit | bwFlush | bwClose | brInit | brRead | brPeek | brSkip | normMinlog | normOptlog | ncRead | fseEncode
  | ckInit | ckUpdate | ckDigest => rfl
  | advance n => simp [decode, encode, decodeCommand]
  | bwAdd | histCount | fseInitc | bcCompress | bcDecompress | ckTrunc22 => simp [decode, encode, decodeUnit]
  | normNormalize =>
    simp [decode, encode, decodeUnit, asCounts_of_isCounts hwf, fits_eight_of_isCounts hwf]
  | normM2 =>
    simp only [WellFormed, Bool.and_eq_true] at hwf
    obtain ⟨⟨htl, hcounts⟩, -⟩ := hwf
    simp [decode, encode, decodeUnit, fits_four_of_isTableLog htl, asCounts_of_isCounts hcounts,
      fits_eight_of_isCounts hcounts]
  | ncWrite => simp [decode, encode, decodeUnit, asWeights_of_isWeights hwf, fits_eight_of_isWeights hwf]
  | tbSpread | tbCtable | tbDtable =>
    simp only [WellFormed, Bool.and_eq_true] at hwf
    obtain ⟨htl, hweights⟩ := hwf
    simp [decode, encode, decodeUnit, fits_four_of_isTableLog htl, asWeights_of_isWeights hweights,
      fits_eight_of_isWeights hweights]
  | fseEncsym => simp [decode, encode, decodeUnit, fits_of_lt (w := 16) (of_decide_eq_true hwf)]
  | fseInitd => simp [decode, encode, decodeUnit, fits_four_of_isTableLog hwf]
  | fseDecsym => simp [decode, encode, decodeUnit, fits_of_lt (w := 15) (of_decide_eq_true hwf)]
  | fseDecode =>
    obtain ⟨htl, -⟩ := Bool.and_eq_true_iff.mp hwf
    simp [decode, encode, decodeUnit, fits_four_of_isTableLog htl]

/-! ### What bytes decode to encodes to the same bytes (R53) -/

theorem encode_of_decodeFileHeader {bytes : List Byte} {i : Instr} (h : decodeFileHeader bytes = .ok i) :
    encode i = .fileHeader bytes := by
  unfold decodeFileHeader at h
  split at h
  · cases h
    simp [encode, fhdrBytes]
  · cases h

theorem encode_of_decodeBlock {bytes : List Byte} {i : Instr} (h : decodeBlock bytes = .ok i) :
    encode i = .block bytes := by
  cases bytes with
  | nil => cases h
  | cons b rest =>
    cases hform : blockForm b <;> simp only [decodeBlock, hform] at h
    case cmp =>
      have hb : headerByte 0 false (reservedOf b) = b := headerByte_reservedOf rfl rfl hform
      split at h
      · split at h
        · cases h; simp only [encode, blkCmpBytes, hb, be16Bytes_be16, List.cons_append, List.nil_append]
        · cases h
      · cases h
    case cmpF =>
      have hb : headerByte 0 true (reservedOf b) = b := headerByte_reservedOf rfl rfl hform
      split at h
      · split at h
        · cases h; simp only [encode, blkCmpFBytes, hb, be16Bytes_be16, List.cons_append, List.nil_append]
        · cases h
      · cases h
    case raw =>
      have hb : headerByte 1 false (reservedOf b) = b := headerByte_reservedOf rfl rfl hform
      split at h
      · split at h
        · cases h; simp only [encode, blkRawBytes, hb, be16Bytes_be16, List.cons_append, List.nil_append]
        · cases h
      · cases h
    case rawF =>
      have hb : headerByte 1 true (reservedOf b) = b := headerByte_reservedOf rfl rfl hform
      cases h; simp only [encode, blkRawFBytes, hb]
    case rle =>
      have hb : headerByte 2 false (reservedOf b) = b := headerByte_reservedOf rfl rfl hform
      split at h
      · cases h; simp only [encode, blkRleBytes, hb, be16Bytes_be16, List.cons_append, List.nil_append]
      · cases h
    case rleF =>
      have hb : headerByte 2 true (reservedOf b) = b := headerByte_reservedOf rfl rfl hform
      split at h
      · cases h; simp only [encode, blkRleFBytes, hb]
      · cases h
    case crc =>
      split at h
      · cases h; simp only [encode, blkCrcBytes, crcHeaderByte_crcHi6Of hform, be16Bytes_be16]
      · cases h

/-- Settles O52: the ranges are those of `blockForm_eq_iff`, and each form's bytes are made up of the fields read from
them. -/
theorem wireBytesHaveOneMeaning : Obligations.WireBytesHaveOneMeaning := by
  refine ⟨fun h => ?_, fun bytes i => ⟨encode_of_decodeBlock, encode_of_decodeFileHeader⟩⟩
  have hlt : h.toNat < 256 := h.isLt
  refine ⟨?_, ?_, ?_, ?_, ?_, ?_, ?_, fun _ => headerByte_fields h, crcHeaderByte_crcHi6Of⟩
  all_goals simp [blockForm_eq_iff, BlockForm.first, BlockForm.bound, hlt]

/-- Settles O53: the decoder run on each word. -/
theorem sampleWordsDecode : Obligations.SampleWordsDecode := by
  unfold Obligations.SampleWordsDecode
  decide

end Sys2Proof
end

section
/-! Elements of the stream are their bytes (log 5); what OUTPUT, ADVANCE and DRAIN answer where the queue is written (R58). -/

namespace Sys2Proof.Machine

/-! ### Elements of the stream (log 5) -/

/-- Only the eight wire elements encode to bytes of the stream, and each of them offers its bytes. -/
theorem exec_of_encode_streamBytes {i : Instr} {bytes : List Byte} (h : (encode i).streamBytes = some bytes) (s : State) :
    exec i s = exec (.setinput bytes) s := by
  cases i with
  | fhdr | blkCmp | blkCmpF | blkRaw | blkRawF | blkRle | blkRleF | blkCrc => cases h; rfl
  | _ => cases h

/-- Settles O17. -/
theorem wireElementIsItsBytes : Obligations.WireElementIsItsBytes := by
  rintro i bytes s (h | h) <;> exact exec_of_encode_streamBytes (by rw [h]; rfl) s

/-! ### OUTPUT, ADVANCE and DRAIN (R58) -/

theorem retire_of_decompress {s : State} (hd : s.cfg.dir = .decompress) (n : Nat) :
    retire s n = { s with outPos := s.outPos + n } := by
  simp only [retire, hd]

theorem retire_of_compress {s : State} (hd : s.cfg.dir = .compress) (n : Nat) :
    retire s n = { s with
      outPos := s.outPos + n
      cphase := if s.outPos + n = s.outLen ∧ s.cphase = .completing then .completed else s.cphase } := by
  simp only [retire, hd]
  split <;> rfl

@[simp] theorem retire_outPos (s : State) (n : Nat) : (retire s n).outPos = s.outPos + n := by
  cases hd : s.cfg.dir
  · rw [retire_of_compress hd]
  · rw [retire_of_decompress hd]

@[simp] theorem retire_outLen (s : State) (n : Nat) : (retire s n).outLen = s.outLen := by
  cases hd : s.cfg.dir
  · rw [retire_of_compress hd]
  · rw [retire_of_decompress hd]

@[simp] theorem retire_reply (s : State) (n : Nat) (r : Result) : retire (s.reply r) n = (retire s n).reply r := by
  cases hd : s.cfg.dir
  · rw [retire_of_compress hd, retire_of_compress (s := s.reply r) hd]; rfl
  · rw [retire_of_decompress hd, retire_of_decompress (s := s.reply r) hd]; rfl

section

variable {s : State} (hc : s.configured = true)
include hc

theorem exec_output_of_readyBytes {bs : List Byte} (h : readyBytes s = .ok bs) :
    exec .output s = .next (s.reply (.bytes bs)) := by
  simp only [exec, execOutput, whenConfigured_of_configured hc, h]; rfl

theorem exec_drain_of_readyBytes {bs : List Byte} (h : readyBytes s = .ok bs) :
    exec .drain s = .next ((retire s bs.length).reply (.bytes bs)) := by
  simp only [exec, execDrain, whenConfigured_of_configured hc, h]; rfl

theorem exec_advance_of_le {n : BitVec 17} (h : n.toNat ≤ readyLength s) :
    exec (.advance n) s = .next ((retire s n.toNat).reply .ok) := by
  simp only [exec, execAdvance, whenConfigured_of_configured hc, if_neg (Nat.not_lt.mpr h)]

end

/-- Settles O4: the ready bytes are read once, and retiring them does not look at the result port; their number fits
ADVANCE's 17 bits. -/
theorem drainIsOutputThenAdvance : Obligations.DrainIsOutputThenAdvance := by
  intro s hc hwf hle hlt hw
  have hend : s.outPos + readyLength s = s.outLen := Nat.add_sub_cancel' hle
  obtain ⟨bs, hread, hlen, -⟩ := Memory.read_of_writtenTo s.outBuf s.outPos (readyLength s) hwf (by rwa [hend])
  have hn : (BitVec.ofNat 17 bs.length).toNat = bs.length := by
    rw [BitVec.toNat_ofNat]; exact Nat.mod_eq_of_lt (by omega)
  refine ⟨bs, (retire s bs.length).reply .ok, exec_output_of_readyBytes hc hread, ?_,
    exec_drain_of_readyBytes hc hread, ?_⟩
  · have hadv := exec_advance_of_le (s := s.reply (.bytes bs)) hc (hn.trans hlen).le
    rwa [hn, retire_reply, State.reply_reply] at hadv
  · rw [State.reply_outPos, State.reply_outLen, retire_outPos, retire_outLen, hlen, hend]

end Sys2Proof.Machine
end

section
/-! The bit stream (40_bitstream.md): the bits that BW.* put into `W` and those that BR.* find in a byte sequence. -/

namespace Sys2Proof.Machine

/-! ### Writer (R60 to R64) -/

@[simp] theorem Writer.put_len (wr : Writer) (v n : Nat) : (wr.put v n).w.len = wr.w.len + n := rfl
@[simp] theorem Writer.put_wcap (wr : Writer) (v n : Nat) : (wr.put v n).wcap = wr.wcap := rfl
@[simp] theorem writerClose_wcap (wr : Writer) : (writerClose wr).wcap = wr.wcap := rfl

theorem Writer.put_ovf (wr : Writer) (v n : Nat) :
    (wr.put v n).ovf = true ↔ wr.ovf = true ∨ wr.wcap < (wr.w.len + n + 7) / 8 :=
  Bool.or_eq_true_iff.trans (or_congr_right decide_eq_true_iff)

theorem Writer.put_bit (wr : Writer) (v n j : Nat) :
    (wr.put v n).w.bit j =
      if j < wr.w.len then wr.w.bit j else decide (j < wr.w.len + n) && v.testBit (j - wr.w.len) :=
  wr.w.append_bit v n j

/-- A closed writer holds whole bytes: one more than the full bytes of `W`. -/
theorem writerClose_len (wr : Writer) : (writerClose wr).w.len = 8 * (wr.w.len / 8 + 1) := by
  simp only [writerClose, Bits.append_len]
  omega

theorem writerClose_bytes_length (wr : Writer) : (writerClose wr).bytes.length = wr.w.len / 8 + 1 := by
  rw [Writer.bytes, Bits.toBytes_length, writerClose_len]
  omega

theorem writerClose_ovf (wr : Writer) :
    (writerClose wr).ovf = true ↔ wr.ovf = true ∨ wr.wcap < (writerClose wr).bytes.length := by
  have hlen : (writerClose wr).w.len / 8 = wr.w.len / 8 + 1 := by rw [writerClose_len]; omega
  rw [writerClose_bytes_length, ← hlen]
  exact Bool.or_eq_true_iff.trans (or_congr_right decide_eq_true_iff)

/-- The bits of a closed writer: those of `W`, the end mark and no other set bit (R63). -/
theorem writerClose_bit (wr : Writer) (j : Nat) :
    (writerClose wr).w.bit j = if j < wr.w.len then wr.w.bit j else decide (j = wr.w.len) := by
  simp only [writerClose, Bits.append_bit, Bits.append_len, Nat.zero_testBit, Bool.and_false]
  rcases Nat.lt_trichotomy j wr.w.len with h | rfl | h
  · simp [h, show j < wr.w.len + 1 by omega]
  · simp
  · simp [show ¬j < wr.w.len by omega, show ¬j < wr.w.len + 1 by omega, show j ≠ wr.w.len by omega]

theorem writerClose_bytes_bit (wr : Writer) (j : Nat) :
    (Bits.ofBytes (writerClose wr).bytes).bit j = (writerClose wr).w.bit j :=
  Bits.ofBytes_toBytes_bit _ j

theorem exec_bwInit (cap : Nat) (s : State) :
    exec (.bwInit cap) s = .next { s with work := { s.work with writer := writerInit cap }, result := .ok } := rfl

theorem exec_bwAdd_of_le {width : Nat} (h : width ≤ 32) (value : U32) (s : State) :
    exec (.bwAdd value width) s = .next { s with
      work := { s.work with writer := s.work.writer.put value.toNat width }, result := .ok } := by
  simp only [exec, execBwAdd, writerAdd_of_le h]
  rfl

theorem exec_bwAdd_of_lt {width : Nat} (h : 32 < width) (value : U32) (s : State) :
    exec (.bwAdd value width) s = .fault .widthAssertion := by
  simp only [exec, execBwAdd, writerAdd, if_neg (Nat.not_le.mpr h)]
  rfl

/-- The bytes that a capacity of `PayBuf`'s size or less takes end inside `PayBuf`. -/
theorem Writer.stored_fits {wr : Writer} (h : wr.wcap ≤ payCap) : wr.base + wr.stored.length ≤ payCap := by
  simp only [Writer.base, Writer.stored, List.length_take]
  omega

theorem exec_bwClose_of_le {s : State} (h : s.work.writer.wcap ≤ payCap) :
    exec .bwClose s = .next { s with
      work := { s.work with writer := writerClose s.work.writer }
      payBuf := Memory.write s.payBuf (payCap - s.work.writer.wcap)
        ((writerClose s.work.writer).bytes.take s.work.writer.wcap)
      result := .closed (writerClose s.work.writer).bytes (writerClose s.work.writer).ovf } := by
  simp only [exec, execBwClose, Memory.store_of_le s.payBuf (Writer.stored_fits (wr := writerClose s.work.writer) h)]
  rfl

/-- Settles O24. -/
theorem writerAppendsBits : Obligations.WriterAppendsBits := by
  intro s
  refine ⟨fun cap => ⟨_, exec_bwInit cap s, rfl, rfl, rfl⟩, fun value width h => ?_,
    fun value width h => exec_bwAdd_of_lt h value s, rfl⟩
  refine ⟨_, exec_bwAdd_of_le h value s, rfl, rfl, Writer.put_ovf _ _ _, fun j hj => ?_, fun j hj => ?_⟩
  · rw [Writer.put_bit, if_pos hj]
  · simp [Writer.put_bit, hj, BitVec.testBit_toNat]

/-- Settles O25. -/
theorem writerCloseGivesBytes : Obligations.WriterCloseGivesBytes := by
  intro s h
  refine ⟨_, _, exec_bwClose_of_le h, writerClose_bytes_length _, ?_, rfl, writerClose_ovf _,
    fun j _ => ⟨?_, writerClose_bit _ j⟩⟩
  · rw [writerClose_bytes_length, writerClose_len]
  · rw [← Bits.ofBytes_bit, writerClose_bytes_bit]

/-! ### Reader (R65 to R68) -/

theorem readerPeek_of_le {r : Reader} {n : Nat} (h : n ≤ r.p) : readerPeek r n = .ok (r.top n) := by
  simp [readerPeek, Nat.not_lt.mpr h]

theorem readerPeek_of_lt {r : Reader} {n : Nat} (h : r.p < n) : readerPeek r n = .error (.raise .streamExhausted) := by
  simp [readerPeek, h]

theorem readerSkip_of_le {r : Reader} {n : Nat} (h : n ≤ r.p) : readerSkip r n = .ok { r with p := r.p - n } := by
  simp [readerSkip, Nat.not_lt.mpr h]

theorem readerSkip_of_lt {r : Reader} {n : Nat} (h : r.p < n) : readerSkip r n = .error (.raise .streamExhausted) := by
  simp [readerSkip, h]

theorem Reader.top_testBit (r : Reader) (n i : Nat) :
    (r.top n).testBit i = (decide (i < n) && r.w.bit (r.p - n + i)) :=
  r.w.field_testBit _ n i

section

variable {s : State} {n : Nat}

theorem exec_brRead_of_le (h : n ≤ s.work.reader.p) :
    exec (.brRead n) s = .next { s with
      work := { s.work with reader := ⟨s.work.reader.w, s.work.reader.p - n⟩ }
      result := .value (s.work.reader.top n) } := by
  simp only [exec, execBrRead, readerRead_of_le h]; rfl

theorem exec_brPeek_of_le (h : n ≤ s.work.reader.p) :
    exec (.brPeek n) s = .next { s with result := .value (s.work.reader.top n) } := by
  simp only [exec, execBrPeek, readerPeek_of_le h]; rfl

theorem exec_brSkip_of_le (h : n ≤ s.work.reader.p) :
    exec (.brSkip n) s = .next { s with
      work := { s.work with reader := ⟨s.work.reader.w, s.work.reader.p - n⟩ }, result := .ok } := by
  simp only [exec, execBrSkip, readerSkip_of_le h]; rfl

/-- With too few unread bits READ, PEEK and SKIP raise the same code and leave `p`. -/
theorem exec_reader_of_lt (h : s.work.reader.p < n) :
    exec (.brRead n) s = .next { s with result := .error .streamExhausted } ∧
      exec (.brPeek n) s = .next { s with result := .error .streamExhausted } ∧
      exec (.brSkip n) s = .next { s with result := .error .streamExhausted } := by
  simp only [exec, execBrRead, execBrPeek, execBrSkip, readerRead_of_lt h, readerPeek_of_lt h, readerSkip_of_lt h]
  exact ⟨rfl, rfl, rfl⟩

end

/-- Settles O27. -/
theorem readerReadsFromTheEnd : Obligations.ReaderReadsFromTheEnd := fun n s =>
  ⟨exec_reader_of_lt, fun h =>
    ⟨_, s.work.reader.top_testBit n, exec_brRead_of_le h, exec_brPeek_of_le h, exec_brSkip_of_le h⟩⟩

/-- `w`'s highest set bit is bit `p`: the end mark of R65. -/
def Bits.endMark (w : Bits) (p : Nat) : Prop := w.bit p = true ∧ ∀ j, p < j → w.bit j = false

theorem Bits.endMark_unique {w : Bits} {p q : Nat} (hp : w.endMark p) (hq : w.endMark q) : p = q := by
  obtain ⟨hp, hpz⟩ := hp
  obtain ⟨hq, hqz⟩ := hq
  rcases Nat.lt_trichotomy p q with h | h | h
  · simp [hpz q h] at hq
  · exact h
  · simp [hqz p h] at hp

theorem ofBytes_append_singleton_bit (front : List Byte) (last : Byte) (i : Nat) :
    (Bits.ofBytes (front ++ [last])).bit (8 * front.length + i) = last.toNat.testBit i := by
  rw [Bits.ofBytes_bit]
  by_cases hi : i < 8
  · rw [show (8 * front.length + i) / 8 = front.length by omega, show (8 * front.length + i) % 8 = i by omega]
    simp [BitVec.testBit_toNat]
  · have hlast : last.toNat < 2 ^ i := last.isLt.trans_le (Nat.pow_le_pow_right (by omega) (by omega))
    rw [Nat.testBit_lt_two_pow hlast, List.getD_eq_default _ _ (by simp; omega)]
    simp

/-- A last byte other than 0 holds the end mark at its highest set bit. -/
theorem endMark_ofBytes_of_last_ne_zero (front : List Byte) {last : Byte} (h : last ≠ 0) :
    (Bits.ofBytes (front ++ [last])).endMark (8 * front.length + Nat.log2 last.toNat) := by
  have hne : last.toNat ≠ 0 := fun h0 => h (BitVec.eq_of_toNat_eq h0)
  refine ⟨by rw [ofBytes_append_singleton_bit, Nat.testBit_log2 hne], fun j hj => ?_⟩
  obtain ⟨i, rfl⟩ := Nat.exists_eq_add_of_le (show 8 * front.length ≤ j by omega)
  rw [ofBytes_append_singleton_bit]
  exact Nat.testBit_lt_two_pow (Nat.lt_log2_self.trans_le (Nat.pow_le_pow_right (by omega) (by omega)))

theorem readerInit_of_last_ne_zero (front : List Byte) {last : Byte} (h : last ≠ 0) :
    readerInit (front ++ [last])
      = .ok ⟨Bits.ofBytes (front ++ [last]), 8 * front.length + Nat.log2 last.toNat⟩ := by
  simp only [readerInit, List.getLast?_concat, if_neg h, List.length_append, List.length_singleton, Nat.add_sub_cancel]

theorem readerInit_of_last_zero (front : List Byte) :
    readerInit (front ++ [0]) = .error (.raise .streamNoSentinel) := by
  simp [readerInit]

theorem exec_brInit_of_ok {buf : List Byte} {r : Reader} (h : readerInit buf = .ok r) (s : State) :
    exec (.brInit buf) s = .next { s with work := { s.work with reader := r }, result := .ok } := by
  simp only [exec, execBrInit, h]
  rfl

/-- Settles O26. -/
theorem readerInitFindsEndMark : Obligations.ReaderInitFindsEndMark := by
  intro buf s
  refine ⟨?_, ?_, ?_⟩
  · rintro rfl
    rfl
  · rintro front rfl
    simp only [exec, execBrInit, readerInit_of_last_zero]
    rfl
  · rintro front last rfl h
    obtain ⟨hmark, hzero⟩ := endMark_ofBytes_of_last_ne_zero front h
    exact ⟨_, exec_brInit_of_ok (readerInit_of_last_ne_zero front h) s, rfl, Bits.ofBytes_bit _,
      Nat.le_add_right _ _, hmark, hzero⟩

end Sys2Proof.Machine
end

section
/-! The round trip of the bit stream (40_bitstream.md R69): an induction over the fields from the last one written, which is
the first one read. -/

namespace Sys2Proof.Machine

/-! ### Running a list of instructions -/

theorem results_cons {i : Instr} {is : List Instr} {s t u : State} {rs : List Result} (h : exec i s = .next t)
    (hs : results is t = some (rs, u)) : results (i :: is) s = some (t.result :: rs, u) := by
  simp [results, h, hs]

theorem results_append {is js : List Instr} {s t u : State} {rs rs' : List Result} (h : results is s = some (rs, t))
    (h' : results js t = some (rs', u)) : results (is ++ js) s = some (rs ++ rs', u) := by
  induction is generalizing s rs with
  | nil => cases h; exact h'
  | cons i is ih =>
    simp only [results] at h
    split at h
    · next v hv =>
      obtain ⟨⟨rs₁, t₁⟩, h₁, heq⟩ := Option.map_eq_some_iff.mp h
      cases heq
      exact results_cons hv (ih h₁)
    · cases h
    · cases h

/-! ### The fields written -/

/-- BW.ADD of each field in turn. -/
def Writer.putAll (wr : Writer) (fields : List (U32 × Nat)) : Writer :=
  fields.foldl (fun wr f => wr.put f.1.toNat f.2) wr

theorem Writer.putAll_concat (wr : Writer) (fields : List (U32 × Nat)) (f : U32 × Nat) :
    wr.putAll (fields ++ [f]) = (wr.putAll fields).put f.1.toNat f.2 := by
  simp [Writer.putAll]

@[simp] theorem Writer.putAll_wcap (wr : Writer) (fields : List (U32 × Nat)) : (wr.putAll fields).wcap = wr.wcap := by
  induction fields using List.reverseRecOn with
  | nil => rfl
  | append_singleton fields f ih => rw [Writer.putAll_concat, Writer.put_wcap, ih]

theorem Writer.putAll_len (wr : Writer) (fields : List (U32 × Nat)) :
    (wr.putAll fields).w.len = wr.w.len + (fields.map fun f => f.2).sum := by
  induction fields using List.reverseRecOn with
  | nil => rfl
  | append_singleton fields f ih =>
    rw [Writer.putAll_concat, Writer.put_len, ih]
    simp [Nat.add_assoc]

theorem results_bwAdd {fields : List (U32 × Nat)} (h : ∀ f ∈ fields, f.2 ≤ 32) (s : State) :
    ∃ rs t, results (fields.map fun f => .bwAdd f.1 f.2) s = some (rs, t) ∧
      t.work.writer = s.work.writer.putAll fields := by
  induction fields generalizing s with
  | nil => exact ⟨[], s, rfl, rfl⟩
  | cons f fields ih =>
    obtain ⟨hf, hfields⟩ := List.forall_mem_cons.mp h
    obtain ⟨rs, t, hrun, hwr⟩ := ih hfields _
    exact ⟨_, t, results_cons (exec_bwAdd_of_le hf f.1 s) hrun, hwr⟩

/-- BW.INIT, BW.ADD of each field and BW.CLOSE complete, and give the closed bytes of the fields. -/
theorem results_write {fields : List (U32 × Nat)} (h : ∀ f ∈ fields, f.2 ≤ 32) {cap : Nat} (hcap : cap ≤ payCap)
    (s : State) :
    ∃ rs t ovf, results (.bwInit cap :: (fields.map fun f => Instr.bwAdd f.1 f.2) ++ [.bwClose]) s = some (rs, t) ∧
      t.result = .closed (writerClose ((writerInit cap).putAll fields)).bytes ovf := by
  obtain ⟨rs, t, hadd, hwr⟩ := results_bwAdd h { s with work := { s.work with writer := writerInit cap }, result := .ok }
  have hclose := exec_bwClose_of_le (s := t) (by rw [hwr, Writer.putAll_wcap]; exact hcap)
  have hrun := results_append (results_cons (exec_bwInit cap s) hadd) (results_cons (is := []) hclose rfl)
  exact ⟨_, _, _, hrun, by rw [hwr]⟩

/-! ### The fields read back -/

/-- BR.INIT finds an end mark that stands in the last byte. -/
theorem readerInit_of_endMark {bs : List Byte} {p : Nat} (h : (Bits.ofBytes bs).endMark p) (hlen : bs.length = p / 8 + 1) :
    readerInit bs = .ok ⟨Bits.ofBytes bs, p⟩ := by
  obtain rfl | ⟨front, last, rfl⟩ := List.eq_nil_or_concat' bs
  · simp at hlen
  have hfront : front.length = p / 8 := by simpa using hlen
  have hlast : last ≠ 0 := by
    rintro rfl
    have hbit := ofBytes_append_singleton_bit front 0 (p % 8)
    rw [hfront, Nat.div_add_mod, h.1] at hbit
    simp at hbit
  rw [readerInit_of_last_ne_zero front hlast, Bits.endMark_unique (endMark_ofBytes_of_last_ne_zero front hlast) h]

theorem writerClose_endMark (wr : Writer) : (Bits.ofBytes (writerClose wr).bytes).endMark wr.w.len := by
  refine ⟨by simp [writerClose_bytes_bit, writerClose_bit], fun j hj => ?_⟩
  rw [writerClose_bytes_bit, writerClose_bit, if_neg (by omega)]
  simp [Nat.ne_of_gt hj]

/-- BR.INIT on a closed writer's bytes leaves every bit of `W` to read. -/
theorem exec_brInit_writerClose (wr : Writer) (s : State) :
    ∃ u, exec (.brInit (writerClose wr).bytes) s = .next u ∧
      u.work.reader = ⟨Bits.ofBytes (writerClose wr).bytes, wr.w.len⟩ :=
  ⟨_, exec_brInit_of_ok (readerInit_of_endMark (writerClose_endMark wr) (writerClose_bytes_length wr)) s, rfl⟩

/-- The `n` bits just below `p`, where they are those last put into `W`, are the low `n` bits of the value put. -/
theorem Reader.top_put {wr : Writer} {v n : Nat} {r : Reader} (hp : r.p = wr.w.len + n)
    (hbits : ∀ j, j < wr.w.len + n → r.w.bit j = (wr.put v n).w.bit j) : r.top n = v % 2 ^ n := by
  refine Nat.eq_of_testBit_eq fun i => ?_
  rw [Reader.top_testBit, Nat.testBit_mod_two_pow, hp, Nat.add_sub_cancel]
  by_cases hi : i < n
  · rw [hbits _ (by omega), Writer.put_bit]
    simp [hi]
  · simp [hi]

/-- A reader whose unread bits are those of the fields put into `wr` reads them back, the last one first, down to the bits
that `wr` held. -/
theorem results_brRead {fields : List (U32 × Nat)} {wr : Writer} {u : State}
    (hp : u.work.reader.p = (wr.putAll fields).w.len)
    (hbits : ∀ j, j < (wr.putAll fields).w.len → u.work.reader.w.bit j = (wr.putAll fields).w.bit j) :
    ∃ v, results (fields.reverse.map fun f => .brRead f.2) u
        = some (fields.reverse.map fun f => .value (f.1.toNat % 2 ^ f.2), v) ∧
      v.work.reader.p = wr.w.len := by
  induction fields using List.reverseRecOn generalizing u with
  | nil => exact ⟨u, rfl, hp⟩
  | append_singleton fields f ih =>
    rw [Writer.putAll_concat, Writer.put_len] at hp hbits
    have hread := exec_brRead_of_le (s := u) (n := f.2) (by omega)
    rw [Reader.top_put hp hbits, hp, Nat.add_sub_cancel] at hread
    obtain ⟨v, hrun, hv⟩ := ih (u := { u with
      work := { u.work with reader := ⟨u.work.reader.w, (wr.putAll fields).w.len⟩ }
      result := .value (f.1.toNat % 2 ^ f.2) }) rfl fun j hj => by
        rw [hbits j (by omega), Writer.put_bit, if_pos hj]
    refine ⟨v, ?_, hv⟩
    simp only [List.reverse_append, List.reverse_singleton, List.singleton_append, List.map_cons]
    exact results_cons hread hrun

/-- Settles O28, by induction over the fields from the last one written. -/
theorem writeThenReadBack : Obligations.WriteThenReadBack := by
  intro fields cap s hwidth hcap
  obtain ⟨rs, t, ovf, hwrite, hclosed⟩ := results_write (fun f hf => (hwidth f hf).trans (by decide)) hcap s
  obtain ⟨u, hinit, hreader⟩ := exec_brInit_writerClose ((writerInit cap).putAll fields) t
  obtain ⟨v, hread, hv⟩ := results_brRead (fields := fields) (wr := writerInit cap) (u := u) (by rw [hreader])
    fun j hj => by rw [hreader, writerClose_bytes_bit, writerClose_bit, if_pos hj]
  refine ⟨rs, _, ovf, t, u, v, hwrite, hclosed, hinit, ?_, hread, hv⟩
  rw [hreader, Writer.putAll_len]
  exact Nat.zero_add _

end Sys2Proof.Machine
end

section
/-! The accumulator writer (40_bitstream.md R62) holds the bit sequence in two parts, `AccWriter.bits`: a flush moves bits
from one to the other, an addition appends to the second. -/

namespace Sys2Proof.Machine

/-! ### Bit sequences as numbers -/

theorem leBytes_leNat (bs : List Byte) : leBytes bs.length (leNat bs) = bs := by
  induction bs with
  | nil => rfl
  | cons b bs ih =>
    have hb : b.toNat < 256 := b.isLt
    have hdiv : (b.toNat + 256 * leNat bs) / 256 = leNat bs := by omega
    have hmod : BitVec.ofNat 8 (b.toNat + 256 * leNat bs) = b := by
      apply BitVec.eq_of_toNat_eq
      rw [BitVec.toNat_ofNat]
      omega
    rw [List.length_cons, leNat, leBytes, hdiv, hmod, ih]

@[simp] theorem Bits.toBytes_ofBytes (bs : List Byte) : (Bits.ofBytes bs).toBytes = bs := by
  have hlt : leNat bs < 2 ^ (8 * bs.length) := by rw [Nat.pow_mul]; exact leNat_lt bs
  simp only [Bits.toBytes, Bits.ofBytes, Nat.mod_eq_of_lt hlt, show (8 * bs.length + 7) / 8 = bs.length by omega,
    leBytes_leNat]

theorem Bits.append_mod (w : Bits) (v n : Nat) : w.append (v % 2 ^ n) n = w.append v n := by
  simp [Bits.append]

theorem add_mul_two_pow_lt {a b m n : Nat} (ha : a < 2 ^ m) (hb : b < 2 ^ n) : a + b * 2 ^ m < 2 ^ (m + n) := by
  have hle : (b + 1) * 2 ^ m ≤ 2 ^ n * 2 ^ m := Nat.mul_le_mul_right _ hb
  rw [Nat.pow_add, Nat.mul_comm (2 ^ m)]
  linarith

/-- Two appends are one, of the second value above the first. -/
theorem Bits.append_append {v m : Nat} (h : v < 2 ^ m) (w : Bits) (v' n : Nat) :
    (w.append v m).append v' n = w.append (v + v' % 2 ^ n * 2 ^ m) (m + n) := by
  have hlow : w.val % 2 ^ w.len + v * 2 ^ w.len < 2 ^ (w.len + m) :=
    add_mul_two_pow_lt (Nat.mod_lt _ (by positivity)) h
  have hall : v + v' % 2 ^ n * 2 ^ m < 2 ^ (m + n) := add_mul_two_pow_lt h (Nat.mod_lt _ (by positivity))
  simp only [Bits.append, Nat.mod_eq_of_lt h, Nat.mod_eq_of_lt hlow, Nat.mod_eq_of_lt hall, Bits.mk.injEq]
  exact ⟨Nat.add_assoc _ _ _, by ring⟩

/-- A value appended in two pieces. -/
theorem Bits.append_split (w : Bits) (v m n : Nat) :
    (w.append v m).append (v / 2 ^ m) n = w.append v (m + n) := by
  rw [← Bits.append_mod w v m, Bits.append_append (Nat.mod_lt _ (by positivity)), ← Bits.append_mod w v (m + n),
    Nat.pow_add, Nat.mod_mul, Nat.mul_comm (2 ^ m)]

theorem Bits.ofBytes_append (p q : List Byte) :
    Bits.ofBytes (p ++ q) = (Bits.ofBytes p).append (leNat q) (8 * q.length) := by
  have hp : leNat p < 2 ^ (8 * p.length) := by rw [Nat.pow_mul]; exact leNat_lt p
  have hq : leNat q < 2 ^ (8 * q.length) := by rw [Nat.pow_mul]; exact leNat_lt q
  simp only [Bits.ofBytes, Bits.append, List.length_append, leNat_append, Nat.mod_eq_of_lt hp, Nat.mod_eq_of_lt hq,
    Bits.mk.injEq]
  exact ⟨Nat.mul_add _ _ _, by rw [Nat.pow_mul, Nat.mul_comm (leNat q)]⟩

theorem Bits.ofBytes_append_leBytes (p : List Byte) (m x : Nat) :
    Bits.ofBytes (p ++ leBytes m x) = (Bits.ofBytes p).append x (8 * m) := by
  rw [Bits.ofBytes_append, leNat_leBytes, leBytes_length, show (256 : Nat) ^ m = 2 ^ (8 * m) by rw [Nat.pow_mul],
    Bits.append_mod]

/-! ### The accumulator -/

/-- No bit of the accumulator is set at or above `bitPos`. -/
def AccWriter.filled (a : AccWriter) : Prop := a.acc < 2 ^ a.bitPos

theorem accFlush_filled {a : AccWriter} (h : a.filled) : (accFlush a).filled := by
  have hpos : a.bitPos = 8 * (a.bitPos / 8) + a.bitPos % 8 := by omega
  simp only [AccWriter.filled, accFlush] at *
  rw [Nat.div_lt_iff_lt_mul (by positivity), ← Nat.pow_add, Nat.add_comm, ← hpos]
  exact h

/-- The flush moves whole bytes and changes no bit (R62). -/
theorem accFlush_bits (a : AccWriter) : (accFlush a).bits = a.bits := by
  simp only [AccWriter.bits, accFlush, Bits.ofBytes_append_leBytes, Bits.append_split]
  rw [Nat.div_add_mod]

/-- `accAdd` with its flush done or not needed. -/
theorem accAdd_eq (a : AccWriter) (v n : Nat) :
    ∃ b, (b = a ∨ b = accFlush a) ∧
      accAdd a v n = { b with acc := b.acc + v % 2 ^ n * 2 ^ b.bitPos, bitPos := b.bitPos + n } := by
  unfold accAdd
  split
  · exact ⟨_, .inr rfl, rfl⟩
  · exact ⟨_, .inl rfl, rfl⟩

/-- BW.ADD on the accumulator appends to the bit sequence it stands for. -/
theorem accAdd_bits {a : AccWriter} (h : a.filled) (v n : Nat) :
    (accAdd a v n).filled ∧ (accAdd a v n).bits = a.bits.append v n := by
  obtain ⟨b, hb, heq⟩ := accAdd_eq a v n
  have hfilled : b.filled := by
    rcases hb with rfl | rfl
    · exact h
    · exact accFlush_filled h
  have hbits : b.bits = a.bits := by
    rcases hb with rfl | rfl
    · rfl
    · exact accFlush_bits a
  rw [heq, ← hbits]
  exact ⟨add_mul_two_pow_lt hfilled (Nat.mod_lt _ (by positivity)), (Bits.append_append hfilled _ v n).symm⟩

theorem accAdd_foldl_bits {a : AccWriter} {wr : Writer} (h : a.filled) (hbits : a.bits = wr.w) (fields : List (Nat × Nat)) :
    let a' := fields.foldl (fun a f => accAdd a f.1 f.2) a
    a'.filled ∧ a'.bits = (fields.foldl (fun wr f => wr.put f.1 f.2) wr).w := by
  induction fields generalizing a wr with
  | nil => exact ⟨h, hbits⟩
  | cons f fields ih =>
    obtain ⟨hfilled, hadd⟩ := accAdd_bits h f.1 f.2
    exact ih hfilled (by rw [hadd, hbits]; rfl)

/-- Closing the accumulator gives the bytes of closing the bit sequence it stands for (R63). -/
theorem accClose_eq {a : AccWriter} {wr : Writer} (h : a.filled) (hbits : a.bits = wr.w) :
    accClose a = (writerClose wr).bytes := by
  obtain ⟨hfilled, hadd⟩ := accAdd_bits h 1 1
  have hclose : accClose a = (accAdd a 1 1).dest ++ leBytes (((accAdd a 1 1).bitPos + 7) / 8) (accAdd a 1 1).acc := rfl
  generalize accAdd a 1 1 = b at *
  have hlen : b.bits.len = 8 * b.dest.length + b.bitPos := rfl
  have hpad : 8 * ((b.bitPos + 7) / 8) = b.bitPos + (8 - b.bits.len % 8) % 8 := by omega
  have hseq : Bits.ofBytes (accClose a) = (writerClose wr).w := by
    rw [hclose, Bits.ofBytes_append_leBytes, hpad]
    simp only [writerClose, ← hbits, ← hadd]
    rw [AccWriter.bits, Bits.append_append hfilled]
    simp
  rw [Writer.bytes, ← hseq, Bits.toBytes_ofBytes]

/-- Settles O29: the accumulator stands for the bit sequence before and after every addition. -/
theorem accumulatorWriterProducesSameBytes : Obligations.AccumulatorWriterProducesSameBytes := by
  intro fields cap _
  have hfilled : accInit.filled := Nat.one_pos
  have hbits : accInit.bits = (writerInit cap).w := rfl
  obtain ⟨hfilled, hbits⟩ := accAdd_foldl_bits hfilled hbits fields
  exact accClose_eq hfilled hbits

end Sys2Proof.Machine
end

section
/-! What each unit operation writes, by its rule's "State written": the working state, and beside it `PayBuf` or the
checksum for the operations that name them. -/

namespace Sys2Proof.Machine

/-- The operations whose rules store bytes in `PayBuf` (R63, 43_ncount.md R86, 45_block_codec.md R108, R113). -/
def storesPay : Instr → Bool
  | .bwClose | .ncWrite _ _ _ | .fseEncode _ _ _ | .bcCompress _ _ _ _ => true
  | _ => false

/-- The operations whose rules write the checksum (46_checksum.md R121, R122). -/
def writesChecksum : Instr → Bool
  | .ckInit | .ckUpdate _ => true
  | _ => false

/-- What a unit operation leaves: each form of next state, with the operations that can reach it. It says which operation
writes what, where `UnitFrame` says how the three places can change. -/
inductive UnitWrites (i : Instr) (s : State) : State → Prop
  | work (w : Work) (r : Result) : UnitWrites i s ({ s with work := w }.reply r)
  | pay (hi : storesPay i = true) (w : Work) (m : Memory) (r : Result) :
      UnitWrites i s ({ s with work := w, payBuf := m }.reply r)
  | checksum (hi : writesChecksum i = true) (c : Checksum) (r : Result) : UnitWrites i s ({ s with ck := c }.reply r)

section

variable {i : Instr} {s t : State}

theorem unitOutcome_writes {α : Type} {x : Except Stop α} {f : α → State} (hf : ∀ a, UnitWrites i s (f a))
    (h : unitOutcome s (x.map f) = .next t) : UnitWrites i s t := by
  obtain h | ⟨e, -, rfl⟩ := unitOutcome_eq_next h
  · obtain ⟨a, -, rfl⟩ := exceptMap_eq_ok h
    exact hf a
  · exact .work s.work _

theorem unitOutcome_error_writes {e : Stop} (h : unitOutcome s (.error e) = .next t) : UnitWrites i s t := by
  obtain h | ⟨e, -, rfl⟩ := unitOutcome_eq_next h
  · cases h
  · exact .work s.work _

theorem runOutcome_writes {w : Work} {r : Except Stop Result} (h : runOutcome s w r = .next t) : UnitWrites i s t := by
  obtain ⟨res, -, rfl⟩ | ⟨e, -, rfl⟩ := runOutcome_eq_next h <;> exact .work w _

theorem tableOutcome_writes {α : Type} {norm : List Int} {msv : Nat} {run : TableRun α} {leave : Work → α → Work}
    (h : tableOutcome s norm msv run leave = .next t) : UnitWrites i s t := by
  have h := (whenGiven_eq_next h).2
  dsimp only at h
  split at h <;> exact runOutcome_writes h

theorem storePay_writes (hi : storesPay i = true) {a : Nat} {bs : List Byte} {w : Work} {r : Result}
    (h : outcome ((Memory.store payCap s.payBuf a bs).map fun m => { s with work := w, payBuf := m }.reply r) = .next t) :
    UnitWrites i s t := by
  obtain ⟨m, -, rfl⟩ := exceptMap_eq_ok (outcome_eq_next_iff.mp h)
  exact .pay hi w m r

theorem execHistCount_writes {src : List Byte} {n : Nat} {msvIn : Byte} {strict : Bool}
    (h : execHistCount src n msvIn strict s = .next t) : UnitWrites i s t := by
  have h := (whenGiven_eq_next h).2
  split at h <;> exact runOutcome_writes h

theorem execNormNormalize_writes {count : List Nat} {total msv tl : Nat}
    (h : execNormNormalize count total msv tl s = .next t) : UnitWrites i s t := by
  unfold execNormNormalize at h
  split at h
  · exact unitOutcome_error_writes h
  · exact runOutcome_writes h

theorem execNcWrite_writes {norm : List Int} {msv tl : Nat} (h : execNcWrite norm msv tl s = .next t) :
    UnitWrites (.ncWrite norm msv tl) s t := by
  unfold execNcWrite at h
  split at h
  · exact unitOutcome_error_writes h
  · exact storePay_writes rfl h

theorem execFseEncode_writes {src : List Byte} {n cap : Nat} (h : execFseEncode src n cap s = .next t) :
    UnitWrites (.fseEncode src n cap) s t := by
  have h := (whenGiven_eq_next h).2
  split at h
  · exact unitOutcome_error_writes h
  · exact storePay_writes rfl h

theorem execBcCompress_writes {src : List Byte} {n tlReq : Nat} {oneByteRle : Bool}
    (h : execBcCompress src n tlReq oneByteRle s = .next t) : UnitWrites (.bcCompress src n tlReq oneByteRle) s t := by
  have h := (whenGiven_eq_next h).2
  split at h
  · cases h
  · obtain ⟨res, -, rfl⟩ | ⟨e, -, rfl⟩ := runOutcome_eq_next h <;> exact .pay rfl _ _ _

theorem exec_unitWrites (hi : hostInstr i = false) (h : exec i s = .next t) : UnitWrites i s t := by
  cases i with
  | bwInit | bwFlush | ckDigest | ckTrunc22 => cases h; exact .work _ _
  | bwClose => exact storePay_writes rfl h
  | bwAdd | brInit | brRead | brPeek | brSkip | normMinlog | normOptlog | fseInitc | fseEncsym | fseInitd | fseDecsym =>
    exact unitOutcome_writes (fun _ => .work _ _) h
  | histCount => exact execHistCount_writes h
  | normNormalize => exact execNormNormalize_writes h
  | normM2 | bcDecompress => exact runOutcome_writes (whenGiven_eq_next h).2
  | ncRead | fseDecode => exact runOutcome_writes h
  | ncWrite => exact execNcWrite_writes h
  | tbSpread | tbCtable | tbDtable =>
    simp only [exec, execTbSpread, execTbCtable, execTbDtable] at h
    exact tableOutcome_writes h
  | fseEncode => exact execFseEncode_writes h
  | bcCompress => exact execBcCompress_writes h
  | ckInit | ckUpdate => cases h; exact .checksum rfl _ _
  | _ => cases hi

theorem UnitWrites.ck_eq (h : UnitWrites i s t) (hi : writesChecksum i = false) : t.ck = s.ck := by
  cases h with
  | work | pay => rfl
  | checksum hc => simp [hi] at hc

theorem UnitWrites.payBuf_eq (h : UnitWrites i s t) (hi : storesPay i = false) : t.payBuf = s.payBuf := by
  cases h with
  | work | checksum => rfl
  | pay hp => simp [hi] at hp

/-- The checksum operations write the checksum and the result at most (46_checksum.md R121 to R126). -/
theorem exec_checksum_eq_next (hi : i = .ckInit ∨ i = .ckDigest ∨ (∃ bs, i = .ckUpdate bs) ∨ ∃ v, i = .ckTrunc22 v)
    (h : exec i s = .next t) : ∃ c r, t = { s with ck := c }.reply r := by
  rcases hi with rfl | rfl | ⟨bs, rfl⟩ | ⟨v, rfl⟩ <;> cases h <;> exact ⟨_, _, rfl⟩

end

/-- Settles O59. -/
theorem unitOperationsLeaveSessions : Obligations.UnitOperationsLeaveSessions := by
  intro i s t hi h
  have hw := exec_unitWrites hi h
  refine ⟨(exec_unitFrame hi h).frame, fun hck => ?_, fun hinit hupdate => hw.ck_eq ?_,
    fun hclose hncWrite hencode hcompress => hw.payBuf_eq ?_⟩
  · obtain ⟨c, r, rfl⟩ := exec_checksum_eq_next hck h
    exact ⟨rfl, rfl⟩
  · cases i with
    | ckInit => exact absurd rfl hinit
    | ckUpdate bytes => exact absurd rfl (hupdate bytes)
    | _ => rfl
  · cases i with
    | bwClose => exact absurd rfl hclose
    | ncWrite norm msv tl => exact absurd rfl (hncWrite norm msv tl)
    | fseEncode src n cap => exact absurd rfl (hencode src n cap)
    | bcCompress src n tlReq oneByteRle => exact absurd rfl (hcompress src n tlReq oneByteRle)
    | _ => rfl

end Sys2Proof.Machine
end

section
/-! The histogram (41_histogram.md). The four lanes merged are one table, and to count a byte in a lane is to count it in
that table (R73). The table of R70 is determined by `List.count` (`countBytes_getElem?`, `countBytes_length`); `msv`,
`largest` and the strict check are read off it. -/

namespace Sys2Proof.Machine

/-! ### Counting one byte -/

@[simp] theorem countByte_length (x : List Nat) (b : Byte) : (countByte x b).length = x.length := List.length_set

theorem countByte_getElem {x : List Nat} {b : Byte} {i : Nat} (h : i < (countByte x b).length) :
    (countByte x b)[i] = x[i]'(by simpa using h) + if b.toNat = i then 1 else 0 := by
  simp only [countByte, List.getElem_set, List.getD_eq_getElem?_getD]
  split
  · subst i; simp [show b.toNat < x.length by simpa using h]
  · rfl

theorem countByte_sum {x : List Nat} {b : Byte} (h : b.toNat < x.length) : (countByte x b).sum = x.sum + 1 := by
  have hx : x.sum = (x.take b.toNat).sum + (x[b.toNat] + (x.drop (b.toNat + 1)).sum) := by
    rw [← List.sum_cons, ← List.drop_eq_getElem_cons h, ← List.sum_append, List.take_append_drop]
  rw [countByte, List.sum_set, if_pos h, List.getD_eq_getElem _ _ h, hx]
  omega

@[simp] theorem foldl_countByte_length (x : List Nat) (src : List Byte) :
    (src.foldl countByte x).length = x.length := by
  induction src generalizing x with
  | nil => rfl
  | cons b src ih => simp [ih]

/-! ### The four-lane method (R73) -/

/-- The bytes of a load, least significant first, are the bytes it was made of. -/
theorem laneByte_le32 (b0 b1 b2 b3 : Byte) :
    laneByte (le32 b0 b1 b2 b3) 0 = b0 ∧ laneByte (le32 b0 b1 b2 b3) 1 = b1 ∧
      laneByte (le32 b0 b1 b2 b3) 2 = b2 ∧ laneByte (le32 b0 b1 b2 b3) 3 = b3 := by
  simpa [le32Bytes, laneByte] using le32Bytes_le32 b0 b1 b2 b3

theorem mergeLanes_countByte_left {x y : List Nat} (b : Byte) :
    mergeLanes (countByte x b) y = countByte (mergeLanes x y) b := by
  apply List.ext_getElem (by simp [mergeLanes])
  intro i _ _
  simp only [mergeLanes, List.getElem_zipWith, countByte_getElem]
  omega

theorem mergeLanes_comm (x y : List Nat) : mergeLanes x y = mergeLanes y x :=
  List.zipWith_comm_of_comm Nat.add_comm

theorem mergeLanes_countByte_right {x y : List Nat} (b : Byte) :
    mergeLanes x (countByte y b) = countByte (mergeLanes x y) b := by
  rw [mergeLanes_comm, mergeLanes_countByte_left, mergeLanes_comm]

theorem mergeLanes_foldl_countByte (src : List Byte) (x y : List Nat) :
    mergeLanes (src.foldl countByte x) y = src.foldl countByte (mergeLanes x y) := by
  induction src generalizing x with
  | nil => rfl
  | cons b src ih => rw [List.foldl_cons, List.foldl_cons, ih, mergeLanes_countByte_left]

@[simp] theorem mergeLanes_zero (n : Nat) :
    mergeLanes (List.replicate n 0) (List.replicate n 0) = List.replicate n 0 := by
  simp [mergeLanes]

/-- The merge at the end of R73. -/
def Lanes.merged (l : Lanes) : List Nat := mergeLanes (mergeLanes (mergeLanes l.lane0 l.lane1) l.lane2) l.lane3

/-- Merged, the four lanes count the bytes one after the other. -/
theorem laneLoop_merged (src : List Byte) (l : Lanes) :
    (laneLoop src l).merged = src.foldl countByte l.merged := by
  fun_induction laneLoop src l with
  | case1 b0 b1 b2 b3 rest l w ih =>
    obtain ⟨h0, h1, h2, h3⟩ := laneByte_le32 b0 b1 b2 b3
    rw [ih]
    simp only [w, Lanes.merged, h0, h1, h2, h3, mergeLanes_countByte_left, mergeLanes_countByte_right, List.foldl_cons]
  | case2 tail l _ => simp only [Lanes.merged, mergeLanes_foldl_countByte]

/-- Settles O31: the empty lanes merge to the empty table, and the loop counts into the merged table. -/
theorem fourLaneHistogramIsDirect : Obligations.FourLaneHistogramIsDirect := by
  intro src
  let z := List.replicate 256 0
  have hz : (Lanes.mk z z z z).merged = z := by simp only [z, Lanes.merged, mergeLanes_zero]
  calc laneCounts src = (laneLoop src ⟨z, z, z, z⟩).merged := rfl
    _ = src.foldl countByte z := by rw [laneLoop_merged, hz]

/-! ### The direct method (R70) -/

theorem foldl_countByte_getElem {x : List Nat} {b : Byte} (h : b.toNat < x.length) (src : List Byte) :
    (src.foldl countByte x)[b.toNat]'(by simpa using h) = x[b.toNat] + src.count b := by
  induction src generalizing x with
  | nil => rfl
  | cons a src ih =>
    have ih := ih (x := countByte x a) (by simpa using h)
    simp only [List.foldl_cons, ih, countByte_getElem, BitVec.toNat_inj, List.count_cons, beq_iff_eq]
    omega

theorem foldl_countByte_sum {x : List Nat} (h : x.length = 256) (src : List Byte) :
    (src.foldl countByte x).sum = x.sum + src.length := by
  induction src generalizing x with
  | nil => rfl
  | cons b src ih =>
    rw [List.foldl_cons, ih (by simpa using h), countByte_sum (h ▸ b.isLt), List.length_cons]
    omega

@[simp] theorem countBytes_length (src : List Byte) : (countBytes src).length = 256 := by
  rw [countBytes, foldl_countByte_length, List.length_replicate]

/-- Entry `b` is the number of places of symbol `b`. -/
theorem countBytes_getElem? (src : List Byte) (b : Byte) : (countBytes src)[b.toNat]? = some (src.count b) := by
  have hb : b.toNat < (List.replicate 256 0).length := b.isLt.trans_eq List.length_replicate.symm
  rw [countBytes, List.getElem?_eq_getElem (by rwa [foldl_countByte_length]), foldl_countByte_getElem hb, List.getElem_replicate,
    Nat.zero_add]

/-- Every entry is the count of some byte. -/
theorem countBytes_getElem?_eq_some {src : List Byte} {i k : Nat} (h : (countBytes src)[i]? = some k) :
    ∃ b : Byte, b.toNat = i ∧ src.count b = k := by
  have hi : i < 2 ^ 8 := by simpa using (List.getElem?_eq_some_iff.mp h).1
  have hb := countBytes_getElem? src (BitVec.ofNatLT i hi)
  rw [BitVec.toNat_ofNatLT, h] at hb
  exact ⟨BitVec.ofNatLT i hi, BitVec.toNat_ofNatLT i hi, (Option.some.inj hb).symm⟩

theorem countBytes_sum (src : List Byte) : (countBytes src).sum = src.length := by
  rw [countBytes, foldl_countByte_sum List.length_replicate, List.sum_replicate, smul_zero, Nat.zero_add]

/-! ### The highest symbol and the greatest count (R70, R71) -/

/-- No entry above the highest symbol counts a byte. -/
theorem le_highestSymbol {count : List Nat} {i k : Nat} (h : count[i]? = some k) (hk : k ≠ 0) (s : Nat) :
    s + i ≤ highestSymbol s count := by
  induction count generalizing s i with
  | nil => cases h
  | cons c count ih =>
    cases i with
    | zero =>
      obtain rfl : c = k := by simpa using h
      simp [highestSymbol, hk]
    | succ i =>
      have hle := ih (by simpa using h) (s + 1)
      rw [highestSymbol]
      exact le_trans (by omega) (Nat.le_max_right _ _)

/-- The highest symbol is one with a count, and 0 where nothing is counted. -/
theorem highestSymbol_cases (s : Nat) (count : List Nat) :
    (highestSymbol s count = 0 ∧ ∀ k ∈ count, k = 0) ∨
      ∃ i k, count[i]? = some k ∧ k ≠ 0 ∧ highestSymbol s count = s + i := by
  induction count generalizing s with
  | nil => exact .inl ⟨rfl, by simp⟩
  | cons c count ih =>
    obtain ⟨hmsv, hzero⟩ | ⟨i, k, hi, hk, hmsv⟩ := ih (s + 1)
    · by_cases hc : c = 0
      · exact .inl ⟨by simp [highestSymbol, hmsv, hc], by simpa [hc] using hzero⟩
      · exact .inr ⟨0, c, rfl, hc, by simp [highestSymbol, hmsv, hc]⟩
    · refine .inr ⟨i + 1, k, hi, hk, ?_⟩
      rw [highestSymbol, hmsv]
      change max _ _ = _
      split <;> omega

/-- The greatest count is 0 or a count, and no count is above it. -/
theorem largestCount_spec (count : List Nat) :
    largestCount count ∈ 0 :: count ∧ ∀ k ∈ 0 :: count, k ≤ largestCount count :=
  List.max?_eq_some_iff.mp (List.max?_cons' (x := 0) (xs := count))

theorem count_le_largest (src : List Byte) (b : Byte) : src.count b ≤ (histogram src).largest :=
  (largestCount_spec (countBytes src)).2 _ (.tail _ (List.mem_of_getElem? (countBytes_getElem? src b)))

theorem exists_count_eq_largest (src : List Byte) : ∃ b, src.count b = (histogram src).largest := by
  obtain hzero | hmem := List.mem_cons.mp (largestCount_spec (countBytes src)).1
  · exact ⟨0, Nat.le_antisymm (count_le_largest src 0) (hzero.trans_le (Nat.zero_le _))⟩
  · obtain ⟨i, hi⟩ := List.getElem?_of_mem hmem
    obtain ⟨b, -, hb⟩ := countBytes_getElem?_eq_some hi
    exact ⟨b, hb⟩

theorem le_msv_of_mem {src : List Byte} {b : Byte} (hb : b ∈ src) : b.toNat ≤ (histogram src).msv := by
  have hle := le_highestSymbol (countBytes_getElem? src b) (List.count_pos_iff.mpr hb).ne' 0
  rwa [Nat.zero_add] at hle

/-- The highest symbol is present, and 0 where no byte is (R71). -/
theorem msv_cases (src : List Byte) :
    (src = [] ∧ (histogram src).msv = 0) ∨ ∃ b ∈ src, (histogram src).msv = b.toNat := by
  obtain ⟨hmsv, hzero⟩ | ⟨i, k, hi, hk, hmsv⟩ := highestSymbol_cases 0 (countBytes src)
  · refine .inl ⟨List.eq_nil_iff_forall_not_mem.mpr fun b => ?_, hmsv⟩
    exact List.count_eq_zero.mp (hzero _ (List.mem_of_getElem? (countBytes_getElem? src b)))
  · obtain ⟨b, rfl, rfl⟩ := countBytes_getElem?_eq_some hi
    exact .inr ⟨b, List.count_pos_iff.mp (Nat.pos_of_ne_zero hk), hmsv.trans (Nat.zero_add _)⟩

/-! ### The strict check (R70) -/

/-- The check on the counts finds a symbol above the ceiling exactly when one is present. -/
theorem count_above_iff (src : List Byte) (ceiling : Nat) :
    (((histogram src).count.drop (ceiling + 1)).any fun k => k != 0) = true ↔ ∃ b ∈ src, ceiling < b.toNat := by
  simp only [List.any_eq_true, bne_iff_ne]
  constructor
  · rintro ⟨k, hmem, hk⟩
    obtain ⟨i, hi⟩ := List.getElem?_of_mem hmem
    rw [List.getElem?_drop] at hi
    obtain ⟨b, hb, rfl⟩ := countBytes_getElem?_eq_some hi
    exact ⟨b, List.count_pos_iff.mp (Nat.pos_of_ne_zero hk), by omega⟩
  · rintro ⟨b, hb, hlt⟩
    refine ⟨src.count b, List.mem_of_getElem? (i := b.toNat - (ceiling + 1)) ?_, (List.count_pos_iff.mpr hb).ne'⟩
    rw [List.getElem?_drop, Nat.add_sub_cancel' hlt]
    exact countBytes_getElem? src b

/-- HIST.COUNT on the whole of `src`. -/
theorem exec_histCount (src : List Byte) (msvIn : Byte) (strict : Bool) (s : State) :
    exec (.histCount src src.length msvIn strict) s =
      if strict = true ∧ ∃ b ∈ src, msvIn.toNat < b.toNat then
        .next ({ s with work := { s.work with hist := { s.work.hist with count := (histogram src).count } } }.reply
          (.error .argHistRange))
      else .next ({ s with work := { s.work with hist := histogram src } }.reply .ok) := by
  change execHistCount src src.length msvIn strict s = _
  simp only [execHistCount, whenGiven_of_le le_rfl, List.take_length, Bool.and_eq_true, count_above_iff, runOutcome]

/-- Settles O30: the registers are those of `histogram src`. -/
theorem histogramCountsSymbols : Obligations.HistogramCountsSymbols := by
  intro src msvIn strict s
  refine ⟨histogram src, countBytes_length src, countBytes_getElem? src, countBytes_sum src, ?empty, ?nonempty, ?accepted,
    ?refused⟩
  case empty =>
    rintro rfl
    obtain ⟨b, hb⟩ := exists_count_eq_largest []
    obtain ⟨-, hmsv⟩ | ⟨b, hb, -⟩ := msv_cases []
    · exact ⟨hmsv, hb.symm⟩
    · cases hb
  case nonempty =>
    intro hsrc
    obtain ⟨hnil, -⟩ | ⟨b, hb, hmsv⟩ := msv_cases src
    · exact absurd hnil hsrc
    · refine ⟨?_, ?_, fun _ => le_msv_of_mem, exists_count_eq_largest src, count_le_largest src⟩
      · rwa [hmsv, BitVec.ofNat_toNat, BitVec.setWidth_eq]
      · rw [hmsv]; exact Nat.le_of_lt_succ b.isLt
  case accepted =>
    intro h
    rw [exec_histCount, if_neg]
    · rfl
    · rintro ⟨rfl, b, hb, hlt⟩
      obtain h | h := h
      · cases h
      · exact absurd (h b hb) (Nat.not_le.mpr hlt)
  case refused =>
    intro hstrict habove
    rw [exec_histCount, if_pos ⟨hstrict, habove⟩]
    exact ⟨_, rfl, rfl, rfl⟩

end Sys2Proof.Machine
end

section
/-! The normalizer: the table log (42_normalizer.md R75, R76), and what NORM.NORMALIZE does before and instead of computing
a distribution: its argument checks (R77) and the RLE signal (R82). -/

namespace Sys2Proof.Machine

/-! ### The table log (R75, R76) -/

theorem highbit_of_ne_zero {x : Nat} (h : x ≠ 0) : highbit x = .ok (Nat.log2 x) := if_neg h

theorem minLog_of_ne_zero {n msv : Nat} (hn : n ≠ 0) (hmsv : msv ≠ 0) :
    minLog n msv = .ok (min (Nat.log2 n + 1) (Nat.log2 msv + 2)) := by
  simp only [minLog, highbit_of_ne_zero hn, highbit_of_ne_zero hmsv, ok_bind]

/-- The size limit of R76: for `n` up to 4 the subtraction wraps, and there is none. -/
theorem maxBitsSrc_of_two_le {n : Nat} (h2 : 2 ≤ n) (hn : n ≤ 65536) :
    ∃ lim, maxBitsSrc n = .ok lim ∧ (n ≤ 4 → 15 < lim) ∧
      (5 ≤ n → lim = Nat.log2 (n - 1) - 2 ∧ lim ≤ 13) := by
  have hmod : (n - 1) % 2 ^ 32 = n - 1 := Nat.mod_eq_of_lt (by omega)
  have hlog : Nat.log2 (n - 1) < 16 := (Nat.log2_lt (by omega)).mpr (by omega)
  have hsmall : n ≤ 4 → Nat.log2 (n - 1) < 2 := fun h => (Nat.log2_lt (by omega)).mpr (by omega)
  have hlarge : 5 ≤ n → 2 ≤ Nat.log2 (n - 1) := fun h => (Nat.le_log2 (by omega)).mpr (by omega)
  refine ⟨(Nat.log2 (n - 1) + 2 ^ 32 - 2) % 2 ^ 32, ?_, ?_, ?_⟩
  · simp only [maxBitsSrc, hmod, highbit_of_ne_zero (show n - 1 ≠ 0 by omega), ok_bind]
  · intro h
    have := hsmall h
    omega
  · intro h
    have := hlarge h
    omega

theorem optLog_of_limit {req n msv lim minTl : Nat} (hlim : maxBitsSrc n = .ok lim) (hmin : minLog n msv = .ok minTl) :
    optLog req n msv = .ok (min (max (max (min (effectiveLog req) lim) minTl) 5) 15) := by
  have hreq : (if req = 0 then defaultTableLog else req) = effectiveLog req := rfl
  simp only [optLog, hlim, hmin, ok_bind, hreq, ← min_def_lt, ← max_def_lt, minTableLog, maxTableLog, min_comm lim,
    min_comm 15]

/-- Settles O32: `msv` has at most 8 bits, and the size limit is `maxBitsSrc_of_two_le`'s. -/
theorem tableLogChoiceIsBounded : Obligations.TableLogChoiceIsBounded := by
  intro req n msv s hn hn' hmsv hmsv' hreq minTl wanted
  have hmin : minLog n msv = .ok minTl := minLog_of_ne_zero (by omega) (by omega)
  have hmsvLog : Nat.log2 msv < 8 := (Nat.log2_lt (by omega)).mpr (by omega)
  have hminTl : minTl ≤ 9 := (Nat.min_le_right _ _).trans (by omega)
  have hwanted : 5 ≤ wanted ∧ wanted ≤ 15 := by
    dsimp only [wanted]
    split <;> omega
  refine ⟨?_, hminTl, fun h2 => ?_⟩
  · simp only [exec, execNormMinlog, hmin, Except.map, unitOutcome, State.reply]
  · obtain ⟨lim, hlim, hsmall, hlarge⟩ := maxBitsSrc_of_two_le h2 hn'
    refine ⟨min (max (max (min wanted lim) minTl) 5) 15, ?_, ?_⟩
    · simp only [exec, execNormOptlog, optLog_of_limit hlim hmin, Except.map, unitOutcome, State.reply]
      rfl
    · clear_value minTl wanted
      omega

/-! ### The checks and the RLE signal (R77, R82) -/

section
variable {count : List Nat} {total msv : Nat}

theorem isCounts_iff :
    isCounts count total msv = true ↔
      count.length = msv + 1 ∧ msv ≤ 255 ∧ 1 ≤ total ∧ total ≤ 65536 ∧ count.sum = total := by
  simp only [isCounts, Bool.and_eq_true, decide_eq_true_eq, and_assoc]

/-- The legal table logs of R77. -/
def LegalLog (total msv tl : Nat) : Prop := 5 ≤ tl ∧ tl ≤ 15 ∧ min (Nat.log2 total + 1) (Nat.log2 msv + 2) ≤ tl

/-- On counts of a block the checks pass exactly the legal logs; with one symbol, `msv = 0`, the minimum is at most 2. -/
theorem checkLog_of_isCounts (h : isCounts count total msv = true) (tl : Nat) :
    (LegalLog total msv tl → checkLog count total msv tl = .ok ()) ∧
      (¬LegalLog total msv tl → checkLog count total msv tl = .error (.raise .argTableLog)) := by
  obtain ⟨hlen, -, hpos, -, hsum⟩ := isCounts_iff.mp h
  unfold LegalLog
  by_cases hmsv : msv = 0
  · subst hmsv
    obtain ⟨c, rfl⟩ := List.length_eq_one_iff.mp hlen
    obtain rfl : c = total := by simpa using hsum
    have hzero : Nat.log2 0 = 0 := rfl
    simp only [checkLog, minTableLog, maxTableLog, hzero, Nat.lt_of_succ_le hpos, and_self, if_true]
    split_ifs <;> simp <;> omega
  · simp only [checkLog, minTableLog, maxTableLog, hmsv, false_and, if_false,
      minLog_of_ne_zero (show total ≠ 0 by omega) hmsv, ok_bind]
    split_ifs <;> simp <;> omega

theorem primaryStep_of_zero (tl total s : Nat) (p : Primary) :
    primaryStep tl total s 0 p = { p with norm := p.norm ++ [0] } := if_pos rfl

/-- The loop comes to a symbol that is the whole block past symbols of count 0 only, each of which it has given 0. -/
theorem primaryLoop_of_mem (hmem : total ∈ count) (hsum : count.sum = total) (tl s : Nat)
    (p : Primary) :
    primaryLoop tl total s count p = .inl (p.norm ++ List.replicate (count.idxOf total) 0) := by
  induction count generalizing s p with
  | nil => cases hmem
  | cons c cs ih =>
    by_cases hc : c = total
    · simp [primaryLoop, hc]
    · have hcs : total ∈ cs := (List.mem_cons.mp hmem).resolve_left (Ne.symm hc)
      have hle := List.le_sum_of_mem hcs
      rw [List.sum_cons] at hsum
      obtain rfl : c = 0 := by omega
      rw [primaryLoop, if_neg hc, primaryStep_of_zero, ih hcs (by omega), List.idxOf_cons_ne _ hc, List.append_assoc,
        List.replicate_succ, List.singleton_append]

end

theorem exec_normNormalize_of_error {count : List Nat} {total msv tl : Nat} {e : ErrCode}
    (h : normalize count total msv tl = .error (.raise e)) (s : State) :
    exec (.normNormalize count total msv tl) s = .next { s with result := .error e } := by
  simp only [exec, execNormNormalize, h, unitOutcome, State.reply]

theorem exec_normNormalize_of_rle {count : List Nat} {total msv tl : Nat} {written : List Int}
    (h : normalize count total msv tl = .ok ⟨.ok .rle, written⟩) (s : State) :
    exec (.normNormalize count total msv tl) s = .next { s with
      work := { s.work with norm := written ++ s.work.norm.drop written.length, tl := effectiveLog tl }
      result := .rleSignal } := by
  simp only [exec, execNormNormalize, h, writeWeights, runOutcome, Except.map, State.reply]

/-- Settles O33: the checks by `checkLog_of_isCounts`, the signal by `primaryLoop_of_mem`. -/
theorem normalizeChecksAndRleSignal : Obligations.NormalizeChecksAndRleSignal := by
  intro count total msv tl s h tl' legal
  obtain ⟨hlen, -, -, -, hsum⟩ := isCounts_iff.mp h
  have htake : count.take (msv + 1) = count := List.take_of_length_le hlen.le
  refine ⟨fun hnot => exec_normNormalize_of_error ?_ s, fun hlegal hmem => ?_⟩
  · simp only [normalize, htake, (checkLog_of_isCounts h (effectiveLog tl)).2 hnot]
    rfl
  · have hrun : normalize count total msv tl = .ok ⟨.ok .rle, List.replicate (count.idxOf total) 0⟩ := by
      simp only [normalize, htake, (checkLog_of_isCounts h (effectiveLog tl)).1 hlegal, ok_bind,
        primaryLoop_of_mem hmem hsum, List.nil_append]
    rw [exec_normNormalize_of_rle hrun, List.length_replicate]
    rfl

end Sys2Proof.Machine
end

section
/-! The fallback NORM.M2 (42_normalizer.md R81). Both passes together leave each symbol what `passWeights` gives it, so the
rule ends in one of the four ways of `M2Ending`; on the operands of R81 the number of slots is counted in each. -/

namespace Sys2Proof.Machine

/-! ### Weights that fill a table (R83) -/

/-- What R83 says of the weight `w` of a symbol of count `c`, where `low` is `total >> tl`. -/
def WeightOf (low c : Nat) (w : Int) : Prop := (w = 0 ↔ c = 0) ∧ (w = -1 → c ≤ low) ∧ -1 ≤ w

/-- The distribution invariant (R83). -/
structure Fills (tl low : Nat) (count : List Nat) (norm : List Int) : Prop where
  weights : List.Forall₂ (WeightOf low) count norm
  slots_sum : (norm.map slots).sum = 2 ^ tl

theorem slots_of_nonneg {w : Int} (h : 0 ≤ w) : (slots w : Int) = w := by
  rw [slots, if_neg (by omega), Int.toNat_of_nonneg h]

theorem le_slots (w : Int) : w ≤ slots w := by
  unfold slots
  split <;> omega

theorem weightOf_of_pos {low c : Nat} {w : Int} (hc : c ≠ 0) (hw : 0 < w) : WeightOf low c w := by
  unfold WeightOf
  omega

theorem WeightOf.slots_eq_zero_iff {low c : Nat} {w : Int} (h : WeightOf low c w) : slots w = 0 ↔ c = 0 := by
  obtain ⟨hzero, -, hle⟩ := h
  rw [← hzero, slots]
  split <;> omega

theorem forall₂_set {α β : Type} {R : α → β → Prop} {l : List α} {m : List β} (h : List.Forall₂ R l m)
    {a : α} {b : β} (hab : R a b) (i : Nat) : List.Forall₂ R (l.set i a) (m.set i b) := by
  induction h generalizing i with
  | nil => exact .nil
  | cons hxy hlm ih =>
    cases i with
    | zero => exact .cons hab hlm
    | succ i => exact .cons hxy (ih i)

theorem forall₂_getElem {α β : Type} {R : α → β → Prop} {l : List α} {m : List β} (h : List.Forall₂ R l m)
    {i : Nat} (hl : i < l.length) (hm : i < m.length) : R l[i] m[i] :=
  (List.forall₂_iff_get.mp h).2 i hl hm

theorem sum_set_add {l : List Nat} {i : Nat} (h : i < l.length) (x : Nat) : (l.set i x).sum + l[i] = l.sum + x := by
  have hl : l.sum = (l.take i).sum + (l[i] + (l.drop (i + 1)).sum) := by
    rw [← List.sum_cons, ← List.drop_eq_getElem_cons h, ← List.sum_append, List.take_append_drop]
  rw [List.sum_set, if_pos h, hl]
  omega

theorem slots_sum_set {norm : List Int} {i : Nat} (h : i < norm.length) (x : Int) :
    ((norm.set i x).map slots).sum + slots norm[i] = (norm.map slots).sum + slots x := by
  have := sum_set_add (l := norm.map slots) (by simpa using h) (slots x)
  rwa [← List.map_set, List.getElem_map] at this

/-- A positive weight replaced by another one. -/
theorem fills_set {tl low i : Nat} {count : List Nat} {norm : List Int} (hw : List.Forall₂ (WeightOf low) count norm)
    (h : i < norm.length) (hpos : 0 < norm[i]) {x : Int} (hx : 0 < x)
    (hsum : ((norm.map slots).sum : Int) + x = 2 ^ tl + norm[i]) : Fills tl low count (norm.set i x) := by
  have hi : i < count.length := by rwa [hw.length_eq]
  refine ⟨?_, ?_⟩
  · have hc : count[i] ≠ 0 := by
      have hiw : WeightOf low count[i] norm[i] := forall₂_getElem hw hi h
      exact hiw.1.not.mp hpos.ne'
    simpa using forall₂_set hw (weightOf_of_pos (low := low) hc hx) i
  · have hset := slots_sum_set h x
    have hold := slots_of_nonneg hpos.le
    have hnew := slots_of_nonneg hx.le
    exact_mod_cast (by omega : (((norm.set i x).map slots).sum : Int) = 2 ^ tl)

/-- A weight of a distribution is a weight of the register, or log 19's. -/
theorem Fills.range {tl low : Nat} {count : List Nat} {norm : List Int} (h : Fills tl low count norm) (htl : tl ≤ 15) :
    ∀ w ∈ norm, -1 ≤ w ∧ w ≤ 32768 := by
  intro w hw
  have hslots : slots w ≤ (norm.map slots).sum := List.le_sum_of_mem (List.mem_map_of_mem hw)
  have hpow : 2 ^ tl ≤ 2 ^ 15 := Nat.pow_le_pow_right (by decide) htl
  have hle := le_slots w
  rw [h.slots_sum] at hslots
  obtain ⟨i, hi, rfl⟩ := List.getElem_of_mem hw
  exact ⟨(forall₂_getElem h.weights (h.weights.length_eq ▸ hi) hi).2.2, by omega⟩

/-! ### Counts against the threshold -/

/-- The number of present symbols. -/
abbrev presentSymbols (count : List Nat) : Nat := count.countP fun c => c != 0

theorem sum_le_presentSymbols_mul {count : List Nat} {low : Nat} (h : ∀ c ∈ count, c ≤ low) :
    count.sum ≤ presentSymbols count * low := by
  induction count with
  | nil => simp
  | cons c cs ih =>
    have ih := ih fun x hx => h x (.tail _ hx)
    have hc := h c (.head _)
    by_cases hz : c = 0
    · simpa [hz] using ih
    · simp only [List.sum_cons, presentSymbols, List.countP_cons, bne_iff_ne, ne_eq, hz, not_false_eq_true, if_true,
        Nat.add_mul, Nat.one_mul] at ih ⊢
      omega

/-- With fewer present symbols than slots, some count exceeds `total >> tl`. -/
theorem exists_threshold_lt {count : List Nat} {tl : Nat} (hpresent : presentSymbols count < 2 ^ tl)
    (hpos : 0 < count.sum) : ∃ c ∈ count, count.sum / 2 ^ tl < c := by
  by_contra! hle
  have hsum := sum_le_presentSymbols_mul hle
  have hdiv : count.sum / 2 ^ tl * 2 ^ tl ≤ count.sum := Nat.div_mul_le_self _ _
  have hlow : 0 < count.sum / 2 ^ tl := by
    by_contra hzero
    simp only [Nat.eq_zero_of_not_pos hzero, Nat.mul_zero] at hsum
    omega
  have := Nat.mul_lt_mul_of_pos_right hpresent hlow
  rw [Nat.mul_comm (2 ^ tl)] at this
  omega

/-! ### The two passes -/

/-- The weight of an assigned symbol. -/
def lowWeight (low c : Nat) : Int := if c = 0 then 0 else if c ≤ low then -1 else 1

/-- What the passes leave: the symbols of count up to `bound` are assigned. -/
def passWeights (low bound : Nat) (count : List Nat) : Marked :=
  count.map fun c => if c ≤ bound then some (lowWeight low c) else none

theorem lowWeight_weightOf (low c : Nat) : WeightOf low c (lowWeight low c) := by
  unfold WeightOf lowWeight
  split_ifs <;> simp_all

theorem lowWeight_of_lt {low c : Nat} (h : low < c) : lowWeight low c = 1 := by
  rw [lowWeight, if_neg (by omega), if_neg (by omega)]

theorem slots_lowWeight (low c : Nat) : slots (lowWeight low c) = if c != 0 then 1 else 0 := by
  unfold lowWeight
  split_ifs <;> simp_all [slots]

theorem slots_sum_lowWeight (low : Nat) (count : List Nat) :
    ((count.map (lowWeight low)).map slots).sum = presentSymbols count := by
  induction count with
  | nil => rfl
  | cons c cs ih =>
    rw [List.map_cons, List.map_cons, List.sum_cons, slots_lowWeight, ih, Nat.add_comm]
    exact List.countP_cons.symm

theorem m2First_eq (low lowOne : Nat) (count : List Nat) :
    m2First low lowOne count = passWeights low (max low lowOne) count := by
  refine List.map_congr_left fun c _ => ?_
  unfold lowWeight
  split_ifs <;> simp_all
  omega

/-- The second pass raises the bound of the first. -/
theorem m2Second_passWeights {low bound : Nat} (h : low ≤ bound) (lowOne : Int) (count : List Nat) :
    m2Second lowOne count (passWeights low bound count) = passWeights low (max bound lowOne.toNat) count := by
  rw [m2Second, passWeights, List.zipWith_map_right, List.zipWith_self]
  refine List.map_congr_left fun c _ => ?_
  by_cases hc : c ≤ bound
  · rw [if_pos hc, if_neg (by simp), if_pos (hc.trans (le_max_left _ _))]
  · have hle : (c : Int) ≤ lowOne ↔ c ≤ max bound lowOne.toNat := by omega
    rw [if_neg hc, lowWeight_of_lt (by omega)]
    simp only [true_and, hle]

/-- The assigned present symbols. -/
theorem mark_passWeights_iff (low bound c : Nat) :
    ((if c ≤ bound then some (lowWeight low c) else none) = some (-1) ∨
      (if c ≤ bound then some (lowWeight low c) else none) = some 1) ↔ c ≠ 0 ∧ c ≤ bound := by
  unfold lowWeight
  split_ifs <;> simp_all

theorem m2Distributed_passWeights (low bound : Nat) (count : List Nat) :
    m2Distributed (passWeights low bound count) = count.countP fun c => c != 0 && decide (c ≤ bound) := by
  rw [m2Distributed, ← List.countP_eq_length_filter, passWeights, List.countP_map]
  refine List.countP_congr fun c _ => ?_
  simpa using mark_passWeights_iff low bound c

theorem m2Assigned_passWeights (low bound : Nat) (count : List Nat) :
    m2Assigned count (passWeights low bound count) = (count.filter fun c => c != 0 && decide (c ≤ bound)).sum := by
  rw [m2Assigned, passWeights, ← List.map_prod_left_eq_zip, List.filter_map, List.foldl_map, List.sum_eq_foldl]
  refine congrArg (List.foldl _ 0) (List.filter_congr fun c _ => ?_)
  rw [Bool.eq_iff_iff]
  simpa using mark_passWeights_iff low bound c

theorem sum_assigned_add (bound : Nat) (count : List Nat) :
    (count.filter fun c => c != 0 && decide (c ≤ bound)).sum + (count.filter fun c => decide (bound < c)).sum
      = count.sum := by
  induction count with
  | nil => rfl
  | cons c cs ih =>
    simp only [List.filter_cons, Bool.and_eq_true, bne_iff_ne, decide_eq_true_eq]
    split_ifs <;> simp only [List.sum_cons] <;> omega

/-- The reduced total is the sum of the counts not assigned. -/
theorem m2Left_passWeights (low bound : Nat) (count : List Nat) :
    m2Left count.sum count (passWeights low bound count) = (count.filter fun c => decide (bound < c)).sum := by
  have hsplit := sum_assigned_add bound count
  rw [m2Left, m2Assigned_passWeights]
  omega

theorem passWeights_of_le {low bound : Nat} {count : List Nat} (h : ∀ c ∈ count, c ≤ bound) :
    passWeights low bound count = (count.map (lowWeight low)).map some := by
  rw [passWeights, List.map_map]
  exact List.map_congr_left fun c hc => if_pos (h c hc)

theorem passWeights_below (low bound : Nat) (count : List Nat) :
    List.Forall₂ (fun _ w => -1 ≤ w.getD 0) count (passWeights low bound count) := by
  rw [passWeights, List.forall₂_map_right_iff, List.forall₂_same]
  intro c _
  have := (lowWeight_weightOf low c).2.2
  split_ifs <;> simp [this]

/-! ### The endings -/

/-- The ways R81 ends, on the weights its passes leave. -/
inductive M2Ending (tl total msv : Nat) (count : List Nat) (norm : Marked) : M2Run → Prop
  /-- no slot is left, or none was to distribute -/
  | full (h : m2ToDist tl norm = 0) : M2Ending tl total msv count norm ⟨.ok (), norm⟩
  | largest (h : m2Distributed norm = msv + 1) : M2Ending tl total msv count norm
      ⟨.ok (), norm.modify (count.idxOf (largestCount count)) (raiseWeight (m2ToDist tl norm))⟩
  | roundRobin (h : m2Left total count norm = 0) : M2Ending tl total msv count norm
      ⟨.ok (), m2RoundRobin (m2ToDist tl norm).toNat (m2ToDist tl norm).toNat norm⟩
  | share (h : m2Left total count norm ≠ 0) : M2Ending tl total msv count norm
      (m2Share (62 - tl)
        (quotient (2 ^ (62 - tl) * m2ToDist tl norm + (2 ^ (62 - tl - 1) - 1)) (m2Left total count norm))
        (2 ^ (62 - tl - 1) - 1) count norm)

theorem m2Finish_ending (tl total msv : Nat) (count : List Nat) (norm : Marked) :
    M2Ending tl total msv count norm
      (m2Finish tl msv (m2ToDist tl norm) (m2Left total count norm) count norm) := by
  unfold m2Finish
  split
  · exact .largest ‹_›
  · split
    · exact .roundRobin ‹_›
    · exact .share ‹_›

/-- The run of R81: its passes assign the counts up to some bound, no lower than the thresholds of the first. -/
theorem m2Body_ending (tl : Nat) (count : List Nat) (total msv : Nat) :
    ∃ bound, total / 2 ^ tl ≤ bound ∧ total * 3 / 2 ^ (tl + 1) ≤ bound ∧
      M2Ending tl total msv count (passWeights (total / 2 ^ tl) bound count) (m2Body tl count total msv) := by
  simp only [m2Body, m2First_eq, m2Second_passWeights (le_max_left _ _)]
  split
  · exact ⟨_, le_max_left _ _, le_max_right _ _, .full ‹_›⟩
  · split
    · exact ⟨_, by omega, by omega, m2Finish_ending _ _ _ _ _⟩
    · exact ⟨_, le_max_left _ _, le_max_right _ _, m2Finish_ending _ _ _ _ _⟩

/-! ### The round-robin -/

/-- A round leaves each weight or raises it, if it is positive. -/
theorem m2Round_forall₂ {R : Nat → Option Int → Prop}
    (hR : ∀ c w, R c w → 0 < w.getD 0 → R c (raiseWeight 1 w)) {count : List Nat} {norm : Marked}
    (h : List.Forall₂ R count norm) (left : Nat) :
    List.Forall₂ R count (m2Round left norm).1 := by
  induction h generalizing left with
  | nil => exact .nil
  | cons hcw _ ih =>
    unfold m2Round
    split
    · exact .cons (hR _ _ hcw (by simp_all)) (ih _)
    · exact .cons hcw (ih _)

/-- The number of slots the assigned weights take. -/
def markedSlots (norm : Marked) : Nat := (norm.map fun w => slots (w.getD 0)).sum

@[simp] theorem markedSlots_cons (w : Option Int) (ws : Marked) :
    markedSlots (w :: ws) = slots (w.getD 0) + markedSlots ws := by
  simp [markedSlots]

theorem raiseWeight_one_getD {w : Option Int} (h : 0 < w.getD 0) : (raiseWeight 1 w).getD 0 = w.getD 0 + 1 := by
  cases w with
  | none => simp at h
  | some w => rfl

theorem slots_raiseWeight_one {w : Option Int} (h : 0 < w.getD 0) :
    slots ((raiseWeight 1 w).getD 0) = slots (w.getD 0) + 1 := by
  have hold := slots_of_nonneg h.le
  have hnew := slots_of_nonneg (w := w.getD 0 + 1) (by omega)
  rw [raiseWeight_one_getD h]
  omega

/-- A round gives away what it takes. -/
theorem m2Round_slots (left : Nat) (norm : Marked) :
    markedSlots (m2Round left norm).1 + (m2Round left norm).2 = markedSlots norm + left := by
  fun_induction m2Round left norm with
  | case1 => rfl
  | case2 left w ws h r ih =>
    have hw := slots_raiseWeight_one h.2
    simp only [markedSlots_cons, r]
    omega
  | case3 left w ws h r ih =>
    simp only [markedSlots_cons, r]
    omega

theorem m2Round_le (left : Nat) (norm : Marked) : (m2Round left norm).2 ≤ left := by
  fun_induction m2Round left norm with
  | case1 => exact le_rfl
  | case2 left w ws h r ih => exact ih.trans (Nat.sub_le _ _)
  | case3 left w ws h r ih => exact ih

/-- A round in which a weight is positive leaves one positive and takes a slot. -/
theorem m2Round_progress {norm : Marked} (left : Nat) (hpos : ∃ w ∈ norm, 0 < w.getD 0) :
    (∃ w ∈ (m2Round left norm).1, 0 < w.getD 0) ∧ (0 < left → (m2Round left norm).2 < left) := by
  fun_induction m2Round left norm with
  | case1 => simp at hpos
  | case2 left w ws h r ih =>
    have hle : r.2 ≤ left - 1 := m2Round_le _ _
    have hraised := raiseWeight_one_getD h.2
    exact ⟨⟨_, .head _, by omega⟩, by omega⟩
  | case3 left w ws h r ih =>
    obtain ⟨x, hx, hx'⟩ := hpos
    obtain rfl | hx := List.mem_cons.mp hx
    · exact ⟨⟨x, .head _, hx'⟩, fun hleft => absurd ⟨hleft, hx'⟩ h⟩
    · obtain ⟨⟨y, hy, hy'⟩, hlt⟩ := ih ⟨x, hx, hx'⟩
      exact ⟨⟨y, .tail _ hy, hy'⟩, hlt⟩

theorem m2RoundRobin_forall₂ {R : Nat → Option Int → Prop}
    (hR : ∀ c w, R c w → 0 < w.getD 0 → R c (raiseWeight 1 w)) {count : List Nat} {norm : Marked}
    (h : List.Forall₂ R count norm) {fuel left : Nat}
    (hend : (∀ c w, R c w → R c none) ∨ ((∃ w ∈ norm, 0 < w.getD 0) ∧ left ≤ fuel)) :
    List.Forall₂ R count (m2RoundRobin fuel left norm) := by
  fun_induction m2RoundRobin fuel left norm with
  | case1 => exact h
  | case2 left norm =>
    obtain hnone | ⟨-, hfuel⟩ := hend
    · rw [List.forall₂_map_right_iff]
      exact h.imp fun _ _ => hnone _ _
    · omega
  | case3 fuel left norm r ih =>
    refine ih (m2Round_forall₂ hR h _) (hend.imp_right fun ⟨hpos, hfuel⟩ => ?_)
    obtain ⟨hpos', hlt⟩ := m2Round_progress (left + 1) hpos
    have : r.2 < left + 1 := hlt (by omega)
    exact ⟨hpos', by omega⟩

/-- With a positive weight the round-robin gives every slot away. -/
theorem m2RoundRobin_slots {norm : Marked} {fuel left : Nat} (hpos : ∃ w ∈ norm, 0 < w.getD 0)
    (hfuel : left ≤ fuel) :
    markedSlots (m2RoundRobin fuel left norm) = markedSlots norm + left := by
  fun_induction m2RoundRobin fuel left norm with
  | case1 => rfl
  | case2 => omega
  | case3 fuel left norm r ih =>
    obtain ⟨hpos', hlt⟩ := m2Round_progress (left + 1) hpos
    have : r.2 < left + 1 := hlt (by omega)
    rw [ih hpos' (by omega)]
    exact m2Round_slots (left + 1) norm

/-! ### The proportional loop -/

section
variable {vsl c : Nat} {rStep acc x : Int} {cs : List Nat} {ws : Marked}

theorem m2Share_some : m2Share vsl rStep acc (c :: cs) (some x :: ws) =
    { m2Share vsl rStep acc cs ws with norm := some x :: (m2Share vsl rStep acc cs ws).norm } := rfl

theorem m2Share_none_of_lt (h : shiftRight (acc + c * rStep) vsl - shiftRight acc vsl < 1) :
    m2Share vsl rStep acc (c :: cs) (none :: ws) = ⟨.error (.raise .normalize), none :: ws⟩ := by
  simp only [m2Share, if_true, if_pos h]

theorem m2Share_none_of_le (h : 1 ≤ shiftRight (acc + c * rStep) vsl - shiftRight acc vsl) :
    m2Share vsl rStep acc (c :: cs) (none :: ws) =
      { m2Share vsl rStep (acc + c * rStep) cs ws with
        norm := some (shiftRight (acc + c * rStep) vsl - shiftRight acc vsl) ::
          (m2Share vsl rStep (acc + c * rStep) cs ws).norm } := by
  simp only [m2Share, if_true, if_neg (Int.not_lt.mpr h)]

end

/-- The loop ends or raises E_NORMALIZE, and puts no weight below -1. -/
theorem m2Share_below {count : List Nat} {norm : Marked} (h : List.Forall₂ (fun _ w => -1 ≤ w.getD 0) count norm)
    (vsl : Nat) (rStep acc : Int) :
    ((m2Share vsl rStep acc count norm).out = .ok () ∨
      (m2Share vsl rStep acc count norm).out = .error (.raise .normalize)) ∧
    List.Forall₂ (fun _ w => -1 ≤ w.getD 0) count (m2Share vsl rStep acc count norm).norm := by
  induction h generalizing acc with
  | nil => exact ⟨.inl rfl, .nil⟩
  | @cons c w cs ws hw hws ih =>
    cases w with
    | some x =>
      obtain ⟨hout, hnorm⟩ := ih acc
      exact ⟨hout, .cons hw hnorm⟩
    | none =>
      obtain hlt | hle := Int.lt_or_le (shiftRight (acc + c * rStep) vsl - shiftRight acc vsl) 1
      · rw [m2Share_none_of_lt hlt]
        exact ⟨.inr rfl, .cons hw hws⟩
      · obtain ⟨hout, hnorm⟩ := ih (acc + c * rStep)
        rw [m2Share_none_of_le hle]
        exact ⟨hout, .cons (by rw [Option.getD_some]; omega) hnorm⟩

/-- Where the loop ends, every symbol is assigned, and the shares sum to the slots between the two ends of `acc`. -/
theorem m2Share_passWeights {low bound vsl : Nat} (hlow : low ≤ bound) {rStep : Int} (hstep : 0 ≤ rStep)
    (count : List Nat) {acc : Int} (hacc : 0 ≤ acc)
    (hout : (m2Share vsl rStep acc count (passWeights low bound count)).out = .ok ()) :
    ∃ norm : List Int, (m2Share vsl rStep acc count (passWeights low bound count)).norm = norm.map some ∧
      List.Forall₂ (WeightOf low) count norm ∧
      ((norm.map slots).sum : Int) = (count.countP fun c => c != 0 && decide (c ≤ bound)) +
        ((acc + (count.filter fun c => decide (bound < c)).sum * rStep) / 2 ^ vsl - acc / 2 ^ vsl) := by
  induction count generalizing acc with
  | nil => exact ⟨[], rfl, .nil, by simp⟩
  | cons c cs ih =>
    rw [passWeights, List.map_cons, ← passWeights] at hout ⊢
    by_cases hc : c ≤ bound
    · rw [if_pos hc, m2Share_some] at hout ⊢
      obtain ⟨norm, hnorm, hweights, hsum⟩ := ih hacc hout
      refine ⟨lowWeight low c :: norm, by rw [hnorm, List.map_cons], .cons (lowWeight_weightOf low c) hweights, ?_⟩
      rw [List.map_cons, List.sum_cons, slots_lowWeight, List.countP_cons, List.filter_cons_of_neg (by simpa using hc)]
      simp only [hc, decide_true, Bool.and_true]
      split <;> omega
    · rw [if_neg hc] at hout ⊢
      obtain hlt | hle := Int.lt_or_le (shiftRight (acc + c * rStep) vsl - shiftRight acc vsl) 1
      · rw [m2Share_none_of_lt hlt] at hout
        cases hout
      · have hend : 0 ≤ acc + c * rStep := by positivity
        rw [m2Share_none_of_le hle] at hout ⊢
        obtain ⟨norm, hnorm, hweights, hsum⟩ := ih hend hout
        refine ⟨_ :: norm, by rw [hnorm, List.map_cons],
          .cons (weightOf_of_pos (by omega) hle) hweights, ?_⟩
        have hshare := slots_of_nonneg (le_trans zero_le_one hle)
        rw [shiftRight_of_nonneg hend, shiftRight_of_nonneg hacc] at hshare
        have hacc' : acc + ((c + (cs.filter fun c => decide (bound < c)).sum : Nat) : Int) * rStep =
            acc + c * rStep + (cs.filter fun c => decide (bound < c)).sum * rStep := by
          push_cast
          ring
        rw [List.map_cons, List.sum_cons, shiftRight_of_nonneg hend, shiftRight_of_nonneg hacc,
          List.countP_cons_of_neg (by simp [hc]), List.filter_cons_of_pos (by simpa using hc), List.sum_cons, hacc']
        omega

/-! ### Any counts -/

/-- The register holds a weight below -1. -/
def isBelow (w : Option Int) : Bool := decide (w.getD 0 < -1)

theorem countP_isBelow_eq_zero {count : List Nat} {norm : Marked}
    (h : List.Forall₂ (fun _ w => -1 ≤ w.getD 0) count norm) : norm.countP isBelow = 0 := by
  induction h with
  | nil => rfl
  | cons hw _ ih => rw [List.countP_cons, ih, isBelow, if_neg (by simpa using hw)]

theorem countP_modify_le {α : Type} (p : α → Bool) (f : α → α) (l : List α) (i : Nat) :
    (l.modify i f).countP p ≤ l.countP p + 1 := by
  induction l generalizing i with
  | nil => simp
  | cons a l ih =>
    cases i with
    | zero =>
      simp only [List.modify_zero_cons, List.countP_cons]
      split <;> omega
    | succ i =>
      have := ih i
      simp only [List.modify_succ_cons, List.countP_cons]
      omega

/-- What the register of symbol `s` holds, given what the rule has left it. -/
def heldMark (tl total s c : Nat) : Option Int → Int
  | some w => heldWeight tl total s c w
  | none => openWeight tl total s c (-2)

theorem heldWeights_cons (tl total s c : Nat) (cs : List Nat) (w : Option Int) (ws : Marked) :
    heldWeights tl total s (c :: cs) (w :: ws) = heldMark tl total s c w :: heldWeights tl total (s + 1) cs ws := by
  cases w <;> rfl

theorem heldMark_range (tl total s c : Nat) (w : Option Int) :
    -32768 ≤ heldMark tl total s c w ∧ heldMark tl total s c w ≤ 32768 := by
  cases w with
  | some w => exact heldWeight_range tl total s c w
  | none =>
    obtain ⟨hlow, hhigh⟩ := openWeight_range tl total s c (-2)
    exact ⟨le_trans (by decide) hlow, hhigh.trans (by decide)⟩

/-- A weight below -1 is one the rule has written: no free value is. -/
theorem isBelow_of_heldMark {tl total s c : Nat} {w : Option Int} (h : heldMark tl total s c w < -1) :
    isBelow w = true := by
  cases w with
  | some w =>
    have hopen := (openWeight_range tl total s c w).1
    rw [heldMark, heldWeight] at h
    refine decide_eq_true (?_ : w < -1)
    split at h <;> omega
  | none => exact absurd (openWeight_range tl total s c (-2)).1 (Int.not_le.mpr h)

theorem heldWeights_range (tl total s : Nat) (count : List Nat) (norm : Marked) :
    ∀ w ∈ heldWeights tl total s count norm, -32768 ≤ w ∧ w ≤ 32768 := by
  induction norm generalizing s count with
  | nil => cases count <;> simp [heldWeights]
  | cons w ws ih =>
    cases count with
    | nil => simp [heldWeights]
    | cons c cs =>
      rw [heldWeights_cons]
      exact List.forall_mem_cons.mpr ⟨heldMark_range _ _ _ _ _, ih _ _⟩

theorem heldWeights_below (tl total s : Nat) (count : List Nat) (norm : Marked) :
    ((heldWeights tl total s count norm).filter fun w => w < -1).length ≤ norm.countP isBelow := by
  induction norm generalizing s count with
  | nil => cases count <;> exact Nat.zero_le _
  | cons w ws ih =>
    cases count with
    | nil => exact Nat.zero_le _
    | cons c cs =>
      have ih := ih (s + 1) cs
      rw [heldWeights_cons, List.countP_cons]
      by_cases hw : heldMark tl total s c w < -1
      · rw [List.filter_cons_of_pos (by simpa using hw), List.length_cons, if_pos (isBelow_of_heldMark hw)]
        omega
      · rw [List.filter_cons_of_neg (by simpa using hw)]
        omega

/-- What R81 leaves on any counts `count[0..msv]`: at most one weight below -1, and that only in its ending that assigns
every symbol. -/
structure M2Completes (count : List Nat) (run : M2Run) : Prop where
  out : run.out = .ok () ∨ run.out = .error (.raise .normalize)
  length : run.norm.length = count.length
  below : run.norm.countP isBelow = 0 ∨ run.out = .ok () ∧ (∀ c ∈ count, c ≠ 0) ∧ run.norm.countP isBelow ≤ 1

theorem m2Completes_of_forall₂ {count : List Nat} {run : M2Run}
    (hout : run.out = .ok () ∨ run.out = .error (.raise .normalize))
    (h : List.Forall₂ (fun _ w => -1 ≤ w.getD 0) count run.norm) : M2Completes count run :=
  ⟨hout, h.length_eq.symm, .inl (countP_isBelow_eq_zero h)⟩

theorem forall_of_m2Distributed {low bound : Nat} {count : List Nat}
    (h : m2Distributed (passWeights low bound count) = count.length) : ∀ c ∈ count, c ≠ 0 ∧ c ≤ bound := by
  rw [m2Distributed_passWeights, List.countP_eq_length] at h
  simpa using h

theorem M2Ending.completes {tl total msv low bound : Nat} {count : List Nat} {run : M2Run}
    (hlen : count.length = msv + 1) (h : M2Ending tl total msv count (passWeights low bound count) run) :
    M2Completes count run := by
  have hpasses := passWeights_below low bound count
  cases h with
  | full => exact m2Completes_of_forall₂ (.inl rfl) hpasses
  | largest h =>
    refine ⟨.inl rfl, by rw [List.length_modify, hpasses.length_eq], .inr ⟨rfl, fun c hc => ?_, ?_⟩⟩
    · exact (forall_of_m2Distributed (h.trans hlen.symm) c hc).1
    · have := countP_modify_le isBelow (raiseWeight (m2ToDist tl (passWeights low bound count)))
        (passWeights low bound count) (count.idxOf (largestCount count))
      rwa [countP_isBelow_eq_zero hpasses] at this
  | roundRobin =>
    refine m2Completes_of_forall₂ (.inl rfl)
      (m2RoundRobin_forall₂ (fun c w hw hpos => ?_) hpasses (.inl fun _ _ _ => ?_))
    · rw [raiseWeight_one_getD hpos]
      omega
    · simp
  | share =>
    obtain ⟨hout, hnorm⟩ := m2Share_below hpasses _ _ _
    exact m2Completes_of_forall₂ hout hnorm

theorem m2Body_completes (tl : Nat) {count : List Nat} (total : Nat) {msv : Nat} (hlen : count.length = msv + 1) :
    M2Completes count (m2Body tl count total msv) := by
  obtain ⟨bound, -, -, h⟩ := m2Body_ending tl count total msv
  exact h.completes hlen

theorem normM2_norm_length (tl : Nat) {count : List Nat} (total : Nat) {msv : Nat} (hlen : count.length = msv + 1) :
    (normM2 tl count total msv).norm.length = msv + 1 := by
  rw [normM2, heldWeights_length (m2Body_completes tl total hlen).length, hlen]

theorem exec_normM2 {tl : Nat} {count : List Nat} {total msv : Nat} (hlen : count.length = msv + 1) (s : State) :
    exec (.normM2 tl count total msv) s =
      runOutcome s { s.work with norm := (normM2 tl count total msv).norm ++ s.work.norm.drop (msv + 1) }
        ((normM2 tl count total msv).out.map fun _ => .ok) := by
  change execNormM2 tl count total msv s = _
  simp only [execNormM2, whenGiven_of_le hlen.ge, List.take_of_length_le hlen.le, writeWeights,
    normM2_norm_length tl total hlen]

theorem normM2_out (tl : Nat) {count : List Nat} (total : Nat) {msv : Nat} (hlen : count.length = msv + 1) :
    (normM2 tl count total msv).out = .ok () ∨ (normM2 tl count total msv).out = .error (.raise .normalize) :=
  (m2Body_completes tl total hlen).out

/-- How NORM.M2 answers. -/
theorem exec_normM2_cases {tl : Nat} {count : List Nat} {total msv : Nat} (hlen : count.length = msv + 1) (s : State) :
    ∃ r : Result,
      ((normM2 tl count total msv).out = .ok () ∧ r = .ok ∨
        (normM2 tl count total msv).out = .error (.raise .normalize) ∧ r = .error .normalize) ∧
      exec (.normM2 tl count total msv) s = .next { s with
        work := { s.work with norm := (normM2 tl count total msv).norm ++ s.work.norm.drop (msv + 1) }
        result := r } := by
  rw [exec_normM2 hlen]
  obtain hout | hout := normM2_out tl total hlen
  · exact ⟨.ok, .inl ⟨hout, rfl⟩, by rw [hout]; rfl⟩
  · exact ⟨.error .normalize, .inr ⟨hout, rfl⟩, by rw [hout]; rfl⟩

/-- The weights below -1 that NORM.M2 leaves. -/
theorem normM2_below {tl : Nat} {count : List Nat} {total msv : Nat} (hlen : count.length = msv + 1)
    (h : ∃ w ∈ (normM2 tl count total msv).norm, w < -1) :
    (normM2 tl count total msv).out = .ok () ∧ (∀ c ∈ count, c ≠ 0) ∧
      ((normM2 tl count total msv).norm.filter fun w => w < -1).length = 1 := by
  obtain ⟨w, hw, hlt⟩ := h
  have hheld : ((normM2 tl count total msv).norm.filter fun w => w < -1).length ≤ _ :=
    heldWeights_below tl total 0 count (m2Body tl count total msv).norm
  have hsome : 0 < ((normM2 tl count total msv).norm.filter fun w => w < -1).length :=
    List.length_pos_of_mem (List.mem_filter.mpr ⟨hw, decide_eq_true hlt⟩)
  obtain hnone | ⟨hout, hpresent, hone⟩ := (m2Body_completes tl total hlen).below
  · omega
  · exact ⟨hout, hpresent, by omega⟩

/-! ### The operands of R81 -/

section
variable {tl low bound : Nat} {count : List Nat}

/-- The present symbols are those assigned and those not. -/
theorem presentSymbols_eq_add (bound : Nat) (count : List Nat) :
    presentSymbols count =
      (count.countP fun c => c != 0 && decide (c ≤ bound)) + count.countP fun c => decide (bound < c) := by
  induction count with
  | nil => rfl
  | cons c cs ih =>
    simp only [presentSymbols, List.countP_cons, Bool.and_eq_true, bne_iff_ne, decide_eq_true_eq] at ih ⊢
    split_ifs <;> omega

theorem forall_le_of_countP_eq_zero (h : (count.countP fun c => decide (bound < c)) = 0) :
    ∀ c ∈ count, c ≤ bound := by
  simpa [List.countP_eq_zero] using h

theorem forall_le_of_m2Left (h : m2Left count.sum count (passWeights low bound count) = 0) :
    ∀ c ∈ count, c ≤ bound := by
  rw [m2Left_passWeights, Int.natCast_eq_zero, List.sum_eq_zero_iff] at h
  intro c hc
  by_contra hlt
  have := h c (List.mem_filter.mpr ⟨hc, by simpa using hlt⟩)
  omega

theorem m2Left_of_forall_le (h : ∀ c ∈ count, c ≤ bound) :
    m2Left count.sum count (passWeights low bound count) = 0 := by
  rw [m2Left_passWeights, List.filter_eq_nil_iff.mpr (by simpa using h)]
  rfl

theorem m2ToDist_passWeights (tl low bound : Nat) (count : List Nat) :
    m2ToDist tl (passWeights low bound count) =
      2 ^ tl - (count.countP fun c => c != 0 && decide (c ≤ bound) : Nat) := by
  rw [m2ToDist, m2Distributed_passWeights]

/-- Where every symbol is assigned, the slots to distribute are those no present symbol takes. -/
theorem m2ToDist_of_forall_le (tl low : Nat) (h : ∀ c ∈ count, c ≤ bound) :
    m2ToDist tl (passWeights low bound count) = 2 ^ tl - (presentSymbols count : Nat) := by
  have hsplit := presentSymbols_eq_add bound count
  have hzero : (count.countP fun c => decide (bound < c)) = 0 := by simpa [List.countP_eq_zero] using h
  rw [m2ToDist_passWeights]
  omega

theorem lowWeights_weightOf (low : Nat) (count : List Nat) :
    List.Forall₂ (WeightOf low) count (count.map (lowWeight low)) := by
  rw [List.forall₂_map_right_iff, List.forall₂_same]
  exact fun c _ => lowWeight_weightOf low c

/-- As many present symbols as slots, with one slot each. -/
theorem lowWeights_fill (low : Nat) (h : presentSymbols count = 2 ^ tl) :
    Fills tl low count (count.map (lowWeight low)) :=
  ⟨lowWeights_weightOf low count, by rw [slots_sum_lowWeight, h]⟩

theorem modify_raiseWeight (norm : List Int) (n : Int) {i : Nat} (h : i < norm.length) :
    (norm.map some).modify i (raiseWeight n) = (norm.set i (norm[i] + n)).map some := by
  rw [List.modify_eq_set_getElem?, List.map_set]
  simp [h, raiseWeight]

theorem largestCount_mem (hpos : 0 < count.sum) : largestCount count ∈ count := by
  obtain ⟨hmem, hmax⟩ := largestCount_spec count
  refine (List.mem_cons.mp hmem).resolve_left fun hzero => hpos.ne' (List.sum_eq_zero_iff.mpr fun c hc => ?_)
  exact Nat.le_zero.mp (hzero ▸ hmax c (.tail _ hc))

/-- The end in which every symbol is assigned: the slots left go to a symbol above the threshold. -/
theorem fills_largest (hpos : 0 < count.sum) (hpresent : presentSymbols count ≤ 2 ^ tl)
    (habove : presentSymbols count < 2 ^ tl → ∃ c ∈ count, low < c) :
    ∃ norm : List Int, ((count.map (lowWeight low)).map some).modify
        (count.idxOf (largestCount count)) (raiseWeight (2 ^ tl - (presentSymbols count : Nat))) = norm.map some ∧
      Fills tl low count norm := by
  have hmax := (largestCount_spec count).2
  have hi := List.idxOf_lt_length_of_mem (largestCount_mem hpos)
  have hi' : count.idxOf (largestCount count) < (count.map (lowWeight low)).length := by
    rwa [List.length_map]
  have hlargest : (count.map (lowWeight low))[count.idxOf (largestCount count)] =
      lowWeight low (largestCount count) := by
    rw [List.getElem_map, List.getElem_idxOf]
  rw [modify_raiseWeight _ _ hi', hlargest]
  refine ⟨_, rfl, ?_⟩
  obtain heq | hlt := Nat.eq_or_lt_of_le hpresent
  · have hnone : lowWeight low (largestCount count) + (2 ^ tl - (presentSymbols count : Nat)) =
        (count.map (lowWeight low))[count.idxOf (largestCount count)] := by
      rw [hlargest, heq]
      push_cast
      omega
    rw [hnone, List.set_getElem_self]
    exact lowWeights_fill _ heq
  · obtain ⟨c, hc, hlow⟩ := habove hlt
    have hone : lowWeight low (largestCount count) = 1 :=
      lowWeight_of_lt (hlow.trans_le (hmax c (.tail _ hc)))
    have hslots := slots_sum_lowWeight low count
    zify at hlt
    exact fills_set (lowWeights_weightOf _ count) hi' (by omega) (by omega) (by omega)

/-- The symbol of count `c` is assigned a weight that R83 allows it. -/
def AssignedOf (low c : Nat) (w : Option Int) : Prop := ∃ x, w = some x ∧ WeightOf low c x

theorem AssignedOf.raise {low c : Nat} {w : Option Int} (h : AssignedOf low c w) (hpos : 0 < w.getD 0) :
    AssignedOf low c (raiseWeight 1 w) := by
  obtain ⟨x, rfl, hx⟩ := h
  have hpos : 0 < x := hpos
  exact ⟨x + 1, rfl, weightOf_of_pos (hx.1.not.mp hpos.ne') (by omega)⟩

theorem exists_of_assigned {norm : Marked} (h : List.Forall₂ (AssignedOf low) count norm) :
    ∃ v : List Int, norm = v.map some ∧ List.Forall₂ (WeightOf low) count v := by
  induction h with
  | nil => exact ⟨[], rfl, .nil⟩
  | cons hw _ ih =>
    obtain ⟨x, rfl, hx⟩ := hw
    obtain ⟨v, rfl, hv⟩ := ih
    exact ⟨x :: v, rfl, .cons hx hv⟩

theorem markedSlots_map_some (norm : List Int) : markedSlots (norm.map some) = (norm.map slots).sum := by
  rw [markedSlots, List.map_map]
  rfl

/-- The round-robin end: the slots left go round the weights of 1. -/
theorem fills_roundRobin (hpresent : presentSymbols count ≤ 2 ^ tl)
    (habove : presentSymbols count < 2 ^ tl → ∃ c ∈ count, low < c) :
    ∃ norm : List Int, m2RoundRobin (2 ^ tl - presentSymbols count) (2 ^ tl - presentSymbols count)
        ((count.map (lowWeight low)).map some) = norm.map some ∧ Fills tl low count norm := by
  obtain heq | hlt := Nat.eq_or_lt_of_le hpresent
  · refine ⟨_, ?_, lowWeights_fill _ heq⟩
    rw [heq, Nat.sub_self]
    simp only [m2RoundRobin]
  · obtain ⟨c, hc, hlow⟩ := habove hlt
    have hone : lowWeight low c = 1 := lowWeight_of_lt hlow
    have hpositive : ∃ w ∈ (count.map (lowWeight low)).map some, 0 < w.getD 0 :=
      ⟨some 1, List.mem_map_of_mem (hone ▸ List.mem_map_of_mem hc), one_pos⟩
    have hassigned : List.Forall₂ (AssignedOf low) count ((count.map (lowWeight low)).map some) := by
      rw [List.forall₂_map_right_iff]
      exact (lowWeights_weightOf _ count).imp fun c w hw => ⟨w, rfl, hw⟩
    have hround := m2RoundRobin_forall₂ (R := AssignedOf low) (fun _ _ => AssignedOf.raise) hassigned
      (fuel := 2 ^ tl - presentSymbols count) (.inr ⟨hpositive, le_rfl⟩)
    obtain ⟨norm, hnorm, hweights⟩ := exists_of_assigned hround
    refine ⟨norm, hnorm, hweights, ?_⟩
    rw [← markedSlots_map_some, ← hnorm, m2RoundRobin_slots hpositive le_rfl, markedSlots_map_some,
      slots_sum_lowWeight]
    omega

/-- The cumulative sum of R81 starts in slot 0 and ends in slot `d`. -/
theorem share_ends {vsl : Nat} {d left : Int} (hleft : 0 < left) (hle : left ≤ 65536) (hvsl : 17 ≤ vsl) :
    ((2 ^ (vsl - 1) - 1) / 2 ^ vsl : Int) = 0 ∧
      ((2 ^ (vsl - 1) - 1) + left * ((2 ^ vsl * d + (2 ^ (vsl - 1) - 1)) / left)) / 2 ^ vsl = d := by
  obtain ⟨half, hhalf⟩ : ∃ half : Int, half = 2 ^ (vsl - 1) := ⟨_, rfl⟩
  have hdouble : (2 : Int) ^ vsl = 2 * half := by
    rw [hhalf, ← pow_succ', Nat.sub_add_cancel (by omega)]
  have hlarge : 65536 ≤ half := by
    rw [hhalf]
    exact_mod_cast Nat.pow_le_pow_right (n := 2) (by decide) (show 16 ≤ vsl - 1 by omega)
  have hdiv := Int.mul_ediv_add_emod (2 * half * d + (half - 1)) left
  have hmod := Int.emod_nonneg (2 * half * d + (half - 1)) hleft.ne'
  have hmod' := Int.emod_lt_of_pos (2 * half * d + (half - 1)) hleft
  rw [← hhalf, hdouble]
  refine ⟨Int.ediv_eq_zero_of_lt (by omega) (by omega), ?_⟩
  rw [Int.ediv_eq_iff_of_pos (by omega)]
  constructor <;> linarith
/-- The proportional end: the shares sum to the slots left. -/
theorem fills_share (hlow : low ≤ bound) (hle : count.sum ≤ 65536) (hpresent : presentSymbols count ≤ 2 ^ tl)
    (htl : tl ≤ 15) (hleft : m2Left count.sum count (passWeights low bound count) ≠ 0) {run : M2Run}
    (hrun : run = m2Share (62 - tl)
      (quotient (2 ^ (62 - tl) * m2ToDist tl (passWeights low bound count) + (2 ^ (62 - tl - 1) - 1))
        (m2Left count.sum count (passWeights low bound count)))
      (2 ^ (62 - tl - 1) - 1) count (passWeights low bound count)) (hout : run.out = .ok ()) :
    ∃ norm : List Int, run.norm = norm.map some ∧ Fills tl low count norm := by
  subst hrun
  have hsplit := presentSymbols_eq_add bound count
  have hsum : (count.filter fun c => decide (bound < c)).sum ≤ count.sum := List.filter_sublist.sum_le_sum (by simp)
  have hmid : (0 : Int) ≤ 2 ^ (62 - tl - 1) - 1 := by
    have : (0 : Int) < 2 ^ (62 - tl - 1) := by positivity
    omega
  have hdist : 0 ≤ m2ToDist tl (passWeights low bound count) := by
    rw [m2ToDist_passWeights]
    zify at hpresent
    omega
  rw [m2Left_passWeights] at hleft hout ⊢
  have hleft : 0 < ((count.filter fun c => decide (bound < c)).sum : Int) := by omega
  rw [quotient_of_pos (by positivity) hleft] at hout ⊢
  obtain ⟨norm, hnorm, hweights, hslots⟩ := m2Share_passWeights hlow (by positivity) count hmid hout
  obtain ⟨hstart, hend⟩ := share_ends (d := m2ToDist tl (passWeights low bound count)) hleft (by omega)
    (show 17 ≤ 62 - tl by omega)
  refine ⟨norm, hnorm, hweights, ?_⟩
  rw [hstart, hend, m2ToDist_passWeights] at hslots
  exact_mod_cast (by omega : ((norm.map slots).sum : Int) = 2 ^ tl)

theorem M2Ending.fills {msv : Nat} {run : M2Run} (hlow : count.sum / 2 ^ tl ≤ bound) (hlen : count.length = msv + 1)
    (hpos : 0 < count.sum) (hle : count.sum ≤ 65536) (hpresent : presentSymbols count ≤ 2 ^ tl) (htl : tl ≤ 15)
    (h : M2Ending tl count.sum msv count (passWeights (count.sum / 2 ^ tl) bound count) run) (hout : run.out = .ok ()) :
    ∃ norm : List Int, run.norm = norm.map some ∧ Fills tl (count.sum / 2 ^ tl) count norm := by
  cases h with
  | full h =>
    have hsplit := presentSymbols_eq_add bound count
    rw [m2ToDist_passWeights] at h
    zify at hpresent
    refine ⟨_, passWeights_of_le (forall_le_of_countP_eq_zero (by omega)), lowWeights_fill _ ?_⟩
    zify
    omega
  | largest h =>
    have hbound : ∀ c ∈ count, c ≤ bound := fun c hc => (forall_of_m2Distributed (h.trans hlen.symm) c hc).2
    rw [m2ToDist_of_forall_le tl _ hbound, passWeights_of_le hbound]
    exact fills_largest hpos hpresent fun h => exists_threshold_lt h hpos
  | roundRobin h =>
    have hbound := forall_le_of_m2Left h
    have hdist : (2 ^ tl - (presentSymbols count : Int)).toNat = 2 ^ tl - presentSymbols count := by
      exact_mod_cast Int.toNat_sub (2 ^ tl) (presentSymbols count)
    rw [m2ToDist_of_forall_le tl _ hbound, passWeights_of_le hbound, hdist]
    exact fills_roundRobin hpresent fun h => exists_threshold_lt h hpos
  | share h => exact fills_share hlow hle hpresent htl h rfl hout

/-- Where the first pass assigns every symbol, R81 does not come to its proportional loop. -/
theorem M2Ending.out_of_forall_le {msv : Nat} {run : M2Run} (hbound : ∀ c ∈ count, c ≤ bound)
    (h : M2Ending tl count.sum msv count (passWeights low bound count) run) : run.out = .ok () := by
  cases h with
  | share h => exact absurd (m2Left_of_forall_le hbound) h
  | _ => rfl

end

section
variable {tl total msv : Nat} {count : List Nat} (hcounts : isCounts count total msv = true) (htl : tl ≤ 15)
  (hpresent : presentSymbols count ≤ 2 ^ tl)
include hcounts htl hpresent

/-- On its own operands NORM.M2 fills the table or raises E_NORMALIZE. -/
theorem normM2_fills (hout : (normM2 tl count total msv).out = .ok ()) :
    Fills tl (total / 2 ^ tl) count (normM2 tl count total msv).norm := by
  obtain ⟨hlen, -, hpos, hle, rfl⟩ := isCounts_iff.mp hcounts
  obtain ⟨bound, hlow, -, hend⟩ := m2Body_ending tl count count.sum msv
  obtain ⟨norm, hnorm, hfills⟩ := hend.fills hlow hlen hpos hle hpresent htl hout
  have hrange : ∀ w ∈ norm, -32768 ≤ w ∧ w ≤ 32768 := fun w hw => by
    have := hfills.range htl w hw
    omega
  rw [normM2, hnorm, heldWeights_map_some hfills.weights.length_eq.symm hrange]
  exact hfills

end

theorem normM2_out_of_forall_le {tl total msv : Nat} {count : List Nat} (hcounts : isCounts count total msv = true)
    (hsmall : ∀ c ∈ count, c ≤ total * 3 / 2 ^ (tl + 1)) : (normM2 tl count total msv).out = .ok () := by
  obtain ⟨-, -, -, -, rfl⟩ := isCounts_iff.mp hcounts
  obtain ⟨bound, -, hlowOne, hend⟩ := m2Body_ending tl count count.sum msv
  exact hend.out_of_forall_le fun c hc => (hsmall c hc).trans hlowOne

/-- What the statements say of each symbol. -/
theorem Fills.getD {tl low msv : Nat} {count : List Nat} {norm : List Int} (h : Fills tl low count norm)
    (hlen : count.length = msv + 1) {i : Nat} (hi : i ≤ msv) : WeightOf low (count.getD i 0) (norm.getD i 0) := by
  have hl : i < count.length := by omega
  have hm : i < norm.length := by rwa [← h.weights.length_eq]
  rw [List.getD_eq_getElem _ _ hl, List.getD_eq_getElem _ _ hm]
  exact forall₂_getElem h.weights hl hm

/-- Settles O35: that it completes is `exec_normM2_cases`, the weights below -1 are `normM2_below`'s, and what it gives on
its own operands is `normM2_fills`'s. -/
theorem fallbackFillsTable : Obligations.FallbackFillsTable := by
  refine ⟨fun tl count total msv s hlen => ?_, fun tl count total msv s hwf => ?_⟩
  · obtain ⟨r, hr, hexec⟩ := exec_normM2_cases (tl := tl) (total := total) hlen s
    refine ⟨_, r, hr.imp And.right And.right, normM2_norm_length tl total hlen, heldWeights_range _ _ _ _ _,
      fun h => ?_, hexec⟩
    obtain ⟨hout, hbelow⟩ := normM2_below hlen h
    obtain ⟨-, hok⟩ | ⟨herr, -⟩ := hr
    · exact ⟨hok, hbelow⟩
    · cases hout.symm.trans herr
  · intro filled
    simp only [WellFormed, Bool.and_eq_true, decide_eq_true_eq, isTableLog, ← List.countP_eq_length_filter] at hwf
    obtain ⟨⟨⟨-, htl⟩, hcounts⟩, hpresent⟩ := hwf
    obtain ⟨hlen, -⟩ := isCounts_iff.mp hcounts
    have hnorm := normM2_norm_length tl total hlen
    obtain ⟨r, hr, hexec⟩ := exec_normM2_cases (tl := tl) (total := total) hlen s
    have hfilled : (normM2 tl count total msv).out = .ok () → filled := fun hout => by
      obtain ⟨-, rfl⟩ | ⟨herr, -⟩ := hr
      · have hfills := normM2_fills hcounts htl hpresent hout
        refine ⟨_, hexec, hnorm, hfills.slots_sum, fun i hi => ?_⟩
        obtain ⟨hzero, hlow, hle⟩ := hfills.getD hlen hi
        exact ⟨hzero, fun hw => ⟨by omega, hlow hw⟩, hle⟩
      · cases hout.symm.trans herr
    refine ⟨?_, fun hsmall => hfilled (normM2_out_of_forall_le hcounts hsmall)⟩
    obtain ⟨hout, -⟩ | ⟨-, rfl⟩ := hr
    · exact .inl (hfilled hout)
    · exact .inr ⟨_, hnorm, hexec⟩

end Sys2Proof.Machine
end

section
/-! NORM.NORMALIZE (42_normalizer.md R79, R80, R83, R84): what the loop of R79 leaves (`PrimaryOf`), the two outcomes of the
residual test, and that each fills the table. -/

namespace Sys2Proof.Machine

/-! ### Rounded weights (R79) -/

/-- The weight R79 gives a symbol of count `c`. -/
def primaryWeight (tl total c : Nat) : Int :=
  if c = 0 then 0 else if c ≤ total / 2 ^ tl then -1 else scaledWeight tl total c

theorem scaledWeight_cases (tl total c : Nat) :
    scaledWeight tl total c = c * normStep total / 2 ^ (62 - tl) ∨
      scaledWeight tl total c = c * normStep total / 2 ^ (62 - tl) + 1 := by
  unfold scaledWeight
  dsimp only
  split
  · exact .inr rfl
  · exact .inl rfl

theorem two_pow_split {tl : Nat} (h : tl ≤ 15) : 2 ^ (62 - tl) * 2 ^ tl = 2 ^ 62 := by
  rw [← Nat.pow_add, Nat.sub_add_cancel (by omega)]

/-- The share of a symbol that is not the whole block is below the table size, before it is rounded. -/
theorem scaledWeight_le {tl total c : Nat} (htl : tl ≤ 15) (htotal : total ≤ 65536) (hc : c < total) :
    scaledWeight tl total c ≤ 2 ^ tl := by
  have hstep : 0 < normStep total := Nat.div_pos (by omega) (by omega)
  have hshare : c * normStep total < 2 ^ 62 :=
    (Nat.mul_lt_mul_of_pos_right hc hstep).trans_le (Nat.mul_div_le _ _)
  have hlt : c * normStep total / 2 ^ (62 - tl) < 2 ^ tl := by
    rwa [Nat.div_lt_iff_lt_mul (by positivity), Nat.mul_comm (2 ^ tl), two_pow_split htl]
  obtain h | h := scaledWeight_cases tl total c <;> omega

/-- A count above the threshold has a share of at least one slot: the error of `step` is less than `step` itself. -/
theorem scaledWeight_pos {tl total c : Nat} (htl : tl ≤ 15) (htotal : total ≤ 65536) (hpos : 0 < total)
    (hc : total / 2 ^ tl < c) : 0 < scaledWeight tl total c := by
  have hslot : total + 1 ≤ c * 2 ^ tl := (Nat.div_lt_iff_lt_mul (by positivity)).mp hc
  have hstep : 2 ^ 62 < total * (normStep total + 1) := Nat.lt_mul_div_succ _ hpos
  have hlarge : total ≤ normStep total := (Nat.le_div_iff_mul_le hpos).mpr <|
    calc total * total ≤ 65536 * 65536 := Nat.mul_le_mul htotal htotal
      _ ≤ 2 ^ 62 := by decide
  have hshare : 2 ^ (62 - tl) * 2 ^ tl ≤ c * normStep total * 2 ^ tl :=
    calc 2 ^ (62 - tl) * 2 ^ tl = 2 ^ 62 := two_pow_split htl
      _ ≤ (total + 1) * normStep total := by nlinarith
      _ ≤ c * 2 ^ tl * normStep total := Nat.mul_le_mul_right _ hslot
      _ = c * normStep total * 2 ^ tl := by ring
  have hone : 1 ≤ c * normStep total / 2 ^ (62 - tl) :=
    (Nat.le_div_iff_mul_le (by positivity)).mpr (by simpa using Nat.le_of_mul_le_mul_right hshare (by positivity))
  obtain h | h := scaledWeight_cases tl total c <;> omega

theorem primaryWeight_weightOf {tl total c : Nat} (htl : tl ≤ 15) (htotal : total ≤ 65536) (hpos : 0 < total) :
    WeightOf (total / 2 ^ tl) c (primaryWeight tl total c) := by
  unfold primaryWeight
  split_ifs with hz hlow
  · simp [WeightOf, hz]
  · simp [WeightOf, hz, hlow]
  · exact weightOf_of_pos hz (by exact_mod_cast scaledWeight_pos htl htotal hpos (Nat.lt_of_not_le hlow))

/-! ### The loop of R79 -/

theorem le_foldl_max {l : List Int} {x : Int} (h : x ∈ l) : x ≤ l.foldl max 0 :=
  (List.max?_eq_some_iff.mp (List.max?_cons' (x := 0) (xs := l))).2 x (.tail _ h)

/-- What the loop holds once it has given the weights `done`. -/
structure PrimaryOf (tl : Nat) (done : List Int) (p : Primary) : Prop where
  norm : p.norm = done
  still : p.still = 2 ^ tl - ((done.map slots).sum : Nat)
  largestP : (p.largestP : Int) = done.foldl max 0
  largest : p.largestP ≠ 0 → (p.largestP : Int) ∈ done ∧ p.largest = done.idxOf (p.largestP : Int)

theorem slots_sum_append (done : List Int) (w : Int) :
    (((done ++ [w]).map slots).sum : Int) = ((done.map slots).sum : Nat) + (slots w : Int) := by
  simp

theorem foldl_max_append (done : List Int) (w : Int) : (done ++ [w]).foldl max 0 = max (done.foldl max 0) w := by
  simp

/-- A weight that is not above the largest. -/
theorem PrimaryOf.append_of_le {tl : Nat} {done : List Int} {p : Primary} (h : PrimaryOf tl done p) {w : Int}
    (hw : w ≤ p.largestP) :
    PrimaryOf tl (done ++ [w]) { p with norm := done ++ [w], still := p.still - slots w } where
  norm := rfl
  still := by
    change p.still - slots w = _
    rw [h.still, slots_sum_append]
    omega
  largestP := by rw [foldl_max_append, ← h.largestP, max_eq_left hw]
  largest hne := by
    obtain ⟨hmem, hidx⟩ := h.largest hne
    exact ⟨List.mem_append_left _ hmem, hidx.trans (List.idxOf_append_of_mem hmem).symm⟩

/-- A weight above the largest becomes the largest, at its own place. -/
theorem PrimaryOf.append_of_lt {tl : Nat} {done : List Int} {p : Primary} (h : PrimaryOf tl done p) {w : Nat}
    (hw : p.largestP < w) :
    PrimaryOf tl (done ++ [(w : Int)])
      { norm := done ++ [(w : Int)], still := p.still - w, largest := done.length, largestP := w } where
  norm := rfl
  still := by
    change p.still - w = _
    rw [h.still, slots_sum_append, slots_of_nonneg (Int.natCast_nonneg w)]
    omega
  largestP := by
    rw [foldl_max_append, ← h.largestP, max_eq_right (by exact_mod_cast hw.le)]
  largest _ := by
    have hnot : (w : Int) ∉ done := fun hmem => by
      have := le_foldl_max hmem
      rw [← h.largestP] at this
      omega
    refine ⟨List.mem_append_right _ (List.mem_singleton_self _), ?_⟩
    rw [List.idxOf_append_of_notMem hnot, List.idxOf_cons_self, Nat.add_zero]

theorem primaryStep_of {tl total c : Nat} {done : List Int} {p : Primary} (htl : tl ≤ 15) (htotal : total ≤ 65536)
    (hc : c < total) (h : PrimaryOf tl done p) :
    PrimaryOf tl (done ++ [primaryWeight tl total c]) (primaryStep tl total done.length c p) := by
  unfold primaryStep primaryWeight
  split_ifs with hz hlow
  · have := h.append_of_le (w := 0) (Int.natCast_nonneg _)
    simpa [slots, h.norm] using this
  · have := h.append_of_le (w := -1) (by omega)
    simpa [slots, h.norm] using this
  · have hle : scaledWeight tl total c ≤ 2 ^ 15 :=
      (scaledWeight_le htl htotal hc).trans (Nat.pow_le_pow_right (by decide) htl)
    have hheld := heldWeight_of_range (w := scaledWeight tl total c) (by omega) tl total done.length c
    dsimp only
    rw [hheld, h.norm]
    split_ifs with hlt
    · exact h.append_of_lt hlt
    · have := h.append_of_le (w := scaledWeight tl total c) (by exact_mod_cast Nat.le_of_not_lt hlt)
      rwa [slots_of_nonneg (Int.natCast_nonneg _)] at this

theorem primaryLoop_of {tl total : Nat} {count : List Nat} (htl : tl ≤ 15) (htotal : total ≤ 65536)
    (hcount : ∀ c ∈ count, c < total)
    {done : List Int} {p : Primary} (h : PrimaryOf tl done p) :
    ∃ q, primaryLoop tl total done.length count p = .inr q ∧
      PrimaryOf tl (done ++ count.map (primaryWeight tl total)) q := by
  induction count generalizing done p with
  | nil => exact ⟨p, rfl, by simpa using h⟩
  | cons c cs ih =>
    have hc := hcount c (.head _)
    obtain ⟨q, hq, hof⟩ := ih (fun x hx => hcount x (.tail _ hx)) (primaryStep_of htl htotal hc h)
    refine ⟨q, ?_, by simpa using hof⟩
    rw [primaryLoop, if_neg hc.ne]
    simpa using hq

/-! ### The residual test (R80) -/

theorem presentSymbols_le_sum (count : List Nat) : presentSymbols count ≤ count.sum := by
  induction count with
  | nil => exact le_rfl
  | cons c cs ih =>
    simp only [presentSymbols, List.countP_cons, List.sum_cons, bne_iff_ne] at ih ⊢
    split_ifs <;> omega

section
variable {tl total msv : Nat} {count : List Nat} (hcounts : isCounts count total msv = true)
include hcounts

/-- A legal table log leaves a slot for each present symbol, and one more: R77's minimum is that of both bounds. -/
theorem presentSymbols_lt_of_legal (hlegal : LegalLog total msv tl) : presentSymbols count < 2 ^ tl := by
  obtain ⟨hlen, -, -, -, hsum⟩ := isCounts_iff.mp hcounts
  obtain ⟨-, -, hmin⟩ := hlegal
  obtain h | h := min_le_iff.mp hmin
  · calc presentSymbols count ≤ total := hsum ▸ presentSymbols_le_sum count
      _ < 2 ^ (Nat.log2 total + 1) := Nat.lt_log2_self
      _ ≤ 2 ^ tl := Nat.pow_le_pow_right (by decide) h
  · calc presentSymbols count ≤ msv + 1 := hlen ▸ List.countP_le_length
      _ ≤ 2 ^ (Nat.log2 msv + 1) := Nat.lt_log2_self
      _ < 2 ^ (Nat.log2 msv + 2) := Nat.pow_lt_pow_right (by decide) (by omega)
      _ ≤ 2 ^ tl := Nat.pow_le_pow_right (by decide) h

theorem lt_total_of_not_mem (hmem : total ∉ count) : ∀ c ∈ count, c < total := by
  obtain ⟨-, -, -, -, hsum⟩ := isCounts_iff.mp hcounts
  intro c hc
  exact lt_of_le_of_ne (hsum ▸ List.le_sum_of_mem hc) fun h => hmem (h ▸ hc)

theorem primaryWeights_weightOf (htl : tl ≤ 15) :
    List.Forall₂ (WeightOf (total / 2 ^ tl)) count (count.map (primaryWeight tl total)) := by
  obtain ⟨-, -, hpos, hle, -⟩ := isCounts_iff.mp hcounts
  rw [List.forall₂_map_right_iff, List.forall₂_same]
  exact fun c _ => primaryWeight_weightOf htl hle hpos

/-- The largest weight is positive, since some count exceeds the threshold. -/
theorem top_pos (hlegal : LegalLog total msv tl) : 0 < (count.map (primaryWeight tl total)).foldl max 0 := by
  have hpresent := presentSymbols_lt_of_legal hcounts hlegal
  obtain ⟨-, -, hpos, hle, rfl⟩ := isCounts_iff.mp hcounts
  obtain ⟨c, hc, habove⟩ := exists_threshold_lt hpresent hpos
  have hweight : 0 < primaryWeight tl count.sum c := by
    rw [primaryWeight, if_neg (Nat.ne_of_gt (Nat.zero_lt_of_lt habove)), if_neg (Nat.not_le.mpr habove)]
    exact_mod_cast scaledWeight_pos hlegal.2.1 hle hpos habove
  exact hweight.trans_le (le_foldl_max (List.mem_map_of_mem hc))

end

section
variable {tl : Nat} {norm : List Int} {p : Primary} (hp : PrimaryOf tl norm p) (htop : 0 < norm.foldl max 0)
include hp htop

/-- The loop's `largest` is the first of the largest weights. -/
theorem PrimaryOf.largest_eq : norm.foldl max 0 ∈ norm ∧ p.largest = norm.idxOf (norm.foldl max 0) := by
  rw [← hp.largestP]
  exact hp.largest (by have := hp.largestP; omega)

theorem PrimaryOf.getD_largest : p.norm.getD p.largest 0 = norm.foldl max 0 := by
  obtain ⟨hmem, hidx⟩ := hp.largest_eq htop
  rw [hp.norm, hidx, List.getD_eq_getElem _ _ (List.idxOf_lt_length_of_mem hmem), List.getElem_idxOf]

/-- The test succeeds: R81 gives the result. -/
theorem PrimaryOf.residual_of_le {count : List Nat} {total msv : Nat}
    (h : norm.foldl max 0 / 2 ≤ -(2 ^ tl - ((norm.map slots).sum : Nat))) :
    residual tl count total msv p = normM2 tl count total msv := by
  have htest : shiftRight (p.norm.getD p.largest 0) 1 ≤ -p.still := by
    rwa [hp.getD_largest htop, shiftRight_of_nonneg htop.le, hp.still, pow_one]
  rw [residual, if_pos htest]

/-- The test fails: the residual goes to the largest weight, which stays positive. -/
theorem PrimaryOf.residual_of_lt {low : Nat} {count : List Nat} {total msv : Nat} (htl : tl ≤ 15)
    (hweights : List.Forall₂ (WeightOf low) count norm)
    (h : -(2 ^ tl - ((norm.map slots).sum : Nat)) < norm.foldl max 0 / 2) :
    ∃ new, new = norm.set (norm.idxOf (norm.foldl max 0))
        (norm.foldl max 0 + (2 ^ tl - ((norm.map slots).sum : Nat))) ∧
      residual tl count total msv p = ⟨.ok (), new⟩ ∧ Fills tl low count new := by
  obtain ⟨hmem, hidx⟩ := hp.largest_eq htop
  have hi := List.idxOf_lt_length_of_mem hmem
  have hold : norm[norm.idxOf (norm.foldl max 0)] = norm.foldl max 0 := List.getElem_idxOf hi
  have hfills := fills_set (tl := tl) hweights hi (by rwa [hold])
    (x := norm.foldl max 0 + (2 ^ tl - ((norm.map slots).sum : Nat))) (by omega) (by omega)
  refine ⟨_, rfl, ?_, hfills⟩
  have htest : ¬shiftRight (p.norm.getD p.largest 0) 1 ≤ -p.still := by
    rwa [hp.getD_largest htop, shiftRight_of_nonneg htop.le, hp.still, pow_one, Int.not_le]
  have hrange := hfills.range htl _ (List.mem_set hi _)
  rw [residual, if_neg htest, hp.getD_largest htop, hp.still, heldWeight_of_range (by omega), hp.norm, hidx]

end

/-! ### Weights below the table size (R84) -/

theorem sum_eq_zero_of_slots {low : Nat} {count : List Nat} {norm : List Int}
    (h : List.Forall₂ (WeightOf low) count norm) (hslots : (norm.map slots).sum = 0) : count.sum = 0 := by
  induction h with
  | nil => rfl
  | cons hw _ ih =>
    rw [List.map_cons, List.sum_cons, Nat.add_eq_zero_iff, hw.slots_eq_zero_iff] at hslots
    rw [List.sum_cons, hslots.1, ih hslots.2]

/-- A symbol that is not the whole block leaves a slot to another one. -/
theorem Fills.lt_two_pow {tl low : Nat} {count : List Nat} {norm : List Int} (h : Fills tl low count norm)
    (hmem : count.sum ∉ count) : ∀ w ∈ norm, w < 2 ^ tl := by
  intro w hw
  obtain ⟨i, hi, rfl⟩ := List.getElem_of_mem hw
  have hi' : i < count.length := h.weights.length_eq ▸ hi
  have hcount := sum_set_add hi' 0
  have hslots := slots_sum_set hi 0
  have hothers : ((norm.set i 0).map slots).sum ≠ 0 := fun hzero => by
    have := sum_eq_zero_of_slots (forall₂_set h.weights (lowWeight_weightOf low 0) i) hzero
    exact hmem (by rw [show count.sum = count[i] by omega]; exact List.getElem_mem hi')
  have hle := le_slots norm[i]
  rw [h.slots_sum, show slots 0 = 0 from rfl] at hslots
  have hpow : ((2 ^ tl : Nat) : Int) = 2 ^ tl := by norm_cast
  omega

/-! ### The answer -/

/-- NORM.NORMALIZE on counts of two symbols or more and a legal log: how the residual test ends is how it answers. -/
theorem exec_normNormalize_of_primary {count : List Nat} {total msv tl : Nat} {p : Primary} {run : WeightRun}
    (hcounts : isCounts count total msv = true) (hlegal : LegalLog total msv (effectiveLog tl))
    (hloop : primaryLoop (effectiveLog tl) total 0 count ⟨[], 2 ^ effectiveLog tl, 0, 0⟩ = .inr p)
    (hrun : residual (effectiveLog tl) count total msv p = run) (hlen : run.norm.length = msv + 1) (s : State) :
    exec (.normNormalize count total msv tl) s =
      runOutcome s { s.work with norm := run.norm ++ s.work.norm.drop (msv + 1), tl := effectiveLog tl }
        (run.out.map fun _ => .ok) := by
  have hcount := (isCounts_iff.mp hcounts).1
  have hnorm : normalize count total msv tl = .ok ⟨run.out.map fun _ => .dist, run.norm⟩ := by
    simp only [normalize, List.take_of_length_le hcount.le, (checkLog_of_isCounts hcounts _).1 hlegal, ok_bind, hloop,
      hcount, Nat.not_succ_le_self, if_false, hrun]
  simp only [exec, execNormNormalize, hnorm, writeWeights, hlen]
  cases run.out <;> rfl

/-- Settles O34: where the residual test fails the weights are `PrimaryOf.residual_of_lt`'s; where it succeeds they are
those of NORM.M2 (`normM2_fills`, `normM2_out_of_forall_le`). -/
theorem normalizeKeepsSlotSum : Obligations.NormalizeKeepsSlotSum := by
  intro count total msv tl s hcounts hmem tl' hlog5 hlog15 hmin weight primary still top filled
  have hlegal : LegalLog total msv tl' := ⟨hlog5, hlog15, hmin⟩
  obtain ⟨hlen, -, -, hle, hsum⟩ := isCounts_iff.mp hcounts
  have hprimary : primary = count.map (primaryWeight tl' total) := by
    refine List.map_congr_left fun c _ => ?_
    simp only [primaryWeight, scaledWeight, show 62 - tl' - 20 = 42 - tl' by omega, Nat.cast_ite, Nat.cast_add,
      Nat.cast_one]
    rfl
  obtain ⟨p, hloop, hp⟩ := primaryLoop_of (done := []) (p := ⟨[], 2 ^ tl', 0, 0⟩) hlog15 hle
    (lt_total_of_not_mem hcounts hmem) ⟨rfl, by simp, rfl, by simp⟩
  rw [List.nil_append, ← hprimary] at hp
  have htop : 0 < top := 
    (top_pos hcounts hlegal).trans_eq (congrArg (List.foldl max 0) hprimary).symm
  have hweights : List.Forall₂ (WeightOf (total / 2 ^ tl')) count primary :=
    hprimary ▸ primaryWeights_weightOf hcounts hlog15
  have hfilled (run : WeightRun) (hrun : residual tl' count total msv p = run) (hout : run.out = .ok ())
      (hfills : Fills tl' (total / 2 ^ tl') count run.norm)
      (hnew : -still < top / 2 → run.norm = primary.set (primary.idxOf top) (top + still)) : filled := by
    have hnorm : run.norm.length = msv + 1 := by rw [← hfills.weights.length_eq, hlen]
    refine ⟨run.norm, ?_, hnew, hnorm, hfills.slots_sum, fun i hi => ?_⟩
    · rw [exec_normNormalize_of_primary hcounts hlegal hloop hrun hnorm, hout]
      rfl
    · obtain ⟨hzero, hlow, hge⟩ := hfills.getD hlen hi
      rw [List.getD_eq_getElem _ _ (by omega)] at hzero hlow hge ⊢
      exact ⟨hzero, hlow, hge, hfills.lt_two_pow (hsum ▸ hmem) _ (List.getElem_mem _)⟩
  by_cases htest : -still < top / 2
  · obtain ⟨new, hnew, hrun, hfills⟩ :=
      hp.residual_of_lt (total := total) (msv := msv) htop hlog15 hweights htest
    have h := hfilled _ hrun rfl hfills fun _ => hnew
    exact ⟨fun _ => h, .inl h⟩
  · have hrun := hp.residual_of_le (count := count) (total := total) (msv := msv) htop (Int.not_lt.mp htest)
    have hok (hout : (normM2 tl' count total msv).out = .ok ()) : filled :=
      hfilled _ hrun hout (normM2_fills hcounts hlog15 (presentSymbols_lt_of_legal hcounts hlegal).le hout)
        fun h => absurd h htest
    refine ⟨fun h => hok (normM2_out_of_forall_le hcounts (h.resolve_left htest)), ?_⟩
    obtain hout | hout := normM2_out tl' total hlen
    · exact .inl (hok hout)
    · have hnorm := normM2_norm_length tl' total hlen
      refine .inr ⟨_, hnorm, ?_⟩
      rw [exec_normNormalize_of_primary hcounts hlegal hloop hrun hnorm, hout]
      rfl

end Sys2Proof.Machine
end

section
/-! The NCount reader on any bytes (43_ncount.md R91 to R94). Every turn keeps the sum of the slots read and `remaining`
(`NReader.Legal`), so a header that ends with `remaining` 1 holds a distribution that fills its table. -/

namespace Sys2Proof.Machine

/-! ### The width of a value -/

/-- `nb` is the width of a value while `remaining` is `R`: the threshold `2^(nb - 1)` is the greatest power of two not
above `R` (R86, R88). -/
def WidthOf (R : Int) (nb : Nat) : Prop := ∃ k, nb = k + 1 ∧ 2 ^ k ≤ R ∧ R < 2 ^ (k + 1)

theorem widthOf_initial (tl : Nat) (htl : 0 < tl) : WidthOf (2 ^ tl + 1) (tl + 1) := by
  refine ⟨tl, rfl, by omega, ?_⟩
  have hle : (2 : Int) ^ 1 ≤ 2 ^ tl := pow_le_pow_right₀ (by omega) htl
  rw [pow_succ]
  omega

/-- The width loop of R88 and R93 ends at the width of what remains. -/
theorem widthOf_shrinkBits {R : Int} (hR : 1 ≤ R) : ∀ {nb : Nat}, R < 2 ^ nb → WidthOf R (shrinkBits R nb)
  | 0, hlt => by rw [pow_zero] at hlt; omega
  | nb + 1, hlt => by
    rw [shrinkBits]
    split
    · exact widthOf_shrinkBits hR ‹_›
    · exact ⟨nb, rfl, Int.not_lt.mp ‹_›, hlt⟩

theorem shrinkBits_le (R : Int) : ∀ nb, shrinkBits R nb ≤ nb
  | 0 => le_rfl
  | nb + 1 => by
    rw [shrinkBits]
    split
    · exact (shrinkBits_le R nb).trans (Nat.le_succ nb)
    · exact le_rfl

theorem WidthOf.shrink {R R' : Int} {nb : Nat} (h : WidthOf R nb) (hpos : 1 ≤ R') (hle : R' ≤ R) :
    WidthOf R' (shrinkBits R' nb) := by
  obtain ⟨k, rfl, -, hlt⟩ := h
  exact widthOf_shrinkBits hpos (hle.trans_lt hlt)

/-- A weight of -1 or more has as many slots as it takes from `remaining`. -/
theorem slots_eq_natAbs {w : Int} (h : -1 ≤ w) : slots w = w.natAbs := by
  unfold slots
  split <;> omega

/-! ### The reader keeps the slot sum -/

theorem takeBits_of_le {h : Bits} {q n : Nat} (hle : q + n ≤ h.len) : takeBits h q n = .ok (h.field q n, q + n) :=
  if_neg (Nat.not_lt.mpr hle)

theorem takeBits_eq_ok {h : Bits} {q n : Nat} {x : Nat × Nat} (hx : takeBits h q n = .ok x) :
    x = (h.field q n, q + n) ∧ q + n ≤ h.len := by
  unfold takeBits at hx
  split at hx
  · cases hx
  · exact ⟨(Except.ok.inj hx).symm, Nat.not_lt.mp ‹_›⟩

theorem takeBits_eq_error {h : Bits} {q n : Nat} {e : Stop} (he : takeBits h q n = .error e) :
    e = .raise .ncountOverrun := by
  unfold takeBits at he
  split at he
  · exact (Except.error.inj he).symm
  · cases he

theorem exceptMap_eq_error {ε α β : Type} {x : Except ε α} {f : α → β} {e : ε} (h : x.map f = .error e) :
    x = .error e := by
  cases x with
  | error e' => cases h; rfl
  | ok a => cases h

/-- The `max` of R88 and R93 at width `k + 1`: codes below it take the short width `k`. -/
def codeMax (k : Nat) (R : Int) : Int := 2 * 2 ^ k - 1 - R

theorem readValue_succ (h : Bits) (q k : Nat) (R : Int) :
    readValue h q (k + 1) R =
      if (h.field q k : Int) < codeMax k R then (takeBits h q k).map fun x => ((h.field q k : Int), x.2)
      else
        (takeBits h q (k + 1)).map fun x => (if 2 ^ k ≤ x.1 then (x.1 : Int) - codeMax k R else (x.1 : Int), x.2) := rfl

/-- A value read is one the writer could have coded: `0 .. remaining` (R93's corner cases). -/
theorem readValue_range {h : Bits} {q nb q' : Nat} {R v : Int} (hw : WidthOf R nb)
    (hv : readValue h q nb R = .ok (v, q')) : 0 ≤ v ∧ v ≤ R ∧ q' ≤ h.len := by
  obtain ⟨k, rfl, hlow, -⟩ := hw
  rw [readValue_succ] at hv
  unfold codeMax at hv
  split at hv
  · obtain ⟨x, hx, hvq⟩ := exceptMap_eq_ok hv
    obtain ⟨rfl, hle⟩ := takeBits_eq_ok hx
    cases hvq
    have hlt : ((h.field q k : Nat) : Int) < 2 ^ k := mod_cast h.field_lt q k
    omega
  · obtain ⟨x, hx, hvq⟩ := exceptMap_eq_ok hv
    obtain ⟨rfl, hle⟩ := takeBits_eq_ok hx
    cases hvq
    have hlt : ((h.field q (k + 1) : Nat) : Int) < 2 * 2 ^ k := by rw [← pow_succ']; exact mod_cast h.field_lt q (k + 1)
    have hcast : ((2 ^ k : Nat) : Int) = 2 ^ k := by push_cast; rfl
    dsimp only
    split <;> omega

theorem readValue_eq_error {h : Bits} {q nb : Nat} {R : Int} {e : Stop} (he : readValue h q nb R = .error e) :
    e = .raise .ncountOverrun := by
  unfold readValue at he
  dsimp only at he
  split at he <;> exact takeBits_eq_error (exceptMap_eq_error he)

theorem readZeroRun_eq_ok {h : Bits} {fuel q n0 : Nat} {x : Nat × Nat} (hx : readZeroRun h fuel q n0 = .ok x) :
    n0 ≤ x.1 ∧ x.2 ≤ h.len := by
  induction fuel generalizing q n0 with
  | zero => cases hx
  | succ fuel ih =>
    rw [readZeroRun] at hx
    split at hx
    · cases hx
    next code q' hcode =>
      obtain ⟨hq, hle⟩ := takeBits_eq_ok hcode
      split at hx
      · obtain ⟨hn, hlen⟩ := ih hx
        exact ⟨by omega, hlen⟩
      · cases hx
        cases hq
        exact ⟨Nat.le_add_right .., hle⟩

theorem readZeroRun_eq_error {h : Bits} {fuel q n0 : Nat} {e : Stop} (he : readZeroRun h fuel q n0 = .error e) :
    e = .raise .ncountOverrun := by
  induction fuel generalizing q n0 with
  | zero => exact (Except.error.inj he).symm
  | succ fuel ih =>
    rw [readZeroRun] at he
    split at he
    · cases he
      exact takeBits_eq_error ‹_›
    · split at he
      · exact ih he
      · cases he

/-- What the reader keeps (R93): the slots read and `remaining` make up the table, at the width of `remaining`; and once
`remaining` is 1 the last weight is not 0, as it took slots. -/
structure NReader.Legal (tl : Nat) (h : Bits) (r : NReader) : Prop where
  inside : r.q ≤ h.len
  width : WidthOf r.remaining r.nbBits
  symbols : r.norm.length ≤ 256
  weights : ∀ w ∈ r.norm, -1 ≤ w
  slots_sum : ((r.norm.map slots).sum : Int) + r.remaining = 2 ^ tl + 1
  last : r.remaining = 1 → r.norm.getLast? ≠ some 0

theorem readRun_legal {tl : Nat} {h : Bits} {r r' : NReader} (hr : r.Legal tl h) (h1 : 1 < r.remaining)
    (hlen : r.norm.length ≤ 255) (hrun : readRun h r = .ok r') :
    r'.Legal tl h ∧ 1 < r'.remaining ∧ r'.norm.length ≤ 255 := by
  unfold readRun at hrun
  split at hrun
  · split at hrun
    · cases hrun
    next n0 q hzero =>
      split at hrun
      · cases hrun
      · cases hrun
        have hn0 := readZeroRun_eq_ok hzero
        have hnew : (r.norm ++ List.replicate (n0 - r.norm.length) 0).length ≤ 255 := by
          rw [List.length_append, List.length_replicate]
          omega
        exact ⟨{
          inside := hn0.2
          width := hr.width
          symbols := hnew.trans (by omega)
          weights := fun w hw => (List.mem_append.mp hw).elim (hr.weights w) fun hw => by
            rw [List.eq_of_mem_replicate hw]; omega
          slots_sum := by simpa [slots] using hr.slots_sum
          last := fun h => absurd h h1.ne' }, h1, hnew⟩
  · cases hrun
    exact ⟨hr, h1, hlen⟩

theorem readRun_eq_error {h : Bits} {r : NReader} {e : Stop} (he : readRun h r = .error e) :
    e = .raise .ncountOverrun ∨ e = .raise .ncountSymbol := by
  unfold readRun at he
  split at he
  · split at he
    · cases he
      exact .inl (readZeroRun_eq_error ‹_›)
    · split at he
      · exact .inr (Except.error.inj he).symm
      · cases he
  · cases he

/-- The running values once the weight `w` is read, the reader then at `q` (R93). -/
def NReader.read (r : NReader) (w : Int) (q : Nat) : NReader :=
  ⟨q, r.remaining - w.natAbs, shrinkBits (r.remaining - w.natAbs) r.nbBits, r.norm ++ [w], decide (w = 0)⟩

theorem readSymbol_of_ok {h : Bits} {r r' : NReader} {v : Int} {q : Nat} (hrun : readRun h r = .ok r')
    (hv : readValue h r'.q r'.nbBits r'.remaining = .ok (v, q)) : readSymbol h r = ⟨.ok (), r'.read (v - 1) q⟩ := by
  simp only [readSymbol, hrun, hv, NReader.read]

theorem NReader.Legal.read {tl : Nat} {h : Bits} {r : NReader} (hr : r.Legal tl h) {w : Int} {q : Nat}
    (h1 : 1 < r.remaining) (hlen : r.norm.length ≤ 255) (hw : -1 ≤ w) (hle : w < r.remaining) (hq : q ≤ h.len) :
    (r.read w q).Legal tl h where
  inside := hq
  width := hr.width.shrink (R' := r.remaining - w.natAbs) (by omega) (by omega)
  symbols := by
    rw [NReader.read, List.length_append]
    exact Nat.succ_le_succ hlen
  weights := fun x hx => (List.mem_append.mp hx).elim (hr.weights x) fun hx => by rwa [List.eq_of_mem_singleton hx]
  slots_sum := by
    have hsum := hr.slots_sum
    rw [NReader.read, slots_sum_append, slots_eq_natAbs hw]
    dsimp only
    omega
  last := fun hone => by
    rw [NReader.read] at hone
    rw [NReader.read, List.getLast?_concat, Ne, Option.some.injEq]
    dsimp only at hone
    omega

/-- What the reader's loop keeps, ended or aborted, and the errors R91 to R93 give it. -/
structure NReadRun.Legal (tl : Nat) (h : Bits) (run : NReadRun) : Prop where
  reader : run.r.Legal tl h
  error : ∀ e, run.out = .error e → e = .raise .ncountOverrun ∨ e = .raise .ncountSymbol

theorem NReader.Legal.ended {tl : Nat} {h : Bits} {r : NReader} (hr : r.Legal tl h) :
    NReadRun.Legal tl h ⟨.ok (), r⟩ where
  reader := hr
  error := fun _ he => nomatch he

theorem NReader.Legal.aborted {tl : Nat} {h : Bits} {r : NReader} (hr : r.Legal tl h) {e : Stop}
    (he : e = .raise .ncountOverrun ∨ e = .raise .ncountSymbol) : NReadRun.Legal tl h ⟨.error e, r⟩ where
  reader := hr
  error := fun _ h' => Except.error.inj h' ▸ he

theorem readSymbol_legal {tl : Nat} {h : Bits} {r : NReader} (hr : r.Legal tl h) (h1 : 1 < r.remaining)
    (hlen : r.norm.length ≤ 255) : (readSymbol h r).Legal tl h := by
  cases hrun : readRun h r with
  | error e =>
    simp only [readSymbol, hrun]
    exact hr.aborted (readRun_eq_error hrun)
  | ok r' =>
    obtain ⟨hr', h1', hlen'⟩ := readRun_legal hr h1 hlen hrun
    cases hv : readValue h r'.q r'.nbBits r'.remaining with
    | error e =>
      simp only [readSymbol, hrun, hv]
      exact hr'.aborted (.inl (readValue_eq_error hv))
    | ok x =>
      obtain ⟨hv0, hvR, hq⟩ := readValue_range hr'.width hv
      rw [readSymbol_of_ok hrun hv]
      exact (hr'.read h1' hlen' (by omega) (by omega) hq).ended

theorem readSymbols_legal {tl : Nat} {h : Bits} {fuel : Nat} {r : NReader} (hr : r.Legal tl h) :
    (readSymbols h fuel r).Legal tl h := by
  induction fuel generalizing r with
  | zero => exact hr.ended
  | succ fuel ih =>
    rw [readSymbols]
    split
    next hgo =>
      have hone := readSymbol_legal hr hgo.1 hgo.2
      dsimp only
      split
      · exact hone
      · exact ih hone.reader
    · exact hr.ended

/-! ### NC.READ -/

/-- The reader's running values after the table log (R91). -/
def readerStart (tl : Nat) : NReader := ⟨4, 2 ^ tl + 1, tl + 1, [], false⟩

theorem readerStart_legal {tl : Nat} (htl : 0 < tl) {h : Bits} (h4 : 4 ≤ h.len) : (readerStart tl).Legal tl h where
  inside := h4
  width := widthOf_initial tl htl
  symbols := by simp [readerStart]
  weights := by simp [readerStart]
  slots_sum := by simp [readerStart]
  last := by simp [readerStart]

theorem ncRead_nil : ncRead [] = ⟨.error (.raise .ncountOverrun), [], none⟩ := rfl

theorem ncRead_cons (b : Byte) (rest : List Byte) :
    ncRead (b :: rest) =
      if 15 < b.toNat % 16 + 5 then
        ⟨.error (.raise .ncountTableLog), [], some ((Config.freeTableLog (b.toNat % 16 + 5)).val + 5)⟩
      else
        readFinish (b.toNat % 16 + 5)
          (readSymbols (Bits.ofBytes (b :: rest)) 256 (readerStart (b.toNat % 16 + 5))) := by
  have hfield : (Bits.ofBytes (b :: rest)).field 0 4 = b.toNat % 16 := by
    have hlt : leNat (b :: rest) < 2 ^ (8 * (b :: rest).length) := by rw [Nat.pow_mul]; exact leNat_lt _
    rw [Bits.field, Bits.ofBytes, Nat.mod_eq_of_lt hlt, leNat]
    omega
  have htake : takeBits (Bits.ofBytes (b :: rest)) 0 4 = .ok (b.toNat % 16, 4) := by
    rw [takeBits_of_le (by simp only [Bits.ofBytes, List.length_cons]; omega), hfield]
  simp only [ncRead, htake]
  rfl

/-- R94 on what the loop keeps: an error of the four with the weights written, or a distribution that fills the
table. -/
theorem readFinish_cases {tl : Nat} {buf : List Byte} {run : NReadRun} (hrun : run.Legal tl (Bits.ofBytes buf))
    (h5 : 5 ≤ tl) (h15 : tl ≤ 15) :
    (∃ e, (readFinish tl run).out = .error (.raise e) ∧
      (e = .ncountOverrun ∨ e = .ncountSymbol ∨ e = .ncountRemaining)) ∨
    ∃ msv hlen, (readFinish tl run).out = .ok ⟨run.r.norm, msv, tl, hlen⟩ ∧ IsDist run.r.norm msv tl ∧
      run.r.norm.getD msv 0 ≠ 0 ∧ hlen ≤ buf.length := by
  obtain ⟨hr, herr⟩ := hrun
  cases hout : run.out with
  | error e =>
    obtain rfl | rfl := herr e hout
    · exact .inl ⟨_, by simp only [readFinish, hout], .inl rfl⟩
    · exact .inl ⟨_, by simp only [readFinish, hout], .inr (.inl rfl)⟩
  | ok u =>
    by_cases hone : run.r.remaining = 1
    · have hsum : (run.r.norm.map slots).sum = 2 ^ tl := by
        have hslots := hr.slots_sum
        rw [hone] at hslots
        exact_mod_cast add_right_cancel hslots
      have hne : run.r.norm ≠ [] := fun hnil => by
        rw [hnil] at hsum
        exact (Nat.two_pow_pos tl).ne hsum
      have hpos := List.length_pos_of_ne_nil hne
      refine .inr ⟨run.r.norm.length - 1, (run.r.q + 7) / 8, by simp only [readFinish, hout, hone, if_true],
        ⟨h5, h15, ?_, by omega, hr.weights, hsum⟩, fun hzero => hr.last hone ?_, ?_⟩
      · have := hr.symbols
        omega
      · rw [List.getLast?_eq_getElem?, List.getElem?_eq_getElem (by omega), ← List.getD_eq_getElem _ 0, hzero]
      · have hq : run.r.q ≤ 8 * buf.length := hr.inside
        omega
    · exact .inl ⟨_, by simp only [readFinish, hout, hone, if_false], .inr (.inr rfl)⟩

theorem exec_ncRead (buf : List Byte) (s : State) :
    exec (.ncRead buf) s =
      runOutcome s ((ncRead buf).leave s.work) ((ncRead buf).out.map fun d => .header d.msv d.hlen) := rfl

theorem exec_ncRead_of_error {buf : List Byte} {run : NCountRun} {e : ErrCode} (hrun : ncRead buf = run)
    (hout : run.out = .error (.raise e)) (s : State) :
    exec (.ncRead buf) s = .next { s with
      work := { s.work with norm := readWeights run.norm, tl := run.tl.getD s.work.tl }, result := .error e } := by
  rw [exec_ncRead, hrun, hout]
  rfl

theorem exec_ncRead_of_ok {buf : List Byte} {run : NCountRun} {d : NHeader} (hrun : ncRead buf = run)
    (hout : run.out = .ok d) (s : State) :
    exec (.ncRead buf) s = .next { s with
      work := { s.work with norm := readWeights run.norm, tl := run.tl.getD s.work.tl }
      result := .header d.msv d.hlen } := by
  rw [exec_ncRead, hrun, hout]
  rfl

theorem readWeights_length {norm : List Int} (h : norm.length ≤ 256) : (readWeights norm).length = 256 := by
  rw [readWeights, List.length_append, List.length_replicate]
  omega

/-- Settles O37: the reader keeps the slot sum in every turn (`readSymbols_legal`), so where it ends with `remaining` 1
its weights fill the table (`readFinish_cases`). -/
theorem nCountReaderIsTotal : Obligations.NCountReaderIsTotal := by
  intro buf s
  match buf with
  | [] =>
    exact .inl ⟨.ncountOverrun, _, _, .inl rfl, readWeights_length (Nat.zero_le _), fun _ => ⟨rfl, rfl⟩, by nofun,
      exec_ncRead_of_error ncRead_nil rfl s⟩
  | b :: rest =>
    have hrun := ncRead_cons b rest
    by_cases hlog : 15 < b.toNat % 16 + 5
    · rw [if_pos hlog] at hrun
      refine .inl ⟨.ncountTableLog, _, _, .inr (.inl rfl), readWeights_length (Nat.zero_le _), by nofun,
        fun b' rest' h => ?_, exec_ncRead_of_error hrun rfl s⟩
      obtain ⟨rfl, rfl⟩ := List.cons.inj h
      have hfree := (Config.freeTableLog (b.toNat % 16 + 5)).isLt
      exact ⟨⟨fun _ => hlog, fun _ => rfl⟩, Nat.le_add_left .., Nat.add_le_add_right (Nat.le_of_lt_succ hfree) 5,
        fun h => absurd rfl h⟩
    · rw [if_neg hlog] at hrun
      have hlegal := readSymbols_legal (fuel := 256)
        (readerStart_legal (tl := b.toNat % 16 + 5) (h := Bits.ofBytes (b :: rest)) (by omega)
          (by simp only [Bits.ofBytes, List.length_cons]; omega))
      obtain ⟨e, hout, he⟩ | ⟨msv, hlen, hout, hdist, hlast, hle⟩ := readFinish_cases hlegal (by omega) (by omega)
      · refine .inl ⟨e, _, _, he.imp_right .inr, readWeights_length hlegal.reader.symbols, by nofun,
          fun b' rest' h => ?_, exec_ncRead_of_error hrun hout s⟩
        obtain ⟨rfl, rfl⟩ := List.cons.inj h
        have hne : e ≠ .ncountTableLog := by obtain rfl | rfl | rfl := he <;> decide
        exact ⟨⟨fun h => absurd h hne, fun h => absurd h hlog⟩, Nat.le_add_left .., Nat.not_lt.mp hlog, fun _ => rfl⟩
      · exact .inr ⟨_, msv, _, hlen, hdist, hlast, hle, exec_ncRead_of_ok hrun hout s⟩

end Sys2Proof.Machine
end

section
/-! The header round trip (43_ncount.md R94). Writer and reader go in step: wherever a sequence begins with the header's
bits, the reader takes from it, field by field, what the writer put there, and both hold the same running values. -/

namespace Sys2Proof.Machine

/-! ### What a header's bits are the front of -/

/-- The bits `w` stand at the front of `h`. -/
def Bits.begins (w h : Bits) : Prop := w.len ≤ h.len ∧ ∀ j < w.len, h.bit j = w.bit j

theorem Bits.begins_rfl {w : Bits} : w.begins w := ⟨le_rfl, fun _ _ => rfl⟩

theorem Bits.begins.trans {u w h : Bits} (huw : u.begins w) (hwh : w.begins h) : u.begins h :=
  ⟨huw.1.trans hwh.1, fun j hj => (hwh.2 j (hj.trans_le huw.1)).trans (huw.2 j hj)⟩

theorem Bits.begins_append (w : Bits) (v n : Nat) : w.begins (w.append v n) :=
  ⟨Nat.le_add_right .., fun j hj => by rw [Bits.append_bit, if_pos hj]⟩

theorem Bits.begins_toBytes_append (w : Bits) (rest : List Byte) : w.begins (Bits.ofBytes (w.toBytes ++ rest)) := by
  refine ⟨?_, fun j hj => ?_⟩
  · simp only [Bits.ofBytes, List.length_append, Bits.toBytes_length]
    omega
  · have hbyte : j / 8 < w.toBytes.length := by
      rw [Bits.toBytes_length]
      omega
    rw [Bits.ofBytes_bit, List.getD_append _ _ _ _ hbyte, ← Bits.ofBytes_bit, Bits.ofBytes_toBytes_bit]

theorem Bits.begins.field {w h : Bits} {v n m : Nat} (hb : (w.append v n).begins h) (hm : m ≤ n) :
    h.field w.len m = v % 2 ^ m := by
  refine Nat.eq_of_testBit_eq fun i => ?_
  rw [Bits.field_testBit, Nat.testBit_mod_two_pow]
  by_cases hi : i < m
  · rw [hb.2 _ (by rw [Bits.append_len]; omega), Bits.append_bit, if_neg (by omega), Nat.add_sub_cancel_left,
      decide_eq_true (show w.len + i < w.len + n by omega), Bool.true_and]
  · simp [hi]

/-- A field written is taken back. -/
theorem Bits.begins.takeBits {w h : Bits} {v n : Nat} (hb : (w.append v n).begins h) (hv : v < 2 ^ n) :
    takeBits h w.len n = .ok (v, w.len + n) := by
  rw [takeBits_of_le hb.1, hb.field le_rfl, Nat.mod_eq_of_lt hv]

/-! ### Zero runs (R87, R92) -/

@[simp] theorem appendOnes_len (w : Bits) (width n : Nat) : (appendOnes w width n).len = w.len + width * n := by
  induction n generalizing w with
  | zero => rfl
  | succ n ih => rw [appendOnes, ih, Bits.append_len, Nat.mul_succ]; omega

theorem begins_appendOnes (w : Bits) (width n : Nat) : w.begins (appendOnes w width n) := by
  induction n generalizing w with
  | zero => exact Bits.begins_rfl
  | succ n ih => exact (Bits.begins_append w _ _).trans (ih _)

theorem appendOnes_add (w : Bits) (width m n : Nat) :
    appendOnes w width (m + n) = appendOnes (appendOnes w width m) width n := by
  induction m generalizing w with
  | zero => rw [Nat.zero_add]; rfl
  | succ m ih => rw [Nat.succ_add, appendOnes, ih, appendOnes]

/-- A group of sixteen 1 bits is eight codes 3 (R87). -/
theorem appendOnes_sixteen (w : Bits) (n : Nat) : appendOnes w 16 n = appendOnes w 2 (8 * n) := by
  induction n generalizing w with
  | zero => rfl
  | succ n ih =>
    have hgroup : w.append (2 ^ 16 - 1) 16 = appendOnes w 2 8 := by
      simp [appendOnes, Bits.append_append]
    rw [appendOnes, ih, hgroup, ← appendOnes_add, Nat.mul_succ, Nat.add_comm]

theorem writeZeroRun_eq (w : Bits) (z : Nat) : writeZeroRun w z = (appendOnes w 2 (z / 3)).append (z % 3) 2 := by
  rw [writeZeroRun, appendOnes_sixteen, ← appendOnes_add, show 8 * (z / 24) + z % 24 / 3 = z / 3 by omega]

theorem begins_writeZeroRun (w : Bits) (z : Nat) : w.begins (writeZeroRun w z) := by
  rw [writeZeroRun_eq]
  exact (begins_appendOnes w 2 _).trans (Bits.begins_append _ _ _)

theorem writeZeroRun_len (w : Bits) (z : Nat) : (writeZeroRun w z).len = w.len + 2 * (z / 3) + 2 := by
  rw [writeZeroRun_eq, Bits.append_len, appendOnes_len]

theorem readZeroRun_of_appendOnes {h : Bits} {c : Nat} (hc : c < 3) {m : Nat} {w : Bits} {fuel n0 : Nat}
    (hfuel : m < fuel) (hb : ((appendOnes w 2 m).append c 2).begins h) :
    readZeroRun h fuel w.len n0 = .ok (n0 + (3 * m + c), w.len + 2 * m + 2) := by
  induction m generalizing w fuel n0 with
  | zero =>
    obtain ⟨fuel, rfl⟩ := Nat.exists_eq_succ_of_ne_zero hfuel.ne'
    simp only [readZeroRun, Bits.begins.takeBits (w := w) hb (by omega), hc.ne, if_false]
    simp
  | succ m ih =>
    obtain ⟨fuel, rfl⟩ := Nat.exists_eq_succ_of_ne_zero (Nat.ne_zero_of_lt hfuel)
    have hthree : (w.append 3 2).begins h := ((begins_appendOnes _ 2 m).trans (Bits.begins_append _ c 2)).trans hb
    have hrest := ih (w := w.append 3 2) (fuel := fuel) (n0 := n0 + 3) (Nat.lt_of_succ_lt_succ hfuel) hb
    rw [Bits.append_len] at hrest
    simp only [readZeroRun, hthree.takeBits (by omega), if_true, hrest]
    congr 2 <;> omega

/-- A run of zero weights written is read back, and the reader stands where the writer does. -/
theorem readZeroRun_writeZeroRun {w h : Bits} {z : Nat} (hb : (writeZeroRun w z).begins h) (n0 : Nat) :
    readZeroRun h (h.len + 1) w.len n0 = .ok (n0 + z, (writeZeroRun w z).len) := by
  have hlen := hb.1
  rw [writeZeroRun_len] at hlen ⊢
  rw [writeZeroRun_eq] at hb
  rw [readZeroRun_of_appendOnes (Nat.mod_lt _ (by omega)) (by omega) hb, Nat.div_add_mod]

/-! ### Values (R88, R93) -/

/-- The code of a weight (R88): below `max` as it is, in the short width; else in the full width, from the threshold up
with `max` added, so that its low bits are no code below `max`. -/
theorem weightCode_cases {k : Nat} {R w : Int} (hhigh : R < 2 ^ (k + 1)) (hw : -1 ≤ w) (hle : w < R) :
    ∃ c : Nat,
      (weightCode (k + 1) R w = ((c : Int), true) ∧ c < 2 ^ k ∧ (c : Int) < codeMax k R ∧ (c : Int) = w + 1) ∨
      (weightCode (k + 1) R w = ((c : Int), false) ∧ c < 2 ^ (k + 1) ∧ codeMax k R ≤ ((c % 2 ^ k : Nat) : Int) ∧
        (if 2 ^ k ≤ c then (c : Int) - codeMax k R else c) = w + 1) := by
  have hcast : ((2 ^ k : Nat) : Int) = 2 ^ k := by push_cast; rfl
  rw [pow_succ'] at hhigh
  simp only [weightCode, Nat.add_sub_cancel, codeMax, pow_succ']
  generalize (2 : Int) ^ k = T at *
  generalize 2 ^ k = t at *
  obtain ⟨v, hv⟩ := Int.eq_ofNat_of_zero_le (show 0 ≤ w + 1 by omega)
  obtain ⟨m, hm⟩ := Int.eq_ofNat_of_zero_le (show 0 ≤ 2 * T - 1 - R by omega)
  rw [hv, hm]
  by_cases hbig : T ≤ (v : Int)
  · refine ⟨v + m, .inr ⟨?_, by omega, ?_, ?_⟩⟩
    · rw [if_pos hbig, decide_eq_false (by omega)]
      push_cast
      rfl
    · rw [show v + m = (v + m - t) + t by omega, Nat.add_mod_right, Nat.mod_eq_of_lt (by omega)]
      omega
    · rw [if_pos (by omega)]
      omega
  · rw [if_neg hbig]
    refine ⟨v, ?_⟩
    by_cases hshort : (v : Int) < m
    · exact .inl ⟨by rw [decide_eq_true hshort], by omega, hshort, rfl⟩
    · exact .inr ⟨by rw [decide_eq_false hshort], by omega, by rw [Nat.mod_eq_of_lt (by omega)]; omega,
        by rw [if_neg (by omega)]⟩

theorem readValue_of_short {w h : Bits} {k c : Nat} {R : Int} (hb : (w.append c k).begins h) (hc : c < 2 ^ k)
    (hmax : (c : Int) < codeMax k R) : readValue h w.len (k + 1) R = .ok ((c : Int), (w.append c k).len) := by
  have hlow : h.field w.len k = c := (hb.field le_rfl).trans (Nat.mod_eq_of_lt hc)
  rw [readValue_succ, hlow, if_pos hmax, hb.takeBits hc]
  rfl

theorem readValue_of_long {w h : Bits} {k c : Nat} {R : Int} (hb : (w.append c (k + 1)).begins h) (hc : c < 2 ^ (k + 1))
    (hmax : codeMax k R ≤ ((c % 2 ^ k : Nat) : Int)) :
    readValue h w.len (k + 1) R =
      .ok (if 2 ^ k ≤ c then (c : Int) - codeMax k R else c, (w.append c (k + 1)).len) := by
  rw [readValue_succ, hb.field (Nat.le_succ k), if_neg (Int.not_lt.mpr hmax), hb.takeBits hc]
  rfl

theorem codeField_natCast (c n : Nat) : codeField c n = c := by
  rw [codeField, if_pos (Int.natCast_nonneg c), Int.toNat_natCast]

/-- The writer's running values once the weight `w` is written, its bits then `h'` (R88). -/
def NWriter.wrote (nw : NWriter) (w : Int) (h' : Bits) : NWriter :=
  ⟨h', nw.remaining - w.natAbs, shrinkBits (nw.remaining - w.natAbs) nw.nbBits⟩

@[simp] theorem wrote_h (nw : NWriter) (w : Int) (h' : Bits) : (nw.wrote w h').h = h' := rfl

@[simp] theorem wrote_remaining (nw : NWriter) (w : Int) (h' : Bits) :
    (nw.wrote w h').remaining = nw.remaining - w.natAbs := rfl

@[simp] theorem wrote_nbBits (nw : NWriter) (w : Int) (h' : Bits) :
    (nw.wrote w h').nbBits = shrinkBits (nw.remaining - w.natAbs) nw.nbBits := rfl

theorem writeWeight_of_code {nw : NWriter} {w : Int} (h1 : 1 < nw.remaining) (hw : -1 ≤ w) (hle : w < nw.remaining)
    {c : Nat} {short : Bool} (hcode : weightCode nw.nbBits nw.remaining w = ((c : Int), short)) :
    writeWeight nw w = .ok (nw.wrote w (nw.h.append c (if short then nw.nbBits - 1 else nw.nbBits))) := by
  simp only [writeWeight, hcode, codeField_natCast]
  rw [if_neg (by omega)]
  rfl

/-- The writer puts the weight `w` after its bits, making them `h'`, and the reader takes it back from there. -/
structure NWriter.CodesValue (nw : NWriter) (w : Int) (h' : Bits) : Prop where
  write : writeWeight nw w = .ok (nw.wrote w h')
  begins : nw.h.begins h'
  len_le : h'.len ≤ nw.h.len + nw.nbBits
  read : ∀ {h : Bits}, h'.begins h → readValue h nw.h.len nw.nbBits nw.remaining = .ok (w + 1, h'.len)

theorem codesValue_of_code {nw : NWriter} {w : Int} {k c : Nat} {short : Bool} (hk : nw.nbBits = k + 1)
    (h1 : 1 < nw.remaining) (hw : -1 ≤ w) (hle : w < nw.remaining)
    (hcode : weightCode (k + 1) nw.remaining w = ((c : Int), short)) {n : Nat} (hn : (if short then k else k + 1) = n)
    (hread : ∀ {h : Bits}, (nw.h.append c n).begins h →
      readValue h nw.h.len (k + 1) nw.remaining = .ok (w + 1, (nw.h.append c n).len)) :
    nw.CodesValue w (nw.h.append c n) where
  write := by rw [writeWeight_of_code h1 hw hle (hk ▸ hcode), ← hn, hk, Nat.add_sub_cancel]
  begins := Bits.begins_append _ _ _
  len_le := by
    rw [Bits.append_len, ← hn]
    split <;> omega
  read := hk ▸ hread

theorem exists_codesValue {nw : NWriter} {w : Int} (hwidth : WidthOf nw.remaining nw.nbBits) (h1 : 1 < nw.remaining)
    (hw : -1 ≤ w) (hle : w < nw.remaining) : ∃ h', nw.CodesValue w h' := by
  obtain ⟨k, hk, -, hhigh⟩ := hwidth
  obtain ⟨c, ⟨hcode, hc, hmax, hval⟩ | ⟨hcode, hc, hmax, hval⟩⟩ := weightCode_cases hhigh hw hle
  · exact ⟨_, codesValue_of_code hk h1 hw hle hcode rfl fun hb => hval ▸ readValue_of_short hb hc hmax⟩
  · exact ⟨_, codesValue_of_code hk h1 hw hle hcode rfl fun hb => hval ▸ readValue_of_long hb hc hmax⟩

/-! ### One turn (R86, R91) -/

/-- The writer once it has written the zero run it is in, if it is in one (R87). -/
def NWriter.afterRun (nw : NWriter) : Option Nat → NWriter
  | none => nw
  | some z => { nw with h := writeZeroRun nw.h z }

/-- The reader in step with the writer, where `done` are the weights whose bits are written. -/
def NWriter.reader (nw : NWriter) (run : Option Nat) (done : List Int) : NReader :=
  ⟨nw.h.len, nw.remaining, nw.nbBits, done, run.isSome⟩

theorem afterRun_begins (nw : NWriter) (run : Option Nat) : nw.h.begins (nw.afterRun run).h := by
  cases run with
  | none => exact Bits.begins_rfl
  | some z => exact begins_writeZeroRun _ z

@[simp] theorem afterRun_remaining (nw : NWriter) (run : Option Nat) : (nw.afterRun run).remaining = nw.remaining := by
  cases run <;> rfl

@[simp] theorem afterRun_nbBits (nw : NWriter) (run : Option Nat) : (nw.afterRun run).nbBits = nw.nbBits := by
  cases run <;> rfl

/-- A run of `z` zero weights costs at most 2 bits for each and 2 to end it (R89). -/
theorem afterRun_len_le (nw : NWriter) (run : Option Nat) :
    (nw.afterRun run).h.len ≤ nw.h.len + 2 * run.getD 0 + 2 := by
  cases run with
  | none => exact Nat.le_add_right_of_le (Nat.le_add_right _ _)
  | some z =>
    rw [NWriter.afterRun, writeZeroRun_len, Option.getD_some]
    omega

theorem readRun_afterRun {nw : NWriter} {run : Option Nat} {done : List Int} {h : Bits}
    (hb : (nw.afterRun run).h.begins h) (hlen : done.length + run.getD 0 ≤ 255) :
    readRun h (nw.reader run done) =
      .ok ((nw.afterRun run).reader run (done ++ List.replicate (run.getD 0) 0)) := by
  cases run with
  | none =>
    rw [Option.getD_none, List.replicate_zero, List.append_nil]
    rfl
  | some z =>
    rw [Option.getD_some] at hlen
    simp only [readRun, NWriter.reader, Option.isSome_some, if_true, readZeroRun_writeZeroRun hb, NWriter.afterRun,
      Option.getD_some, Nat.add_sub_cancel_left]
    rw [if_neg (Nat.not_lt.mpr hlen)]

/-- The run the writer is in after the weight `w`. -/
def runAfter (w : Int) : Option Nat := if w = 0 then some 0 else none

@[simp] theorem runAfter_getD (w : Int) : (runAfter w).getD 0 = 0 := by
  unfold runAfter
  split <;> rfl

@[simp] theorem runAfter_isSome (w : Int) : (runAfter w).isSome = decide (w = 0) := by
  unfold runAfter
  split <;> simp [*]

theorem reader_read (nw : NWriter) (run : Option Nat) (done : List Int) (w : Int) (h' : Bits) :
    (nw.reader run done).read w h'.len = (nw.wrote w h').reader (runAfter w) (done ++ [w]) := by
  simp only [NWriter.reader, NReader.read, NWriter.wrote, runAfter_isSome]

theorem writeWeights?_of_value {atEnd : Stop} {w : Int} {ws : List Int} {run : Option Nat} {nw nw' : NWriter}
    (h1 : 1 < nw.remaining) (hvalue : w ≠ 0 ∨ run = none) (hwrite : writeWeight (nw.afterRun run) w = .ok nw') :
    writeWeights? atEnd (w :: ws) run nw = writeWeights? atEnd ws (runAfter w) nw' := by
  cases run with
  | none =>
    rw [NWriter.afterRun] at hwrite
    rw [writeWeights?, if_neg (Int.not_le.mpr h1), hwrite, runAfter]
  | some z =>
    have hw : w ≠ 0 := hvalue.resolve_right (Option.some_ne_none z)
    rw [NWriter.afterRun] at hwrite
    rw [writeWeights?, if_neg (Int.not_le.mpr h1), if_neg hw, hwrite, runAfter, if_neg hw]

theorem writeWeights?_of_zero {atEnd : Stop} {ws : List Int} {z : Nat} {nw : NWriter} (h1 : 1 < nw.remaining) :
    writeWeights? atEnd (0 :: ws) (some z) nw = writeWeights? atEnd ws (some (z + 1)) nw := by
  rw [writeWeights?, if_neg (Int.not_le.mpr h1), if_pos rfl]

theorem readSymbols_of_ended {h : Bits} {r : NReader} (hone : r.remaining = 1) (fuel : Nat) :
    readSymbols h fuel r = ⟨.ok (), r⟩ := by
  cases fuel with
  | zero => rfl
  | succ fuel => rw [readSymbols, if_neg (by omega)]

theorem readSymbols_of_turn {h : Bits} {r r' : NReader} {fuel : Nat} (h1 : 1 < r.remaining) (hlen : r.norm.length ≤ 255)
    (hturn : readSymbol h r = ⟨.ok (), r'⟩) : readSymbols h (fuel + 1) r = readSymbols h fuel r' := by
  rw [readSymbols, if_pos ⟨h1, hlen⟩, hturn]

/-! ### All turns -/

/-- What the writer owes at a turn: `ws`, which end in a present symbol, take the slots that remain. -/
structure NWriter.Owes (nw : NWriter) (run : Option Nat) (ws : List Int) : Prop where
  width : WidthOf nw.remaining nw.nbBits
  width_le : nw.nbBits ≤ 16
  weights : ∀ w ∈ ws, -1 ≤ w
  slots_sum : ((ws.map slots).sum : Int) + 1 = nw.remaining
  last : ws.getLast? ≠ some 0
  ends : ws = [] → run = none

/-- The writer ends in `nw'` having written `ws`, and the reader follows it. -/
structure NWriter.Writes (nw : NWriter) (atEnd : Stop) (run : Option Nat) (done ws : List Int) (nw' : NWriter) :
    Prop where
  write : writeWeights? atEnd ws run nw = .ok nw'
  begins : nw.h.begins nw'.h
  remaining : nw'.remaining = 1
  len_le : nw'.h.len ≤ nw.h.len + 18 * (run.getD 0 + ws.length)
  read : ∀ {h : Bits} {fuel : Nat}, nw'.h.begins h → ws.length ≤ fuel →
    readSymbols h fuel (nw.reader run done)
      = ⟨.ok (), nw'.reader none (done ++ List.replicate (run.getD 0) 0 ++ ws)⟩

theorem NWriter.Owes.remaining_gt {nw : NWriter} {run : Option Nat} {w : Int} {ws : List Int}
    (h : nw.Owes run (w :: ws)) : 1 < nw.remaining := by
  have hsum := h.slots_sum
  have hmem := List.getLast_mem (List.cons_ne_nil w ws)
  have hne : (w :: ws).getLast (List.cons_ne_nil w ws) ≠ 0 := fun hzero =>
    h.last (by rw [List.getLast?_eq_getLast_of_ne_nil (List.cons_ne_nil w ws), hzero])
  have hslots := List.le_sum_of_mem (List.mem_map_of_mem (f := slots) hmem)
  rw [slots_eq_natAbs (h.weights _ hmem)] at hslots
  omega

theorem NWriter.Owes.zero {nw : NWriter} {z : Nat} {ws : List Int} (h : nw.Owes (some z) (0 :: ws)) :
    nw.Owes (some (z + 1)) ws where
  width := h.width
  width_le := h.width_le
  weights := fun w hw => h.weights w (List.mem_cons_of_mem _ hw)
  slots_sum := by simpa [slots] using h.slots_sum
  last := fun hlast => h.last (by rw [List.getLast?_cons, hlast]; rfl)
  ends := fun hnil => absurd (by rw [hnil]; rfl) h.last

theorem NWriter.Owes.head_lt {nw : NWriter} {run : Option Nat} {w : Int} {ws : List Int} (h : nw.Owes run (w :: ws)) :
    w < nw.remaining := by
  have hsum := h.slots_sum
  have hw := le_slots w
  rw [List.map_cons, List.sum_cons] at hsum
  omega

theorem NWriter.Owes.value {nw : NWriter} {run : Option Nat} {w : Int} {ws : List Int} (h : nw.Owes run (w :: ws))
    (h' : Bits) : ((nw.afterRun run).wrote w h').Owes (runAfter w) ws := by
  have hsum := h.slots_sum
  have hslots := slots_eq_natAbs (h.weights w List.mem_cons_self)
  rw [List.map_cons, List.sum_cons, hslots] at hsum
  refine ⟨?_, ?_, fun x hx => h.weights x (List.mem_cons_of_mem _ hx), ?_, fun hlast => h.last ?_, fun hnil => ?_⟩
  · rw [wrote_nbBits, wrote_remaining, afterRun_remaining, afterRun_nbBits]
    exact h.width.shrink (by omega) (by omega)
  · exact (shrinkBits_le _ _).trans (by rw [afterRun_nbBits]; exact h.width_le)
  · rw [wrote_remaining, afterRun_remaining]
    omega
  · rw [List.getLast?_cons, hlast]
    rfl
  · have hlast := h.last
    rw [hnil, List.getLast?_singleton, Ne, Option.some.injEq] at hlast
    exact if_neg hlast

theorem writes_nil (atEnd : Stop) {nw : NWriter} (done : List Int) (hone : nw.remaining = 1) :
    nw.Writes atEnd none done [] nw where
  write := if_pos hone
  begins := Bits.begins_rfl
  remaining := hone
  len_le := Nat.le_add_right _ _
  read := fun {_ fuel} _ _ => by
    rw [readSymbols_of_ended (r := nw.reader none done) hone]
    simp only [Option.getD_none, List.replicate_zero, List.append_nil]

/-- A further zero weight of a run is passed over (R87). -/
theorem NWriter.Writes.zero {atEnd : Stop} {nw nw' : NWriter} {z : Nat} {done ws : List Int} (h1 : 1 < nw.remaining)
    (h : nw.Writes atEnd (some (z + 1)) done ws nw') : nw.Writes atEnd (some z) done (0 :: ws) nw' where
  write := (writeWeights?_of_zero h1).trans h.write
  begins := h.begins
  remaining := h.remaining
  len_le := by
    have hle := h.len_le
    simp only [Option.getD_some, List.length_cons] at hle ⊢
    omega
  read := fun hb hfuel => by
    rw [show nw.reader (some z) done = nw.reader (some (z + 1)) done from rfl,
      h.read hb ((Nat.le_succ _).trans hfuel)]
    simp only [Option.getD_some, List.replicate_succ', List.append_assoc, List.singleton_append]

/-- A weight is written and read as a value, after the run it ends if it ends one. -/
theorem NWriter.Owes.writes_value {atEnd : Stop} {nw nw' : NWriter} {run : Option Nat} {w : Int} {done ws : List Int}
    {h' : Bits} (ho : nw.Owes run (w :: ws)) (hvalue : w ≠ 0 ∨ run = none) (hlen : done.length + run.getD 0 ≤ 255)
    (hcodes : (nw.afterRun run).CodesValue w h')
    (h : ((nw.afterRun run).wrote w h').Writes atEnd (runAfter w)
      (done ++ List.replicate (run.getD 0) 0 ++ [w]) ws nw') :
    nw.Writes atEnd run done (w :: ws) nw' where
  write := (writeWeights?_of_value ho.remaining_gt hvalue hcodes.write).trans h.write
  begins := (afterRun_begins nw run).trans (hcodes.begins.trans h.begins)
  remaining := h.remaining
  len_le := by
    have hrest := h.len_le
    have hcode := hcodes.len_le
    have hrun := afterRun_len_le nw run
    have hwidth := ho.width_le
    rw [wrote_h, runAfter_getD] at hrest
    rw [afterRun_nbBits] at hcode
    rw [List.length_cons]
    omega
  read := fun {s fuel} hb hfuel => by
    have hbits : h'.begins s := h.begins.trans hb
    have hturn : readSymbol s (nw.reader run done) = ⟨.ok (), _⟩ :=
      readSymbol_of_ok (readRun_afterRun (hcodes.begins.trans hbits) hlen) (hcodes.read hbits)
    obtain ⟨fuel, rfl⟩ := Nat.exists_eq_succ_of_ne_zero (Nat.ne_zero_of_lt hfuel)
    rw [readSymbols_of_turn (r := nw.reader run done) ho.remaining_gt ((Nat.le_add_right _ _).trans hlen) hturn,
      Int.add_sub_cancel, reader_read, h.read hb (Nat.le_of_succ_le_succ hfuel)]
    simp only [runAfter_getD, List.replicate_zero, List.append_nil, List.append_assoc, List.singleton_append]

/-- Writer and reader in step, over the weights still to be written. -/
theorem NWriter.Owes.writes (atEnd : Stop) {ws : List Int} {run : Option Nat} {nw : NWriter} {done : List Int}
    (h : nw.Owes run ws) (hlen : done.length + run.getD 0 + ws.length ≤ 256) :
    ∃ nw', nw.Writes atEnd run done ws nw' := by
  induction ws generalizing run nw done with
  | nil =>
    obtain rfl := h.ends rfl
    exact ⟨nw, writes_nil atEnd done (by simpa using h.slots_sum.symm)⟩
  | cons w ws ih =>
    have h1 := h.remaining_gt
    rw [List.length_cons] at hlen
    by_cases hvalue : w ≠ 0 ∨ run = none
    · obtain ⟨h', hcodes⟩ := exists_codesValue (nw := nw.afterRun run) (w := w) (by simpa using h.width)
        (by simpa using h1) (h.weights w List.mem_cons_self) (by simpa using h.head_lt)
      obtain ⟨nw', hnext⟩ := ih (done := done ++ List.replicate (run.getD 0) 0 ++ [w]) (h.value h') (by
        simp only [List.length_append, List.length_replicate, List.length_singleton, runAfter_getD]
        omega)
      exact ⟨nw', h.writes_value hvalue (by omega) hcodes hnext⟩
    · obtain ⟨hw, hrun⟩ := not_or.mp hvalue
      obtain rfl := not_not.mp hw
      obtain ⟨z, rfl⟩ := Option.ne_none_iff_exists'.mp hrun
      obtain ⟨nw', hnext⟩ := ih (done := done) h.zero (by simp only [Option.getD_some] at hlen ⊢; omega)
      exact ⟨nw', hnext.zero h1⟩

/-! ### The header -/

/-- The writer's running values after the table log (R86). -/
def writerStart (tl : Nat) : NWriter := ⟨Bits.empty.append (tl - 5) 4, 2 ^ tl + 1, tl + 1⟩

theorem owes_of_isDist {norm : List Int} {msv tl : Nat} (h : IsDist norm msv tl) (hlast : norm.getD msv 0 ≠ 0) :
    (writerStart tl).Owes none norm := by
  obtain ⟨h5, h15, hmsv, hlen, hweights, hsum⟩ := h
  refine ⟨widthOf_initial tl (by omega), Nat.succ_le_succ h15, hweights, ?_, fun hzero => hlast ?_, fun _ => rfl⟩
  · rw [hsum]
    simp [writerStart]
  · rw [List.getLast?_eq_getElem?, hlen, Nat.add_sub_cancel] at hzero
    rw [List.getD_eq_getElem?_getD, hzero]
    rfl

theorem ncWrite_of_writes {norm : List Int} {msv tl : Nat} {nw : NWriter} (h5 : 5 ≤ tl) (h15 : tl ≤ 15)
    (hlen : norm.length = msv + 1) (h : (writerStart tl).Writes (.raise .argDist) none [] norm nw) :
    ncWrite norm msv tl = .ok nw.h.toBytes := by
  have hlog : ¬(tl < minTableLog ∨ maxTableLog < tl) := by unfold minTableLog maxTableLog; omega
  have hwrite := h.write
  rw [writerStart] at hwrite
  simp only [ncWrite, if_neg hlog, hlen, Nat.not_succ_le_self, if_false, List.take_of_length_le hlen.le, hwrite]
  rfl

theorem ncRead_of_writes {norm : List Int} {tl : Nat} {nw : NWriter} (h5 : 5 ≤ tl) (h15 : tl ≤ 15)
    (hlen : norm.length ≤ 256) (h : (writerStart tl).Writes (.raise .argDist) none [] norm nw) (rest : List Byte) :
    ncRead (nw.h.toBytes ++ rest) =
      ⟨.ok ⟨norm, norm.length - 1, tl, nw.h.toBytes.length⟩, norm, some tl⟩ := by
  have hb := Bits.begins_toBytes_append nw.h rest
  have hlog : takeBits (Bits.ofBytes (nw.h.toBytes ++ rest)) 0 4 = .ok (tl - 5, 4) :=
    Bits.begins.takeBits (w := Bits.empty) (h.begins.trans hb) (by omega)
  have hread : readSymbols _ 256 (readerStart tl) = _ := h.read hb hlen
  rw [readerStart] at hread
  simp only [ncRead, hlog, Nat.sub_add_cancel h5, if_neg (show ¬maxTableLog < tl from Nat.not_lt.mpr h15), hread,
    readFinish, NWriter.reader, h.remaining, if_true, Option.getD_none, List.replicate_zero, List.append_nil,
    List.nil_append, Bits.toBytes_length]

theorem exec_ncWrite_of_ok {norm : List Int} {msv tl : Nat} {bs : List Byte} (h : ncWrite norm msv tl = .ok bs)
    (hfits : bs.length ≤ payCap) (s : State) :
    exec (.ncWrite norm msv tl) s = .next { s with payBuf := Memory.write s.payBuf 0 bs, result := .bytes bs } := by
  simp only [exec, execNcWrite, h, Memory.store_of_le s.payBuf (a := 0) ((Nat.zero_add _).trans_le hfits)]
  rfl

/-- Settles O36: the reader follows the writer field by field (`NWriter.Owes.writes`). -/
theorem nCountHeaderRoundTrip : Obligations.NCountHeaderRoundTrip := by
  intro norm msv tl rest s hdist hlast
  obtain ⟨h5, h15, hmsv, hlen, -, -⟩ := id hdist
  obtain ⟨nw, h⟩ := (owes_of_isDist hdist hlast).writes (.raise .argDist) (done := [])
    (by simp only [List.length_nil, Option.getD_none]; omega)
  have hshort : nw.h.toBytes.length < 600 := by
    have hle := h.len_le
    simp only [writerStart, Bits.append_len, Bits.empty, Option.getD_none] at hle
    rw [Bits.toBytes_length]
    omega
  have hread := ncRead_of_writes h5 h15 (by omega) h rest
  rw [hlen, Nat.add_sub_cancel] at hread
  exact ⟨_, hshort, exec_ncWrite_of_ok (ncWrite_of_writes h5 h15 hlen h) (by unfold payCap; omega) s,
    exec_ncRead_of_ok hread rfl s⟩

end Sys2Proof.Machine
end

section
/-! The spread (44_tables.md R95 to R97). The step is odd, so the walk of R95 visits every slot once; the placements of R96
follow it without the slots at the top (`placeSymbols_eq_zip`), so each cell of `tableSymbol` is written once. -/

namespace Sys2Proof.Machine

/-! ### A RAM whose cells are each written once -/

theorem perm_range_of_nodup {l : List Nat} {n : Nat} (hnodup : l.Nodup) (hlt : ∀ x ∈ l, x < n) (hlen : l.length = n) :
    l.Perm (List.range n) :=
  (hnodup.subperm fun x hx => List.mem_range.mpr (hlt x hx)).perm_of_length_le (by simp [hlen])

/-- A cell holds what the last of the writes to it puts there. -/
theorem ramWritten_getElem? {α : Type} {n i : Nat} {ws : List (Nat × α)} (hws : ∀ p ∈ ws, p.1 < 2 ^ n) (hi : i < 2 ^ n) :
    (ramWritten n ws)[i]? = some ((ws.filter fun p => p.1 = i).getLast?.map fun p => p.2) := by
  induction n generalizing i ws with
  | zero =>
    obtain rfl : i = 0 := by simpa using hi
    have hall : ws.filter (fun p => p.1 = 0) = ws := List.filter_eq_self.mpr fun p hp => by simpa using hws p hp
    simp [ramWritten, hall]
  | succ n ih =>
    rw [pow_succ] at hi
    rw [ramWritten]
    by_cases hlow : i < 2 ^ n
    · rw [List.getElem?_append_left (by simpa using hlow),
        ih (fun p hp => by simpa using (List.mem_filter.mp hp).2) hlow, List.filter_filter]
      have hfilter : ∀ p ∈ ws, (decide (p.1 = i) && decide (p.1 < 2 ^ n)) = decide (p.1 = i) := fun p _ => by
        simp only [Bool.and_eq_left_iff_imp, decide_eq_true_eq]
        omega
      rw [List.filter_congr hfilter]
    · have hhigh : ∀ p ∈ (ws.filter fun p => 2 ^ n ≤ p.1).map (fun p => (p.1 - 2 ^ n, p.2)), p.1 < 2 ^ n := by
        intro p hp
        obtain ⟨q, hq, rfl⟩ := List.mem_map.mp hp
        have hqlt := hws q (List.mem_filter.mp hq).1
        rw [pow_succ] at hqlt
        simp only
        omega
      rw [List.getElem?_append_right (by simpa using hlow), ramWritten_length, ih hhigh (by omega), List.filter_map,
        List.getLast?_map, List.filter_filter, Option.map_map]
      have hfilter : ∀ p ∈ ws, (decide (p.1 - 2 ^ n = i - 2 ^ n) && decide (2 ^ n ≤ p.1)) = decide (p.1 = i) :=
        fun p _ => by
          rw [← Bool.decide_and, decide_eq_decide]
          omega
      exact congrArg (fun l => some (Option.map Prod.snd l.getLast?)) (List.filter_congr hfilter)

/-- A cell with one write to it. -/
theorem ramWritten_getElem?_of_mem {α : Type} {n i : Nat} {x : α} {ws : List (Nat × α)} (hws : ∀ p ∈ ws, p.1 < 2 ^ n)
    (hnodup : (ws.map Prod.fst).Nodup) (hmem : (i, x) ∈ ws) : (ramWritten n ws)[i]? = some (some x) := by
  rw [ramWritten_getElem? hws (hws _ hmem)]
  cases hlast : (ws.filter fun p => p.1 = i).getLast? with
  | none =>
    have hnone := List.filter_eq_nil_iff.mp (List.getLast?_eq_none_iff.mp hlast) (i, x) hmem
    simp at hnone
  | some q =>
    obtain ⟨hq, hqi⟩ := List.mem_filter.mp (List.mem_of_getLast? hlast)
    have : q = (i, x) := List.inj_on_of_nodup_map hnodup hq hmem (by simpa using hqi)
    simp [this]

/-- The cells `pos`, all of them in some order, hold `vals`, so the table is a rearrangement of `vals`. -/
theorem perm_of_getElem?_eq {α : Type} {table vals : List α} {pos : List Nat} (hpos : pos.Perm (List.range table.length))
    (hlen : vals.length = table.length) (hat : ∀ k p : Nat, pos[k]? = some p → table[p]? = vals[k]?) : table.Perm vals := by
  have hvals : pos.map (fun p => table[p]?) = vals.map some := List.ext_getElem? fun k => by
    rw [List.getElem?_map, List.getElem?_map]
    by_cases hk : k < pos.length
    · have hkp : pos[k]? = some pos[k] := List.getElem?_eq_getElem hk
      have hkv : k < vals.length := by rwa [hlen, ← List.length_range (n := table.length), ← hpos.length_eq]
      rw [hkp, Option.map_some, hat k _ hkp, List.getElem?_eq_getElem hkv]
      rfl
    · have hkv : vals.length ≤ k := by rwa [hlen, ← List.length_range (n := table.length), ← hpos.length_eq, ← Nat.not_lt]
      rw [List.getElem?_eq_none (Nat.not_lt.mp hk), List.getElem?_eq_none hkv]
      rfl
  have htable : (List.range table.length).map (fun p => table[p]?) = table.map some :=
    List.ext_getElem (by simp) fun k hk _ => by
      have hk : k < table.length := by simpa using hk
      simp [hk]
  rw [← List.map_perm_map_iff (Option.some_injective α), ← hvals, ← htable]
  exact (hpos.map _).symm

/-- The values `vals` written to the cells `pos`, each cell of the RAM once: what it held before does not matter. -/
theorem ramWrite_zip {α : Type} {n : Nat} {pos : List Nat} {vals : List α} (hpos : pos.Perm (List.range (2 ^ n)))
    (hlen : vals.length = 2 ^ n) :
    ∃ table : List α, (∀ old, ramWrite n old (pos.zip vals) = .ok (table.map some)) ∧ table.Perm vals ∧
      ∀ k p : Nat, pos[k]? = some p → table[p]? = vals[k]? := by
  have hposlen : pos.length = 2 ^ n := by simpa using hpos.length_eq
  have hfst : (pos.zip vals).map Prod.fst = pos := List.map_fst_zip (by omega)
  have hws : ∀ p ∈ pos.zip vals, p.1 < 2 ^ n := fun p hp =>
    List.mem_range.mp (hpos.mem_iff.mp (List.of_mem_zip hp).1)
  have hcell : ∀ {k p : Nat}, pos[k]? = some p → ∃ x, vals[k]? = some x ∧ (ramWritten n (pos.zip vals))[p]? = some (some x) := by
    intro k p hk
    have hlt : k < vals.length := by
      rw [hlen, ← hposlen]
      exact (List.getElem?_eq_some_iff.mp hk).1
    have hval : vals[k]? = some vals[k] := List.getElem?_eq_getElem hlt
    have hmem : (p, vals[k]) ∈ pos.zip vals := List.mem_of_getElem? (List.getElem?_zip_eq_some.mpr ⟨hk, hval⟩)
    exact ⟨_, hval, ramWritten_getElem?_of_mem hws (by rw [hfst]; exact hpos.nodup_iff.mpr List.nodup_range) hmem⟩
  have hsome : ∀ c ∈ ramWritten n (pos.zip vals), c ∈ Set.range some := by
    intro c hc
    obtain ⟨p, hp⟩ := List.mem_iff_getElem?.mp hc
    have hlt : p < 2 ^ n := by simpa using (List.getElem?_eq_some_iff.mp hp).1
    obtain ⟨k, hk⟩ := List.mem_iff_getElem?.mp (hpos.mem_iff.mpr (List.mem_range.mpr hlt))
    obtain ⟨x, -, hx⟩ := hcell hk
    rw [hp, Option.some.injEq] at hx
    exact ⟨x, hx.symm⟩
  obtain ⟨table, htable⟩ : ramWritten n (pos.zip vals) ∈ Set.range (List.map some) := by rwa [Set.range_list_map]
  have htlen : table.length = 2 ^ n := by rw [← List.length_map some, htable, ramWritten_length]
  have hat : ∀ k p : Nat, pos[k]? = some p → table[p]? = vals[k]? := by
    intro k p hk
    obtain ⟨x, hval, hx⟩ := hcell hk
    rw [← htable, List.getElem?_map] at hx
    rw [hval]
    exact Option.map_injective (Option.some_injective α) hx
  refine ⟨table, fun old => ?_, perm_of_getElem?_eq (by rwa [htlen]) (by rw [hlen, htlen]) hat, hat⟩
  rw [ramWrite, if_pos (by simpa using fun a b hab => hws (a, b) hab), ← htable, ramKeep_map_some]

/-! ### The walk over the slots (R95) -/

/-- The slot of move `j` of the walk from slot 0. -/
def walkSlot (tl j : Nat) : Nat := j * spreadStep tl % 2 ^ tl

theorem walkSlot_add_step (tl j : Nat) : (walkSlot tl j + spreadStep tl) % 2 ^ tl = walkSlot tl (j + 1) := by
  rw [walkSlot, walkSlot, Nat.mod_add_mod, Nat.succ_mul]

theorem walkSlot_lt (tl j : Nat) : walkSlot tl j < 2 ^ tl := Nat.mod_lt _ (by positivity)

@[simp] theorem walkSlot_zero (tl : Nat) : walkSlot tl 0 = 0 := by simp [walkSlot]

@[simp] theorem walkSlot_two_pow (tl : Nat) : walkSlot tl (2 ^ tl) = 0 := by simp [walkSlot]

theorem coprime_spreadStep {tl : Nat} (h5 : 5 ≤ tl) : Nat.Coprime (2 ^ tl) (spreadStep tl) := by
  obtain ⟨m, rfl⟩ := Nat.exists_eq_add_of_le h5
  refine Nat.Coprime.pow_left _ (Nat.coprime_two_left.mpr (Nat.odd_iff.mpr ?_))
  rw [spreadStep, pow_add]
  omega

/-- The walk visits every slot once in `T` moves. -/
theorem walkSlots_perm {tl : Nat} (h5 : 5 ≤ tl) : ((List.range (2 ^ tl)).map (walkSlot tl)).Perm (List.range (2 ^ tl)) := by
  refine perm_range_of_nodup ((List.nodup_map_iff_inj_on List.nodup_range).mpr fun i hi j hj hij => ?_) ?_ (by simp)
  · have hmod : i ≡ j [MOD 2 ^ tl] := Nat.ModEq.cancel_right_of_coprime (coprime_spreadStep h5) hij
    exact hmod.eq_of_lt_of_lt (List.mem_range.mp hi) (List.mem_range.mp hj)
  · simp [walkSlot_lt]

/-- The slots below `lim` that the walk visits from move `j` to its end. -/
def walkFrom (tl lim j : Nat) : List Nat := ((List.range' j (2 ^ tl - j)).map (walkSlot tl)).filter (· < lim)

theorem walkFrom_cons {tl lim j : Nat} (hj : j < 2 ^ tl) (hlim : walkSlot tl j < lim) :
    walkFrom tl lim j = walkSlot tl j :: walkFrom tl lim (j + 1) := by
  rw [walkFrom, walkFrom, show 2 ^ tl - j = 2 ^ tl - (j + 1) + 1 by omega, List.range'_succ, List.map_cons,
    List.filter_cons_of_pos (by simpa using hlim)]

theorem walkFrom_zero_perm {tl lim : Nat} (h5 : 5 ≤ tl) (hlim : lim ≤ 2 ^ tl) :
    (walkFrom tl lim 0).Perm (List.range lim) := by
  have hperm := (walkSlots_perm h5).filter (fun p => decide (p < lim))
  rw [walkFrom, Nat.sub_zero, ← List.range_eq_range']
  refine hperm.trans (perm_range_of_nodup (List.nodup_range.filter _) (fun x hx => by simpa using (List.mem_filter.mp hx).2) ?_)
  have hsplit : List.range (2 ^ tl) = List.range lim ++ List.range' lim (2 ^ tl - lim) := by
    have happend := List.range'_append_1 (s := 0) (m := lim) (n := 2 ^ tl - lim)
    rw [Nat.zero_add, Nat.add_sub_cancel' hlim] at happend
    rw [List.range_eq_range', List.range_eq_range', happend]
  have hlow : (List.range lim).filter (fun p => decide (p < lim)) = List.range lim := List.filter_eq_self.mpr (by simp)
  have hhigh : (List.range' lim (2 ^ tl - lim)).filter (fun p => decide (p < lim)) = [] :=
    List.filter_eq_nil_iff.mpr fun p hp => by simpa using (List.mem_range'_1.mp hp).1
  rw [hsplit, List.filter_append, hlow, hhigh, List.append_nil, List.length_range]

/-- The next position is the first slot below `lim` among the next moves. -/
theorem nextPos?_walkSlot (tl lim fuel j : Nat) :
    nextPos? tl lim fuel (walkSlot tl j) = ((List.range' (j + 1) fuel).map (walkSlot tl)).find? (· < lim) := by
  induction fuel generalizing j with
  | zero => rfl
  | succ fuel ih =>
    simp only [nextPos?, walkSlot_add_step, List.range'_succ, List.map_cons, ih]
    by_cases h : walkSlot tl (j + 1) < lim <;> simp [List.find?, h]

/-- The walk moves on to the next slot below `lim`, at the latest to slot 0, where it ends. -/
theorem exists_nextPos {tl lim j : Nat} (hj : j < 2 ^ tl) (hlim : 0 < lim) :
    ∃ k ≤ 2 ^ tl, walkSlot tl k < lim ∧ walkFrom tl lim (j + 1) = walkFrom tl lim k ∧
      ∀ left, nextPos tl lim (walkSlot tl j) left = walkSlot tl k := by
  have hexists : ∃ m, walkSlot tl (j + 1 + m) < lim :=
    ⟨2 ^ tl - (j + 1), by rwa [Nat.add_sub_cancel' hj, walkSlot_two_pow]⟩
  obtain ⟨m, hm, hmin⟩ : ∃ m, walkSlot tl (j + 1 + m) < lim ∧ ∀ i < m, ¬walkSlot tl (j + 1 + i) < lim :=
    ⟨Nat.find hexists, Nat.find_spec hexists, fun i hi => Nat.find_min hexists hi⟩
  have hle : j + 1 + m ≤ 2 ^ tl := by
    by_contra hgt
    exact hmin (2 ^ tl - (j + 1)) (by omega) (by rwa [Nat.add_sub_cancel' hj, walkSlot_two_pow])
  have hskip : ∀ p ∈ (List.range' (j + 1) m).map (walkSlot tl), ¬decide (p < lim) = true := by
    intro p hp
    obtain ⟨i, hi, rfl⟩ := List.mem_map.mp hp
    obtain ⟨hlo, hhi⟩ := List.mem_range'_1.mp hi
    simpa [show j + 1 + (i - (j + 1)) = i by omega] using hmin (i - (j + 1)) (by omega)
  refine ⟨j + 1 + m, hle, hm, ?_, fun left => ?_⟩
  · rw [walkFrom, walkFrom, show 2 ^ tl - (j + 1) = m + (2 ^ tl - (j + 1 + m)) by omega, ← List.range'_append_1,
      List.map_append, List.filter_append, List.filter_eq_nil_iff.mpr hskip, List.nil_append]
  · have hnext : nextPos? tl lim (2 ^ tl) (walkSlot tl j) = some (walkSlot tl (j + 1 + m)) := by
      rw [nextPos?_walkSlot, show 2 ^ tl = m + (2 ^ tl - m - 1 + 1) by omega, ← List.range'_append_1, List.map_append,
        List.find?_append, List.find?_eq_none.mpr hskip, Option.none_or, List.range'_succ, List.map_cons,
        List.find?_cons_of_pos (by simpa using hm)]
    rw [nextPos, hnext]

/-- As many symbols as the walk has slots left take them in order, and the walk ends in slot 0. -/
theorem placeSymbols_walkSlot {tl lim j : Nat} {syms : List Byte} (hj : j ≤ 2 ^ tl) (hlim : walkSlot tl j < lim)
    (hlen : syms.length = (walkFrom tl lim j).length) :
    placeSymbols tl lim syms (walkSlot tl j) = ((walkFrom tl lim j).zip syms, 0) := by
  induction syms generalizing j with
  | nil =>
    obtain rfl : j = 2 ^ tl := by
      by_contra hne
      simp [walkFrom_cons (by omega) hlim] at hlen
    simp [placeSymbols]
  | cons s syms ih =>
    obtain hj | rfl := Nat.lt_or_eq_of_le hj
    · obtain ⟨k, hk, hklim, hfrom, hnext⟩ := exists_nextPos hj (Nat.zero_lt_of_lt hlim)
      rw [walkFrom_cons hj hlim, hfrom] at hlen ⊢
      rw [placeSymbols, hnext, ih hk hklim (by simpa using hlen), List.zip_cons_cons]
    · simp [walkFrom] at hlen

theorem placeSymbols_eq_zip {tl : Nat} {syms : List Byte} (h5 : 5 ≤ tl) (hle : syms.length ≤ 2 ^ tl) :
    placeSymbols tl syms.length syms 0 = ((walkFrom tl syms.length 0).zip syms, 0) := by
  have hlen : (walkFrom tl syms.length 0).length = syms.length := by simpa using (walkFrom_zero_perm h5 hle).length_eq
  cases syms with
  | nil => simp [placeSymbols]
  | cons s rest =>
    have hplace := placeSymbols_walkSlot (lim := (s :: rest).length) (Nat.zero_le (2 ^ tl)) (by simp) hlen.symm
    rwa [walkSlot_zero] at hplace

theorem placeLow_eq_zip (high : Nat) (syms : List Byte) :
    placeLow high syms = ((List.range syms.length).map (high - ·)).zip syms := by
  induction syms generalizing high with
  | nil => rfl
  | cons s syms ih =>
    have hdown : (fun k => high - k) ∘ Nat.succ = fun k => high - 1 - k := funext fun k => by
      simp only [Function.comp_apply]; omega
    rw [placeLow, ih, List.length_cons, List.range_succ_eq_map, List.map_cons, List.map_map, hdown]
    rfl

/-- The reserved slots and the walk below them are all the slots. -/
theorem slots_perm {tl low : Nat} (h5 : 5 ≤ tl) (hlow : low ≤ 2 ^ tl) :
    ((List.range low).map (2 ^ tl - 1 - ·) ++ walkFrom tl (2 ^ tl - low) 0).Perm (List.range (2 ^ tl)) := by
  have hwalk := walkFrom_zero_perm h5 (Nat.sub_le (2 ^ tl) low)
  have hlt : ∀ p ∈ walkFrom tl (2 ^ tl - low) 0, p < 2 ^ tl - low := fun p hp => List.mem_range.mp (hwalk.mem_iff.mp hp)
  refine perm_range_of_nodup (List.nodup_append.mpr ⟨?_, hwalk.nodup_iff.mpr List.nodup_range, ?_⟩) ?_ ?_
  · refine (List.nodup_map_iff_inj_on List.nodup_range).mpr fun i hi j hj hij => ?_
    rw [List.mem_range] at hi hj
    omega
  · intro p hp q hq
    obtain ⟨k, hk, rfl⟩ := List.mem_map.mp hp
    have hklt := List.mem_range.mp hk
    have hqlt := hlt q hq
    omega
  · intro p hp
    obtain hp | hp := List.mem_append.mp hp
    · obtain ⟨k, hk, rfl⟩ := List.mem_map.mp hp
      have hklt := List.mem_range.mp hk
      omega
    · have hplt := hlt p hp
      omega
  · rw [List.length_append, List.length_map, List.length_range, hwalk.length_eq, List.length_range]
    omega

/-! ### The symbols to place -/

theorem map_getD_range {α : Type} (l : List α) (d : α) : (List.range l.length).map (fun i => l.getD i d) = l :=
  List.ext_getElem (by simp) fun i h _ => by
    have hi : i < l.length := by simpa using h
    simp [hi]

theorem symbolOf_eq_iff {i : Nat} (hi : i < 256) (b : Byte) : symbolOf i = b ↔ i = b.toNat := by
  rw [← BitVec.toNat_inj, symbolOf, BitVec.toNat_ofNat, Nat.mod_eq_of_lt hi]

theorem lowSymbols_length (norm : List Int) : (lowSymbols norm).length = (norm.filter fun w => w == -1).length := by
  have hmap := map_getD_range norm 0
  conv_rhs => rw [← hmap, List.filter_map, List.length_map]
  rw [lowSymbols, List.length_map]
  rfl

theorem placedSymbols_length (norm : List Int) : (placedSymbols norm).length = (norm.map Int.toNat).sum := by
  have hmap := map_getD_range norm 0
  conv_rhs => rw [← hmap, List.map_map]
  simp only [placedSymbols, List.length_flatMap, List.length_replicate]
  rfl

theorem symbols_length (norm : List Int) :
    (lowSymbols norm).length + (placedSymbols norm).length = (norm.map slots).sum := by
  rw [lowSymbols_length, placedSymbols_length]
  induction norm with
  | nil => rfl
  | cons w norm ih =>
    rw [List.map_cons, List.sum_cons, List.map_cons, List.sum_cons, ← ih]
    by_cases hw : w = -1
    · subst hw
      simp [slots]
      omega
    · rw [List.filter_cons_of_neg (by simpa using hw), slots, if_neg hw]
      omega

theorem count_lowSymbols {norm : List Int} (hlen : norm.length ≤ 256) (b : Byte) :
    (lowSymbols norm).count b = if norm.getD b.toNat 0 = -1 then 1 else 0 := by
  have hcount : (lowSymbols norm).count b = ((List.range norm.length).filter fun i => norm.getD i 0 = -1).count b.toNat := by
    rw [lowSymbols, List.count, List.countP_map, List.count]
    refine List.countP_congr fun i hi => ?_
    have hi := List.mem_range.mp (List.mem_filter.mp hi).1
    simpa using symbolOf_eq_iff (by omega) b
  rw [hcount, (List.nodup_range.filter _).count]
  congr 1
  simp only [List.mem_filter, List.mem_range, decide_eq_true_eq, eq_iff_iff, and_iff_right_iff_imp]
  intro hlow
  by_contra hge
  simp [List.getElem?_eq_none (Nat.not_lt.mp hge)] at hlow

theorem count_placedSymbols {norm : List Int} (hlen : norm.length ≤ 256) (b : Byte) :
    (placedSymbols norm).count b = (norm.getD b.toNat 0).toNat := by
  have hother : ∀ i, i ≠ b.toNat → i ∈ List.range norm.length →
      (List.count b ∘ fun i => List.replicate (norm.getD i 0).toNat (symbolOf i)) i = 0 := fun i hi hmem => by
    have hlt := List.mem_range.mp hmem
    rw [Function.comp_apply, List.count_replicate, if_neg]
    simpa using (symbolOf_eq_iff (by omega) b).not.mpr hi
  have hself : symbolOf b.toNat = b := (symbolOf_eq_iff b.isLt b).mpr rfl
  rw [placedSymbols, List.count_flatMap, List.sum_map_eq_nsmul_single b.toNat _ hother, List.nodup_range.count,
    Function.comp_apply, hself, List.count_replicate_self]
  split_ifs with hb
  · exact one_nsmul _
  · simp [List.getElem?_eq_none (Nat.not_lt.mp (List.mem_range.not.mp hb))]

/-- Each symbol is placed in as many slots as its weight says. -/
theorem count_symbols {norm : List Int} (hlen : norm.length ≤ 256) (b : Byte) :
    (lowSymbols norm ++ placedSymbols norm).count b = slots (norm.getD b.toNat 0) := by
  rw [List.count_append, count_lowSymbols hlen, count_placedSymbols hlen, slots]
  split_ifs with hlow
  · rw [hlow]
    rfl
  · exact Nat.zero_add _

/-! ### The table (R96, R97) -/

/-- What R96 and R97 say of the `tableSymbol` of a distribution. -/
structure SpreadOf (norm : List Int) (tl : Nat) (table : List Byte) : Prop where
  length : table.length = 2 ^ tl
  count : ∀ b : Byte, table.count b = slots (norm.getD b.toNat 0)
  low : ∀ k, k < (lowSymbols norm).length → table[2 ^ tl - 1 - k]? = (lowSymbols norm)[k]?
  walk : ∀ k p : Nat, (walkFrom tl (2 ^ tl - (lowSymbols norm).length) 0)[k]? = some p → table[p]? = (placedSymbols norm)[k]?

/-- TB.SPREAD fills the table, whatever the RAM held. -/
theorem exists_spread {norm : List Int} {msv tl : Nat} (h : IsDist norm msv tl) :
    ∃ table : List Byte, SpreadOf norm tl table ∧ ∀ old, spread old norm msv tl = ⟨.ok (), table.map some⟩ := by
  obtain ⟨h5, -, hmsv, hlen, -, hsum⟩ := h
  have hsyms := symbols_length norm
  rw [hsum] at hsyms
  have hperm := slots_perm h5 (show (lowSymbols norm).length ≤ 2 ^ tl by omega)
  obtain ⟨table, hwrite, htable, hat⟩ :=
    ramWrite_zip (vals := lowSymbols norm ++ placedSymbols norm) hperm (by rw [List.length_append, hsyms])
  have hplaced : (placedSymbols norm).length = 2 ^ tl - (lowSymbols norm).length := by omega
  have hplace := placeSymbols_eq_zip (syms := placedSymbols norm) h5 (by omega)
  rw [hplaced] at hplace
  refine ⟨table, ⟨?_, fun b => ?_, fun k hk => ?_, fun k p hk => ?_⟩, fun old => ?_⟩
  · rw [htable.length_eq, List.length_append, hsyms]
  · rw [htable.count_eq, count_symbols (by omega)]
  · rw [hat k (2 ^ tl - 1 - k) (by rw [List.getElem?_append_left (by simpa using hk)]; simp [hk]),
      List.getElem?_append_left hk]
  · have hindex : ((List.range (lowSymbols norm).length).map (2 ^ tl - 1 - ·) ++
        walkFrom tl (2 ^ tl - (lowSymbols norm).length) 0)[(lowSymbols norm).length + k]? = some p := by
      rw [List.getElem?_append_right (by simp)]
      simpa using hk
    rw [hat _ p hindex, List.getElem?_append_right (by omega), Nat.add_sub_cancel_left]
  · rw [List.zip_append (by simp), ← placeLow_eq_zip] at hwrite
    simp only [spread, List.take_of_length_le hlen.le, if_neg (show ¬2 ^ tl < (lowSymbols norm).length by omega), hplace,
      hwrite, if_true]

/-- A table builder whose run ends. -/
theorem tableOutcome_of_ok {α : Type} {s : State} {norm : List Int} {msv : Nat} {x : α} {table : List (Option Byte)}
    (hlen : norm.length = msv + 1) (leave : Work → α → Work) :
    tableOutcome s norm msv ⟨.ok x, table⟩ leave
      = .next ({ s with work := leave { s.work with tableSymbol := table } x }.reply .ok) :=
  whenGiven_of_le hlen.ge _ _

theorem exec_tbSpread_of_spread {norm : List Int} {msv tl : Nat} {table : List Byte} (hlen : norm.length = msv + 1)
    (hspread : ∀ old, spread old norm msv tl = ⟨.ok (), table.map some⟩) (s : State) :
    exec (.tbSpread norm msv tl) s
      = .next { s with work := { s.work with tableSymbol := table.map some }, result := .ok } := by
  change execTbSpread norm msv tl s = _
  rw [execTbSpread, hspread, tableOutcome_of_ok hlen]
  rfl

/-- Settles O38: the statement's walk is `walkFrom` from move 0. -/
theorem spreadFillsEverySlot : Obligations.SpreadFillsEverySlot := by
  intro norm msv tl s hdist
  obtain ⟨table, htable, hspread⟩ := exists_spread hdist
  obtain ⟨-, -, -, hlen, -, -⟩ := hdist
  have hlow := htable.low
  have hwalk := htable.walk
  rw [walkFrom, Nat.sub_zero, ← List.range_eq_range', lowSymbols_length] at hwalk
  rw [lowSymbols_length] at hlow
  simp only [lowSymbols, placedSymbols, hlen] at hlow hwalk
  exact ⟨table, exec_tbSpread_of_spread hlen hspread s, htable.length, htable.count, hlow, hwalk⟩

end Sys2Proof.Machine
end

section
/-! The entries of both tables (44_tables.md R98 to R104). Both builders walk over the slots with a register for each
symbol that counts its slots from a start (`counters`): from its place in `stateTable` (R99), or from its weight (R102). -/

namespace Sys2Proof.Machine

/-! ### Counting the slots of each symbol -/

/-- An earlier slot of a symbol has a smaller count. -/
theorem count_take_lt {l : List Byte} {u : Nat} {b : Byte} (h : l[u]? = some b) : (l.take u).count b < l.count b := by
  obtain ⟨hu, rfl⟩ := List.getElem?_eq_some_iff.mp h
  rw [← List.countBefore_eq_count_take]
  exact List.countBefore_lt_count_getElem

/-- Each count below a symbol's number of slots is that of one of them. -/
theorem exists_slot_of_lt_count {l : List Byte} {b : Byte} {k : Nat} (h : k < l.count b) :
    ∃ u, l[u]? = some b ∧ (l.take u).count b = k := by
  refine ⟨l.idxOfNth b k, List.getElem?_eq_some_iff.mpr ⟨List.idxOfNth_lt_length_of_lt_count h, List.getElem_idxOfNth_eq⟩, ?_⟩
  rw [← List.countBefore_eq_count_take, List.countBefore_idxOfNth_of_lt_count h]

/-- What the registers, at first `start`, hold for the symbol of each slot when the builder comes to it. -/
def counters : (Byte → Nat) → List Byte → List Nat
  | _, [] => []
  | start, b :: l => start b :: counters (Function.update start b (start b + 1)) l

@[simp] theorem counters_length (start : Byte → Nat) (l : List Byte) : (counters start l).length = l.length := by
  induction l generalizing start with
  | nil => rfl
  | cons b l ih => simp [counters, ih]

theorem counters_getElem? {start : Byte → Nat} {l : List Byte} {u : Nat} {b : Byte} (h : l[u]? = some b) :
    (counters start l)[u]? = some (start b + (l.take u).count b) := by
  induction l generalizing start u with
  | nil => simp at h
  | cons a l ih =>
    cases u with
    | zero =>
      obtain rfl : a = b := by simpa using h
      rfl
    | succ u =>
      rw [counters, List.getElem?_cons_succ, ih (by simpa using h), List.take_succ_cons]
      by_cases hab : a = b
      · subst hab
        rw [Function.update_self, List.count_cons_self]
        congr 1
        omega
      · rw [Function.update_of_ne (Ne.symm hab), List.count_cons_of_ne hab]

theorem exists_of_mem_counters {start : Byte → Nat} {l : List Byte} {x : Nat} (h : x ∈ counters start l) :
    ∃ u b, l[u]? = some b ∧ x = start b + (l.take u).count b := by
  obtain ⟨u, hu⟩ := List.mem_iff_getElem?.mp h
  have hlt : u < l.length := by simpa using (List.getElem?_eq_some_iff.mp hu).1
  have hsym : l[u]? = some l[u] := List.getElem?_eq_getElem hlt
  rw [counters_getElem? hsym, Option.some.injEq] at hu
  exact ⟨u, l[u], hsym, hu.symm⟩

/-- The registers `next` hold `start` for the symbols of the slots to come. -/
def Holds (next : List Nat) (start : Byte → Nat) (l : List Byte) : Prop := ∀ b ∈ l, next[b.toNat]? = some (start b)

theorem Holds.step {next : List Nat} {start : Byte → Nat} {b : Byte} {l : List Byte} (h : Holds next start (b :: l)) :
    Holds (next.set b.toNat (start b + 1)) (Function.update start b (start b + 1)) l := by
  intro c hc
  have hb : b.toNat < next.length := (List.getElem?_eq_some_iff.mp (h b List.mem_cons_self)).1
  by_cases hbc : b = c
  · subst hbc
    simp [hb]
  · rw [List.getElem?_set_ne (fun heq => hbc (BitVec.eq_of_toNat_eq heq)), Function.update_of_ne (Ne.symm hbc),
      h c (List.mem_cons_of_mem b hc)]

theorem Holds.cell {next : List Nat} {start : Byte → Nat} {b : Byte} {l : List Byte} (h : Holds next start (b :: l)) :
    cell next b.toNat = .ok (start b) := by
  rw [Machine.cell, h b List.mem_cons_self]

/-! ### Cumulative starts (R98) -/

/-- `cumul[i]`: the slots of the symbols before `i`. -/
def cumulOf (norm : List Int) (i : Nat) : Nat := ((norm.take i).map slots).sum

theorem cumulOf_cons_succ (w : Int) (ws : List Int) (i : Nat) : cumulOf (w :: ws) (i + 1) = slots w + cumulOf ws i := by
  simp [cumulOf]

theorem cumulOf_succ (norm : List Int) (i : Nat) : cumulOf norm (i + 1) = cumulOf norm i + slots (norm.getD i 0) := by
  rw [cumulOf, cumulOf, List.take_add_one, List.map_append, List.sum_append, List.getD_eq_getElem?_getD]
  cases norm[i]? <;> rfl

theorem cumulOf_mono (norm : List Int) : Monotone (cumulOf norm) :=
  monotone_nat_of_le_succ fun i => by rw [cumulOf_succ]; exact Nat.le_add_right _ _

theorem cumulOf_le_sum (norm : List Int) (i : Nat) : cumulOf norm i ≤ (norm.map slots).sum := by
  rw [← List.sum_take_add_sum_drop (norm.map slots) i, ← List.map_take]
  exact Nat.le_add_right _ _

/-- The places of symbol `i` in `stateTable` come before those of a later symbol. -/
theorem cumulOf_add_slots_le {norm : List Int} {i j : Nat} (h : i < j) :
    cumulOf norm i + slots (norm.getD i 0) ≤ cumulOf norm j := by
  rw [← cumulOf_succ]
  exact cumulOf_mono norm h

@[simp] theorem runningSlots_length (acc : Nat) (ws : List Int) : (runningSlots acc ws).length = ws.length := by
  induction ws generalizing acc with
  | nil => rfl
  | cons w ws ih => simp [runningSlots, ih]

theorem runningSlots_getElem? {ws : List Int} {i : Nat} (h : i < ws.length) (acc : Nat) :
    (runningSlots acc ws)[i]? = some (acc + cumulOf ws i) := by
  induction ws generalizing acc i with
  | nil => simp at h
  | cons w ws ih =>
    cases i with
    | zero => rfl
    | succ i => rw [runningSlots, List.getElem?_cons_succ, ih (by simpa using h), cumulOf_cons_succ, Nat.add_assoc]

theorem cumulStarts_getElem? {norm : List Int} {i : Nat} (h : i < norm.length) (tl : Nat) :
    (cumulStarts tl norm)[i]? = some (cumulOf norm i) := by
  rw [cumulStarts, List.getElem?_append_left (by simpa using h), runningSlots_getElem? h, Nat.zero_add]

theorem cumulStarts_getElem?_length (tl : Nat) (norm : List Int) :
    (cumulStarts tl norm)[norm.length]? = some (2 ^ tl + 1) := by
  rw [cumulStarts, List.getElem?_append_right (by simp)]
  simp

/-! ### Next-state array (R99) -/

theorem stateWrites_of_holds {tl u : Nat} {l : List Byte} {next : List Nat} {start : Byte → Nat} (h : Holds next start l) :
    stateWrites tl u l next = .ok ((counters start l).zip ((List.range' u l.length).map (2 ^ tl + ·))) := by
  induction l generalizing u next start with
  | nil => rfl
  | cons b l ih =>
    rw [stateWrites, h.cell]
    simp only [ih h.step]
    rfl

section

variable {norm : List Int} {tl : Nat} {table : List Byte}

theorem SpreadOf.slots_pos (h : SpreadOf norm tl table) {b : Byte} (hb : b ∈ table) : 0 < slots (norm.getD b.toNat 0) := by
  rw [← h.count]
  exact List.count_pos_iff.mpr hb

theorem SpreadOf.lt_length (h : SpreadOf norm tl table) {b : Byte} (hb : b ∈ table) : b.toNat < norm.length := by
  by_contra hge
  have hpos := h.slots_pos hb
  simp [List.getElem?_eq_none (Nat.not_lt.mp hge), slots] at hpos

theorem SpreadOf.count_take_lt (h : SpreadOf norm tl table) {u : Nat} {b : Byte} (hu : table[u]? = some b) :
    (table.take u).count b < slots (norm.getD b.toNat 0) := by
  rw [← h.count]
  exact Machine.count_take_lt hu

/-- The slots of the table, symbol by symbol, have the places `0 .. T-1` in `stateTable`, one each. -/
theorem SpreadOf.places_perm (h : SpreadOf norm tl table) (hsum : (norm.map slots).sum = 2 ^ tl) :
    (counters (fun b => cumulOf norm b.toNat) table).Perm (List.range (2 ^ tl)) := by
  refine perm_range_of_nodup (List.nodup_iff_getElem?_ne_getElem?.mpr fun u v huv hv => ?_) (fun x hx => ?_) ?_
  · rw [counters_length] at hv
    have hu : table[u]? = some table[u] := List.getElem?_eq_getElem (by omega)
    have hv : table[v]? = some table[v] := List.getElem?_eq_getElem hv
    have hult := h.count_take_lt hu
    have hvlt := h.count_take_lt hv
    rw [counters_getElem? hu, counters_getElem? hv, ne_eq, Option.some.injEq]
    obtain hlt | heq | hgt := Nat.lt_trichotomy table[u].toNat table[v].toNat
    · have := cumulOf_add_slots_le (norm := norm) hlt
      omega
    · have heq : table[u] = table[v] := BitVec.eq_of_toNat_eq heq
      have hbefore : (table.take v)[u]? = some table[v] := by rw [List.getElem?_take_of_lt huv, hu, heq]
      have hcount := Machine.count_take_lt hbefore
      rw [List.take_take, Nat.min_eq_left huv.le] at hcount
      rw [heq]
      omega
    · have := cumulOf_add_slots_le (norm := norm) hgt
      omega
  · obtain ⟨u, b, hu, rfl⟩ := exists_of_mem_counters hx
    have hlt := h.count_take_lt hu
    have hle := cumulOf_add_slots_le (norm := norm) (Nat.lt_add_one b.toNat)
    have hsum' := cumulOf_le_sum norm (b.toNat + 1)
    omega
  · rw [counters_length, h.length]

end

/-! ### Symbol transforms (R100) -/

@[simp] theorem symbolTransforms_length (tl total : Nat) (ws : List Int) :
    (symbolTransforms tl total ws).length = ws.length := by
  induction ws generalizing total with
  | nil => rfl
  | cons w ws ih => simp [symbolTransforms, ih]

theorem symbolTransforms_getElem? {ws : List Int} {i : Nat} (h : i < ws.length) (tl total : Nat) :
    (symbolTransforms tl total ws)[i]? = some (symbolTransform tl (total + cumulOf ws i) (ws.getD i 0)) := by
  induction ws generalizing total i with
  | nil => simp at h
  | cons w ws ih =>
    cases i with
    | zero => rfl
    | succ i =>
      rw [symbolTransforms, List.getElem?_cons_succ, ih (by simpa using h), cumulOf_cons_succ, Nat.add_assoc,
        List.getD_cons_succ]

/-- A difference that is not negative, as a u32. -/
theorem ofInt_sub_natCast {a b : Nat} (h : b ≤ a) : BitVec.ofInt 32 ((a : Int) - b) = BitVec.ofNat 32 (a - b) := by
  rw [← Int.ofNat_sub h, BitVec.ofInt_natCast]

/-- `T` is at most `m << 16` for every `m` of the table. -/
theorem two_pow_le_shift {tl m : Nat} (h15 : tl ≤ 15) (hm : 1 ≤ m) : 2 ^ tl ≤ m * 2 ^ 16 := by
  have hpow : 2 ^ tl ≤ 2 ^ 15 := Nat.pow_le_pow_right (by omega) h15
  omega

theorem symbolTransform_zero {tl : Nat} (h15 : tl ≤ 15) (total : Nat) :
    symbolTransform tl total 0 = ⟨BitVec.ofNat 32 ((tl + 1) * 2 ^ 16 - 2 ^ tl), none⟩ := by
  rw [symbolTransform, if_pos rfl, ← ofInt_sub_natCast (two_pow_le_shift h15 (Nat.le_add_left 1 tl))]
  push_cast
  rfl

theorem symbolTransform_single {tl : Nat} (h5 : 5 ≤ tl) (h15 : tl ≤ 15) (total : Nat) {w : Int} (hw : w = -1 ∨ w = 1) :
    symbolTransform tl total w = ⟨BitVec.ofNat 32 (tl * 2 ^ 16 - 2 ^ tl), some ((total : Int) - 1)⟩ := by
  rw [symbolTransform, if_neg (by omega), if_pos hw, ← ofInt_sub_natCast (two_pow_le_shift h15 (by omega))]
  push_cast
  rfl

/-- `mbo` of a weight of at least 2: `w << mbo` lies above `T`, and not above `2T`. -/
theorem maxBitsOut_bounds {tl w : Nat} (h2 : 2 ≤ w) (hw : w ≤ 2 ^ tl) :
    1 ≤ tl - Nat.log2 (w - 1) ∧ 2 ^ tl ≤ w * 2 ^ (tl - Nat.log2 (w - 1)) ∧
      w * 2 ^ (tl - Nat.log2 (w - 1)) ≤ 2 * 2 ^ tl := by
  have hne : w - 1 ≠ 0 := by omega
  have hlog : Nat.log2 (w - 1) < tl := (Nat.log2_lt hne).mpr (by omega)
  have hle := Nat.log2_self_le hne
  have hlt := Nat.lt_log2_self (n := w - 1)
  have hsplit : 2 ^ tl = 2 ^ Nat.log2 (w - 1) * 2 ^ (tl - Nat.log2 (w - 1)) := by
    rw [← pow_add, Nat.add_sub_cancel' hlog.le]
  refine ⟨by omega, ?_, ?_⟩
  · rw [hsplit]
    exact Nat.mul_le_mul_right _ (by omega)
  · rw [hsplit, ← Nat.mul_assoc, ← pow_succ']
    exact Nat.mul_le_mul_right _ (by omega)

theorem symbolTransform_of_two_le {tl : Nat} (h15 : tl ≤ 15) (total : Nat) {w : Int} (h2 : 2 ≤ w) (hw : w ≤ 2 ^ tl) :
    symbolTransform tl total w
      = ⟨BitVec.ofNat 32 ((tl - Nat.log2 (w.toNat - 1)) * 2 ^ 16 - w.toNat * 2 ^ (tl - Nat.log2 (w.toNat - 1))),
        some ((total : Int) - w)⟩ := by
  have hnat : w.toNat ≤ 2 ^ tl := Int.toNat_le.mpr (by exact_mod_cast hw)
  obtain ⟨hmbo, -, hle⟩ := maxBitsOut_bounds (show 2 ≤ w.toNat by omega) hnat
  have hpow : 2 ^ tl ≤ 2 ^ 15 := Nat.pow_le_pow_right (by omega) h15
  rw [symbolTransform, if_neg (by omega), if_neg (by omega), if_neg (by omega), deltaNbBitsOf, if_pos (by omega),
    ← ofInt_sub_natCast (by omega)]
  push_cast
  rfl

/-! ### TB.CTABLE (R101) -/

/-- What R98 to R100 say of the encode table on the spread's `tableSymbol`. -/
structure CTableOf (norm : List Int) (msv tl : Nat) (table : List Byte) (ct : CTable) : Prop where
  tl_eq : ct.tl = tl
  msv_eq : ct.msv = msv
  cumul_eq : ct.cumul = cumulStarts tl norm
  state_length : ct.stateTable.length = 2 ^ tl
  state : ∀ (u : Nat) (b : Byte), table[u]? = some b →
    ct.stateTable[cumulOf norm b.toNat + (table.take u).count b]? = some (some (2 ^ tl + u))
  symbolTT_eq : ct.symbolTT = symbolTransforms tl 0 norm

/-- TB.CTABLE ends with such a table, whatever the RAMs held. -/
theorem exists_ctable {norm : List Int} {msv tl : Nat} {table : List Byte} (hdist : IsDist norm msv tl)
    (htable : SpreadOf norm tl table) (hspread : ∀ old, spread old norm msv tl = ⟨.ok (), table.map some⟩) :
    ∃ ct, CTableOf norm msv tl table ct ∧
      ∀ oldTable oldState, buildCTable oldTable oldState norm msv tl = ⟨.ok ct, table.map some⟩ := by
  obtain ⟨-, -, -, hlen, -, hsum⟩ := hdist
  have hholds : Holds (cumulStarts tl norm) (fun b => cumulOf norm b.toNat) table := fun b hb =>
    cumulStarts_getElem? (htable.lt_length hb) tl
  obtain ⟨states, hwrite, hperm, hat⟩ := ramWrite_zip (n := tl) (vals := (List.range' 0 table.length).map (2 ^ tl + ·))
    (htable.places_perm hsum) (by simp [htable.length])
  refine ⟨⟨tl, msv, cumulStarts tl norm, states.map some, symbolTransforms tl 0 norm⟩,
    ⟨rfl, rfl, rfl, ?_, fun u b hu => ?_, rfl⟩, fun oldTable oldState => ?_⟩
  · rw [List.length_map, hperm.length_eq, List.length_map, List.length_range', htable.length]
  · have hlt := (List.getElem?_eq_some_iff.mp hu).1
    rw [List.getElem?_map, hat u _ (counters_getElem? hu)]
    simp [hlt]
  · simp only [buildCTable, hspread, Except.bind, ctableOf, List.take_of_length_le hlen.le, readSlots_map_some, ok_bind,
      stateWrites_of_holds hholds, hwrite]

theorem exec_tbCtable_of_build {norm : List Int} {msv tl : Nat} {table : List Byte} {ct : CTable}
    (hlen : norm.length = msv + 1)
    (hbuild : ∀ oldTable oldState, buildCTable oldTable oldState norm msv tl = ⟨.ok ct, table.map some⟩) (s : State) :
    exec (.tbCtable norm msv tl) s
      = .next { s with work := { s.work with tableSymbol := table.map some, ct := ct }, result := .ok } := by
  change execTbCtable norm msv tl s = _
  rw [execTbCtable, hbuild, tableOutcome_of_ok hlen]
  rfl

/-- A weight of a distribution is at most the number of slots. -/
theorem le_two_pow_of_isDist {norm : List Int} {msv tl : Nat} (h : IsDist norm msv tl) {i : Nat} (hi : i ≤ msv) :
    -1 ≤ norm.getD i 0 ∧ norm.getD i 0 ≤ 2 ^ tl := by
  obtain ⟨-, -, -, hlen, hweights, hsum⟩ := h
  have hmem : norm.getD i 0 ∈ norm := by
    rw [List.getD_eq_getElem _ _ (by omega)]
    exact List.getElem_mem _
  have hslots := List.le_sum_of_mem (List.mem_map_of_mem (f := slots) hmem)
  rw [hsum] at hslots
  exact ⟨hweights _ hmem, (le_slots _).trans (by exact_mod_cast hslots)⟩

/-- Settles O39: the writes of R99 go to each place of `stateTable` once (`SpreadOf.places_perm`). -/
theorem encodeTableEntries : Obligations.EncodeTableEntries := by
  intro norm msv tl s hdist
  obtain ⟨table, htable, hspread⟩ := exists_spread hdist
  obtain ⟨ct, hct, hbuild⟩ := exists_ctable hdist htable hspread
  obtain ⟨h5, h15, -, hlen, -, -⟩ := id hdist
  refine ⟨table, ct, exec_tbSpread_of_spread hlen hspread s, exec_tbCtable_of_build hlen hbuild s, hct.tl_eq, hct.msv_eq,
    hct.state_length, by rw [hct.symbolTT_eq, symbolTransforms_length, hlen], fun i hi => ?_, ?_, hct.state, fun i hi => ?_⟩
  · rw [hct.cumul_eq, cumulStarts_getElem? (by omega)]
    rfl
  · rw [hct.cumul_eq, ← hlen, cumulStarts_getElem?_length]
  · have htt : ct.symbolTT[i]? = some (symbolTransform tl (cumulOf norm i) (norm.getD i 0)) := by
      rw [hct.symbolTT_eq, symbolTransforms_getElem? (by omega), Nat.zero_add]
    refine ⟨fun hw => ?_, fun hw => ?_, fun hw => ?_⟩
    · rw [htt, hw, symbolTransform_zero h15]
    · rw [htt, symbolTransform_single h5 h15 _ hw]
      rfl
    · rw [htt, symbolTransform_of_two_le h15 _ hw (le_two_pow_of_isDist hdist hi).2]
      rfl

/-! ### TB.DTABLE (R102, R104) -/

/-- The entry of a slot (R102). -/
def entryOf (tl : Nat) (b : Byte) (x : Nat) : DEntry := ⟨b, tl - Nat.log2 x, x * 2 ^ (tl - Nat.log2 x) - 2 ^ tl⟩

theorem decodeEntry_of_lt {tl x : Nat} (hx : x ≠ 0) (hlt : x < 2 ^ (tl + 1)) (b : Byte) :
    decodeEntry tl x b = .ok (entryOf tl b x) := by
  have hlog : Nat.log2 x ≤ tl := Nat.lt_succ_iff.mp ((Nat.log2_lt hx).mpr hlt)
  simp only [decodeEntry, highbit_of_ne_zero hx, ok_bind, if_pos hlog, entryOf]

/-- `x << nb` lies in `[T, 2T)`, with room for the `nb` bits read (R102, R103). -/
theorem entry_bounds {tl x : Nat} (hx : x ≠ 0) (hlt : x < 2 ^ (tl + 1)) :
    2 ^ tl ≤ x * 2 ^ (tl - Nat.log2 x) ∧ x * 2 ^ (tl - Nat.log2 x) - 2 ^ tl + 2 ^ (tl - Nat.log2 x) ≤ 2 ^ tl := by
  have hlog : Nat.log2 x ≤ tl := Nat.lt_succ_iff.mp ((Nat.log2_lt hx).mpr hlt)
  have hsplit : 2 ^ Nat.log2 x * 2 ^ (tl - Nat.log2 x) = 2 ^ tl := by rw [← pow_add, Nat.add_sub_cancel' hlog]
  have hlow := Nat.mul_le_mul_right (2 ^ (tl - Nat.log2 x)) (Nat.log2_self_le hx)
  have hhigh := Nat.mul_le_mul_right (2 ^ (tl - Nat.log2 x)) (Nat.succ_le_of_lt (Nat.lt_log2_self (n := x)))
  rw [pow_succ', Nat.mul_assoc, Nat.succ_mul] at hhigh
  omega

/-- The registers after the slots `l`. -/
theorem mapIdx_set_count {next : List Nat} {b : Byte} {x : Nat} (hlen : next.length ≤ 256)
    (hb : next[b.toNat]? = some x) (l : List Byte) :
    (next.set b.toNat (x + 1)).mapIdx (fun i y => y + l.count (symbolOf i))
      = next.mapIdx fun i y => y + (b :: l).count (symbolOf i) := by
  refine List.ext_getElem? fun i => ?_
  rw [List.getElem?_mapIdx, List.getElem?_mapIdx]
  by_cases hi : i = b.toNat
  · obtain ⟨hlt, hx⟩ := List.getElem?_eq_some_iff.mp hb
    have hself : symbolOf b.toNat = b := (symbolOf_eq_iff b.isLt b).mpr rfl
    subst hi
    simp [hlt, hx, hself]
    omega
  · rw [List.getElem?_set_ne (Ne.symm hi)]
    by_cases hlt : i < next.length
    · have hne : b ≠ symbolOf i := fun heq => hi ((symbolOf_eq_iff (by omega) b).mp heq.symm)
      rw [List.count_cons_of_ne hne]
    · rw [List.getElem?_eq_none (by omega)]
      rfl

theorem decodeEntries_of_holds {tl : Nat} {l : List Byte} {next : List Nat} {start : Byte → Nat}
    (h : Holds next start l) (hlen : next.length ≤ 256) (hx : ∀ x ∈ counters start l, x ≠ 0 ∧ x < 2 ^ (tl + 1)) :
    decodeEntries tl l next
      = .ok (List.zipWith (entryOf tl) l (counters start l), next.mapIdx fun i x => x + l.count (symbolOf i)) := by
  induction l generalizing next start with
  | nil =>
    have hsame : next.mapIdx (fun _ x => x) = next := List.ext_getElem? fun i => by simp
    simp [decodeEntries, hsame]
  | cons b l ih =>
    rw [counters, List.forall_mem_cons] at hx
    obtain ⟨⟨hne, hlt⟩, hrest⟩ := hx
    have hnext := ih h.step (by simpa using hlen) hrest
    rw [mapIdx_set_count hlen (h b List.mem_cons_self)] at hnext
    simp only [decodeEntries, h.cell, decodeEntry_of_lt hne hlt, hnext, counters, List.zipWith_cons_cons]

/-- `symbolNext[b]` at the slot `u` of symbol `b` (R102). -/
def nextAt (norm : List Int) (table : List Byte) (u : Nat) (b : Byte) : Nat :=
  slots (norm.getD b.toNat 0) + (table.take u).count b

theorem SpreadOf.nextAt_bounds {norm : List Int} {tl u : Nat} {table : List Byte} {b : Byte} (h : SpreadOf norm tl table)
    (hu : table[u]? = some b) : nextAt norm table u b ≠ 0 ∧ nextAt norm table u b < 2 ^ (tl + 1) := by
  have hpos := h.slots_pos (List.mem_of_getElem? hu)
  have hlt := h.count_take_lt hu
  have hle := List.count_le_length (a := b) (l := table)
  rw [h.count, h.length] at hle
  rw [nextAt, pow_succ]
  omega

/-- What R102 says of the decode table on the spread's `tableSymbol`. -/
structure DTableOf (norm : List Int) (tl : Nat) (table : List Byte) (dt : DTable) : Prop where
  entries_length : dt.entries.length = 2 ^ tl
  symbolNext_eq : dt.symbolNext = norm.map fun w => 2 * slots w
  entry : ∀ (u : Nat) (b : Byte), table[u]? = some b → dt.entries[u]? = some (entryOf tl b (nextAt norm table u b))

/-- TB.DTABLE ends with such a table, whatever the RAM held. -/
theorem exists_dtable {norm : List Int} {msv tl : Nat} {table : List Byte} (hdist : IsDist norm msv tl)
    (htable : SpreadOf norm tl table) (hspread : ∀ old, spread old norm msv tl = ⟨.ok (), table.map some⟩) :
    ∃ dt, DTableOf norm tl table dt ∧ ∀ old, buildDTable old norm msv tl = ⟨.ok dt, table.map some⟩ := by
  obtain ⟨-, -, hmsv, hlen, hweights, -⟩ := hdist
  have hfirst : norm.map firstNext = norm.map slots :=
    List.map_congr_left fun w hw => firstNext_of_weight (hweights w hw)
  have hholds : Holds (norm.map slots) (fun b => slots (norm.getD b.toNat 0)) table := fun b hb => by
    simp [htable.lt_length hb]
  have hbounds : ∀ x ∈ counters (fun b => slots (norm.getD b.toNat 0)) table, x ≠ 0 ∧ x < 2 ^ (tl + 1) := fun x hx => by
    obtain ⟨u, b, hu, rfl⟩ := exists_of_mem_counters hx
    exact htable.nextAt_bounds hu
  have hend : (norm.map slots).mapIdx (fun i x => x + table.count (symbolOf i)) = norm.map fun w => 2 * slots w :=
    List.ext_getElem (by simp) fun i hi _ => by
      have hi : i < norm.length := by simpa using hi
      have hcount := htable.count (symbolOf i)
      rw [← (symbolOf_eq_iff (b := symbolOf i) (show i < 256 by omega)).mp rfl, List.getD_eq_getElem _ _ hi] at hcount
      simp [hcount, Nat.two_mul]
  refine ⟨⟨List.zipWith (entryOf tl) table (counters (fun b => slots (norm.getD b.toNat 0)) table), _⟩,
    ⟨?_, rfl, fun u b hu => ?_⟩, fun old => ?_⟩
  · simp [htable.length]
  · rw [List.getElem?_zipWith, hu, counters_getElem? hu]
    rfl
  · simp only [buildDTable, hspread, Except.bind, dtableOf, List.take_of_length_le hlen.le, readSlots_map_some, ok_bind,
      hfirst, decodeEntries_of_holds hholds (show (norm.map slots).length ≤ 256 by rw [List.length_map]; omega) hbounds, hend]

theorem exec_tbDtable_of_build {norm : List Int} {msv tl : Nat} {table : List Byte} {dt : DTable}
    (hlen : norm.length = msv + 1) (hbuild : ∀ old, buildDTable old norm msv tl = ⟨.ok dt, table.map some⟩) (s : State) :
    exec (.tbDtable norm msv tl) s
      = .next { s with work := { s.work with tableSymbol := table.map some, dt := dt }, result := .ok } := by
  change execTbDtable norm msv tl s = _
  rw [execTbDtable, hbuild, tableOutcome_of_ok hlen]
  rfl

/-- Settles O40: at each slot `symbolNext` is below twice the symbol's slots (`SpreadOf.nextAt_bounds`). -/
theorem decodeTableEntries : Obligations.DecodeTableEntries := by
  intro norm msv tl s hdist
  obtain ⟨table, htable, hspread⟩ := exists_spread hdist
  obtain ⟨dt, hdt, hbuild⟩ := exists_dtable hdist htable hspread
  obtain ⟨-, -, -, hlen, -, -⟩ := hdist
  refine ⟨table, dt, exec_tbSpread_of_spread hlen hspread s, exec_tbDtable_of_build hlen hbuild s, hdt.entries_length,
    hdt.symbolNext_eq, fun u b hu => ?_⟩
  obtain ⟨hne, hlt⟩ := htable.nextAt_bounds hu
  exact ⟨hdt.entry u b hu, entry_bounds hne hlt⟩

end Sys2Proof.Machine
end

section
/-! Encoder against decoder on the tables of one distribution (44_tables.md R103). A step writes as many bits as bring the
state value into `[w, 2w)` for a symbol of `w` slots (`encodeBits_bounds`); those values are the symbol's `symbolNext` values
(R102), so the slot the step reaches holds the entry that leads back. -/

namespace Sys2Proof.Machine

/-! ### The bits of a step (45_block_codec.md R106) -/

/-- `((V + (m << 16) - d) mod 2^32) >> 16` is `m`, or one less where `V` is below `d`. -/
theorem encodeBits_of_delta {m d v : Nat} {f : Option Int} (hm : m ≤ 15) (hd : d ≤ m * 2 ^ 16) (hd16 : d ≤ 2 ^ 16)
    (hv : v < 2 ^ 16) : encodeBits ⟨BitVec.ofNat 32 (m * 2 ^ 16 - d), f⟩ v = if v < d then m - 1 else m := by
  rw [encodeBits, BitVec.toNat_ofNat]
  split <;> omega

/-- The two rows of R100 for a present symbol as one: `w << m`, of its number of slots `w`, lies in `[T, 2T]`. -/
theorem exists_symbolTransform {tl : Nat} {w : Int} (h5 : 5 ≤ tl) (h15 : tl ≤ 15) (total : Nat) (h0 : w ≠ 0) (hlow : -1 ≤ w)
    (hw : w ≤ 2 ^ tl) :
    ∃ m, 1 ≤ m ∧ m ≤ tl ∧ 2 ^ tl ≤ slots w * 2 ^ m ∧ slots w * 2 ^ m ≤ 2 * 2 ^ tl ∧
      symbolTransform tl total w = ⟨BitVec.ofNat 32 (m * 2 ^ 16 - slots w * 2 ^ m), some ((total : Int) - slots w)⟩ := by
  by_cases h2 : 2 ≤ w
  · have hslots : slots w = w.toNat := if_neg (by omega)
    have hnat : w.toNat ≤ 2 ^ tl := Int.toNat_le.mpr (by exact_mod_cast hw)
    obtain ⟨hm, hge, hle⟩ := maxBitsOut_bounds (show 2 ≤ w.toNat by omega) hnat
    refine ⟨tl - Nat.log2 (w.toNat - 1), hm, Nat.sub_le _ _, hslots ▸ hge, hslots ▸ hle, ?_⟩
    rw [symbolTransform_of_two_le h15 total h2 hw, hslots, Int.toNat_of_nonneg (by omega)]
  · have hsingle : w = -1 ∨ w = 1 := by omega
    have hslots : slots w = 1 := by obtain rfl | rfl := hsingle <;> rfl
    refine ⟨tl, by omega, le_rfl, ?_⟩
    rw [hslots, Nat.one_mul]
    exact ⟨le_rfl, by omega, symbolTransform_single h5 h15 total hsingle⟩

/-- A step on a present symbol of `w` slots shifts the state value into `[w, 2w)`. -/
theorem encodeBits_bounds {tl v : Nat} {w : Int} (h5 : 5 ≤ tl) (h15 : tl ≤ 15) (total : Nat) (h0 : w ≠ 0) (hlow : -1 ≤ w)
    (hw : w ≤ 2 ^ tl) (hv : 2 ^ tl ≤ v) (hv2 : v < 2 * 2 ^ tl) :
    ∃ nb ≤ tl, encodeBits (symbolTransform tl total w) v = nb ∧ slots w ≤ v / 2 ^ nb ∧ v / 2 ^ nb < 2 * slots w ∧
      (symbolTransform tl total w).deltaFindState = some ((total : Int) - slots w) := by
  obtain ⟨m, hm, hmtl, hge, hle, htt⟩ := exists_symbolTransform h5 h15 total h0 hlow hw
  have hpow : 2 ^ tl ≤ 2 ^ 15 := Nat.pow_le_pow_right (by omega) h15
  have hbits := encodeBits_of_delta (v := v) (f := some ((total : Int) - slots w)) (hmtl.trans h15)
    (show slots w * 2 ^ m ≤ m * 2 ^ 16 by omega) (by omega) (by omega)
  refine ⟨_, ?_, htt ▸ hbits, ?_, ?_, by rw [htt]⟩
  · split <;> omega
  · rw [Nat.le_div_iff_mul_le (by positivity)]
    split
    · have hhalf : slots w * 2 ^ m = 2 * (slots w * 2 ^ (m - 1)) := by
        rw [← Nat.sub_add_cancel hm, pow_succ, Nat.add_sub_cancel]
        ring
      omega
    · exact Nat.not_lt.mp ‹_›
  · rw [Nat.div_lt_iff_lt_mul (by positivity)]
    split
    · have hhalf : slots w * 2 ^ m = 2 * slots w * 2 ^ (m - 1) := by
        rw [← Nat.sub_add_cancel hm, pow_succ, Nat.add_sub_cancel]
        ring
      omega
    · rw [Nat.mul_assoc]
      omega

/-! ### A step and its entry -/

theorem encodeSymbol_of_cells {ct : CTable} {wr : Writer} {v v' i nb : Nat} {b : Byte} {tt : SymbolTT} {dfs : Int}
    (htt : ct.symbolTT[b.toNat]? = some tt) (hdfs : tt.deltaFindState = some dfs) (hbits : encodeBits tt v = nb)
    (hnb : nb ≤ 32) (hi : ((v / 2 ^ nb : Nat) : Int) + dfs = i) (hstate : ct.stateTable[i]? = some (some v')) :
    encodeSymbol ct wr v b = .ok (v', wr.put v nb) := by
  have hcell : cell ct.symbolTT b.toNat = .ok tt := by rw [cell, htt]
  have hram : ramCell ct.stateTable i = .ok v' := by rw [ramCell, hstate]
  simp only [encodeSymbol, hcell, ok_bind, hdfs, hbits, writerAdd_of_le hnb, hi, Int.toNat_natCast, hram,
    if_neg (show ¬(i : Int) < 0 by omega)]

/-- The entry whose `symbolNext` is the shifted state value takes the `nb` bits shifted out back. -/
theorem entryOf_div {tl v nb : Nat} (hnb : nb ≤ tl) (hv : 2 ^ tl ≤ v) (hv2 : v < 2 * 2 ^ tl) (b : Byte) :
    ∃ newState, entryOf tl b (v / 2 ^ nb) = ⟨b, nb, newState⟩ ∧ newState + v % 2 ^ nb = v - 2 ^ tl := by
  have hpos : 0 < 2 ^ tl := by positivity
  have hlogv : Nat.log2 v = tl := (Nat.log2_eq_iff (by omega)).mpr ⟨hv, by omega⟩
  have hlog : tl - Nat.log2 (v / 2 ^ nb) = nb := by
    rw [Nat.log2_eq_log_two, Nat.log_div_base_pow, ← Nat.log2_eq_log_two, hlogv]
    omega
  have hle : 2 ^ tl ≤ v / 2 ^ nb * 2 ^ nb := by
    have hquot : 2 ^ (tl - nb) ≤ v / 2 ^ nb := by
      rwa [Nat.le_div_iff_mul_le (by positivity), ← pow_add, Nat.sub_add_cancel hnb]
    calc 2 ^ tl = 2 ^ (tl - nb) * 2 ^ nb := by rw [← pow_add, Nat.sub_add_cancel hnb]
      _ ≤ v / 2 ^ nb * 2 ^ nb := Nat.mul_le_mul_right _ hquot
  have hdiv := Nat.div_add_mod' v (2 ^ nb)
  exact ⟨v / 2 ^ nb * 2 ^ nb - 2 ^ tl, by rw [entryOf, hlog], by omega⟩

/-- A step of a present symbol on the tables of one distribution, and the entry of the slot it reaches. -/
theorem exists_encodeSymbol {norm : List Int} {msv tl v : Nat} {table : List Byte} {ct : CTable} {dt : DTable} {b : Byte}
    (hdist : IsDist norm msv tl) (htable : SpreadOf norm tl table) (hct : CTableOf norm msv tl table ct)
    (hdt : DTableOf norm tl table dt) (hb : b.toNat ≤ msv) (h0 : norm.getD b.toNat 0 ≠ 0) (hv : 2 ^ tl ≤ v)
    (hv2 : v < 2 * 2 ^ tl) :
    ∃ u nb newState, u < 2 ^ tl ∧ nb ≤ tl ∧ (∀ wr, encodeSymbol ct wr v b = .ok (2 ^ tl + u, wr.put v nb)) ∧
      dt.entries[u]? = some ⟨b, nb, newState⟩ ∧ newState + v % 2 ^ nb = v - 2 ^ tl := by
  obtain ⟨hlow, hw⟩ := le_two_pow_of_isDist hdist hb
  obtain ⟨h5, h15, -, hlen, -, -⟩ := hdist
  obtain ⟨nb, hnb, hbits, hge, hlt, hdfs⟩ := encodeBits_bounds h5 h15 (cumulOf norm b.toNat) h0 hlow hw hv hv2
  obtain ⟨u, hu, hcount⟩ := exists_slot_of_lt_count (l := table) (b := b)
    (k := v / 2 ^ nb - slots (norm.getD b.toNat 0)) (by rw [htable.count]; omega)
  obtain ⟨newState, hentry, hback⟩ := entryOf_div hnb hv hv2 b
  have htt : ct.symbolTT[b.toNat]? = some (symbolTransform tl (cumulOf norm b.toNat) (norm.getD b.toNat 0)) := by
    rw [hct.symbolTT_eq, symbolTransforms_getElem? (by omega), Nat.zero_add]
  have hnext : nextAt norm table u b = v / 2 ^ nb := by
    rw [nextAt, hcount]
    omega
  have hult : u < 2 ^ tl := by
    rw [← htable.length]
    exact (List.getElem?_eq_some_iff.mp hu).1
  refine ⟨u, nb, newState, hult, hnb, fun wr => ?_, by rw [hdt.entry u b hu, hnext, hentry], hback⟩
  exact encodeSymbol_of_cells htt hdfs hbits (by omega) (by rw [hcount]; omega) (hct.state u b hu)

theorem exec_fseEncsym_of_ok {j : Bool} {v v' : Nat} {b : Byte} {wr : Writer} {s : State}
    (h : encodeSymbol s.work.ct s.work.writer v b = .ok (v', wr)) :
    exec (.fseEncsym j v b) s
      = .next ({ s with work := { s.work.setV j v' with writer := wr } }.reply (.value v')) := by
  change execFseEncsym j v b s = _
  rw [execFseEncsym, h]
  rfl

/-- What TB.CTABLE and then TB.DTABLE leave. -/
theorem results_tables {norm : List Int} {msv tl : Nat} {table : List Byte} {ct : CTable} {dt : DTable}
    (hlen : norm.length = msv + 1)
    (hctable : ∀ oldTable oldState, buildCTable oldTable oldState norm msv tl = ⟨.ok ct, table.map some⟩)
    (hdtable : ∀ old, buildDTable old norm msv tl = ⟨.ok dt, table.map some⟩) (s : State) :
    results [.tbCtable norm msv tl, .tbDtable norm msv tl] s
      = some ([.ok, .ok],
        { s with work := { s.work with tableSymbol := table.map some, ct := ct, dt := dt }, result := .ok }) := by
  simp only [results, exec_tbCtable_of_build hlen hctable, exec_tbDtable_of_build hlen hdtable, Option.map_some]

theorem DTableOf.newState_le {norm : List Int} {tl : Nat} {table : List Byte} {dt : DTable} (hdt : DTableOf norm tl table dt)
    (htable : SpreadOf norm tl table) : ∀ e ∈ dt.entries, e.newState + 2 ^ e.nbBits ≤ 2 ^ tl := by
  intro e he
  obtain ⟨u, hu⟩ := List.mem_iff_getElem?.mp he
  have hlt : u < table.length := by
    rw [htable.length, ← hdt.entries_length]
    exact (List.getElem?_eq_some_iff.mp hu).1
  have hsym : table[u]? = some table[u] := List.getElem?_eq_getElem hlt
  rw [hdt.entry u _ hsym, Option.some.injEq] at hu
  obtain ⟨hne, hbound⟩ := htable.nextAt_bounds hsym
  rw [← hu]
  exact (entry_bounds hne hbound).2

/-- Settles O42: the shifted state value is the `symbolNext` of the slot reached (`exists_encodeSymbol`). -/
theorem decodeEntryUndoesEncodeStep : Obligations.DecodeEntryUndoesEncodeStep := by
  intro norm msv tl v b j s hdist hb h0 hv hv2
  obtain ⟨table, htable, hspread⟩ := exists_spread hdist
  obtain ⟨ct, hct, hctable⟩ := exists_ctable hdist htable hspread
  obtain ⟨dt, hdt, hdtable⟩ := exists_dtable hdist htable hspread
  obtain ⟨u, nb, newState, hu, hnb, hstep, hentry, hback⟩ := exists_encodeSymbol hdist htable hct hdt hb h0 hv hv2
  obtain ⟨-, -, -, hlen, -, -⟩ := hdist
  refine ⟨_, _, _, 2 ^ tl + u, nb, newState, results_tables hlen hctable hdtable s, hdt.newState_le htable,
    exec_fseEncsym_of_ok (hstep _), rfl, by omega, by omega, hnb, rfl, ?_, hback⟩
  rwa [Nat.add_sub_cancel_left]

end Sys2Proof.Machine
end

section
/-! The single steps of the block codec (45_block_codec.md R105, R106, R109, R110): FSE.INITC, FSE.ENCSYM, FSE.INITD and
FSE.DECSYM on any tables. -/

namespace Sys2Proof.Machine

/-! ### The encoder (R105, R106) -/

theorem initCState_of_mem {table : List (Option Byte)} {b : Byte} (h : some b ∈ table) (tl : Nat) :
    initCState tl table b = .ok (2 ^ tl + table.idxOf (some b)) := if_pos h

theorem idxOf_eq_of_first {table : List (Option Byte)} {b : Byte} {u : Nat} (h : table[u]? = some (some b))
    (hfirst : ∀ u', u' < u → table[u']? ≠ some (some b)) : table.idxOf (some b) = u := by
  obtain ⟨hu, hub⟩ := List.getElem?_eq_some_iff.mp h
  refine (List.findIdx_eq hu).mpr ⟨beq_iff_eq.mpr hub, fun u' hlt => beq_eq_false_iff_ne.mpr fun heq => hfirst u' hlt ?_⟩
  rw [List.getElem?_eq_getElem (hlt.trans hu), heq]

theorem Work.setV_eq (w : Work) (j : Bool) (x : Nat) :
    w.setV j x = { w with v0 := if j then w.v0 else x, v1 := if j then x else w.v1 } := by cases j <;> rfl

theorem exec_fseInitc_of_first {s : State} {b : Byte} {u : Nat} (h : s.work.tableSymbol[u]? = some (some b))
    (hfirst : ∀ u', u' < u → s.work.tableSymbol[u']? ≠ some (some b)) (j : Bool) :
    exec (.fseInitc j b) s
      = .next ({ s with work := s.work.setV j (2 ^ s.work.ct.tl + u) }.reply (.value (2 ^ s.work.ct.tl + u))) := by
  simp only [exec, execFseInitc, initCState_of_mem (List.mem_of_getElem? h), idxOf_eq_of_first h hfirst]
  rfl

theorem exec_fseInitc_of_absent {s : State} {b : Byte} (h : some b ∉ s.work.tableSymbol) (j : Bool) :
    exec (.fseInitc j b) s = .fault .absentSymbol := by
  simp only [exec, execFseInitc, initCState, if_neg h]
  rfl

/-- Settles O41: a step of the encoder puts the low `nb` bits of `V` (`encodeSymbol_of_cells`). -/
theorem encoderSteps : Obligations.EncoderSteps := by
  intro j b s
  refine ⟨fun h => exec_fseInitc_of_absent h j, fun u hu hfirst => ?_, ?_⟩
  · rw [exec_fseInitc_of_first hu hfirst, Work.setV_eq]
    rfl
  · intro v v' dnb dfs htt nb hnb hi hstate
    refine ⟨s.work.writer.put v nb, ?_, rfl, rfl, Writer.put_ovf _ _ _, fun i hi => ?_, fun i hi => ?_⟩
    · rw [exec_fseEncsym_of_ok (encodeSymbol_of_cells htt rfl rfl hnb (Int.toNat_of_nonneg hi).symm hstate), Work.setV_eq]
      rfl
    · rw [Writer.put_bit, if_pos hi]
    · simp [Writer.put_bit, hi]

/-! ### The decoder (R109, R110) -/

theorem Work.setS_eq (w : Work) (j : Bool) (x : Nat) :
    w.setS j x = { w with s0 := if j then w.s0 else x, s1 := if j then x else w.s1 } := by cases j <;> rfl

theorem decodeSymbol_of_none {dt : DTable} {st : Nat} (h : dt.entries[st]? = none) (r : Reader) (update : Bool) :
    decodeSymbol dt r st update = .error (.stuck .tableUnwritten) := by
  simp only [decodeSymbol, cell, h]
  rfl

section

variable {dt : DTable} {st : Nat} {e : DEntry} (h : dt.entries[st]? = some e) {r : Reader}
include h

theorem decodeSymbol_last : decodeSymbol dt r st false = .ok (e.symbol, st, r) := by
  simp only [decodeSymbol, cell, h, ok_bind, Bool.false_eq_true, if_false]

theorem decodeSymbol_of_read {v : Nat} {r' : Reader} (hread : readerRead r e.nbBits = .ok (v, r')) :
    decodeSymbol dt r st true = .ok (e.symbol, e.newState + v, r') := by
  simp only [decodeSymbol, cell, h, ok_bind, if_true, hread]

theorem decodeSymbol_of_read_error {x : Stop} (hread : readerRead r e.nbBits = .error x) :
    decodeSymbol dt r st true = .error x := by
  simp only [decodeSymbol, cell, h, ok_bind, if_true, hread]
  rfl

end

theorem exec_fseInitd_of_le {s : State} {tl : Nat} (h : tl ≤ s.work.reader.p) (j : Bool) :
    exec (.fseInitd j tl) s = .next ({ s with
      work := { s.work.setS j (s.work.reader.top tl) with reader := ⟨s.work.reader.w, s.work.reader.p - tl⟩ } }.reply
        (.value (s.work.reader.top tl))) := by
  simp only [exec, execFseInitd, readerRead_of_le h]
  rfl

theorem exec_fseInitd_of_lt {s : State} {tl : Nat} (h : s.work.reader.p < tl) (j : Bool) :
    exec (.fseInitd j tl) s = .next { s with result := .error .streamExhausted } := by
  simp only [exec, execFseInitd, readerRead_of_lt h]
  rfl

theorem exec_fseDecsym_of_ok {s : State} {st x : Nat} {update : Bool} {b : Byte} {r : Reader}
    (h : decodeSymbol s.work.dt s.work.reader st update = .ok (b, x, r)) (j : Bool) :
    exec (.fseDecsym j st update) s
      = .next ({ s with work := { s.work.setS j x with reader := r } }.reply (.symbol b x)) := by
  simp only [exec, execFseDecsym, h]
  rfl

theorem exec_fseDecsym_of_error {s : State} {st : Nat} {update : Bool} {e : Stop}
    (h : decodeSymbol s.work.dt s.work.reader st update = .error e) (j : Bool) :
    exec (.fseDecsym j st update) s = unitOutcome s (.error e) := by
  simp only [exec, execFseDecsym, h]
  rfl

/-- Settles O43: FSE.INITD is a read of the bit reader, FSE.DECSYM one more where it updates the state. -/
theorem decoderSteps : Obligations.DecoderSteps := by
  intro j s r
  refine ⟨fun tl h => exec_fseInitd_of_lt h j, fun tl h => ⟨r.top tl, r.top_testBit tl, ?_⟩, fun st h update => ?_,
    fun st e h => ⟨?_, fun hlt => exec_fseDecsym_of_error (decodeSymbol_of_read_error h (readerRead_of_lt hlt)) j,
      fun hle => ⟨r.top e.nbBits, r.top_testBit e.nbBits, ?_⟩⟩⟩
  · rw [exec_fseInitd_of_le h, Work.setS_eq]
    rfl
  · exact exec_fseDecsym_of_error (decodeSymbol_of_none h _ update) j
  · rw [exec_fseDecsym_of_ok (decodeSymbol_last h), Work.setS_eq]
    rfl
  · rw [exec_fseDecsym_of_ok (decodeSymbol_of_read h (readerRead_of_le hle)), Work.setS_eq]
    rfl

end Sys2Proof.Machine
end

section
/-! The two-state loops (45_block_codec.md R108, R111). The decoder undoes the encoder step by step: the encoder's state
values are the decoder's states and `T` more (`Pair.codes`), and the bits the decoder has not read are those that the encoder
had written when it came to the same symbol (`Reader.Unread`). -/

namespace Sys2Proof.Machine

/-! ### Pairs of states -/

/-- The encoder's state values for the decoder's states. -/
def Pair.codes (tl : Nat) (st : Pair) : Pair := ⟨2 ^ tl + st.x0, 2 ^ tl + st.x1⟩

/-- Both states are slots of the table. -/
def Pair.slotsOf (tl : Nat) (st : Pair) : Prop := st.x0 < 2 ^ tl ∧ st.x1 < 2 ^ tl

theorem Pair.codes_at (tl : Nat) (st : Pair) (i : Nat) : (st.codes tl).at i = 2 ^ tl + st.at i := by
  unfold Pair.at
  split <;> rfl

theorem Pair.codes_put (tl : Nat) (st : Pair) (i u : Nat) : (st.codes tl).put i (2 ^ tl + u) = (st.put i u).codes tl := by
  unfold Pair.put
  split <;> rfl

theorem Pair.at_put_of_eq {st : Pair} {i k : Nat} (h : k % 2 = i % 2) (x : Nat) : (st.put i x).at k = x := by
  rw [Pair.put, Pair.at, h]
  split <;> rfl

theorem Pair.at_put_of_ne {st : Pair} {i k : Nat} (h : k % 2 ≠ i % 2) (x : Nat) : (st.put i x).at k = st.at k := by
  obtain hi | hi := Nat.mod_two_eq_zero_or_one i
  · simp [Pair.put, Pair.at, hi, show k % 2 = 1 by omega]
  · simp [Pair.put, Pair.at, hi, show k % 2 = 0 by omega]

@[simp] theorem Pair.put_put_same (st : Pair) (i x y : Nat) : (st.put i x).put i y = st.put i y := by
  unfold Pair.put
  split <;> rfl

@[simp] theorem Pair.put_at_same (st : Pair) (i : Nat) : st.put i (st.at i) = st := by
  unfold Pair.put Pair.at
  split <;> rfl

/-- Two states put one after the other are the pair, whatever it held. -/
theorem Pair.put_succ_put (st st' : Pair) (n x y : Nat) : (st.put (n + 1) x).put n y = (st'.put (n + 1) x).put n y := by
  obtain h | h := Nat.mod_two_eq_zero_or_one n
  · simp [Pair.put, h, show (n + 1) % 2 = 1 by omega]
  · simp [Pair.put, h, show (n + 1) % 2 = 0 by omega]

theorem Pair.slotsOf.at_lt {tl : Nat} {st : Pair} (h : st.slotsOf tl) (i : Nat) : st.at i < 2 ^ tl := by
  unfold Pair.at
  split
  · exact h.1
  · exact h.2

theorem Pair.slotsOf.put {tl : Nat} {st : Pair} (h : st.slotsOf tl) {u : Nat} (hu : u < 2 ^ tl) (i : Nat) :
    (st.put i u).slotsOf tl := by
  unfold Pair.put
  split
  · exact ⟨hu, h.2⟩
  · exact ⟨h.1, hu⟩

/-! ### What the decoder has not read -/

/-- The unread bits of `r` are the bits of the writer `wr`. -/
structure Reader.Unread (r : Reader) (wr : Writer) : Prop where
  p : r.p = wr.w.len
  bit : ∀ j, j < wr.w.len → r.w.bit j = wr.w.bit j

/-- The field put last is read first, and what was there before it is left. -/
theorem Reader.Unread.read {r : Reader} {wr : Writer} {v n : Nat} (h : r.Unread (wr.put v n)) :
    ∃ r' : Reader, readerRead r n = .ok (v % 2 ^ n, r') ∧ r'.Unread wr := by
  have hp : r.p = wr.w.len + n := h.p
  refine ⟨_, readerRead_of_le (by omega) |>.trans (by rw [Reader.top_put hp h.bit]), ?_, fun j hj => ?_⟩
  · exact (congrArg (· - n) hp).trans (Nat.add_sub_cancel ..)
  · rw [h.bit j (hj.trans_le (Nat.le_add_right ..)), Writer.put_bit, if_pos hj]

/-- The reader of a closed writer's bytes. -/
theorem readerInit_writerClose (wr : Writer) :
    ∃ r : Reader, readerInit (writerClose wr).bytes = .ok r ∧ r.Unread wr :=
  ⟨_, readerInit_of_endMark (writerClose_endMark wr) (writerClose_bytes_length wr), rfl, fun j hj => by
    rw [writerClose_bytes_bit, writerClose_bit, if_pos hj]⟩

/-! ### Runs of the decoder -/

/-- The run with `front` answered before what it answers. -/
def DecodeRun.after (run : DecodeRun) (front : List Byte) : DecodeRun := { run with out := run.out.map (front ++ ·) }

theorem DecodeRun.after_nil (run : DecodeRun) : run.after [] = run := by
  obtain ⟨out, st, r⟩ := run
  cases out <;> rfl

theorem DecodeRun.after_after (run : DecodeRun) (front next : List Byte) :
    (run.after next).after front = run.after (front ++ next) := by
  obtain ⟨out, st, r⟩ := run
  cases out with
  | error e => rfl
  | ok l => simp [DecodeRun.after, Except.map]

/-! ### The tables of one distribution -/

/-- The table `tableSymbol` and both tables made from it, as both builders leave them. -/
structure TablesOf (norm : List Int) (msv tl : Nat) (table : List Byte) (ct : CTable) (dt : DTable) : Prop where
  dist : IsDist norm msv tl
  spread : SpreadOf norm tl table
  ctable : CTableOf norm msv tl table ct
  dtable : DTableOf norm tl table dt
  buildCTable : ∀ oldTable oldState, buildCTable oldTable oldState norm msv tl = ⟨.ok ct, table.map some⟩
  buildDTable : ∀ old, buildDTable old norm msv tl = ⟨.ok dt, table.map some⟩

theorem IsDist.tl_le {norm : List Int} {msv tl : Nat} (h : IsDist norm msv tl) : tl ≤ 15 := h.2.1

theorem IsDist.length {norm : List Int} {msv tl : Nat} (h : IsDist norm msv tl) : norm.length = msv + 1 := h.2.2.2.1

theorem exists_tables {norm : List Int} {msv tl : Nat} (h : IsDist norm msv tl) :
    ∃ table ct dt, TablesOf norm msv tl table ct dt := by
  obtain ⟨table, htable, hspread⟩ := exists_spread h
  obtain ⟨ct, hct, hctable⟩ := exists_ctable h htable hspread
  obtain ⟨dt, hdt, hdtable⟩ := exists_dtable h htable hspread
  exact ⟨table, ct, dt, h, htable, hct, hdt, hctable, hdtable⟩

/-- A symbol the distribution has a slot for. -/
def Present (norm : List Int) (msv : Nat) (b : Byte) : Prop := b.toNat ≤ msv ∧ norm.getD b.toNat 0 ≠ 0

section

variable {norm : List Int} {msv tl : Nat} {table : List Byte} {ct : CTable} {dt : DTable}
  (h : TablesOf norm msv tl table ct dt)
include h

/-- One step of each loop: from the slot that the encoder reaches the decoder comes back, given the bits put. -/
theorem TablesOf.step {b : Byte} (hb : Present norm msv b) {x : Nat} (hx : x < 2 ^ tl) :
    ∃ u nb, u < 2 ^ tl ∧ (∀ wr, encodeSymbol ct wr (2 ^ tl + x) b = .ok (2 ^ tl + u, wr.put (2 ^ tl + x) nb)) ∧
      ∀ (wr : Writer) (r : Reader), r.Unread (wr.put (2 ^ tl + x) nb) →
        ∃ r' : Reader, r'.Unread wr ∧ decodeSymbol dt r u true = .ok (b, x, r') := by
  obtain ⟨u, nb, newState, hu, -, hencode, hentry, hback⟩ := exists_encodeSymbol h.dist h.spread h.ctable h.dtable
    hb.1 hb.2 (Nat.le_add_right (2 ^ tl) x) (by omega)
  refine ⟨u, nb, hu, hencode, fun wr r hr => ?_⟩
  obtain ⟨r', hread, hr'⟩ := hr.read
  refine ⟨r', hr', (decodeSymbol_of_read hentry hread).trans ?_⟩
  rw [hback, Nat.add_sub_cancel_left]

/-- The symbol a slot decodes to is the one it holds. -/
theorem TablesOf.decodeSymbol_last {u : Nat} {b : Byte} (hu : table[u]? = some b) (r : Reader) :
    decodeSymbol dt r u false = .ok (b, u, r) :=
  Machine.decodeSymbol_last (h.dtable.entry u b hu)

theorem TablesOf.mem_table {b : Byte} (hb : Present norm msv b) : b ∈ table := by
  have hweight := (le_two_pow_of_isDist h.dist hb.1).1
  have hne := hb.2
  rw [← List.count_pos_iff, h.spread.count, slots]
  split <;> omega

/-- The state value a symbol seeds, or a free one where there is no symbol (log 27). -/
theorem TablesOf.seed {o : Option Byte} (ho : ∀ b ∈ o, Present norm msv b) (n j : Nat) :
    ∃ u < 2 ^ tl, seedState tl (table.map some) n j o = .ok (2 ^ tl + u) ∧ ∀ b ∈ o, table[u]? = some b := by
  cases o with
  | none => exact ⟨_, Nat.mod_lt _ (Nat.two_pow_pos tl), rfl, nofun⟩
  | some b =>
    have hmem : some b ∈ table.map some := List.mem_map_of_mem (h.mem_table (ho b rfl))
    have hlt := List.idxOf_lt_length_of_mem hmem
    have hat : (table.map some)[(table.map some).idxOf (some b)] = some b := List.getElem_idxOf hlt
    rw [List.length_map] at hlt
    refine ⟨_, h.spread.length ▸ hlt, initCState_of_mem hmem tl, fun b' hb' => ?_⟩
    obtain rfl := Option.some.inj hb'
    rw [List.getElem_map, Option.some.injEq] at hat
    rw [List.getElem?_eq_getElem hlt, hat]

/-- The loops over `pre`: the decoder, given the unread bits, answers `pre` and comes back to where the encoder began. It
has the last two symbols of the block still to come, for `pre` holds none of them (R111). -/
theorem TablesOf.loops {pre : List Byte} (hpre : ∀ b ∈ pre, Present norm msv b) {st : Pair} (hst : st.slotsOf tl)
    (wr : Writer) {k : Nat} (hk : pre ≠ [] → 2 ≤ k) :
    ∃ st' wr', st'.slotsOf tl ∧
      encodeLoop ct pre.reverse (pre.length - 1) (st.codes tl) wr = .ok (st'.codes tl, wr') ∧
      ∀ r : Reader, r.Unread wr' → ∃ r' : Reader, r'.Unread wr ∧
        decodeLoop dt (pre.length + k) 0 st' r = (decodeLoop dt k pre.length st r').after pre := by
  induction pre using List.reverseRecOn generalizing st wr k with
  | nil => exact ⟨st, wr, hst, rfl, fun r hr => ⟨r, hr, by rw [DecodeRun.after_nil, List.length_nil, Nat.zero_add]⟩⟩
  | append_singleton pre b ih =>
    have h2 := hk (by simp)
    obtain ⟨u, nb, hu, hencode, hdecode⟩ := h.step (hpre b (by simp)) (hst.at_lt pre.length)
    obtain ⟨st', wr', hst', hloop, hback⟩ := ih (fun b' hb' => hpre b' (by simp [hb'])) (hst.put hu pre.length)
      (wr.put (2 ^ tl + st.at pre.length) nb) (k := k + 1) (fun _ => by omega)
    refine ⟨st', wr', hst', ?_, fun r hr => ?_⟩
    · rw [List.reverse_append, List.reverse_singleton, List.singleton_append, List.length_append, List.length_singleton,
        Nat.add_sub_cancel, encodeLoop, Pair.codes_at, hencode]
      simpa only [Pair.codes_put] using hloop
    · obtain ⟨r₁, hr₁, hrun⟩ := hback r hr
      obtain ⟨r', hr', hsymbol⟩ := hdecode wr r₁ hr₁
      refine ⟨r', hr', ?_⟩
      have hone : decodeLoop dt (k + 1) pre.length (st.put pre.length u) r₁
          = (decodeLoop dt k (pre.length + 1) st r').after [b] := by
        rw [decodeLoop, Pair.at_put_of_eq rfl, decide_eq_true h2, hsymbol]
        simp only [Pair.put_put_same, Pair.put_at_same]
        rfl
      rw [List.length_append, List.length_singleton, Nat.add_assoc, Nat.add_comm 1 k, hrun, hone, DecodeRun.after_after]

/-- The loop over the last two symbols of a block reads no bit. -/
theorem TablesOf.decodeLoop_last {suf : List Byte} (hlen : suf.length ≤ 2) {st : Pair} {i : Nat}
    (hat : ∀ k, ∀ b ∈ suf[k]?, table[st.at (i + k)]? = some b) (r : Reader) :
    decodeLoop dt suf.length i st r = ⟨.ok suf, st, r⟩ := by
  induction suf generalizing i with
  | nil => rfl
  | cons b suf ih =>
    rw [List.length_cons] at hlen
    have hrest := ih (by omega) (i := i + 1) fun k b' hb' => by
      rw [Nat.add_assoc, Nat.add_comm 1 k]
      exact hat (k + 1) b' hb'
    have hsymbol : decodeSymbol dt r (st.at i) false = .ok (b, st.at i, r) := h.decodeSymbol_last (hat 0 b rfl) r
    rw [List.length_cons, decodeLoop, decide_eq_false (by omega), hsymbol]
    simp only [Pair.put_at_same, hrest]
    rfl

/-- FSE.ENCODE seeds states that hold the last two symbols, runs its loop over the others and flushes both states (R108). -/
theorem TablesOf.encodeBlock_of_loop {src : List Byte} (hsrc : ∀ b ∈ src, Present norm msv b) (cap : Nat) :
    ∃ st : Pair, st.slotsOf tl ∧
      (∀ k, ∀ b ∈ (src.drop (src.length - 2))[k]?, table[st.at (src.length - 2 + k)]? = some b) ∧
      ∀ v wr,
        encodeLoop ct (src.take (src.length - 2)).reverse (src.length - 3) (st.codes tl) (writerInit cap) = .ok (v, wr) →
        encodeBlock src (table.map some) ct cap = .ok (v, writerClose ((wr.put v.x1 tl).put v.x0 tl)) := by
  have hseed (i j : Nat) := h.seed (o := src.reverse[i]?)
    (fun b hb => hsrc b (List.mem_reverse.mp (List.mem_of_getElem? hb))) src.length j
  obtain ⟨ua, hua, hseedA, hatA⟩ := hseed 0 ((src.length + 1) % 2)
  obtain ⟨ub, hub, hseedB, hatB⟩ := hseed 1 (src.length % 2)
  have hzero : (Pair.mk 0 0).slotsOf tl := ⟨Nat.two_pow_pos tl, Nat.two_pow_pos tl⟩
  refine ⟨_, (hzero.put hua (src.length + 1)).put hub src.length, fun k b hb => ?_, fun v wr hloop => ?_⟩
  · rw [Option.mem_def, List.getElem?_drop] at hb
    have hk := (List.getElem?_eq_some_iff.mp hb).1
    by_cases hlast : src.length - 2 + k = src.length - 1
    · rw [Pair.at_put_of_ne (by omega), Pair.at_put_of_eq (by omega)]
      exact hatA b (by rw [List.getElem?_reverse (by omega), Nat.sub_zero, ← hlast]; exact hb)
    · rw [Pair.at_put_of_eq (by omega)]
      exact hatB b (by
        rw [List.getElem?_reverse (by omega), show src.length - 1 - 1 = src.length - 2 + k by omega]; exact hb)
  · have hv : ((Pair.mk 0 0).put (src.length + 1) (2 ^ tl + ua)).put src.length (2 ^ tl + ub)
        = (((Pair.mk 0 0).put (src.length + 1) ua).put src.length ub).codes tl := by
      rw [Pair.put_succ_put _ ((Pair.mk 0 0).codes tl), Pair.codes_put, Pair.codes_put]
    have htl : tl ≤ 32 := h.dist.tl_le.trans (by decide)
    have hdrop : src.reverse.drop 2 = (src.take (src.length - 2)).reverse := by rw [List.drop_reverse]
    simp only [encodeBlock, h.ctable.tl_eq, hseedA, hseedB, ok_bind, hv, hdrop, hloop, writerAdd_of_le htl]

omit h in
/-- FSE.DECODE reads the two states flushed last and runs its loop on the bits before them (R111). -/
theorem decodeBlockBits_of_flush {st : Pair} (hst : st.slotsOf tl) (wr : Writer) :
    ∃ r : Reader, r.Unread wr ∧ ∀ (n : Nat) (strict : Bool) (st₀ : Pair) (r₀ : Reader),
      decodeBlockBits (writerClose ((wr.put (st.codes tl).x1 tl).put (st.codes tl).x0 tl)).bytes dt tl n strict st₀ r₀
        = tailTest strict (decodeLoop dt n 0 st r) := by
  obtain ⟨r₂, hinit, hr₂⟩ := readerInit_writerClose ((wr.put (st.codes tl).x1 tl).put (st.codes tl).x0 tl)
  obtain ⟨r₁, hread₀, hr₁⟩ := hr₂.read
  obtain ⟨r, hread₁, hr⟩ := hr₁.read
  refine ⟨r, hr, fun n strict st₀ r₀ => ?_⟩
  simp only [Pair.codes, Nat.add_mod_left, Nat.mod_eq_of_lt hst.1, Nat.mod_eq_of_lt hst.2] at hinit hread₀ hread₁ ⊢
  simp only [decodeBlockBits, hinit, hread₀, hread₁]

/-- FSE.ENCODE of a block of present symbols completes, and FSE.DECODE of its bytes answers the block with no bit left. -/
theorem TablesOf.encodeBlock_decodes {src : List Byte} (hsrc : ∀ b ∈ src, Present norm msv b) (cap : Nat) :
    ∃ v wr, encodeBlock src (table.map some) ct cap = .ok (v, wr) ∧
      ∀ (strict : Bool) (st : Pair) (r : Reader), ∃ st' r', r'.p = 0 ∧
        decodeBlockBits wr.bytes dt tl src.length strict st r = ⟨.ok src, st', r'⟩ := by
  obtain ⟨st, hst, hlast, hencode⟩ := h.encodeBlock_of_loop hsrc cap
  have hpre : (src.take (src.length - 2)).length = src.length - 2 := by rw [List.length_take]; omega
  have hsuf : (src.drop (src.length - 2)).length = src.length - (src.length - 2) := List.length_drop
  obtain ⟨st', wr, hst', hloop, hback⟩ := h.loops (pre := src.take (src.length - 2))
    (fun b hb => hsrc b (List.mem_of_mem_take hb)) hst (writerInit cap) (k := (src.drop (src.length - 2)).length)
    (fun hne => by have := List.length_pos_of_ne_nil hne; omega)
  obtain ⟨r, hr, hdecode⟩ := decodeBlockBits_of_flush (dt := dt) hst' wr
  obtain ⟨r', hr', hrun⟩ := hback r hr
  rw [hpre] at hloop hrun
  refine ⟨_, _, hencode _ _ hloop, fun strict st₀ r₀ => ⟨st, r', hr'.p, ?_⟩⟩
  have hend : decodeLoop dt (src.drop (src.length - 2)).length (src.length - 2) st r'
      = ⟨.ok (src.drop (src.length - 2)), st, r'⟩ := h.decodeLoop_last (by omega) hlast r'
  rw [hend, hsuf, Nat.add_sub_cancel' (Nat.sub_le _ _)] at hrun
  have hp : r'.p = 0 := hr'.p
  simp only [hdecode, hrun, tailTest, DecodeRun.after, Except.map, List.take_append_drop, hp]
  simp

end

end Sys2Proof.Machine
end

section
/-! FSE.ENCODE and FSE.DECODE as operations (45_block_codec.md R108, R111): the writer that FSE.ENCODE leaves, and the block
read back from the bytes it answers. -/

namespace Sys2Proof.Machine

/-! ### The writer that FSE.ENCODE leaves (R60, R61, R64) -/

theorem exceptBind_eq_ok {ε α β : Type} {x : Except ε α} {f : α → Except ε β} {b : β} (h : x >>= f = .ok b) :
    ∃ a, x = .ok a ∧ f a = .ok b := by
  cases x with
  | error e => cases h
  | ok a => exact ⟨a, rfl, h⟩

/-- What BW.INIT and any BW.ADD after it keep: the capacity, and `ovf` exactly where the bytes have passed it. -/
structure Writer.Opened (cap : Nat) (wr : Writer) : Prop where
  wcap : wr.wcap = cap
  ovf : wr.ovf = true ↔ cap < (wr.w.len + 7) / 8

theorem writerInit_opened (cap : Nat) : (writerInit cap).Opened cap := ⟨rfl, by simp [writerInit, Bits.empty]⟩

theorem Writer.Opened.put {cap : Nat} {wr : Writer} (h : wr.Opened cap) (v n : Nat) : (wr.put v n).Opened cap where
  wcap := h.wcap
  ovf := by
    rw [Writer.put_ovf, h.ovf, h.wcap, Writer.put_len]
    omega

theorem Writer.Opened.add {cap v n : Nat} {wr wr' : Writer} (h : wr.Opened cap) (hadd : writerAdd wr v n = .ok wr') :
    wr'.Opened cap := by
  obtain ⟨-, rfl⟩ := writerAdd_eq_ok hadd
  exact h.put v n

theorem Writer.Opened.encodeSymbol {cap v v' : Nat} {wr wr' : Writer} (h : wr.Opened cap) {ct : CTable} {b : Byte}
    (hs : encodeSymbol ct wr v b = .ok (v', wr')) : wr'.Opened cap := by
  obtain ⟨tt, -, hs⟩ := exceptBind_eq_ok hs
  dsimp only at hs
  split at hs
  · cases hs
  · obtain ⟨wr₁, hadd, hs⟩ := exceptBind_eq_ok hs
    split at hs
    · cases hs
    · obtain ⟨v₁, -, hs⟩ := exceptBind_eq_ok hs
      cases hs
      exact h.add hadd

theorem Writer.Opened.encodeLoop {cap : Nat} {ct : CTable} {l : List Byte} {i : Nat} {v v' : Pair} {wr wr' : Writer}
    (h : wr.Opened cap) (hl : encodeLoop ct l i v wr = .ok (v', wr')) : wr'.Opened cap := by
  induction l generalizing i v wr with
  | nil => cases hl; exact h
  | cons b l ih =>
    rw [Machine.encodeLoop] at hl
    split at hl
    · cases hl
    · exact ih (h.encodeSymbol ‹_›) hl

/-- FSE.ENCODE overflows exactly where its bytes pass the capacity (R64). -/
theorem encodeBlock_writer {src : List Byte} {table : List (Option Byte)} {ct : CTable} {cap : Nat} {v : Pair} {wr : Writer}
    (h : encodeBlock src table ct cap = .ok (v, wr)) : wr.wcap = cap ∧ (wr.ovf = true ↔ cap < wr.bytes.length) := by
  obtain ⟨va, -, h⟩ := exceptBind_eq_ok h
  obtain ⟨vb, -, h⟩ := exceptBind_eq_ok h
  obtain ⟨⟨v', wr₁⟩, hloop, h⟩ := exceptBind_eq_ok h
  obtain ⟨wr₂, h₂, h⟩ := exceptBind_eq_ok h
  obtain ⟨wr₃, h₃, h⟩ := exceptBind_eq_ok h
  cases h
  have hopen := (((writerInit_opened cap).encodeLoop hloop).add h₂).add h₃
  refine ⟨hopen.wcap, ?_⟩
  rw [writerClose_ovf, hopen.ovf, hopen.wcap, writerClose_bytes_length]
  omega

/-! ### FSE.ENCODE and FSE.DECODE -/

theorem exec_fseEncode_of_ok {src : List Byte} {cap : Nat} {v : Pair} {wr : Writer} {s : State}
    (h : encodeBlock src s.work.tableSymbol s.work.ct cap = .ok (v, wr)) (hcap : cap ≤ payCap) :
    exec (.fseEncode src src.length cap) s = .next ({ s with
      work := { s.work with v0 := v.x0, v1 := v.x1, writer := wr }
      payBuf := Memory.write s.payBuf (payCap - cap) (wr.bytes.take cap) }.reply (.closed wr.bytes wr.ovf)) := by
  obtain ⟨rfl, -⟩ := encodeBlock_writer h
  change execFseEncode src src.length wr.wcap s = _
  simp only [execFseEncode, whenGiven_of_le le_rfl, List.take_length, h,
    Memory.store_of_le s.payBuf (Writer.stored_fits hcap)]
  rfl

theorem exec_fseDecode_of_run {buf : List Byte} {tl n : Nat} {strict : Bool} {s : State} {run : DecodeRun}
    (h : decodeBlockBits buf s.work.dt tl n strict ⟨s.work.s0, s.work.s1⟩ s.work.reader = run) :
    exec (.fseDecode buf tl n strict) s
      = runOutcome s { s.work with s0 := run.st.x0, s1 := run.st.x1, reader := run.reader } (run.out.map .bytes) := by
  subst h
  rfl

theorem TablesOf.results {norm : List Int} {msv tl : Nat} {table : List Byte} {ct : CTable} {dt : DTable}
    (h : TablesOf norm msv tl table ct dt) (s : State) :
    ∃ rs t, results [.tbCtable norm msv tl, .tbDtable norm msv tl] s = some (rs, t) ∧
      t.work.tableSymbol = table.map some ∧ t.work.ct = ct ∧ t.work.dt = dt :=
  ⟨_, _, results_tables h.dist.length h.buildCTable h.buildDTable s, rfl, rfl, rfl⟩

/-- Settles O44: on the tables of the distribution the loops undo each other (`TablesOf.encodeBlock_decodes`). -/
theorem encodedBlockDecodes : Obligations.EncodedBlockDecodes := by
  intro norm msv tl cap src s hdist hcap hsrc
  obtain ⟨table, ct, dt, htables⟩ := exists_tables hdist
  obtain ⟨v, wr, hencode, hdecode⟩ := htables.encodeBlock_decodes hsrc cap
  obtain ⟨rs, t, hresults, htable, rfl, rfl⟩ := htables.results s
  rw [← htable] at hencode
  obtain ⟨u, hu, hframe⟩ : ∃ u, exec (.fseEncode src src.length cap) t = .next u ∧ u = _ :=
    ⟨_, exec_fseEncode_of_ok hencode hcap, rfl⟩
  have hdt : u.work.dt = t.work.dt := by rw [hframe]; rfl
  obtain ⟨st', r', hp, hrun⟩ := hdecode true ⟨u.work.s0, u.work.s1⟩ u.work.reader
  rw [← hdt] at hrun
  exact ⟨rs, t, u, _, wr.bytes, wr.ovf, hresults, hu, by rw [hframe]; rfl, (encodeBlock_writer hencode).2,
    exec_fseDecode_of_run hrun, rfl, hp⟩

end Sys2Proof.Machine
end

section
/-! BC.DECOMPRESS (45_block_codec.md R116): NC.READ ends with an error or a distribution, on whose tables FSE.DECODE ends
with the block or a stream error, whatever the registers held. -/

namespace Sys2Proof.Machine

/-! ### FSE.DECODE of any bytes (R111, R112) -/

/-- The errors of FSE.DECODE; the last only with the strict tail. -/
def StreamError (strict : Bool) (e : ErrCode) : Prop :=
  e = .streamEmpty ∨ e = .streamNoSentinel ∨ e = .streamExhausted ∨ (e = .streamTail ∧ strict = true)

/-- A decode that answers `n` bytes or raises one of the stream errors. -/
def DecodeRun.Ends (strict : Bool) (n : Nat) (run : DecodeRun) : Prop :=
  (∃ content, run.out = .ok content ∧ content.length = n) ∨ ∃ e, run.out = .error (.raise e) ∧ StreamError strict e

theorem readerInit_cases (strict : Bool) (buf : List Byte) :
    (∃ r, readerInit buf = .ok r) ∨ ∃ e, readerInit buf = .error (.raise e) ∧ StreamError strict e := by
  unfold readerInit
  split
  · exact .inr ⟨_, rfl, .inl rfl⟩
  · split
    · exact .inr ⟨_, rfl, .inr (.inl rfl)⟩
    · exact .inl ⟨_, rfl⟩

theorem readerRead_cases (r : Reader) (n : Nat) :
    (∃ v r', readerRead r n = .ok (v, r') ∧ v < 2 ^ n) ∨ readerRead r n = .error (.raise .streamExhausted) := by
  by_cases h : r.p < n
  · exact .inr (readerRead_of_lt h)
  · exact .inl ⟨_, _, readerRead_of_le (Nat.not_lt.mp h), Bits.field_lt ..⟩

/-- A strict tail test turns an answer into the tail error at most. -/
theorem DecodeRun.Ends.tailTest {strict : Bool} {n : Nat} {run : DecodeRun} (h : run.Ends strict n) :
    (tailTest strict run).Ends strict n := by
  unfold Machine.tailTest
  split
  · exact h
  · split
    next htail => exact .inr ⟨_, rfl, .inr (.inr (.inr ⟨rfl, (Bool.and_eq_true_iff.mp htail).1⟩))⟩
    next => exact h

section

variable {norm : List Int} {msv tl : Nat} {table : List Byte} {ct : CTable} {dt : DTable}
  (h : TablesOf norm msv tl table ct dt)
include h

/-- From a slot a step reads an entry, which leads to a slot. -/
theorem TablesOf.decodeSymbol_cases {u : Nat} (hu : u < 2 ^ tl) (r : Reader) (update : Bool) :
    (∃ b x r', decodeSymbol dt r u update = .ok (b, x, r') ∧ x < 2 ^ tl) ∨
      decodeSymbol dt r u update = .error (.raise .streamExhausted) := by
  rw [← h.dtable.entries_length] at hu
  have hentry := List.getElem?_eq_getElem hu
  cases update with
  | false => exact .inl ⟨_, _, _, Machine.decodeSymbol_last hentry, h.dtable.entries_length ▸ hu⟩
  | true =>
    obtain ⟨v, r', hread, hv⟩ | hread := readerRead_cases r dt.entries[u].nbBits
    · have hle := h.dtable.newState_le h.spread _ (List.getElem_mem hu)
      exact .inl ⟨_, _, _, decodeSymbol_of_read hentry hread, by omega⟩
    · exact .inr (decodeSymbol_of_read_error hentry hread)

theorem TablesOf.decodeLoop_ends (strict : Bool) {st : Pair} (hst : st.slotsOf tl) (m i : Nat) (r : Reader) :
    (decodeLoop dt m i st r).Ends strict m := by
  induction m generalizing i st r with
  | zero => exact .inl ⟨[], rfl, rfl⟩
  | succ m ih =>
    rw [decodeLoop]
    obtain ⟨b, x, r', hsymbol, hx⟩ | hsymbol := h.decodeSymbol_cases (hst.at_lt i) r (decide (2 ≤ m))
    · rw [hsymbol]
      obtain ⟨content, hout, hlen⟩ | ⟨e, hout, he⟩ := ih (hst.put hx i) (i + 1) r'
      · exact .inl ⟨b :: content, by simp only [hout]; rfl, congrArg Nat.succ hlen⟩
      · exact .inr ⟨e, by simp only [hout]; rfl, he⟩
    · rw [hsymbol]
      exact .inr ⟨_, rfl, .inr (.inr (.inl rfl))⟩

theorem TablesOf.decodeBlockBits_ends (buf : List Byte) (n : Nat) (strict : Bool) (st : Pair) (r : Reader) :
    (decodeBlockBits buf dt tl n strict st r).Ends strict n := by
  unfold decodeBlockBits
  obtain ⟨r, hinit⟩ | ⟨e, hinit, he⟩ := readerInit_cases strict buf
  · rw [hinit]
    dsimp only
    obtain ⟨s0, r, hread, hs0⟩ | hread := readerRead_cases r tl
    · rw [hread]
      dsimp only
      obtain ⟨s1, r, hread, hs1⟩ | hread := readerRead_cases r tl
      · rw [hread]
        exact (h.decodeLoop_ends strict ⟨hs0, hs1⟩ n 0 r).tailTest
      · rw [hread]
        exact .inr ⟨_, rfl, .inr (.inr (.inl rfl))⟩
    · rw [hread]
      exact .inr ⟨_, rfl, .inr (.inr (.inl rfl))⟩
  · rw [hinit]
    exact .inr ⟨e, rfl, he⟩

end

/-- The states and the reader before FSE.DECODE show after it only where it raises an error. -/
theorem decodeBlockBits_forget (buf : List Byte) (dt : DTable) (tl n : Nat) (strict : Bool) :
    (∃ e, ∀ st r, (decodeBlockBits buf dt tl n strict st r).out = .error e) ∨
      ∃ run, ∀ st r, decodeBlockBits buf dt tl n strict st r = run := by
  unfold decodeBlockBits
  cases readerInit buf with
  | error e => exact .inl ⟨e, fun _ _ => rfl⟩
  | ok r =>
    dsimp only
    cases readerRead r tl with
    | error e => exact .inl ⟨e, fun _ _ => rfl⟩
    | ok x =>
      dsimp only
      cases readerRead x.2 tl with
      | error e => exact .inl ⟨e, fun _ _ => rfl⟩
      | ok y => exact .inr ⟨_, fun _ _ => rfl⟩

/-! ### NC.READ of any payload (43_ncount.md R91 to R94) -/

/-- The errors of NC.READ. -/
def HeaderError (e : ErrCode) : Prop :=
  e = .ncountOverrun ∨ e = .ncountTableLog ∨ e = .ncountSymbol ∨ e = .ncountRemaining

/-- NC.READ raises an error, the table log written where there is a first byte, or leaves the distribution of its header. -/
theorem ncRead_cases (buf : List Byte) :
    (∃ e, (ncRead buf).out = .error (.raise e) ∧ HeaderError e ∧ (buf ≠ [] → (ncRead buf).tl.isSome = true)) ∨
      ∃ d, ncRead buf = ⟨.ok d, d.norm, some d.tl⟩ ∧ IsDist d.norm d.msv d.tl := by
  cases buf with
  | nil => exact .inl ⟨_, by rw [ncRead_nil], .inl rfl, fun h => absurd rfl h⟩
  | cons b rest =>
    rw [ncRead_cons]
    split
    · exact .inl ⟨_, rfl, .inr (.inl rfl), fun _ => rfl⟩
    next hlog =>
      have hlegal := readSymbols_legal (fuel := 256)
        (readerStart_legal (tl := b.toNat % 16 + 5) (h := Bits.ofBytes (b :: rest)) (by omega)
          (by simp only [Bits.ofBytes, List.length_cons]; omega))
      obtain ⟨e, hout, he⟩ | ⟨msv, hlen, hout, hdist, -, -⟩ := readFinish_cases hlegal (by omega) (by omega)
      · exact .inl ⟨e, hout, by unfold HeaderError; tauto, fun _ => rfl⟩
      · exact .inr ⟨_, by rw [← hout]; rfl, hdist⟩

/-! ### BC.DECOMPRESS (R116) -/

theorem exec_bcDecompress (payload : List Byte) (rawSize : Nat) (strict : Bool) (s : State) :
    exec (.bcDecompress payload payload.length rawSize strict) s
      = runOutcome s (decompressBlock payload rawSize strict).work
        ((decompressBlock payload rawSize strict).out.map .bytes) := by
  change execBcDecompress payload payload.length rawSize strict s = _
  simp only [execBcDecompress, whenGiven_of_le le_rfl, List.take_length]

theorem decompressBlock_of_error {payload : List Byte} {e : Stop} (h : (ncRead payload).out = .error e) (rawSize : Nat)
    (strict : Bool) : decompressBlock payload rawSize strict = ⟨.error e, (ncRead payload).leave Work.unwritten⟩ := by
  simp only [decompressBlock, h]

theorem decompressBlock_of_header {payload : List Byte} {d : NHeader} (h : ncRead payload = ⟨.ok d, d.norm, some d.tl⟩)
    {table : List Byte} {ct : CTable} {dt : DTable} (htables : TablesOf d.norm d.msv d.tl table ct dt) {rawSize : Nat}
    {strict : Bool} {run : DecodeRun}
    (hrun : decodeBlockBits (payload.drop d.hlen) dt d.tl rawSize strict ⟨0, 0⟩ Work.unwritten.reader = run) :
    decompressBlock payload rawSize strict = ⟨run.out,
      { Work.unwritten with
        norm := readWeights d.norm, tl := d.tl, tableSymbol := table.map some, dt := dt
        s0 := run.st.x0, s1 := run.st.x1, reader := run.reader }⟩ := by
  subst hrun
  simp only [decompressBlock, h, htables.buildDTable]
  rfl

/-- BC.DECOMPRESS answers the block or raises one of the eight data errors. -/
theorem decompressBlock_cases (payload : List Byte) (rawSize : Nat) (strict : Bool) :
    (∃ content, (decompressBlock payload rawSize strict).out = .ok content ∧ content.length = rawSize) ∨
      ∃ e, (decompressBlock payload rawSize strict).out = .error (.raise e) ∧ (HeaderError e ∨ StreamError strict e) := by
  obtain ⟨e, hout, he, -⟩ | ⟨d, hd, hdist⟩ := ncRead_cases payload
  · exact .inr ⟨e, by rw [decompressBlock_of_error hout], .inl he⟩
  · obtain ⟨table, ct, dt, htables⟩ := exists_tables hdist
    rw [decompressBlock_of_header hd htables rfl]
    exact (htables.decodeBlockBits_ends _ _ _ _ _).imp_right fun ⟨e, hout, he⟩ => ⟨e, hout, .inr he⟩

theorem take_readWeights {norm : List Int} {msv : Nat} (h : norm.length = msv + 1) :
    (readWeights norm).take (msv + 1) = norm := by
  rw [readWeights, ← h, List.take_left']
  rfl

/-- Where NC.READ raises an error, BC.DECOMPRESS raises it and has written no more. -/
theorem exec_bcDecompress_of_error {payload : List Byte} {e : ErrCode} (hout : (ncRead payload).out = .error (.raise e))
    (htl : payload ≠ [] → (ncRead payload).tl.isSome = true) {s t : State} (ht : exec (.ncRead payload) s = .next t)
    (rawSize : Nat) (strict : Bool) :
    t.result = .error e ∧ ∃ w : Work, w.norm = t.work.norm ∧ (payload ≠ [] → w.tl = t.work.tl) ∧
      exec (.bcDecompress payload payload.length rawSize strict) s = .next { s with work := w, result := .error e } := by
  rw [exec_ncRead_of_error rfl hout] at ht
  cases ht
  refine ⟨rfl, (ncRead payload).leave Work.unwritten, rfl, fun hne => ?_, ?_⟩
  · obtain ⟨tl, htl⟩ := Option.isSome_iff_exists.mp (htl hne)
    simp only [NCountRun.leave, htl, Option.getD_some]
  · rw [exec_bcDecompress, decompressBlock_of_error hout]
    rfl

/-- Where NC.READ answers a header, BC.DECOMPRESS is TB.DTABLE and FSE.DECODE after it. -/
theorem exec_bcDecompress_of_header {payload : List Byte} {d : NHeader} (hd : ncRead payload = ⟨.ok d, d.norm, some d.tl⟩)
    (hdist : IsDist d.norm d.msv d.tl) {rawSize : Nat} {strict : Bool} {s t u v : State}
    (ht : exec (.ncRead payload) s = .next t)
    (hu : exec (.tbDtable (t.work.norm.take (d.msv + 1)) d.msv t.work.tl) t = .next u)
    (hv : exec (.fseDecode (payload.drop d.hlen) t.work.tl rawSize strict) u = .next v) :
    ∃ w : Work, w.norm = t.work.norm ∧ w.tl = t.work.tl ∧ w.tableSymbol = v.work.tableSymbol ∧ w.dt = v.work.dt ∧
      (∀ content, v.result = .bytes content → w.s0 = v.work.s0 ∧ w.s1 = v.work.s1 ∧ w.reader = v.work.reader) ∧
      exec (.bcDecompress payload payload.length rawSize strict) s = .next { s with work := w, result := v.result } := by
  obtain ⟨table, ct, dt, htables⟩ := exists_tables hdist
  have hlen := hdist.length
  rw [exec_ncRead_of_ok hd rfl] at ht
  cases ht
  simp only [take_readWeights hlen, Option.getD_some] at hu hv
  rw [exec_tbDtable_of_build hlen htables.buildDTable] at hu
  cases hu
  rw [exec_fseDecode_of_run rfl] at hv
  refine ⟨(decompressBlock payload rawSize strict).work, ?_⟩
  rw [exec_bcDecompress, decompressBlock_of_header hd htables rfl]
  obtain ⟨e, hout⟩ | ⟨run, hrun⟩ := decodeBlockBits_forget (payload.drop d.hlen) dt d.tl rawSize strict
  · rw [hout] at hv ⊢
    obtain ⟨res, hres, -⟩ | ⟨e, he, rfl⟩ := runOutcome_eq_next hv
    · cases hres
    · cases he
      exact ⟨rfl, rfl, rfl, rfl, nofun, rfl⟩
  · rw [hrun] at hv ⊢
    obtain ⟨res, hres, rfl⟩ | ⟨e, he, rfl⟩ := runOutcome_eq_next hv
    · rw [hres]
      exact ⟨rfl, rfl, rfl, rfl, fun _ _ => ⟨rfl, rfl, rfl⟩, rfl⟩
    · rw [he]
      exact ⟨rfl, rfl, rfl, rfl, fun _ _ => ⟨rfl, rfl, rfl⟩, rfl⟩

/-- Settles O48: the totality is `decompressBlock_cases`; what was in the registers before the units does not show in what
BC.DECOMPRESS is said to leave (`decodeBlockBits_forget`). -/
theorem blockDecompressIsItsUnits : Obligations.BlockDecompressIsItsUnits := by
  intro payload rawSize strict s run o
  have ho : o = runOutcome s run.work (run.out.map .bytes) := exec_bcDecompress payload rawSize strict s
  have hcases := decompressBlock_cases payload rawSize strict
  change (∃ content, run.out = .ok content ∧ _) ∨ (∃ e, run.out = .error (.raise e) ∧ _) at hcases
  refine ⟨?answers, ?ends, fun content hout => ?content, fun e hout => ?error, fun t ht => ?units⟩
  case answers =>
    obtain ⟨content, hout, -⟩ | ⟨e, hout, -⟩ := hcases <;> exact ⟨_, by rw [ho, hout]; rfl⟩
  case ends => exact hcases.imp (fun ⟨c, hc, _⟩ => ⟨c, hc⟩) fun ⟨e, he, _⟩ => ⟨e, he⟩
  case content =>
    refine ⟨by rw [ho, hout]; rfl, ?_⟩
    obtain ⟨c, hc, hlen⟩ | ⟨e, he, -⟩ := hcases
    · cases hout.symm.trans hc
      exact hlen
    · cases hout.symm.trans he
  case error =>
    refine ⟨by rw [ho, hout]; rfl, ?_⟩
    obtain ⟨c, hc, -⟩ | ⟨e', he, hcode⟩ := hcases
    · cases hout.symm.trans hc
    · cases hout.symm.trans he
      unfold HeaderError StreamError at hcode
      tauto
  case units =>
    obtain ⟨e, hout, -, htl⟩ | ⟨d, hd, hdist⟩ := ncRead_cases payload
    · obtain ⟨hres, hw⟩ := exec_bcDecompress_of_error hout htl ht rawSize strict
      rw [hres]
      refine ⟨fun e' he' => ?_, nofun⟩
      cases he'
      exact hw
    · have hres : t.result = .header d.msv d.hlen := by
        rw [exec_ncRead_of_ok hd rfl] at ht
        cases ht
        rfl
      rw [hres]
      refine ⟨nofun, fun msv hlen hheader u v hu _ hv => ?_⟩
      cases hheader
      exact exec_bcDecompress_of_header hd hdist ht hu hv

end Sys2Proof.Machine
end

section
/-! The gates of BC.COMPRESS (45_block_codec.md R113) and the size of a framed block (R118). -/

namespace Sys2Proof.Machine

/-! ### The greatest count -/

theorem largest_eq_of_forall_le {src : List Byte} {b : Byte} (h : ∀ c, src.count c ≤ src.count b) :
    (histogram src).largest = src.count b := by
  obtain ⟨c, hc⟩ := exists_count_eq_largest src
  exact Nat.le_antisymm (hc ▸ h c) (count_le_largest src b)

theorem largest_le_length (src : List Byte) : (histogram src).largest ≤ src.length := by
  obtain ⟨c, hc⟩ := exists_count_eq_largest src
  exact hc ▸ List.count_le_length

/-- A block with one count for all its bytes is one repeated symbol. -/
theorem largest_eq_length_iff {src : List Byte} {b : Byte} (hb : b ∈ src) :
    (histogram src).largest = src.length ↔ src = List.replicate src.length b := by
  constructor
  · intro h
    obtain ⟨c, hc⟩ := exists_count_eq_largest src
    have hall := List.count_eq_length.mp (hc.trans h)
    exact List.eq_replicate_iff.mpr ⟨rfl, fun x hx => (hall x hx).symm.trans (hall b hb)⟩
  · intro h
    have hcount : src.count b = src.length := List.count_eq_length.mpr fun x hx => (List.eq_of_mem_replicate (h ▸ hx)).symm
    exact Nat.le_antisymm (largest_le_length src) (hcount ▸ count_le_largest src b)

/-! ### The gates -/

/-- The working state once the histogram is taken. -/
def Work.counted (src : List Byte) : Work := { Work.unwritten with hist := histogram src }

section

variable {src : List Byte} {oneByteRle : Bool} (tlReq : Nat)

theorem compressBlock_of_rle (h : (histogram src).largest = src.length ∧ (1 < src.length ∨ oneByteRle = true)) :
    compressBlock src tlReq oneByteRle
      = ⟨.ok (.rle (src.headD (Config.freeFirstByte tlReq))), Work.counted src, []⟩ := if_pos h

theorem compressBlock_of_raw (h : ¬((histogram src).largest = src.length ∧ (1 < src.length ∨ oneByteRle = true)))
    (hraw : src.length ≤ 2 ∨ (histogram src).largest = 1 ∨ 128 * (histogram src).largest < src.length) :
    compressBlock src tlReq oneByteRle = ⟨.ok .raw, Work.counted src, []⟩ := by
  simp only [compressBlock, if_neg h]
  split_ifs with h2 h1 hlow
  · rfl
  · rfl
  · rfl
  · omega

theorem compressBlock_of_code (hne : (histogram src).largest ≠ src.length) (h3 : 3 ≤ src.length)
    (h1 : (histogram src).largest ≠ 1) (hhigh : src.length ≤ 128 * (histogram src).largest) :
    compressBlock src tlReq oneByteRle = codeBlock src tlReq (Work.counted src) := by
  simp only [compressBlock, if_neg (show ¬((histogram src).largest = src.length ∧ _) from fun h => hne h.1),
    if_neg (show ¬src.length ≤ 2 by omega), if_neg h1, if_neg (Nat.not_lt.mpr hhigh)]
  rfl

end

theorem exec_bcCompress_of_fits {src : List Byte} {tlReq : Nat} {oneByteRle : Bool} {run : CompressRun}
    (hrun : compressBlock src tlReq oneByteRle = run) (hfits : run.pay.length ≤ payCap) (s : State) :
    exec (.bcCompress src src.length tlReq oneByteRle) s
      = runOutcome { s with payBuf := Memory.write s.payBuf 0 run.pay } run.work (run.out.map .block) := by
  subst hrun
  change execBcCompress src src.length tlReq oneByteRle s = _
  simp only [execBcCompress, whenGiven_of_le le_rfl, List.take_length,
    Memory.store_of_le s.payBuf (a := 0) ((Nat.zero_add _).trans_le hfits)]

theorem exec_bcCompress_eq_next {src : List Byte} {tlReq : Nat} {oneByteRle : Bool} {s t : State}
    (h : exec (.bcCompress src src.length tlReq oneByteRle) s = .next t) :
    (∃ r, (compressBlock src tlReq oneByteRle).out = .ok r ∧ t.result = .block r) ∨ ∃ e, t.result = .error e := by
  have h := (whenGiven_eq_next h).2
  rw [List.take_length] at h
  split at h
  · cases h
  · obtain ⟨res, hres, rfl⟩ | ⟨e, -, rfl⟩ := runOutcome_eq_next h
    · obtain ⟨r, hr, rfl⟩ := exceptMap_eq_ok hres
      exact .inl ⟨r, hr, rfl⟩
    · exact .inr ⟨e, rfl⟩

/-! ### The framed block (R118) -/

theorem frame_length (r : BlockResult) (src : List Byte) (n : Nat) :
    (frame r src n).length =
      match r with
      | .cmp p => p.length + if src.length = n then 3 else 5
      | .raw => src.length + if src.length = n then 1 else 3
      | .rle _ => if src.length = n then 2 else 4 := by
  unfold frame
  split <;> cases r <;> simp [blkCmpFBytes, blkCmpBytes, blkRawFBytes, blkRawBytes, blkRleFBytes, blkRleBytes, be16Bytes]

/-- Settles O46: a payload saves two bytes (`compressBlock_cmp_length`). -/
theorem framedBlockIsBounded : Obligations.FramedBlockIsBounded := by
  intro src tlReq n oneByteRle s t r hexec hres
  obtain ⟨r', hout, hr'⟩ | ⟨e, he⟩ := exec_bcCompress_eq_next hexec
  · obtain rfl := Result.block.inj (hres.symm.trans hr')
    have hsave (p : List Byte) (hp : r = .cmp p) : p.length + 2 ≤ src.length := by
      have := compressBlock_cmp_length (hp ▸ hout)
      omega
    refine ⟨fun h1 => ?_, fun p hp => ⟨hsave p hp, ?_⟩, ?_, ?_⟩
    · rw [frame_length]
      cases r with
      | cmp p =>
        have := hsave p rfl
        dsimp only
        split <;> omega
      | raw => dsimp only; split <;> omega
      | rle b => dsimp only; split <;> omega
    · rw [frame_length, hp]
    · rintro rfl
      exact frame_length ..
    · rintro b rfl
      exact frame_length ..
  · rw [hres] at he
    cases he

end Sys2Proof.Machine
end

section
/-! BC.COMPRESS past its gates is its six unit operations in order (45_block_codec.md R113, R115): what a unit operation that
answers has done, and the block coder made of the same parts. -/

namespace Sys2Proof.Machine

/-! ### What the unit operations have done where they answer -/

theorem exceptBind_eq_error {ε α β : Type} {x : Except ε α} {f : α → Except ε β} {e : ε} (h : x >>= f = .error e) :
    x = .error e ∨ ∃ a, x = .ok a ∧ f a = .error e := by
  cases x with
  | error e' => cases h; exact .inl rfl
  | ok a => exact .inr ⟨a, rfl, h⟩

theorem highbit_eq_error {x : Nat} {e : Stop} (h : highbit x = .error e) : e = .stuck .highbitZero := by
  unfold highbit at h
  split at h
  · exact (Except.error.inj h).symm
  · cases h

theorem minLog_eq_error {n msv : Nat} {e : Stop} (h : minLog n msv = .error e) : e = .stuck .highbitZero := by
  obtain h | ⟨a, -, h⟩ := exceptBind_eq_error h
  · exact highbit_eq_error h
  · obtain h | ⟨b, -, h⟩ := exceptBind_eq_error h
    · exact highbit_eq_error h
    · cases h

theorem maxBitsSrc_eq_error {n : Nat} {e : Stop} (h : maxBitsSrc n = .error e) : e = .stuck .highbitZero := by
  obtain h | ⟨a, -, h⟩ := exceptBind_eq_error h
  · exact highbit_eq_error h
  · cases h

/-- NORM.OPTLOG clamps its result and raises no code. -/
theorem optLog_cases (req n msv : Nat) :
    (∃ tl, optLog req n msv = .ok tl ∧ 5 ≤ tl ∧ tl ≤ 15) ∨ optLog req n msv = .error (.stuck .highbitZero) := by
  cases hlim : maxBitsSrc n with
  | error e =>
    right
    rw [optLog, hlim, maxBitsSrc_eq_error hlim]
    rfl
  | ok lim =>
    cases hmin : minLog n msv with
    | error e =>
      right
      rw [optLog, hlim, hmin, minLog_eq_error hmin]
      rfl
    | ok minTl => exact .inl ⟨_, optLog_of_limit hlim hmin, by omega, by omega⟩

theorem exec_normOptlog_eq_next {req n msv : Nat} {s t : State} (h : exec (.normOptlog req n msv) s = .next t) :
    ∃ tl, optLog req n msv = .ok tl ∧ 5 ≤ tl ∧ tl ≤ 15 ∧
      t = { s with work := { s.work with tl := tl } }.reply (.value tl) := by
  change execNormOptlog req n msv s = _ at h
  obtain ⟨tl, htl, h5, h15⟩ | herr := optLog_cases req n msv
  · rw [execNormOptlog, htl] at h
    cases h
    exact ⟨tl, htl, h5, h15, rfl⟩
  · rw [execNormOptlog, herr] at h
    cases h

theorem primaryStep_length (tl total s c : Nat) (p : Primary) :
    (primaryStep tl total s c p).norm.length = p.norm.length + 1 := by
  unfold primaryStep
  split_ifs <;> simp

theorem primaryLoop_length {tl total : Nat} {count : List Nat} {s : Nat} {p q : Primary}
    (h : primaryLoop tl total s count p = .inr q) : q.norm.length = p.norm.length + count.length := by
  induction count generalizing s p with
  | nil => cases h; rfl
  | cons c cs ih =>
    rw [primaryLoop] at h
    split at h
    · cases h
    · rw [ih h, primaryStep_length, List.length_cons]
      omega

theorem residual_length {tl total msv : Nat} {count : List Nat} {p : Primary} (hcount : count.length = msv + 1)
    (hp : p.norm.length = msv + 1) : (residual tl count total msv p).norm.length = msv + 1 := by
  unfold residual
  dsimp only
  split
  · exact normM2_norm_length tl total hcount
  · rw [List.length_set, hp]

/-- A distribution of NORM.NORMALIZE is a weight for each symbol. -/
theorem normalize_length {count : List Nat} {total msv tl : Nat} {run : NormRun}
    (h : normalize count total msv tl = .ok run) (hout : run.out = .ok .dist) : run.norm.length = msv + 1 := by
  obtain ⟨-, -, h⟩ := exceptBind_eq_ok h
  dsimp only at h
  split at h
  · cases h
    cases hout
  · split at h
    · cases h
    next q hloop hlen =>
      cases h
      have hcount : (count.take (msv + 1)).length = msv + 1 := by
        rw [List.length_take] at hlen ⊢
        omega
      have hq := primaryLoop_length hloop
      rw [hcount, List.length_nil, Nat.zero_add] at hq
      exact residual_length hcount hq

/-- NORM.NORMALIZE raises a code of its checks, or has run and written its weights. -/
theorem exec_normNormalize_eq_next {count : List Nat} {total msv tl : Nat} {s t : State}
    (h : exec (.normNormalize count total msv tl) s = .next t) :
    (∃ e, normalize count total msv tl = .error (.raise e) ∧ t = s.reply (.error e)) ∨
      ∃ run r, normalize count total msv tl = .ok run ∧
        t = { s with work := { s.work with norm := writeWeights s.work.norm run.norm, tl := effectiveLog tl } }.reply r ∧
        ((∃ e, run.out = .error (.raise e) ∧ r = .error e) ∨ (run.out = .ok .rle ∧ r = .rleSignal) ∨
          run.out = .ok .dist ∧ r = .ok) := by
  change execNormNormalize count total msv tl s = _ at h
  unfold execNormNormalize at h
  split at h
  next e he =>
    obtain h | ⟨e, hraise, rfl⟩ := unitOutcome_eq_next h
    · cases h
    · cases hraise
      exact .inl ⟨e, he, rfl⟩
  next run hrun =>
    right
    obtain ⟨res, hres, rfl⟩ | ⟨e, he, rfl⟩ := runOutcome_eq_next h
    · obtain ⟨o, ho, rfl⟩ := exceptMap_eq_ok hres
      cases o with
      | dist => exact ⟨run, _, hrun, rfl, .inr (.inr ⟨ho, rfl⟩)⟩
      | rle => exact ⟨run, _, hrun, rfl, .inr (.inl ⟨ho, rfl⟩)⟩
    · exact ⟨run, _, hrun, rfl, .inl ⟨e, exceptMap_eq_error he, rfl⟩⟩

theorem exec_ncWrite_eq_next {norm : List Int} {msv tl : Nat} {s t : State} {hdr : List Byte}
    (h : exec (.ncWrite norm msv tl) s = .next t) (hres : t.result = .bytes hdr) :
    ncWrite norm msv tl = .ok hdr ∧ hdr.length ≤ payCap ∧
      t = { s with payBuf := Memory.write s.payBuf 0 hdr }.reply (.bytes hdr) := by
  change execNcWrite norm msv tl s = _ at h
  unfold execNcWrite at h
  split at h
  · obtain h | ⟨e, -, rfl⟩ := unitOutcome_eq_next h
    · cases h
    · cases hres
  next bytes hbytes =>
    obtain ⟨m, hm, rfl⟩ := exceptMap_eq_ok (outcome_eq_next_iff.mp h)
    obtain ⟨hle, rfl⟩ := (Memory.store_eq_ok_iff _ _ _ _ _).mp hm
    cases hres
    exact ⟨hbytes, (Nat.zero_add _).ge.trans hle, rfl⟩

theorem exec_tbCtable_eq_next {norm : List Int} {msv tl : Nat} {s t : State}
    (h : exec (.tbCtable norm msv tl) s = .next t) (hres : t.result = .ok) :
    ∃ ct table, buildCTable s.work.tableSymbol s.work.ct.stateTable norm msv tl = ⟨.ok ct, table⟩ ∧
      t = { s with work := { s.work with tableSymbol := table, ct := ct } }.reply .ok := by
  change execTbCtable norm msv tl s = _ at h
  unfold execTbCtable at h
  generalize buildCTable s.work.tableSymbol s.work.ct.stateTable norm msv tl = run at h
  obtain ⟨out, table⟩ := run
  have h := (whenGiven_eq_next h).2
  cases out with
  | ok ct =>
    cases h
    exact ⟨ct, table, rfl, rfl⟩
  | error e =>
    obtain ⟨res, hok, -⟩ | ⟨e, -, rfl⟩ := runOutcome_eq_next h
    · cases hok
    · cases hres

theorem exec_fseEncode_eq_next {src body : List Byte} {cap : Nat} {ovf : Bool} {s t : State}
    (h : exec (.fseEncode src src.length cap) s = .next t) (hres : t.result = .closed body ovf) :
    ∃ v wr, encodeBlock src s.work.tableSymbol s.work.ct cap = .ok (v, wr) ∧ body = wr.bytes ∧ ovf = wr.ovf ∧
      t = { s with
        work := { s.work with v0 := v.x0, v1 := v.x1, writer := wr }
        payBuf := Memory.write s.payBuf (payCap - cap) wr.stored }.reply (.closed body ovf) := by
  have h := (whenGiven_eq_next h).2
  rw [List.take_length] at h
  split at h
  · obtain h | ⟨e, -, rfl⟩ := unitOutcome_eq_next h
    · cases h
    · cases hres
  next v wr hencode =>
    obtain ⟨m, hm, rfl⟩ := exceptMap_eq_ok (outcome_eq_next_iff.mp h)
    obtain ⟨-, rfl⟩ := (Memory.store_eq_ok_iff _ _ _ _ _).mp hm
    cases hres
    obtain ⟨rfl, -⟩ := encodeBlock_writer hencode
    exact ⟨v, wr, hencode, rfl, rfl, rfl⟩

/-! ### The block coder stage by stage -/

section

variable {src : List Byte} {tlReq tl : Nat} {w : Work} (hopt : optLog tlReq src.length w.hist.msv = .ok tl)
include hopt

theorem codeBlock_of_check_error {e : Stop} (hnorm : normalize w.hist.count src.length w.hist.msv tl = .error e) :
    codeBlock src tlReq w = ⟨.error e, { w with tl := tl }, []⟩ := by
  simp only [codeBlock, hopt, hnorm]

theorem codeBlock_of_run_error {run : NormRun} {e : Stop}
    (hnorm : normalize w.hist.count src.length w.hist.msv tl = .ok run) (hout : run.out = .error e) :
    codeBlock src tlReq w = ⟨.error e, { w with tl := tl, norm := writeWeights w.norm run.norm }, []⟩ := by
  simp only [codeBlock, hopt, hnorm, hout]

theorem codeBlock_of_dist {run : NormRun} {hdr : List Byte} {ct : CTable} {table : List (Option Byte)} {v : Pair}
    {wr : Writer} (hnorm : normalize w.hist.count src.length w.hist.msv tl = .ok run) (hout : run.out = .ok .dist)
    (hhdr : ncWrite run.norm w.hist.msv tl = .ok hdr)
    (hbuild : buildCTable w.tableSymbol w.ct.stateTable run.norm w.hist.msv tl = ⟨.ok ct, table⟩)
    (hencode : encodeBlock src table ct (payCap - hdr.length) = .ok (v, wr)) :
    codeBlock src tlReq w = ⟨.ok (sizeTest src.length hdr wr),
      { w with
        tl := tl, norm := writeWeights w.norm run.norm, tableSymbol := table, ct := ct
        v0 := v.x0, v1 := v.x1, writer := wr },
      hdr ++ wr.stored⟩ := by
  simp only [codeBlock, hopt, hnorm, hout, hhdr, hbuild, hencode]

end

/-! ### The units in order -/

theorem Memory.cells_append (a : Nat) (p q : List Byte) :
    Memory.cells a (p ++ q) = Memory.cells a p ++ Memory.cells (a + p.length) q := by
  induction p generalizing a with
  | nil => rfl
  | cons b p ih =>
    rw [List.cons_append, Memory.cells, ih, Memory.cells, List.length_cons, Nat.add_assoc, Nat.add_comm 1, List.cons_append]

/-- A write from byte 0: the new bytes, then what lies above. -/
theorem Memory.write_zero (m : Memory) (bs : List Byte) :
    Memory.write m 0 bs = Memory.cells 0 bs ++ m.filter fun c => bs.length ≤ c.1 := by
  simp [Memory.write]

/-- Two writes side by side from byte 0 are one, whatever the memory held. -/
theorem Memory.write_zero_append (m : Memory) (p q : List Byte) :
    Memory.write (Memory.write m 0 p) p.length q = Memory.write m 0 (p ++ q) := by
  have hp (c : Host.Cell) (hc : c ∈ Memory.cells 0 p) : c.1 < p.length := by
    have := Memory.cells_mem 0 p c hc
    omega
  have hbelow : (Memory.cells 0 p).filter (fun c => c.1 < p.length) = Memory.cells 0 p :=
    List.filter_eq_self.mpr fun c hc => decide_eq_true (hp c hc)
  have habove : (Memory.cells 0 p).filter (fun c => p.length + q.length ≤ c.1) = [] :=
    List.filter_eq_nil_iff.mpr fun c hc => by
      have := hp c hc
      simp only [decide_eq_true_eq]
      omega
  have hmid : (m.filter fun c => p.length ≤ c.1).filter (fun c => c.1 < p.length) = [] :=
    List.filter_eq_nil_iff.mpr fun c hc => by
      have := (List.mem_filter.mp hc).2
      simp only [decide_eq_true_eq] at this ⊢
      omega
  have hkeep : (m.filter fun c => p.length ≤ c.1).filter (fun c => p.length + q.length ≤ c.1)
      = m.filter fun c => p.length + q.length ≤ c.1 := by
    rw [List.filter_filter]
    refine List.filter_congr fun c _ => ?_
    rw [← Bool.decide_and, decide_eq_decide]
    omega
  rw [Memory.write_zero, Memory.write_zero, Memory.write, List.filter_append, List.filter_append, hbelow, habove, hmid, hkeep,
    Memory.cells_append, List.length_append]
  simp

theorem sizeTest_eq (n : Nat) (hdr : List Byte) (wr : Writer) :
    sizeTest n hdr wr
      = if wr.ovf = false ∧ hdr.length + wr.bytes.length < n - 1 then .cmp (hdr ++ wr.bytes) else .raw := by
  rw [sizeTest, ← ite_not]
  simp only [not_or, Bool.not_eq_true, Nat.not_le]

theorem Writer.stored_length_le (wr : Writer) : wr.stored.length ≤ wr.wcap := List.length_take_le _ _

theorem take_writeWeights (old : List Int) {new : List Int} {n : Nat} (h : new.length = n) :
    (writeWeights old new).take n = new := List.take_left' h

section

variable {src : List Byte} {tlReq tl : Nat} {oneByteRle : Bool} {s t2 : State}
  (hcode : compressBlock src tlReq oneByteRle = codeBlock src tlReq (Work.counted src))
  (hopt : optLog tlReq src.length (histogram src).msv = .ok tl) (hlog : effectiveLog tl = tl)
  (h2 : exec (.normNormalize (histogram src).count src.length (histogram src).msv tl)
    { s with work := { Work.counted src with tl := tl }, result := .value tl } = .next t2)
include hcode hopt hlog h2

/-- A code that NORM.NORMALIZE raises is BC.COMPRESS's answer. -/
theorem exec_bcCompress_of_normalize_error {e : ErrCode} (he : t2.result = .error e) :
    exec (.bcCompress src src.length tlReq oneByteRle) s = .next t2 := by
  have herror (w : Work) (e : ErrCode) (hrun : codeBlock src tlReq (Work.counted src) = ⟨.error (.raise e), w, []⟩) :
      exec (.bcCompress src src.length tlReq oneByteRle) s = .next ({ s with work := w }.reply (.error e)) := by
    rw [exec_bcCompress_of_fits (hcode.trans hrun) (Nat.zero_le _), Memory.write_zero_nil]
    rfl
  obtain ⟨e, hnorm, rfl⟩ | ⟨run, r, hnorm, rfl, ⟨e, hout, rfl⟩ | ⟨-, rfl⟩ | ⟨-, rfl⟩⟩ := exec_normNormalize_eq_next h2
  · exact herror _ e (codeBlock_of_check_error hopt hnorm)
  · rw [hlog]
    exact herror _ e (codeBlock_of_run_error hopt hnorm hout)
  · cases he
  · cases he

/-- On a distribution BC.COMPRESS is NC.WRITE, TB.CTABLE, FSE.ENCODE and the size test. -/
theorem exec_bcCompress_of_encode (hok : t2.result = .ok) {t3 t4 t5 : State} {hdr body : List Byte} {ovf : Bool}
    (h3 : exec (.ncWrite (t2.work.norm.take ((histogram src).msv + 1)) (histogram src).msv tl) t2 = .next t3)
    (hres3 : t3.result = .bytes hdr)
    (h4 : exec (.tbCtable (t2.work.norm.take ((histogram src).msv + 1)) (histogram src).msv tl) t3 = .next t4)
    (hres4 : t4.result = .ok) (h5 : exec (.fseEncode src src.length (payCap - hdr.length)) t4 = .next t5)
    (hres5 : t5.result = .closed body ovf) :
    exec (.bcCompress src src.length tlReq oneByteRle) s = .next { t5 with
      result := .block (if ovf = false ∧ hdr.length + body.length < src.length - 1 then .cmp (hdr ++ body) else .raw) } := by
  obtain ⟨e, -, rfl⟩ | ⟨run, r, hnorm, rfl, ⟨e, -, rfl⟩ | ⟨-, rfl⟩ | ⟨hout, rfl⟩⟩ := exec_normNormalize_eq_next h2
  · cases hok
  · cases hok
  · cases hok
  · dsimp only [State.reply] at h3 h4
    rw [take_writeWeights _ (normalize_length hnorm hout)] at h3 h4
    obtain ⟨hhdr, hfits, rfl⟩ := exec_ncWrite_eq_next h3 hres3
    dsimp only [State.reply] at h4
    obtain ⟨ct, table, hbuild, rfl⟩ := exec_tbCtable_eq_next h4 hres4
    dsimp only [State.reply] at h5
    obtain ⟨v, wr, hencode, rfl, rfl, rfl⟩ := exec_fseEncode_eq_next h5 hres5
    have hcap := (encodeBlock_writer hencode).1
    have hstored := wr.stored_length_le
    have hrun := hcode.trans (codeBlock_of_dist hopt hnorm hout hhdr hbuild hencode)
    rw [exec_bcCompress_of_fits hrun (by rw [List.length_append]; omega), hlog, sizeTest_eq]
    dsimp only [State.reply]
    rw [Nat.sub_sub_self hfits, Memory.write_zero_append]
    rfl

end

/-- Settles O45: each gate is decided by the greatest count; past them the stages of the block coder are the unit
operations (`exec_bcCompress_of_normalize_error`, `exec_bcCompress_of_encode`). -/
theorem dispatchGates : Obligations.DispatchGates := by
  intro src b tlReq oneByteRle s n run rle raw
  have answer (r : BlockResult) (h : compressBlock src tlReq oneByteRle = ⟨.ok r, Work.counted src, []⟩) :
      ∃ w : Work, run = .next { s with work := w, result := .block r } ∧ w.hist = histogram src := by
    refine ⟨Work.counted src, ?_, rfl⟩
    rw [show run = _ from exec_bcCompress_of_fits h (Nat.zero_le _) s, Memory.write_zero_nil]
    rfl
  refine ⟨?repeated, ?oneRle, ?oneRaw, ?two, ?distinct, ?flat, ?code⟩
  case repeated =>
    intro h2 h
    have hb : b ∈ src := h ▸ List.mem_replicate.mpr ⟨by omega, rfl⟩
    have hrle := compressBlock_of_rle (oneByteRle := oneByteRle) tlReq ⟨(largest_eq_length_iff hb).mpr h, .inl h2⟩
    have hhead : src.headD (Config.freeFirstByte tlReq) = b := by
      rw [h, ← Nat.sub_add_cancel (show 1 ≤ src.length by omega)]
      rfl
    exact answer _ (hhead ▸ hrle)
  case oneRle =>
    rintro rfl rfl
    exact answer _ (compressBlock_of_rle tlReq ⟨(largest_eq_length_iff (List.mem_singleton_self b)).mpr rfl, .inr rfl⟩)
  case oneRaw =>
    rintro rfl rfl
    exact answer _ (compressBlock_of_raw tlReq (by simp) (.inl (by simp)))
  case two =>
    intro h2 hne hb
    exact answer _ (compressBlock_of_raw tlReq (fun h => hne (h2 ▸ (largest_eq_length_iff hb).mp h.1)) (.inl h2.le))
  case distinct =>
    intro h3 h
    obtain ⟨c, hc⟩ := exists_count_eq_largest src
    have hle := h c
    have hpos := (List.count_pos_iff.mpr (List.getElem_mem (show 0 < src.length by omega))).trans_le (count_le_largest src src[0])
    exact answer _ (compressBlock_of_raw tlReq (by omega) (.inr (.inl (by omega))))
  case flat =>
    intro h3 h
    obtain ⟨c, hc⟩ := exists_count_eq_largest src
    have := h c
    exact answer _ (compressBlock_of_raw tlReq (by omega) (.inr (.inr (by omega))))
  case code =>
    intro h3 h1 hmax hn h128 t0 t1 t2 ht0 msv ht1 tl ht2
    have hlargest := largest_eq_of_forall_le hmax
    have hcode := compressBlock_of_code tlReq (oneByteRle := oneByteRle) (hlargest ▸ hn) h3 (hlargest ▸ h1) (hlargest ▸ h128)
    have ht0' : t0 = { s with work := Work.counted src, result := .ok } := by
      rw [exec_histCount, if_neg (by simp)] at ht0
      cases ht0
      rfl
    subst ht0'
    obtain ⟨tl', hopt, h5, -, rfl⟩ := exec_normOptlog_eq_next ht1
    have hlog : effectiveLog tl' = tl' := if_neg (by omega)
    exact ⟨fun e he => exec_bcCompress_of_normalize_error hcode hopt hlog ht2 he, fun hok t3 t4 t5 hdr body ovf h3 hres3 h4 hres4 h5 hres5 =>
      exec_bcCompress_of_encode hcode hopt hlog ht2 hok h3 hres3 h4 hres4 h5 hres5⟩

end Sys2Proof.Machine
end

section
/-! The block round trip (45_block_codec.md R117). Past the gates the counts of the block are legal operands of every unit
operation, so that NORM.NORMALIZE alone can raise a code; what NC.WRITE and FSE.ENCODE write is read back by NC.READ and
FSE.DECODE. -/

namespace Sys2Proof.Machine

/-! ### The counts of a block -/

/-- `count[0..msv]` of a block. -/
def presentCounts (src : List Byte) : List Nat := (histogram src).count.take ((histogram src).msv + 1)

theorem msv_le (src : List Byte) : (histogram src).msv ≤ 255 := by
  obtain ⟨-, h⟩ | ⟨b, -, h⟩ := msv_cases src
  · omega
  · have := b.isLt
    omega

theorem presentCounts_getD {src : List Byte} {b : Byte} (hb : b ∈ src) : (presentCounts src).getD b.toNat 0 = src.count b := by
  have hle := le_msv_of_mem hb
  rw [presentCounts, List.getD_eq_getElem?_getD, List.getElem?_take_of_lt (by omega)]
  exact congrArg (fun o => o.getD 0) (countBytes_getElem? src b)

theorem presentCounts_sum (src : List Byte) : (presentCounts src).sum = src.length := by
  have habove : ∀ k ∈ (histogram src).count.drop ((histogram src).msv + 1), k = 0 := by
    have hnone : ¬∃ b ∈ src, (histogram src).msv < b.toNat := fun ⟨b, hb, hlt⟩ => by
      have := le_msv_of_mem hb
      omega
    rw [← count_above_iff] at hnone
    simpa using hnone
  have hsplit := List.sum_take_add_sum_drop (histogram src).count ((histogram src).msv + 1)
  rw [List.sum_eq_zero habove, Nat.add_zero] at hsplit
  exact hsplit.trans (countBytes_sum src)

theorem presentCounts_isCounts {src : List Byte} (h1 : 1 ≤ src.length) (hn : src.length ≤ 65536) :
    isCounts (presentCounts src) src.length (histogram src).msv = true := by
  have hmsv := msv_le src
  refine isCounts_iff.mpr ⟨?_, hmsv, h1, hn, presentCounts_sum src⟩
  rw [presentCounts, List.length_take, show (histogram src).count.length = 256 from countBytes_length src]
  omega

/-- No symbol of a block that is no repeated symbol is the whole block. -/
theorem length_notMem_presentCounts {src : List Byte} (hne : (histogram src).largest ≠ src.length) :
    src.length ∉ presentCounts src := fun hmem => by
  obtain ⟨i, hi⟩ := List.getElem?_of_mem (List.mem_of_mem_take hmem)
  obtain ⟨b, -, hb⟩ := countBytes_getElem?_eq_some hi
  have hle := count_le_largest src b
  have hge := largest_le_length src
  omega

/-- A block that is no repeated symbol has a symbol other than 0. -/
theorem msv_pos {src : List Byte} (hne : (histogram src).largest ≠ src.length) : 1 ≤ (histogram src).msv := by
  by_contra hzero
  obtain ⟨rfl, -⟩ | ⟨b, hb, -⟩ := msv_cases src
  · exact hne (Nat.le_antisymm (largest_le_length []) (Nat.zero_le _))
  · refine hne ((largest_eq_length_iff hb).mpr (List.eq_replicate_iff.mpr ⟨rfl, fun c hc => BitVec.eq_of_toNat_eq ?_⟩))
    have hble := le_msv_of_mem hb
    have hcle := le_msv_of_mem hc
    omega

/-! ### The table log and the distribution -/

theorem exists_optLog {n msv : Nat} (h2 : 2 ≤ n) (hn : n ≤ 65536) (hmsv : 1 ≤ msv) (hmsv' : msv ≤ 255) (req : Nat) :
    ∃ tl, optLog req n msv = .ok tl ∧ LegalLog n msv tl := by
  obtain ⟨lim, hlim, -⟩ := maxBitsSrc_of_two_le h2 hn
  have hlog : Nat.log2 msv < 8 := (Nat.log2_lt (by omega)).mpr (by omega)
  refine ⟨_, optLog_of_limit hlim (minLog_of_ne_zero (by omega) (by omega)), ?_⟩
  unfold LegalLog
  omega

/-- The two outcomes of the residual test (R80). -/
theorem PrimaryOf.residual_cases {tl low total msv : Nat} {count : List Nat} {norm : List Int} {p : Primary}
    (hp : PrimaryOf tl norm p) (htop : 0 < norm.foldl max 0) (htl : tl ≤ 15)
    (hweights : List.Forall₂ (WeightOf low) count norm) :
    residual tl count total msv p = normM2 tl count total msv ∨
      ∃ new, residual tl count total msv p = ⟨.ok (), new⟩ ∧ Fills tl low count new := by
  by_cases htest : -((2 : Int) ^ tl - ((norm.map slots).sum : Nat)) < norm.foldl max 0 / 2
  · obtain ⟨new, -, hrun, hfills⟩ := hp.residual_of_lt htop htl hweights htest
    exact .inr ⟨new, hrun, hfills⟩
  · exact .inl (hp.residual_of_le htop (Int.not_lt.mp htest))

theorem normalize_of_primary {count : List Nat} {total msv tl : Nat} {p : Primary}
    (hcounts : isCounts (count.take (msv + 1)) total msv = true) (hlog : effectiveLog tl = tl) (hlegal : LegalLog total msv tl)
    (hloop : primaryLoop tl total 0 (count.take (msv + 1)) ⟨[], 2 ^ tl, 0, 0⟩ = .inr p)
    {run : WeightRun} (hrun : residual tl (count.take (msv + 1)) total msv p = run) :
    normalize count total msv tl = .ok ⟨run.out.map fun _ => .dist, run.norm⟩ := by
  simp only [normalize, hlog, (checkLog_of_isCounts hcounts tl).1 hlegal, ok_bind, hloop, (isCounts_iff.mp hcounts).1,
    Nat.not_succ_le_self, if_false, hrun]

/-- On legal counts of two symbols or more NORM.NORMALIZE gives a distribution or raises E_NORMALIZE. -/
theorem normalize_cases {count : List Nat} {total msv tl : Nat} (hcounts : isCounts (count.take (msv + 1)) total msv = true)
    (hmem : total ∉ count.take (msv + 1)) (hlegal : LegalLog total msv tl) :
    ∃ run, normalize count total msv tl = .ok run ∧
      (run.out = .error (.raise .normalize) ∨
        run.out = .ok .dist ∧ Fills tl (total / 2 ^ tl) (count.take (msv + 1)) run.norm) := by
  obtain ⟨h5, h15, -⟩ := id hlegal
  have hlog : effectiveLog tl = tl := if_neg (by omega)
  obtain ⟨hlen, -, -, hle, -⟩ := isCounts_iff.mp hcounts
  obtain ⟨p, hloop, hp⟩ := primaryLoop_of (done := []) (p := ⟨[], 2 ^ tl, 0, 0⟩) h15 hle
    (lt_total_of_not_mem hcounts hmem) ⟨rfl, by simp, rfl, by simp⟩
  rw [List.nil_append] at hp
  refine ⟨_, normalize_of_primary hcounts hlog hlegal hloop rfl, ?_⟩
  obtain hrun | ⟨new, hrun, hfills⟩ :=
    hp.residual_cases (total := total) (msv := msv) (top_pos hcounts hlegal) h15 (primaryWeights_weightOf hcounts h15)
  · rw [hrun]
    obtain hout | hout := normM2_out tl total hlen
    · exact .inr ⟨by rw [hout]; rfl, normM2_fills hcounts h15 (presentSymbols_lt_of_legal hcounts hlegal).le hout⟩
    · exact .inl (by rw [hout]; rfl)
  · rw [hrun]
    exact .inr ⟨rfl, hfills⟩

/-- What a normalized block's weights are: a distribution in which its symbols are present. -/
theorem isDist_of_fills {src : List Byte} {tl : Nat} {norm : List Int} (h1 : 1 ≤ src.length) (hn : src.length ≤ 65536)
    (h5 : 5 ≤ tl) (h15 : tl ≤ 15) (h : Fills tl (src.length / 2 ^ tl) (presentCounts src) norm) :
    IsDist norm (histogram src).msv tl ∧ ∀ b ∈ src, Present norm (histogram src).msv b := by
  have hlen := (isCounts_iff.mp (presentCounts_isCounts h1 hn)).1
  refine ⟨⟨h5, h15, msv_le src, h.weights.length_eq ▸ hlen, fun w hw => (h.range h15 w hw).1, h.slots_sum⟩, fun b hb => ?_⟩
  have hle := le_msv_of_mem hb
  refine ⟨hle, fun hzero => ?_⟩
  have hcount := (h.getD hlen hle).1.mp hzero
  rw [presentCounts_getD hb] at hcount
  exact List.count_eq_zero.mp hcount hb

/-! ### The header -/

/-- A header that NC.WRITE writes, and NC.READ of it with any bytes after it. -/
theorem exists_header {norm : List Int} {msv tl : Nat} (hdist : IsDist norm msv tl) (hlast : norm.getD msv 0 ≠ 0) :
    ∃ hdr : List Byte, hdr.length < 600 ∧ ncWrite norm msv tl = .ok hdr ∧
      ∀ rest, ncRead (hdr ++ rest) = ⟨.ok ⟨norm, msv, tl, hdr.length⟩, norm, some tl⟩ := by
  obtain ⟨hdr, hshort, hexec, -⟩ := nCountHeaderRoundTrip norm msv tl [] State.reset hdist hlast
  obtain ⟨hwrite, -, -⟩ := exec_ncWrite_eq_next hexec rfl
  obtain ⟨h5, h15, hmsv, hlen, -, -⟩ := id hdist
  obtain ⟨nw, h⟩ := (owes_of_isDist hdist hlast).writes (.raise .argDist) (done := [])
    (by simp only [List.length_nil, Option.getD_none]; omega)
  obtain rfl := Except.ok.inj (hwrite.symm.trans (ncWrite_of_writes h5 h15 hlen h))
  refine ⟨_, hshort, hwrite, fun rest => ?_⟩
  rw [ncRead_of_writes h5 h15 (by omega) h rest, hlen, Nat.add_sub_cancel]

/-! ### The round trip -/

/-- A payload that the size test keeps is the header and all bytes of the writer. -/
theorem sizeTest_eq_cmp {n : Nat} {hdr p : List Byte} {wr : Writer} (h : sizeTest n hdr wr = .cmp p) :
    wr.ovf = false ∧ p = hdr ++ wr.bytes := by
  rw [sizeTest_eq] at h
  split at h
  next hfits => exact ⟨hfits.1, (BlockResult.cmp.inj h).symm⟩
  · cases h

theorem sizeTest_cases (n : Nat) (hdr : List Byte) (wr : Writer) :
    sizeTest n hdr wr = .raw ∨ ∃ p, sizeTest n hdr wr = .cmp p := by
  unfold sizeTest
  split
  · exact .inl rfl
  · exact .inr ⟨_, rfl⟩

/-- What the result of a run stands for (R117), and where its payload is. -/
def CompressRun.StandsFor (run : CompressRun) (src : List Byte) : Prop :=
  run.out = .error (.raise .normalize) ∨ run.out = .ok .raw ∨
    (∃ b, run.out = .ok (.rle b) ∧ src = List.replicate src.length b) ∨
    ∃ p, run.out = .ok (.cmp p) ∧ run.pay = p ∧ ∀ strict, (decompressBlock p src.length strict).out = .ok src

/-- BC.DECOMPRESS of a header and the body coded on its tables. -/
theorem decompressBlock_of_encode {src hdr : List Byte} {norm : List Int} {msv tl : Nat} {table : List Byte} {ct : CTable}
    {dt : DTable} (htables : TablesOf norm msv tl table ct dt)
    (hread : ∀ rest, ncRead (hdr ++ rest) = ⟨.ok ⟨norm, msv, tl, hdr.length⟩, norm, some tl⟩) {wr : Writer}
    (hdecode : ∀ (strict : Bool) (st : Pair) (r : Reader), ∃ st' r', r'.p = 0 ∧
      decodeBlockBits wr.bytes dt tl src.length strict st r = ⟨.ok src, st', r'⟩) (strict : Bool) :
    (decompressBlock (hdr ++ wr.bytes) src.length strict).out = .ok src := by
  obtain ⟨st', r', -, hrun⟩ := hdecode strict ⟨0, 0⟩ Work.unwritten.reader
  rw [decompressBlock_of_header (hread wr.bytes) htables (run := ⟨.ok src, st', r'⟩) (by rw [List.drop_left]; exact hrun)]

theorem codeBlock_standsFor {src : List Byte} (tlReq : Nat) (h3 : 3 ≤ src.length) (hn : src.length ≤ 65536)
    (hne : (histogram src).largest ≠ src.length) :
    (codeBlock src tlReq (Work.counted src)).pay.length ≤ payCap ∧ (codeBlock src tlReq (Work.counted src)).StandsFor src := by
  obtain ⟨tl, hopt, hlegal⟩ := exists_optLog (by omega) hn (msv_pos hne) (msv_le src) tlReq
  obtain ⟨run, hnorm, hout | ⟨hout, hfills⟩⟩ :=
    normalize_cases (presentCounts_isCounts (by omega) hn) (length_notMem_presentCounts hne) hlegal
  · rw [codeBlock_of_run_error hopt hnorm hout]
    exact ⟨Nat.zero_le _, .inl rfl⟩
  · obtain ⟨h5, h15, -⟩ := hlegal
    obtain ⟨hdist, hpresent⟩ := isDist_of_fills (by omega) hn h5 h15 hfills
    have hlast : run.norm.getD (histogram src).msv 0 ≠ 0 := by
      obtain ⟨rfl, -⟩ | ⟨b, hb, hmsv⟩ := msv_cases src
      · exact absurd h3 (by decide)
      · rw [hmsv]
        exact (hpresent b hb).2
    obtain ⟨hdr, hshort, hhdr, hread⟩ := exists_header hdist hlast
    obtain ⟨table, ct, dt, htables⟩ := exists_tables hdist
    obtain ⟨v, wr, hencode, hdecode⟩ := htables.encodeBlock_decodes hpresent (payCap - hdr.length)
    obtain ⟨hcap, hovf⟩ := encodeBlock_writer hencode
    rw [codeBlock_of_dist (w := Work.counted src) hopt hnorm hout hhdr (htables.buildCTable _ _) hencode]
    constructor
    · have := wr.stored_length_le
      rw [List.length_append]
      unfold payCap at *
      omega
    · obtain hraw | ⟨p, hp⟩ := sizeTest_cases src.length hdr wr
      · exact .inr (.inl (congrArg Except.ok hraw))
      · obtain ⟨hfits, rfl⟩ := sizeTest_eq_cmp hp
        have hall : wr.stored = wr.bytes := by
          rw [Writer.stored, List.take_of_length_le]
          rw [hcap, ← Nat.not_lt, ← hovf, hfits]
          decide
        exact .inr (.inr (.inr ⟨_, congrArg Except.ok hp, by rw [hall], decompressBlock_of_encode htables hread hdecode⟩))

/-- BC.COMPRESS of every block ends with what stands for it, and with bytes that fit `PayBuf`. -/
theorem compressBlock_standsFor {src : List Byte} (h1 : 1 ≤ src.length) (hn : src.length ≤ 65536) (tlReq : Nat)
    (oneByteRle : Bool) :
    (compressBlock src tlReq oneByteRle).pay.length ≤ payCap ∧ (compressBlock src tlReq oneByteRle).StandsFor src := by
  by_cases hrle : (histogram src).largest = src.length ∧ (1 < src.length ∨ oneByteRle = true)
  · rw [compressBlock_of_rle tlReq hrle]
    obtain ⟨b, rest, rfl⟩ := List.exists_cons_of_length_pos h1
    exact ⟨Nat.zero_le _, .inr (.inr (.inl ⟨b, rfl, (largest_eq_length_iff List.mem_cons_self).mp hrle.1⟩))⟩
  · by_cases hraw : src.length ≤ 2 ∨ (histogram src).largest = 1 ∨ 128 * (histogram src).largest < src.length
    · rw [compressBlock_of_raw tlReq hrle hraw]
      exact ⟨Nat.zero_le _, .inr (.inl rfl)⟩
    · have hne : (histogram src).largest ≠ src.length := fun h => hrle ⟨h, .inl (by omega)⟩
      rw [compressBlock_of_code tlReq hne (by omega) (by omega) (by omega)]
      exact codeBlock_standsFor tlReq (by omega) hn hne

/-- Settles O47: the model's run stands for the block (`compressBlock_standsFor`). -/
theorem blockRoundTrip : Obligations.BlockRoundTrip := by
  intro src tlReq oneByteRle s hwf run
  simp only [WellFormed, Bool.and_eq_true, decide_eq_true_eq] at hwf
  obtain ⟨-, -, h1, hn⟩ := hwf
  obtain ⟨hfits, hstands⟩ := compressBlock_standsFor h1 hn tlReq oneByteRle
  have hexec := exec_bcCompress_of_fits (oneByteRle := oneByteRle) (tlReq := tlReq) rfl hfits s
  obtain hout | hout | ⟨b, hout, hb⟩ | ⟨p, hout, hp, hback⟩ := hstands
  · rw [hout] at hexec
    exact ⟨_, hexec, rfl, .inl rfl⟩
  · rw [hout] at hexec
    exact ⟨_, hexec, rfl, .inr (.inl rfl)⟩
  · rw [hout] at hexec
    exact ⟨_, hexec, rfl, .inr (.inr (.inl ⟨b, rfl, hb⟩))⟩
  · rw [hout] at hexec
    refine ⟨_, hexec, rfl, .inr (.inr (.inr ⟨p, rfl, hp, fun strict u =>
      ⟨(decompressBlock p src.length strict).work, ?_⟩⟩))⟩
    rw [exec_bcDecompress, hback strict]
    rfl

end Sys2Proof.Machine
end

section
/-! Nothing of the working state survives a block (45_block_codec.md R119). BC.* begin from unwritten working state. A host
command started from other working state either writes the working state before it reads it, and answers the same state, or
does not touch it, and answers the same but for it (`AnswersAlike`). -/

namespace Sys2Proof.Machine

/-- The state with other working state. -/
def State.withWork (s : State) (w : Work) : State := { s with work := w }

/-- A step from the state with the working state `w` answers what the step from the state itself answers, or the same with
`w`. -/
def StepsAlike (w : Work) (x y : Except Fault State) : Prop := y = x ∨ y = x.map (·.withWork w)

/-- The same of an instruction that completes. -/
def AnswersAlike (w : Work) (x y : Host.Outcome State Fault Refusal) : Prop :=
  ∀ t, x = .next t → y = .next t ∨ y = .next (t.withWork w)

section

variable (s : State) (w : Work)

/-! ### The field actions and SETINPUT's loop -/

theorem produce_withWork (content : List Byte) :
    produce (s.withWork w) content = (produce s content).map (·.withWork w) := by
  simp only [produce, show outBufSize (s.withWork w) = outBufSize s from rfl, show (s.withWork w).outBuf = s.outBuf from rfl]
  cases Memory.store (outBufSize s) s.outBuf 0 content <;> rfl

theorem fileHeaderAction_withWork (tag : U32) (k : Byte) :
    fileHeaderAction (s.withWork w) tag k = (fileHeaderAction s tag k).withWork w := by
  unfold fileHeaderAction
  split_ifs <;> rfl

theorem rawSizeAction_withWork (size : BitVec 16) :
    rawSizeAction (s.withWork w) size = (rawSizeAction s size).withWork w := by
  unfold rawSizeAction
  rw [apply_ite (State.withWork · w)]
  rfl

theorem crcBlockAction_withWork (lo : BitVec 16) :
    crcBlockAction (s.withWork w) lo = (crcBlockAction s lo).withWork w := by
  unfold crcBlockAction
  rw [apply_ite (State.withWork · w)]
  rfl

/-- A header byte makes the working state unwritten, and a Compressed block's content starts from unwritten working state. -/
theorem fieldAction_withWork (f : List Byte) : StepsAlike w (fieldAction s f) (fieldAction (s.withWork w) f) := by
  have hf : (s.withWork w).fstate = s.fstate := rfl
  have hb : (s.withWork w).btype = s.btype := rfl
  unfold fieldAction
  rw [hf, hb]
  split
  · exact .inr (congrArg Except.ok (fileHeaderAction_withWork s w _ _))
  · exact .inl rfl
  · exact .inr (congrArg Except.ok (rawSizeAction_withWork s w _))
  · exact .inr rfl
  · exact .inr (congrArg Except.ok (crcBlockAction_withWork s w _))
  · split
    · exact .inl rfl
    · exact .inr (produce_withWork s w _)
    · exact .inr (produce_withWork s w _)
    · exact .inl rfl
  · exact .inl rfl

theorem inputLoop_withWork (fuel : Nat) (bytes : List Byte) (c : Nat) :
    inputLoop fuel bytes c (s.withWork w) = inputLoop fuel bytes c s ∨
      inputLoop fuel bytes c (s.withWork w) = (inputLoop fuel bytes c s).map fun x => (x.1, x.2.withWork w) := by
  induction fuel generalizing bytes c s with
  | zero => exact .inl rfl
  | succ fuel ih =>
    have hstatus : statusDecompressor (s.withWork w) = statusDecompressor s := rfl
    have hfield : fieldLength (s.withWork w) = fieldLength s := rfl
    have hlen : (s.withWork w).stageLen = s.stageLen := rfl
    have hread : Memory.read (s.withWork w).inStage 0 (fieldLength s) = Memory.read s.inStage 0 (fieldLength s) := rfl
    have hstore (bs : List Byte) : Memory.store inStageSize (s.withWork w).inStage s.stageLen bs
      = Memory.store inStageSize s.inStage s.stageLen bs := rfl
    unfold inputLoop
    simp only [hstatus, hfield, hlen, hread, hstore]
    split_ifs
    · exact .inr rfl
    · cases Memory.read s.inStage 0 (fieldLength s) with
      | error e => exact .inl rfl
      | ok f =>
        have halike : StepsAlike w (fieldAction { s with stageLen := 0 } f) (fieldAction { s.withWork w with stageLen := 0 } f) :=
          fieldAction_withWork { s with stageLen := 0 } w f
        dsimp only at halike ⊢
        generalize fieldAction _ f = x at halike ⊢
        generalize fieldAction _ f = y at halike ⊢
        obtain rfl | rfl := halike
        · exact .inl rfl
        · cases x with
          | error e => exact .inl rfl
          | ok u => exact ih u bytes c
    · exact .inl rfl
    · cases bytes with
      | nil => exact .inr rfl
      | cons b bs =>
        cases Memory.store inStageSize s.inStage s.stageLen ((b :: bs).take (min (fieldLength s - s.stageLen) (b :: bs).length)) with
        | error e => exact .inl rfl
        | ok m => exact ih { s with inStage := m, stageLen := _ } _ _

/-! ### The commands -/

theorem retire_withWork (n : Nat) : retire (s.withWork w) n = (retire s n).withWork w := by
  simp only [retire, show (s.withWork w).cfg = s.cfg from rfl]
  cases s.cfg.dir with
  | decompress => rfl
  | compress => dsimp only; rw [apply_ite (State.withWork · w)]; rfl

theorem queueCrc_withWork : queueCrc (s.withWork w) = (queueCrc s).map (·.withWork w) := by
  have hsize : outBufSize (s.withWork w) = outBufSize s := rfl
  have hout : (s.withWork w).outBuf = s.outBuf := rfl
  have hlen : (s.withWork w).outLen = s.outLen := rfl
  have hheader : lazyHeader (s.withWork w) = lazyHeader s := rfl
  have hck : (s.withWork w).ck = s.ck := rfl
  simp only [queueCrc, hsize, hout, hlen, hheader, hck]
  cases Memory.store (outBufSize s) s.outBuf s.outLen _ <;> rfl

/-- EMIT writes the working state whole. -/
theorem emitPending_withWork : StepsAlike w (emitPending s) (emitPending (s.withWork w)) := by
  unfold emitPending
  by_cases h : 1 ≤ s.bufLen
  · rw [if_pos h, if_pos (show 1 ≤ (s.withWork w).bufLen from h)]
    exact .inl rfl
  · rw [if_neg h, if_neg (show ¬1 ≤ (s.withWork w).bufLen from h)]
    exact .inr rfl

theorem completeStream_withWork : StepsAlike w (completeStream s) (completeStream (s.withWork w)) := by
  unfold completeStream
  have halike := emitPending_withWork s w
  generalize emitPending s = x at halike ⊢
  generalize emitPending (s.withWork w) = y at halike ⊢
  obtain rfl | rfl := halike
  · exact .inl rfl
  · cases x with
    | error e => exact .inl rfl
    | ok u =>
      right
      dsimp only [Except.map]
      rw [queueCrc_withWork, show (u.withWork w).cphase = u.cphase from rfl]
      split_ifs <;> rfl

theorem inputCompressor_withWork (bytes : List Byte) :
    inputCompressor bytes (s.withWork w) = inputCompressor bytes s ∨
      inputCompressor bytes (s.withWork w) = (inputCompressor bytes s).map fun x => (x.1, x.2.withWork w) := by
  have hstatus : statusCompressor (s.withWork w) = statusCompressor s := rfl
  have hsize : blockSizeCfg (s.withWork w) = blockSizeCfg s := rfl
  have hbuf : (s.withWork w).blockBuf = s.blockBuf := rfl
  have hlen : (s.withWork w).bufLen = s.bufLen := rfl
  unfold inputCompressor
  rw [hstatus, hsize, hbuf, hlen]
  split_ifs
  · exact .inr rfl
  · dsimp only
    cases Memory.store (blockSizeCfg s) s.blockBuf s.bufLen (bytes.take (min (blockSizeCfg s - s.bufLen) bytes.length)) with
    | error e => exact .inl rfl
    | ok m =>
      dsimp only
      split_ifs with hfull hfull' hfull'
      · exact .inl rfl
      · exact absurd hfull hfull'
      · exact absurd hfull' hfull
      · exact .inr rfl

theorem offer_withWork (bytes : List Byte) :
    offer bytes (s.withWork w) = offer bytes s ∨
      offer bytes (s.withWork w) = (offer bytes s).map fun x => (x.1, x.2.withWork w) := by
  have hcfg : (s.withWork w).cfg = s.cfg := rfl
  rw [offer, offer, hcfg]
  cases s.cfg.dir with
  | decompress => exact inputLoop_withWork s w _ bytes 0
  | compress => exact inputCompressor_withWork s w bytes

/-! ### Instructions that complete -/

theorem answersAlike_rfl (o : Host.Outcome State Fault Refusal) : AnswersAlike w o o := fun _ h => .inl h

theorem answersAlike_fault (f : Fault) (o : Host.Outcome State Fault Refusal) : AnswersAlike w (.fault f) o :=
  fun _ h => nomatch h

theorem answersAlike_next (t : State) : AnswersAlike w (.next t) (.next (t.withWork w)) := fun u h => by
  cases h
  exact .inr rfl

theorem whenConfigured_alike {k k' : Host.Outcome State Fault Refusal} (h : AnswersAlike w k k') :
    AnswersAlike w (whenConfigured s k) (whenConfigured (s.withWork w) k') := by
  unfold whenConfigured
  rw [show (s.withWork w).configured = s.configured from rfl]
  split_ifs
  · exact h
  · exact answersAlike_next w _

end

theorem StepsAlike.reply {w : Work} {x y : Except Fault State} (h : StepsAlike w x y) (r : Result) :
    AnswersAlike w (outcome (x.map (·.reply r))) (outcome (y.map (·.reply r))) := by
  obtain rfl | rfl := h
  · exact answersAlike_rfl w _
  · cases x with
    | error e => exact answersAlike_fault w e _
    | ok t => exact answersAlike_next w _

theorem answersAlike_readyBytes (s : State) (w : Work) (next : State → List Byte → State)
    (hnext : ∀ bs, next (s.withWork w) bs = (next s bs).withWork w) :
    AnswersAlike w (outcome ((readyBytes s).map (next s))) (outcome ((readyBytes (s.withWork w)).map (next (s.withWork w)))) := by
  rw [show readyBytes (s.withWork w) = readyBytes s from rfl]
  cases readyBytes s with
  | error e => exact answersAlike_fault w e _
  | ok bs =>
    have h := answersAlike_next w (next s bs)
    rw [← hnext] at h
    exact h

section

variable (s : State) (w : Work)

theorem offerInput_alike (bytes : List Byte) : AnswersAlike w (offerInput bytes s) (offerInput bytes (s.withWork w)) := by
  refine whenConfigured_alike s w ?_
  obtain h | h := offer_withWork s w bytes
  · rw [h]
    exact answersAlike_rfl w _
  · rw [h]
    cases offer bytes s with
    | error e => exact answersAlike_fault w e _
    | ok x => exact answersAlike_next w _

theorem execAdvance_alike (n : BitVec 17) : AnswersAlike w (execAdvance n s) (execAdvance n (s.withWork w)) := by
  refine whenConfigured_alike s w ?_
  rw [retire_withWork, show readyLength (s.withWork w) = readyLength s from rfl]
  split_ifs
  · exact answersAlike_next w _
  · exact answersAlike_next w _

theorem execFlush_alike : AnswersAlike w (execFlush s) (execFlush (s.withWork w)) := by
  refine whenConfigured_alike s w ?_
  rw [show (s.withWork w).cfg = s.cfg from rfl, show statusCompressor (s.withWork w) = statusCompressor s from rfl]
  cases s.cfg.dir with
  | decompress => exact answersAlike_next w _
  | compress =>
    dsimp only
    split_ifs
    · exact answersAlike_next w _
    · exact (emitPending_withWork s w).reply .ok

theorem execComplete_alike : AnswersAlike w (execComplete s) (execComplete (s.withWork w)) := by
  refine whenConfigured_alike s w ?_
  rw [show (s.withWork w).cfg = s.cfg from rfl, show statusCompressor (s.withWork w) = statusCompressor s from rfl,
    show statusDecompressor (s.withWork w) = statusDecompressor s from rfl, show (s.withWork w).fstate = s.fstate from rfl]
  cases s.cfg.dir with
  | decompress =>
    dsimp only
    split_ifs
    · exact answersAlike_next w _
    · exact answersAlike_next w _
    · exact answersAlike_next w _
  | compress =>
    dsimp only
    split_ifs
    · exact answersAlike_next w _
    · exact (completeStream_withWork s w).reply .ok

/-- A host instruction answers alike from states that differ in the working state. -/
theorem exec_alike {i : Instr} (hi : hostInstr i = true) : AnswersAlike w (exec i s) (exec i (s.withWork w)) := by
  cases i with
  | fhdr | blkCmp | blkCmpF | blkRaw | blkRawF | blkRle | blkRleF | blkCrc | setinput => exact offerInput_alike s w _
  | configure dir k tlReq ckEn strictTail oneByteRle =>
    simp only [exec, execConfigure]
    cases configOf dir k tlReq ckEn strictTail oneByteRle with
    | none => exact answersAlike_next w _
    | some cfg => exact answersAlike_rfl w _
  | state | need | errcause => exact whenConfigured_alike s w (answersAlike_next w _)
  | output => exact whenConfigured_alike s w (answersAlike_readyBytes s w (fun s bs => s.reply (.bytes bs)) fun _ => rfl)
  | advance n => exact execAdvance_alike s w n
  | flush => exact execFlush_alike s w
  | complete => exact execComplete_alike s w
  | reset => exact whenConfigured_alike s w (answersAlike_rfl w _)
  | drain =>
    exact whenConfigured_alike s w (answersAlike_readyBytes s w (fun s bs => (retire s bs.length).reply (.bytes bs)) fun bs => by
      rw [retire_withWork]
      rfl)
  | _ => cases hi

end

/-! ### BC.* -/

/-- What BC.COMPRESS stores fits `PayBuf` or not, whatever `PayBuf` held. -/
theorem execBcCompress_forgets {src : List Byte} {n tlReq : Nat} {oneByteRle : Bool} {s t : State} (u : State)
    (h : execBcCompress src n tlReq oneByteRle s = .next t) :
    ∃ v, execBcCompress src n tlReq oneByteRle u = .next v ∧ v.result = t.result ∧ v.work = t.work := by
  obtain ⟨hgiven, h⟩ := whenGiven_eq_next h
  simp only [execBcCompress, whenGiven_of_le hgiven]
  split at h
  · cases h
  next m hm =>
    obtain ⟨hfits, -⟩ := (Memory.store_eq_ok_iff _ _ _ _ _).mp hm
    rw [Memory.store_of_le u.payBuf hfits]
    obtain ⟨res, hres, rfl⟩ | ⟨e, he, rfl⟩ := runOutcome_eq_next h
    · rw [hres]
      exact ⟨_, rfl, rfl, rfl⟩
    · rw [he]
      exact ⟨_, rfl, rfl, rfl⟩

theorem execBcDecompress_forgets {payload : List Byte} {len rawSize : Nat} {strictTail : Bool} {s t : State} (u : State)
    (h : execBcDecompress payload len rawSize strictTail s = .next t) :
    execBcDecompress payload len rawSize strictTail u = .next { u with work := t.work, result := t.result } := by
  obtain ⟨hgiven, h⟩ := whenGiven_eq_next h
  simp only [execBcDecompress, whenGiven_of_le hgiven]
  obtain ⟨res, hres, rfl⟩ | ⟨e, he, rfl⟩ := runOutcome_eq_next h
  · rw [hres]
    rfl
  · rw [he]
    rfl

/-- Settles O60: BC.* do not read the state but for `PayBuf`, of which a store asks the size alone. -/
theorem noWorkingStateSurvivesABlock : Obligations.NoWorkingStateSurvivesABlock := by
  intro s u
  refine ⟨fun src n tlReq oneByteRle t h => execBcCompress_forgets u h, fun payload len rawSize strictTail t h =>
    execBcDecompress_forgets u h, fun i t w hi h => ?_⟩
  obtain h' | h' := exec_alike s w hi t h
  · exact ⟨t, h', rfl⟩
  · exact ⟨_, h', rfl⟩

end Sys2Proof.Machine
end

section
/-! The checksum operations (46_checksum.md R121 to R126): what one byte does to the checksum, and, for any split of a byte
sequence, the digest of the buffered fold as the one-shot XxHash32. Between two 16-byte groups the buffer is empty, so the
fold of whole groups is `xxhLanes`, and the bytes of an incomplete last group stay in the buffer. -/

namespace Sys2Proof

theorem le32_eq_ofNat (b0 b1 b2 b3 : Byte) :
    le32 b0 b1 b2 b3 = BitVec.ofNat 32 (b0.toNat + 2 ^ 8 * b1.toNat + 2 ^ 16 * b2.toNat + 2 ^ 24 * b3.toNat) := by
  apply BitVec.eq_of_toNat_eq
  rw [le32, BitVec.toNat_append, ← Nat.shiftLeft_add_eq_or_of_lt (BitVec.isLt _), BitVec.toNat_append,
    ← Nat.shiftLeft_add_eq_or_of_lt (BitVec.isLt _), BitVec.toNat_append, ← Nat.shiftLeft_add_eq_or_of_lt (BitVec.isLt _)]
  simp only [Nat.shiftLeft_eq, BitVec.toNat_ofNat]
  omega

end Sys2Proof

namespace Sys2Proof.Machine

/-! ### The checksum and one byte -/

theorem ckTrunc_toNat (h : U32) : (ckTrunc h).toNat = h.toNat / 32 % 2 ^ 22 := by
  rw [ckTrunc, BitVec.extractLsb'_toNat, Nat.shiftRight_eq_div_pow]

theorem ckByte_totalLen (c : Checksum) (b : Byte) : (ckByte c b).totalLen = c.totalLen + 1 := by
  simp only [ckByte]
  split <;> rfl

/-- A byte that does not complete a group joins the buffer. -/
theorem ckByte_of_lt {c : Checksum} (h : c.mem.length < 15) (b : Byte) :
    ckByte c b = { c with mem := c.mem ++ [b], totalLen := c.totalLen + 1 } := by
  have hlen : (c.mem ++ [b]).length ≠ 16 := by
    rw [List.length_append, List.length_singleton]
    omega
  rw [ckByte, if_neg hlen]

/-- The sixteenth byte folds the group into the lanes. -/
theorem ckByte_of_eq {c : Checksum} (h : c.mem.length = 15) (b : Byte) :
    ckByte c b = ⟨ckRound c.acc1 (ckLane (c.mem ++ [b]) 0), ckRound c.acc2 (ckLane (c.mem ++ [b]) 4),
      ckRound c.acc3 (ckLane (c.mem ++ [b]) 8), ckRound c.acc4 (ckLane (c.mem ++ [b]) 12), c.totalLen + 1, true, []⟩ := by
  have hlen : (c.mem ++ [b]).length = 16 := by rw [List.length_append, h, List.length_singleton]
  rw [ckByte, if_pos hlen]

/-- Settles O49: `ckByte` in its two cases, with the little-endian words written as numbers. -/
theorem checksumOperations : Obligations.ChecksumOperations := by
  intro s
  refine ⟨rfl, rfl, fun b bs => ?_, rfl, fun h => ?_⟩
  · refine ⟨_, rfl, rfl, ckByte_totalLen s.ck b, fun hlt => ckByte_of_lt hlt b, fun heq => ?_, rfl⟩
    simp only [← le32_eq_ofNat]
    exact ckByte_of_eq heq b
  · rw [← ckTrunc_toNat]
    rfl

/-! ### The fold of a byte sequence -/

theorem ckFold_append (c : Checksum) (xs ys : List Byte) : ckFold c (xs ++ ys) = ckFold (ckFold c xs) ys :=
  List.foldl_append

theorem ckFold_concat (c : Checksum) (bs : List Byte) (b : Byte) : ckFold c (bs ++ [b]) = ckByte (ckFold c bs) b :=
  List.foldl_concat ..

/-- Bytes that do not complete a group join the buffer. -/
theorem ckFold_of_lt {c : Checksum} {bs : List Byte} (h : c.mem.length + bs.length < 16) :
    ckFold c bs = { c with mem := c.mem ++ bs, totalLen := c.totalLen + BitVec.ofNat 32 bs.length } := by
  induction bs using List.reverseRecOn with
  | nil => simp [ckFold]
  | append_singleton bs b ih =>
    rw [List.length_append, List.length_singleton] at h ⊢
    have hmem : (c.mem ++ bs).length < 15 := by
      rw [List.length_append]
      omega
    rw [ckFold_concat, ih (by omega), ckByte_of_lt hmem]
    simp [BitVec.ofNat_add, BitVec.add_assoc]

/-! ### Whole groups -/

/-- The lane accumulators after the group in the first 16 bytes of `g` (R122). -/
def laneRounds (g : List Byte) (a : U32 × U32 × U32 × U32) : U32 × U32 × U32 × U32 :=
  (ckRound a.1 (ckLane g 0), ckRound a.2.1 (ckLane g 4), ckRound a.2.2.1 (ckLane g 8), ckRound a.2.2.2 (ckLane g 12))

theorem xxhLanes_zero (x : List Byte) (a : U32 × U32 × U32 × U32) : xxhLanes 0 x a = a := rfl

/-- `xxhLanes` is unfolded on both sides first: two calls of it are compared by their accumulators, which takes the kernel
through the arithmetic of `ckRound`. -/
theorem xxhLanes_succ (n : Nat) (x : List Byte) (a : U32 × U32 × U32 × U32) :
    xxhLanes (n + 1) x a = xxhLanes n (x.drop 16) (laneRounds x a) := by
  delta xxhLanes
  rfl

theorem ckLane_append {g : List Byte} (y : List Byte) {i : Nat} (h : i + 3 < g.length) :
    ckLane (g ++ y) i = ckLane g i := by
  simp only [ckLane]
  rw [List.getD_append _ _ _ _ (by omega), List.getD_append _ _ _ _ (by omega), List.getD_append _ _ _ _ (by omega),
    List.getD_append _ _ _ _ h]

theorem laneRounds_append {g : List Byte} (hg : g.length = 16) (y : List Byte) (a : U32 × U32 × U32 × U32) :
    laneRounds (g ++ y) a = laneRounds g a := by
  simp only [laneRounds]
  rw [ckLane_append y (by omega), ckLane_append y (by omega), ckLane_append y (by omega), ckLane_append y (by omega)]

/-- The checksum with these four lanes. -/
def Checksum.ofLanes (a : U32 × U32 × U32 × U32) (len : U32) (large : Bool) (mem : List Byte) : Checksum :=
  ⟨a.1, a.2.1, a.2.2.1, a.2.2.2, len, large, mem⟩

@[simp] theorem Checksum.ofLanes_mem (a : U32 × U32 × U32 × U32) (len : U32) (large : Bool) (mem : List Byte) :
    (Checksum.ofLanes a len large mem).mem = mem := rfl

theorem ckFold_ofLanes_of_lt (a : U32 × U32 × U32 × U32) (len : U32) (large : Bool) {bs : List Byte}
    (h : bs.length < 16) :
    ckFold (.ofLanes a len large []) bs = .ofLanes a (len + BitVec.ofNat 32 bs.length) large bs :=
  ckFold_of_lt (by simpa using h)

/-- A whole group at an empty buffer goes into the lanes. -/
theorem ckFold_group (a : U32 × U32 × U32 × U32) (len : U32) (large : Bool) {g : List Byte} (hg : g.length = 16) :
    ckFold (.ofLanes a len large []) g = .ofLanes (laneRounds g a) (len + 16) true [] := by
  obtain ⟨bs, b, rfl⟩ := (List.eq_nil_or_concat' g).resolve_left (List.ne_nil_of_length_pos (by omega))
  have hbs : bs.length = 15 := by simpa using hg
  rw [ckFold_concat, ckFold_ofLanes_of_lt a len large (by omega), ckByte_of_eq hbs, hbs]
  simp only [Checksum.ofLanes, laneRounds, BitVec.add_assoc]
  rfl

/-- From an empty buffer: the whole groups go into the lanes, the rest into the buffer. -/
theorem ckFold_ofLanes {n : Nat} {x : List Byte} (hn : x.length / 16 = n) (a : U32 × U32 × U32 × U32) (len : U32)
    (large : Bool) :
    ckFold (.ofLanes a len large []) x =
      .ofLanes (xxhLanes n x a) (len + BitVec.ofNat 32 x.length) (large || decide (16 ≤ x.length)) (x.drop (16 * n)) := by
  induction n generalizing x a len large with
  | zero =>
    have hx : x.length < 16 := by omega
    rw [ckFold_ofLanes_of_lt a len large hx, xxhLanes_zero, decide_eq_false (Nat.not_le.mpr hx), Bool.or_false]
    rfl
  | succ n ih =>
    obtain ⟨g, y, rfl, hg⟩ : ∃ g y, x = g ++ y ∧ g.length = 16 :=
      ⟨x.take 16, x.drop 16, (List.take_append_drop 16 x).symm, List.length_take_of_le (by omega)⟩
    have hy : y.length / 16 = n := by
      rw [List.length_append] at hn
      omega
    rw [ckFold_append, ckFold_group a len large hg, ih hy, xxhLanes_succ, laneRounds_append hg, List.drop_left' hg,
      List.length_append, hg, Nat.mul_succ, Nat.add_comm (16 * n), ← List.drop_drop, List.drop_left' hg]
    simp [BitVec.ofNat_add, BitVec.add_assoc]

/-- The digest of the buffered fold is the one-shot XxHash32 (R125). -/
theorem ckHash_ckFold (x : List Byte) : ckHash (ckFold ckInitial x) = xxh32 x := by
  have hfold : ckFold ckInitial x = _ :=
    ckFold_ofLanes (x := x) rfl (xxhSeed + prime1 + prime2, xxhSeed + prime2, xxhSeed, xxhSeed - prime1) 0 false
  rw [hfold]
  simp [ckHash, xxh32, Checksum.ofLanes]

/-! ### A run of CK.UPDATE -/

theorem results_ckUpdate (pieces : List (List Byte)) (s : State) :
    ∃ rs t, results (pieces.map .ckUpdate) s = some (rs, t) ∧ t.ck = ckFold s.ck pieces.flatten := by
  induction pieces generalizing s with
  | nil => exact ⟨[], s, rfl, rfl⟩
  | cons piece pieces ih =>
    obtain ⟨rs, t, hrun, hck⟩ := ih ({ s with ck := ckFold s.ck piece }.reply .ok)
    exact ⟨_, t, results_cons rfl hrun, hck.trans (ckFold_append s.ck piece _).symm⟩

/-- Settles O50: CK.UPDATE of pieces is the fold of their concatenation, and its digest is the one-shot XxHash32. -/
theorem streamingDigestIsOneShot : Obligations.StreamingDigestIsOneShot := by
  intro pieces s
  obtain ⟨rs, t, hrun, hck⟩ := results_ckUpdate pieces ({ s with ck := ckInitial }.reply .ok)
  rw [State.reply_ck] at hck
  refine ⟨_, _, results_cons rfl (results_append hrun (results_cons (is := []) rfl rfl)), ?_⟩
  rw [State.reply_result, hck, ckHash_ckFold]

end Sys2Proof.Machine
end

section
/-! SETINPUT of the decompressor as a run from field to field (47_container.md R133): `Takes` says what a call takes and
leaves, with no turns to count. Every legal state has such a run, and SETINPUT answers it. -/

namespace Sys2Proof.Machine

/-! ### Bytes taken -/

/-- Bytes held in `InStage` behind the staged ones. -/
def State.stage (s : State) (bs : List Byte) : State :=
  { s with inStage := Memory.write s.inStage s.stageLen bs, stageLen := s.stageLen + bs.length }

/-- The bytes `bs` complete the field of `s`, and its action leaves `u`. -/
structure Completes (bs : List Byte) (s u : State) : Prop where
  needInput : statusDecompressor s = .needInput
  length : s.stageLen + bs.length = fieldLength s
  fits : fieldLength s ≤ inStageSize
  acts : ∃ f, Memory.read (s.stage bs).inStage 0 (fieldLength s) = .ok f ∧ fieldAction { s.stage bs with stageLen := 0 } f = .ok u

/-- `Takes bytes s n t`: of `bytes` offered in `s`, SETINPUT takes `n` and leaves `t`. It takes nothing where `State` is not
`NeedInput`, holds bytes that leave the field incomplete, and goes on after a field that is complete. -/
inductive Takes : List Byte → State → Nat → State → Prop
  | stop (bytes : List Byte) {s : State} (hs : statusDecompressor s ≠ .needInput) : Takes bytes s 0 s
  | wait {bytes : List Byte} {s : State} (hs : statusDecompressor s = .needInput)
      (hlt : s.stageLen + bytes.length < fieldLength s) (hfits : s.stageLen + bytes.length ≤ inStageSize) :
      Takes bytes s bytes.length (s.stage bytes)
  | field {bs rest : List Byte} {s u t : State} {n : Nat} (hu : Completes bs s u) (h : Takes rest u n t) :
      Takes (bs ++ rest) s (bs.length + n) t

/-! ### Pieces (R159) -/

theorem State.stage_nil {s : State} (h : Memory.write s.inStage s.stageLen [] = s.inStage) : s.stage [] = s := by
  rw [State.stage, h]
  rfl

theorem State.stage_stage {s : State} (h : s.inStage.wf = true) (x y : List Byte) :
    (s.stage x).stage y = s.stage (x ++ y) := by
  simp only [State.stage, Memory.write_append _ _ _ _ h, List.length_append, Nat.add_assoc]

/-- A field action stages nothing. -/
theorem Completes.inStage_wf {bs : List Byte} {s u : State} (h : Completes bs s u) (hwf : s.inStage.wf = true) :
    u.inStage.wf = true := by
  obtain ⟨f, -, hu⟩ := h.acts
  rw [(fieldAction_sameOutside hu).2]
  exact Memory.wf_write _ _ _ hwf

/-- A run leaves the configuration alone. -/
theorem Takes.sameOutside {bytes : List Byte} {s t : State} {n : Nat} (h : Takes bytes s n t) : s.sameOutside t := by
  induction h with
  | stop => exact State.sameOutside_refl _
  | wait => exact State.sameOutside_refl _
  | field hu _ ih =>
    obtain ⟨f, -, hf⟩ := hu.acts
    exact State.sameOutside_trans (fieldAction_sameOutside hf).1 ih

/-- Bytes not taken whole: more of them change nothing. -/
theorem Takes.append_of_lt {x : List Byte} {s t : State} {n : Nat} (h : Takes x s n t) (hlt : n < x.length)
    (y : List Byte) : Takes (x ++ y) s n t := by
  induction h with
  | stop x hs => exact .stop _ hs
  | wait => exact absurd hlt (Nat.lt_irrefl _)
  | field hu _ ih =>
    rw [List.length_append, Nat.add_lt_add_iff_left] at hlt
    rw [List.append_assoc]
    exact .field hu (ih hlt)

/-- Bytes held first and bytes offered then are bytes offered at once. -/
theorem Takes.append_of_stage {x y : List Byte} {s t : State} {d : Nat} (h : Takes y (s.stage x) d t)
    (hwf : s.inStage.wf = true) (hs : statusDecompressor s = .needInput) : Takes (x ++ y) s (x.length + d) t := by
  have hlen (y : List Byte) : s.stageLen + (x ++ y).length = (s.stage x).stageLen + y.length := by
    rw [List.length_append, ← Nat.add_assoc]
    rfl
  cases h with
  | stop _ hstop => exact absurd hs hstop
  | wait _ hlt hfits =>
    rw [State.stage_stage hwf, ← List.length_append]
    exact .wait hs ((hlen y).trans_lt hlt) ((hlen y).trans_le hfits)
  | @field bs rest _ _ _ _ hu h =>
    have hstage := State.stage_stage hwf x bs
    obtain ⟨f, hread, hf⟩ := hu.acts
    rw [← List.append_assoc, ← Nat.add_assoc, ← List.length_append]
    rw [hstage] at hread hf
    exact .field ⟨hs, (hlen bs).trans hu.length, hu.fits, f, hread, hf⟩ h

/-- Bytes taken whole, and then more of them. -/
theorem Takes.append {x y : List Byte} {s t u : State} {d : Nat} (h : Takes x s x.length t) (hwf : s.inStage.wf = true)
    (h' : Takes y t d u) : Takes (x ++ y) s (x.length + d) u := by
  generalize hn : x.length = n at h
  induction h with
  | stop x hs =>
    obtain rfl := List.length_eq_zero_iff.mp hn
    rwa [List.nil_append, Nat.zero_add]
  | wait hs _ _ => exact h'.append_of_stage hwf hs
  | field hu _ ih =>
    rw [List.length_append, Nat.add_left_cancel_iff] at hn
    rw [List.append_assoc, Nat.add_assoc]
    exact .field hu (ih (hu.inStage_wf hwf) h' hn)

/-! ### Turns of the loop -/

/-- The turns of the loop that need no byte: the action of a complete field, that of an empty field after it, and the end. -/
def idleTurns (s : State) : Nat :=
  if s.fstate.terminal = true ∨ s.stageLen < fieldLength s then 1 else if fieldLength s = 0 then 2 else 3

theorem idleTurns_pos (s : State) : 1 ≤ idleTurns s := by
  unfold idleTurns
  split_ifs <;> decide

theorem idleTurns_le (s : State) : idleTurns s ≤ 3 := by
  unfold idleTurns
  split_ifs <;> decide

/-- No action leaves a staged byte. -/
theorem FieldStep.stageLen {s u : State} (h : FieldStep s u) (h0 : s.stageLen = 0) : u.stageLen = 0 := by
  cases h with
  | fileHeader hf tag k => unfold fileHeaderAction; split_ifs <;> simp [h0]
  | blockType hf b => obtain h | ⟨t, -, h | h⟩ := blockTypeAction_cases s b <;> rw [h] <;> exact h0
  | rawSize hf size => unfold rawSizeAction; split_ifs <;> simp [h0]
  | compSize hf size => exact h0
  | crcBlock hf lo => unfold crcBlockAction; split_ifs <;> simp [h0]
  | content hf w bytes h => obtain ⟨-, rfl⟩ := produce_eq_ok h; exact h0
  | badPayload hf w e => rfl

theorem idleTurns_le_two {s : State} (h0 : s.stageLen = 0) : idleTurns s ≤ 2 := by
  unfold idleTurns
  split_ifs with hrest hempty
  · decide
  · decide
  · omega

/-- Only the content of a block can be an empty field, and what follows it ends the stream or is a header byte. -/
theorem FieldStep.idleTurns_of_empty {s u : State} (h : FieldStep s u) (h0 : s.stageLen = 0) (hempty : fieldLength s = 0) :
    idleTurns u = 1 := by
  refine if_pos ?_
  cases h with
  | fileHeader hf | blockType hf | rawSize hf | compSize hf | crcBlock hf => simp [fieldLength, hf] at hempty
  | content hf w bytes h =>
    obtain ⟨-, rfl⟩ := produce_eq_ok h
    exact .inr (h0.trans_lt Nat.one_pos)
  | badPayload => exact .inl rfl

theorem Completes.step {bs : List Byte} {s u : State} (h : Completes bs s u) :
    FieldStep { s.stage bs with stageLen := 0 } u := by
  obtain ⟨f, -, hu⟩ := h.acts
  exact fieldAction_step hu

theorem Completes.stageLen {bs : List Byte} {s u : State} (h : Completes bs s u) : u.stageLen = 0 := h.step.stageLen rfl

/-- The action of a field that has all its bytes is one turn. -/
theorem Completes.idleTurns {s u : State} (h : Completes [] s u) : idleTurns u < idleTurns s := by
  have hterm := (statusDecompressor_eq_needInput.mp h.needInput).1
  have hlen : s.stageLen = fieldLength s := h.length
  have hrest : ¬(s.fstate.terminal = true ∨ s.stageLen < fieldLength s) := by simp [hterm, hlen]
  rw [Machine.idleTurns.eq_def s, if_neg hrest]
  split_ifs with hempty
  · rw [h.step.idleTurns_of_empty rfl hempty]
    decide
  · exact Nat.lt_succ_of_le (idleTurns_le_two h.stageLen)

/-- A turn that acts on a complete field. -/
theorem inputLoop_act {s u : State} {f : List Byte} (hs : statusDecompressor s = .needInput)
    (hfull : s.stageLen = fieldLength s) (hread : Memory.read s.inStage 0 (fieldLength s) = .ok f)
    (hu : fieldAction { s with stageLen := 0 } f = .ok u) (fuel : Nat) (bytes : List Byte) (c : Nat) :
    inputLoop (fuel + 1) bytes c s = inputLoop fuel bytes c u := by
  conv_lhs => unfold inputLoop
  rw [if_neg (not_not.mpr hs), if_pos hfull, hread]
  dsimp only
  rw [hu]

/-- A turn that stages what the field still needs, or all there is. -/
theorem inputLoop_stage {s : State} {bs rest : List Byte} (hs : statusDecompressor s = .needInput) (hbs : bs ≠ [])
    (hlen : s.stageLen + bs.length = fieldLength s ∨ rest = [] ∧ s.stageLen + bs.length < fieldLength s)
    (hfits : s.stageLen + bs.length ≤ inStageSize) (fuel c : Nat) :
    inputLoop (fuel + 1) (bs ++ rest) c s = inputLoop fuel rest (c + bs.length) (s.stage bs) := by
  have hpos := List.length_pos_iff.mpr hbs
  have htake : min (fieldLength s - s.stageLen) (bs ++ rest).length = bs.length := by
    obtain hlen | ⟨rfl, hlen⟩ := hlen <;> simp only [List.length_append, List.length_nil] <;> omega
  obtain ⟨b, tail, hcons⟩ := List.exists_cons_of_ne_nil (List.append_ne_nil_of_left_ne_nil hbs rest)
  conv_lhs => unfold inputLoop
  rw [if_neg (not_not.mpr hs), if_neg (by omega), if_neg (by omega), hcons]
  dsimp only
  rw [← hcons, htake, List.take_left, List.drop_left, Memory.store_of_le _ hfits]
  rfl

theorem inputLoop_of_stopped {s : State} (hs : statusDecompressor s ≠ .needInput) {fuel : Nat} (hfuel : 1 ≤ fuel)
    (bytes : List Byte) (c : Nat) : inputLoop fuel bytes c s = .ok (c, s) := by
  obtain ⟨fuel, rfl⟩ := Nat.exists_eq_add_of_le' hfuel
  exact if_pos hs

/-- The turn that ends a call in the middle of a field. -/
theorem inputLoop_nil {s : State} (hs : statusDecompressor s = .needInput) (hlt : s.stageLen < fieldLength s) {fuel : Nat}
    (hfuel : 1 ≤ fuel) (c : Nat) : inputLoop fuel [] c s = .ok (c, s) := by
  obtain ⟨fuel, rfl⟩ := Nat.exists_eq_add_of_le' hfuel
  rw [inputLoop, if_neg (not_not.mpr hs), if_neg (by omega), if_neg (by omega)]

/-- The loop makes the run, with four turns for each byte besides the idle ones; `hempty` says that staging no byte changes
nothing. -/
theorem Takes.inputLoop_eq {bytes : List Byte} {s t : State} {n : Nat} (h : Takes bytes s n t)
    (hempty : Memory.write s.inStage s.stageLen [] = s.inStage) {fuel : Nat}
    (hfuel : 4 * bytes.length + idleTurns s ≤ fuel) (c : Nat) :
    inputLoop fuel bytes c s = .ok (c + n, t) := by
  induction h generalizing fuel c with
  | @stop bytes s hs =>
    have := idleTurns_pos s
    exact inputLoop_of_stopped hs (by omega) bytes c
  | @wait bytes s hs hlt hfits =>
    have := idleTurns_pos s
    by_cases hb : bytes = []
    · subst hb
      rw [State.stage_nil hempty]
      exact inputLoop_nil hs ((Nat.le_add_right ..).trans_lt hlt) (by omega) c
    · have := List.length_pos_iff.mpr hb
      obtain ⟨fuel, rfl⟩ := Nat.exists_eq_add_of_le' (show 1 ≤ fuel by omega)
      have hturn := inputLoop_stage (rest := []) hs hb (.inr ⟨rfl, hlt⟩) hfits fuel c
      rw [List.append_nil] at hturn
      rw [hturn]
      exact inputLoop_nil (s := s.stage bytes) hs hlt (by omega) _
  | @field bs rest s u t n hu h ih =>
    obtain ⟨f, hread, hact⟩ := hu.acts
    have hnext : Memory.write u.inStage u.stageLen [] = u.inStage := by rw [hu.stageLen, Memory.write_zero_nil]
    rw [List.length_append] at hfuel
    have hpos := idleTurns_pos s
    by_cases hb : bs = []
    · subst hb
      have hturns := hu.idleTurns
      obtain ⟨fuel, rfl⟩ := Nat.exists_eq_add_of_le' (show 1 ≤ fuel by omega)
      rw [State.stage_nil hempty] at hread hact
      rw [List.nil_append, inputLoop_act hu.needInput hu.length hread hact, ih hnext (by rw [List.length_nil] at hfuel; omega),
        List.length_nil, Nat.zero_add]
    · have := List.length_pos_iff.mpr hb
      have hturns := idleTurns_le_two hu.stageLen
      obtain ⟨fuel, rfl⟩ := Nat.exists_eq_add_of_le' (show 2 ≤ fuel by omega)
      rw [inputLoop_stage hu.needInput hb (.inl hu.length) (hu.length.trans_le hu.fits),
        inputLoop_act (s := s.stage bs) hu.needInput hu.length hread hact, ih hnext (by omega), Nat.add_assoc]

theorem exec_setinput_of_offer {s t : State} {bytes : List Byte} {n : Nat} (hc : s.configured = true)
    (h : offer bytes s = .ok (n, t)) : exec (.setinput bytes) s = .next (t.reply (.consumed n)) := by
  change offerInput bytes s = _
  rw [offerInput, whenConfigured_of_configured hc, h]
  rfl

/-- SETINPUT answers the run. -/
theorem Takes.exec_setinput {bytes : List Byte} {s t : State} {n : Nat} (h : Takes bytes s n t) (hc : s.configured = true)
    (hd : s.cfg.dir = .decompress) (hempty : Memory.write s.inStage s.stageLen [] = s.inStage) :
    exec (.setinput bytes) s = .next (t.reply (.consumed n)) := by
  have hturns := idleTurns_le s
  refine exec_setinput_of_offer hc ?_
  rw [offer, hd]
  exact (h.inputLoop_eq hempty (by unfold inputFuel; omega) 0).trans (by rw [Nat.zero_add])

/-! ### Every legal state has a run -/

theorem Inv.blockSize_le {s : State} (h : Inv s) (hf : s.fstate.pastHeader = true) : s.blockSize ≤ 65536 := by
  obtain ⟨k, hk, heq⟩ := List.any_eq_true.mp (h.blockSizeRead hf)
  rw [beq_iff_eq.mp heq]
  have hpow : 2 ^ k ≤ 2 ^ 6 := Nat.pow_le_pow_right (by decide) (Nat.le_of_lt_succ (List.mem_range.mp hk))
  omega

theorem Inv.rawSize_le {s : State} (h : Inv s) (hf : s.fstate = .blockContent) : s.rawSize ≤ 65536 :=
  (h.rawSizeRead (by rw [hf]; rfl)).trans (h.blockSize_le (by rw [hf]; rfl))

/-- Every field fits `InStage` (20_memory.md R30). -/
theorem Inv.fieldLength_le {s : State} (h : Inv s) : fieldLength s ≤ inStageSize := by
  have hc := h.cSizeRead
  have hr := h.rawSize_le
  unfold fieldLength inStageSize
  cases hf : s.fstate with
  | blockContent =>
    have hr := hr hf
    dsimp only
    split <;> omega
  | _ => dsimp only; omega

theorem produce_of_le {s : State} {content : List Byte} (h : content.length ≤ outBufSize s) :
    produce s content = .ok { s with
      outBuf := Memory.write s.outBuf 0 content, outPos := 0, outLen := content.length
      ck := if s.cfg.ckEn then ckFold s.ck content else s.ck, fstate := .blockType } := by
  rw [produce, Memory.store_of_le s.outBuf ((Nat.zero_add _).trans_le h)]

section

variable {s : State} {payload : List Byte}

/-- A Compressed block that decodes to `content` (47_container.md R140). -/
theorem compressedAction_of_content {content : List Byte}
    (hout : (decompressBlock payload s.rawSize s.cfg.strictTail).out = .ok content) :
    compressedAction s payload
      = produce { s with work := (decompressBlock payload s.rawSize s.cfg.strictTail).work } content := by
  simp only [compressedAction, hout]

/-- A Compressed block that raises a code (R140, 60_exceptions.md R162). -/
theorem compressedAction_of_raise {e : ErrCode}
    (hout : (decompressBlock payload s.rawSize s.cfg.strictTail).out = .error (.raise e)) :
    compressedAction s payload = .ok ({ s with
      work := (decompressBlock payload s.rawSize s.cfg.strictTail).work }.enterFatal .invalidData e) := by
  simp only [compressedAction, hout]

end

/-- A Compressed block's payload decodes to the block, or raises a code (45_block_codec.md R116). -/
theorem compressedAction_completes {s : State} (hr : s.rawSize ≤ outBufSize s) (payload : List Byte) :
    ∃ u, compressedAction s payload = .ok u := by
  obtain ⟨content, hout, hlen⟩ | ⟨e, hout, -⟩ := decompressBlock_cases payload s.rawSize s.cfg.strictTail
  · rw [compressedAction_of_content hout]
    exact ⟨_, produce_of_le (hlen.trans_le hr)⟩
  · exact ⟨_, compressedAction_of_raise hout⟩

/-! ### The action of each field (R133) -/

section

variable {s : State}

theorem fieldAction_fileHeader (hf : s.fstate = .fileHeader) (b0 b1 b2 b3 k : Byte) :
    fieldAction s [b0, b1, b2, b3, k] = .ok (fileHeaderAction s (le32 b0 b1 b2 b3) k) := by
  simp only [fieldAction, hf]

theorem fieldAction_blockType (hf : s.fstate = .blockType) (b : Byte) :
    fieldAction s [b] = .ok (blockTypeAction s b) := by
  simp only [fieldAction, hf]

theorem fieldAction_rawSize (hf : s.fstate = .rawSize) (b0 b1 : Byte) :
    fieldAction s [b0, b1] = .ok (rawSizeAction s (be16 b0 b1)) := by
  simp only [fieldAction, hf]

theorem fieldAction_compSize (hf : s.fstate = .compSize) (b0 b1 : Byte) :
    fieldAction s [b0, b1] = .ok (compSizeAction s (be16 b0 b1)) := by
  simp only [fieldAction, hf]

theorem fieldAction_crcBlock (hf : s.fstate = .crcBlock) (b0 b1 : Byte) :
    fieldAction s [b0, b1] = .ok (crcBlockAction s (be16 b0 b1)) := by
  simp only [fieldAction, hf]

variable (hf : s.fstate = .blockContent)
include hf

theorem fieldAction_compressed (ht : s.btype = .compressed) (payload : List Byte) :
    fieldAction s payload = compressedAction s payload := by
  simp only [fieldAction, hf, ht]

theorem fieldAction_raw (ht : s.btype = .raw) (content : List Byte) : fieldAction s content = produce s content := by
  simp only [fieldAction, hf, ht]

theorem fieldAction_rle (ht : s.btype = .rle) (b : Byte) :
    fieldAction s [b] = produce s (List.replicate s.rawSize b) := by
  simp only [fieldAction, hf, ht]

end

/-- The content of a block in a legal state. -/
theorem Inv.content_completes {s : State} (h : Inv s) (hd : s.cfg.dir = .decompress) (hf : s.fstate = .blockContent)
    {f : List Byte} (hlen : f.length = fieldLength s) : ∃ u, fieldAction s f = .ok u := by
  have hout : outBufSize s = 65536 := by rw [outBufSize, hd]; rfl
  have hr : s.rawSize ≤ outBufSize s := hout ▸ h.rawSize_le hf
  cases ht : s.btype with
  | compressed =>
    rw [fieldAction_compressed hf ht]
    exact compressedAction_completes hr f
  | raw =>
    rw [fieldAction_raw hf ht]
    simp only [fieldLength, hf, ht] at hlen
    exact ⟨_, produce_of_le (hlen.trans_le hr)⟩
  | rle =>
    simp only [fieldLength, hf, ht] at hlen
    obtain ⟨b, rfl⟩ := List.length_eq_one_iff.mp hlen
    rw [fieldAction_rle hf ht]
    exact ⟨_, produce_of_le ((List.length_replicate ..).trans_le hr)⟩
  | crc => exact absurd ht (h.sizedType (.inr (by rw [hf]; rfl)))

/-- Every complete field of a legal state that takes input has an action, which completes. -/
theorem Inv.fieldAction_completes {s : State} (h : Inv s) (hd : s.cfg.dir = .decompress)
    (hterm : s.fstate.terminal = false) {f : List Byte} (hlen : f.length = fieldLength s) : ∃ u, fieldAction s f = .ok u := by
  cases hf : s.fstate with
  | fileHeader =>
    simp only [fieldLength, hf] at hlen
    obtain ⟨b, tail, rfl, htail⟩ := List.length_eq_succ_iff.mp hlen
    obtain ⟨_, _, _, _, rfl⟩ := List.length_eq_four.mp htail
    exact ⟨_, fieldAction_fileHeader hf ..⟩
  | blockType =>
    simp only [fieldLength, hf] at hlen
    obtain ⟨_, rfl⟩ := List.length_eq_one_iff.mp hlen
    exact ⟨_, fieldAction_blockType hf _⟩
  | rawSize =>
    simp only [fieldLength, hf] at hlen
    obtain ⟨_, _, rfl⟩ := List.length_eq_two.mp hlen
    exact ⟨_, fieldAction_rawSize hf ..⟩
  | compSize =>
    simp only [fieldLength, hf] at hlen
    obtain ⟨_, _, rfl⟩ := List.length_eq_two.mp hlen
    exact ⟨_, fieldAction_compSize hf ..⟩
  | crcBlock =>
    simp only [fieldLength, hf] at hlen
    obtain ⟨_, _, rfl⟩ := List.length_eq_two.mp hlen
    exact ⟨_, fieldAction_crcBlock hf ..⟩
  | blockContent => exact h.content_completes hd hf hlen
  | completed | invalidData | invalidChecksum => simp [hf, FState.terminal] at hterm

/-- The bytes that a field still needs complete it. -/
theorem Inv.completes {s : State} (h : Inv s) (hd : s.cfg.dir = .decompress) (hs : statusDecompressor s = .needInput)
    {bs : List Byte} (hlen : s.stageLen + bs.length = fieldLength s) :
    ∃ u, Completes bs s u ∧ Inv u ∧ u.cfg.dir = .decompress := by
  have hfits := h.fieldLength_le
  have hstaged : Inv (s.stage bs) := h.stage hd hlen.le (hlen.trans_le hfits)
  obtain ⟨f, hread, hf, -⟩ := Memory.read_of_writtenTo (s.stage bs).inStage 0 (fieldLength s) hstaged.inStageForm.1 (by
    rw [Nat.zero_add, ← hlen]
    exact hstaged.staging.2)
  obtain ⟨u, hu⟩ := hstaged.clearStage.fieldAction_completes hd (statusDecompressor_eq_needInput.mp hs).1 hf
  exact ⟨u, ⟨hs, hlen, hfits, f, hread, hu⟩, loopKeeps_inv.act (s := s.stage bs) ⟨hstaged, hd⟩ hs hu⟩

theorem Inv.exists_takes {s : State} (h : Inv s) (hd : s.cfg.dir = .decompress) (bytes : List Byte) :
    ∃ n t, Takes bytes s n t := by
  induction hk : 4 * bytes.length + idleTurns s using Nat.strong_induction_on generalizing bytes s with
  | _ k ih =>
    by_cases hs : statusDecompressor s = .needInput
    · by_cases hlt : s.stageLen + bytes.length < fieldLength s
      · exact ⟨_, _, .wait hs hlt (hlt.le.trans h.fieldLength_le)⟩
      · have hle := h.staging.1
        obtain ⟨bs, rest, rfl, hbs⟩ : ∃ bs rest, bytes = bs ++ rest ∧ bs.length = fieldLength s - s.stageLen :=
          ⟨_, _, (List.take_append_drop _ bytes).symm, List.length_take_of_le (by omega)⟩
        obtain ⟨u, hu, hinv, hdir⟩ := h.completes (bs := bs) hd hs (by omega)
        have hturns : 4 * rest.length + idleTurns u < k := by
          rw [List.length_append] at hk
          by_cases hb : bs = []
          · subst hb
            have := hu.idleTurns
            rw [List.length_nil] at hk
            omega
          · have := List.length_pos_iff.mpr hb
            have := idleTurns_le u
            have := idleTurns_pos s
            omega
        obtain ⟨n, t, ht⟩ := ih _ hturns hinv hdir rest rfl
        exact ⟨_, t, .field hu ht⟩
    · exact ⟨0, s, .stop bytes hs⟩

/-- SETINPUT of the decompressor answers a run from every legal state. -/
theorem Inv.exec_setinput {s : State} (h : Inv s) (hc : s.configured = true) (hd : s.cfg.dir = .decompress)
    (bytes : List Byte) : ∃ n t, Takes bytes s n t ∧ exec (.setinput bytes) s = .next (t.reply (.consumed n)) := by
  obtain ⟨n, t, ht⟩ := h.exists_takes hd bytes
  exact ⟨n, t, ht, ht.exec_setinput hc hd (Memory.write_nil _ _ h.inStageForm.1)⟩

end Sys2Proof.Machine
end

section
/-! The host commands of the decompressor on legal states: none faults (93_implementation_defined.md I3 to I6), and two
pieces of input are one (47_container.md R159). -/

namespace Sys2Proof.Machine

/-! ### No fault -/

theorem answers_next (t : State) : Answers (.next t) := ⟨t, rfl⟩

theorem whenConfigured_answers {s : State} {k : Host.Outcome State Fault Refusal} (h : s.configured = true → Answers k) :
    Answers (whenConfigured s k) := by
  cases hc : s.configured with
  | true =>
    rw [whenConfigured_of_configured hc]
    exact h hc
  | false =>
    rw [whenConfigured_of_unconfigured hc]
    exact answers_next _

/-- The queue lies in written bytes. -/
theorem Inv.exists_readyBytes {s : State} (h : Inv s) : ∃ bs, readyBytes s = .ok bs := by
  obtain ⟨hle, -, hwritten⟩ := h.queue
  have hend : s.outPos + readyLength s = s.outLen := Nat.add_sub_cancel' hle
  obtain ⟨bs, hread, -⟩ := Memory.read_of_writtenTo s.outBuf s.outPos (readyLength s) h.outBufForm.1 (by rwa [hend])
  exact ⟨bs, hread⟩

section

variable {s : State} (h : Inv s) (hd : s.cfg.dir = .decompress)
include h hd

theorem Inv.offerInput_answers (bytes : List Byte) : Answers (offerInput bytes s) := by
  cases hc : s.configured with
  | true =>
    obtain ⟨n, t, -, hexec⟩ := h.exec_setinput hc hd bytes
    exact ⟨_, hexec⟩
  | false => exact ⟨_, whenConfigured_of_unconfigured hc _⟩

omit hd in
theorem Inv.readyBytes_answers (next : List Byte → State) :
    Answers (whenConfigured s (outcome ((readyBytes s).map next))) := by
  obtain ⟨bs, hbs⟩ := h.exists_readyBytes
  rw [hbs]
  exact whenConfigured_answers fun _ => answers_next _

end

theorem execConfigure_answers (dir k tlReq ckEn strictTail oneByteRle : Nat) (s : State) :
    Answers (execConfigure dir k tlReq ckEn strictTail oneByteRle s) := by
  unfold execConfigure
  split
  · exact answers_next _
  · exact answers_next _

theorem execAdvance_answers (n : BitVec 17) (s : State) : Answers (execAdvance n s) := by
  refine whenConfigured_answers fun _ => ?_
  split
  · exact answers_next _
  · exact answers_next _

theorem execFlush_answers {s : State} (hd : s.cfg.dir = .decompress) : Answers (execFlush s) := by
  refine whenConfigured_answers fun _ => ?_
  rw [hd]
  exact answers_next _

theorem execComplete_answers {s : State} (hd : s.cfg.dir = .decompress) : Answers (execComplete s) := by
  refine whenConfigured_answers fun _ => ?_
  rw [hd]
  dsimp only
  split_ifs
  · exact answers_next _
  · exact answers_next _
  · exact answers_next _

/-- Settles O57: input has a run from every legal state (`Inv.exec_setinput`), the queue can be read, and no other command
of the decompressor reads a memory. -/
theorem decompressorNeverFaults : Obligations.DecompressorNeverFaults := by
  intro i s h hd hi
  cases i with
  | fhdr | blkCmp | blkCmpF | blkRaw | blkRawF | blkRle | blkRleF | blkCrc | setinput => exact h.offerInput_answers hd _
  | configure => exact execConfigure_answers ..
  | state | need | errcause | reset => exact whenConfigured_answers fun _ => answers_next _
  | output | drain => exact h.readyBytes_answers _
  | advance n => exact execAdvance_answers n s
  | flush => exact execFlush_answers hd
  | complete => exact execComplete_answers hd
  | _ => cases hi

/-! ### Two pieces are one -/

section

variable (s : State) (r : Result)

theorem produce_reply (content : List Byte) : produce (s.reply r) content = (produce s content).map (·.reply r) := by
  simp only [produce, outBufSize_reply, State.reply_outBuf]
  cases Memory.store (outBufSize s) s.outBuf 0 content <;> rfl

theorem rawSizeAction_reply (size : BitVec 16) :
    rawSizeAction (s.reply r) size = (rawSizeAction s size).reply r := by
  unfold rawSizeAction
  rw [apply_ite (State.reply · r)]
  rfl

theorem crcBlockAction_reply (lo : BitVec 16) : crcBlockAction (s.reply r) lo = (crcBlockAction s lo).reply r := by
  unfold crcBlockAction
  rw [apply_ite (State.reply · r)]
  rfl

theorem fileHeaderAction_reply (tag : U32) (k : Byte) :
    fileHeaderAction (s.reply r) tag k = (fileHeaderAction s tag k).reply r := by
  unfold fileHeaderAction
  split_ifs <;> rfl

theorem blockTypeAction_reply (b : Byte) : blockTypeAction (s.reply r) b = (blockTypeAction s b).reply r := by
  simp only [blockTypeAction]
  split
  · rfl
  · rw [apply_ite (State.reply · r)]
    rfl

theorem compressedAction_reply (payload : List Byte) :
    compressedAction (s.reply r) payload = (compressedAction s payload).map (·.reply r) := by
  obtain ⟨content, hout, -⟩ | ⟨e, hout, -⟩ := decompressBlock_cases payload s.rawSize s.cfg.strictTail
  · rw [compressedAction_of_content (s := s.reply r) hout, compressedAction_of_content hout]
    exact produce_reply (s.withWork _) r content
  · rw [compressedAction_of_raise (s := s.reply r) hout, compressedAction_of_raise hout]
    rfl

/-- The field actions do not look at the result port. -/
theorem fieldAction_reply (f : List Byte) : fieldAction (s.reply r) f = (fieldAction s f).map (·.reply r) := by
  unfold fieldAction
  rw [State.reply_fstate, State.reply_btype]
  split
  · exact congrArg Except.ok (fileHeaderAction_reply s r _ _)
  · exact congrArg Except.ok (blockTypeAction_reply s r _)
  · exact congrArg Except.ok (rawSizeAction_reply s r _)
  · rfl
  · exact congrArg Except.ok (crcBlockAction_reply s r _)
  · split
    · exact compressedAction_reply s r _
    · exact produce_reply s r _
    · exact produce_reply s r _
    · rfl
  · rfl

end

theorem Completes.reply {bs : List Byte} {s u : State} (h : Completes bs s u) (r : Result) :
    Completes bs (s.reply r) (u.reply r) := by
  obtain ⟨hs, hlen, hfits, f, hread, hu⟩ := h
  refine ⟨hs, hlen, hfits, f, hread, ?_⟩
  have hact := fieldAction_reply { s.stage bs with stageLen := 0 } r f
  rw [hu] at hact
  exact hact

theorem Takes.reply {bytes : List Byte} {s t : State} {n : Nat} (h : Takes bytes s n t) (r : Result) :
    Takes bytes (s.reply r) n (t.reply r) := by
  induction h with
  | stop bytes hs => exact .stop bytes hs
  | wait hs hlt hfits => exact .wait (s := State.reply _ r) hs hlt hfits
  | field hu _ ih => exact .field (hu.reply r) ih

/-- Settles O16: the run of the first piece goes on where it was taken whole (`Takes.append`) and stays as it is where it
was not (`Takes.append_of_lt`). -/
theorem inputSplitIsNotObservable : Obligations.InputSplitIsNotObservable := by
  intro x y s t c h hc hd hx hres
  have hempty := Memory.write_nil s.inStage s.stageLen h.inStageForm.1
  obtain ⟨n, t, hrun, hexec⟩ := h.exec_setinput hc hd x
  obtain rfl := Host.Outcome.next.inj (hexec.symm.trans hx)
  obtain rfl := Result.consumed.inj hres
  refine ⟨fun hlt => (hrun.append_of_lt hlt y).exec_setinput hc hd hempty, fun hall u d hy hd' => ?_⟩
  obtain ⟨hconf, hcfg, -⟩ := hrun.sameOutside
  have hinv : Inv (t.reply (.consumed n)) := (exec_effect hexec).inv h
  obtain ⟨m, u, hrun', hexec'⟩ := hinv.exec_setinput (hconf.trans hc) ((congrArg Cfg.dir hcfg).trans hd) y
  obtain rfl := Host.Outcome.next.inj (hexec'.symm.trans hy)
  obtain rfl := Result.consumed.inj hd'
  subst hall
  have hboth := (hrun.reply (.consumed x.length)).append h.inStageForm.1 hrun'
  exact (hboth.reply s.result).exec_setinput hc hd hempty

end Sys2Proof.Machine
end

section
/-! SETINPUT of the decompressor field by field (47_container.md R133 to R137): bytes that leave a field incomplete, the file
header, and the fields of a block's header. -/

namespace Sys2Proof.Machine

/-- Settles O13: the run that stops in the middle of the field. -/
theorem partialFieldIsStaged : Obligations.PartialFieldIsStaged := by
  intro bytes s h hc hd hs hlt
  rw [status_of_decompress hd] at hs
  have hrun := Takes.wait hs hlt (hlt.le.trans h.fieldLength_le)
  exact hrun.exec_setinput hc hd (Memory.write_nil _ _ h.inStageForm.1)

/-! ### A field from its start -/

/-- The bytes of a whole field stand in `InStage`. -/
def State.holding (s : State) (f : List Byte) : State := { s with inStage := Memory.write s.inStage 0 f }

/-- Nothing is offered, and nothing is there to act on. -/
theorem takes_nil {s : State} (h0 : s.stageLen = 0) (h : s.fstate.terminal = true ∨ 0 < fieldLength s) : Takes [] s 0 s := by
  by_cases hs : statusDecompressor s = .needInput
  · have hterm := (statusDecompressor_eq_needInput.mp hs).1
    have hlt : 0 < fieldLength s := h.resolve_left (by simp [hterm])
    have hrun : Takes [] s 0 (s.stage []) := .wait hs (by rwa [h0]) (by rw [h0]; decide)
    rwa [State.stage_nil (by rw [h0, Memory.write_zero_nil])] at hrun
  · exact .stop [] hs

theorem State.enterFatal_of_unstaged {s : State} (h0 : s.stageLen = 0) (f : FState) (e : ErrCode) :
    s.enterFatal f e = { s with fstate := f, errcause := e } := by
  rw [State.enterFatal, ← h0]

section

variable {s u : State} {f : FState} (h : Expects s f)
include h

theorem Expects.needInput (hf : f.terminal = false) : statusDecompressor s = .needInput := by
  obtain ⟨-, -, rfl, -, hq⟩ := h
  exact statusDecompressor_eq_needInput.mpr ⟨hf, hq.ge⟩

/-- Bytes offered whole to a field from its start. -/
theorem Expects.completes (hf : f.terminal = false) {bs : List Byte} (hlen : bs.length = fieldLength s)
    (hfits : bs.length ≤ inStageSize) (hu : fieldAction (s.holding bs) bs = .ok u) : Completes bs s u := by
  have h0 : s.stageLen = 0 := h.2.2.2.1
  have hstage : { s.stage bs with stageLen := 0 } = s.holding bs := by simp only [State.stage, State.holding, h0]
  refine ⟨h.needInput hf, by rw [h0, hlen, Nat.zero_add], hlen ▸ hfits, bs, ?_, by rw [hstage, hu]⟩
  rw [← hlen, State.stage, h0]
  exact Memory.read_write ..

theorem Expects.exec_takes {bytes : List Byte} {n : Nat} (hrun : Takes bytes s n u) :
    exec (.setinput bytes) s = .next (u.reply (.consumed n)) := by
  obtain ⟨hc, hd, -, h0, -⟩ := h
  exact hrun.exec_setinput hc hd (by rw [h0, Memory.write_zero_nil])

/-- SETINPUT of one field, whose action leaves the session at the start of another or in a terminal state. -/
theorem Expects.exec_field (hf : f.terminal = false) {bs : List Byte} (hlen : bs.length = fieldLength s)
    (hfits : bs.length ≤ inStageSize) (hu : fieldAction (s.holding bs) bs = .ok u)
    (hnext : u.fstate.terminal = true ∨ 0 < fieldLength u) :
    exec (.setinput bs) s = .next (u.reply (.consumed bs.length)) := by
  have hcomplete := h.completes hf hlen hfits hu
  have hrun := Takes.field hcomplete (takes_nil hcomplete.stageLen hnext)
  rw [List.append_nil] at hrun
  exact h.exec_takes hrun

end

/-! ### The file header (R134) -/

theorem fileHeaderAction_next (s : State) (tag : U32) (k : Byte) :
    (fileHeaderAction s tag k).fstate.terminal = true ∨ 0 < fieldLength (fileHeaderAction s tag k) := by
  unfold fileHeaderAction
  split_ifs
  · exact .inl rfl
  · exact .inl rfl
  · exact .inl rfl
  · exact .inr Nat.one_pos

/-- Settles O18: the action on the whole field. -/
theorem fileHeaderIsChecked : Obligations.FileHeaderIsChecked := by
  intro tag k s h
  obtain ⟨-, -, hf, h0, -⟩ := id h
  have hact := fieldAction_fileHeader (s := s.holding (fhdrBytes tag k)) hf
    (tag.extractLsb' 0 8) (tag.extractLsb' 8 8) (tag.extractLsb' 16 8) (tag.extractLsb' 24 8) k
  rw [le32_le32Bytes] at hact
  have hexec := h.exec_field (bs := fhdrBytes tag k) rfl (by rw [fieldLength, hf]; rfl)
    (show 5 ≤ inStageSize by decide) hact (fileHeaderAction_next ..)
  refine hexec.trans (congrArg Host.Outcome.next ?_)
  have henter := State.enterFatal_of_unstaged (s := s.holding (fhdrBytes tag k)) h0
  unfold fileHeaderAction
  simp only [henter, tagHuff, tagZlibh, tagFse]
  split_ifs <;> rfl

/-! ### The header byte (R135) -/

theorem blockTypeOf_eq : ∀ b : Byte, blockTypeOf b =
    if b.toNat / 64 = 0 then .compressed else if b.toNat / 64 = 1 then .raw else if b.toNat / 64 = 2 then .rle else .crc := by
  decide

/-- The types other than Crc, and where a block of such a type goes once its raw size is known. -/
theorem blockTypeOf_of_ne : ∀ b : Byte, b.toNat / 64 ≠ 3 →
    blockTypeOf b = (if b.toNat / 64 = 0 then .compressed else if b.toNat / 64 = 1 then .raw else .rle) ∧
    blockTypeOf b ≠ .crc ∧ afterRawSize (blockTypeOf b) = if b.toNat / 64 = 0 then .compSize else .blockContent := by
  decide

theorem fullFlagOf_eq : ∀ b : Byte, fullFlagOf b = decide (b.toNat / 32 % 2 = 1) := by decide

theorem crcHi6Of_eq : ∀ b : Byte, crcHi6Of b = BitVec.ofNat 6 (b.toNat % 64) := by decide

section

variable (s : State) {b : Byte}

theorem blockTypeAction_of_crc (ht : blockTypeOf b = .crc) : blockTypeAction s b =
    { s with work := Work.unwritten, btype := .crc, crcHi6 := crcHi6Of b, fstate := .crcBlock } := by
  simp only [blockTypeAction, ht]

theorem blockTypeAction_of_full (ht : blockTypeOf b ≠ .crc) (hfull : fullFlagOf b = true) : blockTypeAction s b =
    { s with
      work := Work.unwritten, btype := blockTypeOf b, full := true, rawSize := s.blockSize
      fstate := afterRawSize (blockTypeOf b) } := by
  simp only [blockTypeAction, hfull, if_true]

theorem blockTypeAction_of_sized (ht : blockTypeOf b ≠ .crc) (hfull : fullFlagOf b = false) : blockTypeAction s b =
    { s with work := Work.unwritten, btype := blockTypeOf b, full := false, fstate := .rawSize } := by
  simp only [blockTypeAction, hfull, Bool.false_eq_true, if_false]

end

theorem Work.unwritten_tablesUnwritten : Work.unwritten.tablesUnwritten := ⟨rfl, rfl, rfl, rfl, rfl, rfl⟩

theorem afterRawSize_next {s : State} {t : BlockType} (hf : s.fstate = afterRawSize t) (ht : s.btype = t) (hcrc : t ≠ .crc)
    (hraw : t = .raw → 0 < s.rawSize) : 0 < fieldLength s := by
  cases t with
  | compressed => simp [fieldLength, hf, afterRawSize]
  | raw => simpa [fieldLength, hf, ht, afterRawSize] using hraw rfl
  | rle => simp [fieldLength, hf, ht, afterRawSize]
  | crc => exact absurd rfl hcrc

/-- SETINPUT of the header byte, where the field it leads to is not an empty one. -/
theorem Expects.exec_header {s : State} (h : Expects s .blockType) (hsize : 1 ≤ s.blockSize) (b : Byte) :
    exec (.setinput [b]) s
      = .next ((blockTypeAction (s.holding [b]) b).reply (.consumed 1)) := by
  have hf : s.fstate = .blockType := h.2.2.1
  refine h.exec_field rfl (by rw [fieldLength, hf]; rfl) (show 1 ≤ inStageSize by decide)
    (fieldAction_blockType (s := s.holding [b]) hf b) (.inr ?_)
  by_cases hcrc : blockTypeOf b = .crc
  · rw [blockTypeAction_of_crc _ hcrc]
    exact Nat.two_pos
  · cases hfull : fullFlagOf b with
    | true =>
      rw [blockTypeAction_of_full _ hcrc hfull]
      exact afterRawSize_next rfl rfl hcrc fun _ => hsize
    | false =>
      rw [blockTypeAction_of_sized _ hcrc hfull]
      exact Nat.two_pos

/-! ### The size fields (R136, R137) -/

theorem rawSizeAction_of_lt {s : State} (h0 : s.stageLen = 0) {size : BitVec 16} (h : s.blockSize < size.toNat) :
    rawSizeAction s size = { s with rawSize := size.toNat, fstate := .invalidData, errcause := .rawSize } := by
  rw [rawSizeAction, if_pos h, State.enterFatal_of_unstaged (by exact h0)]

theorem rawSizeAction_of_le {s : State} {size : BitVec 16} (h : size.toNat ≤ s.blockSize) {t : BlockType}
    (ht : s.btype = t) : rawSizeAction s size = { s with rawSize := size.toNat, fstate := afterRawSize t } := by
  rw [rawSizeAction, if_neg (Nat.not_lt.mpr h), ht]

/-- SETINPUT of the raw size, where the field it leads to is not an empty one. -/
theorem Expects.exec_rawSize {s : State} (h : Expects s .rawSize) (hcrc : s.btype ≠ .crc) {b0 b1 : Byte}
    (hraw : s.btype = .raw → 1 ≤ (be16 b0 b1).toNat) :
    exec (.setinput [b0, b1]) s
      = .next ((rawSizeAction (s.holding [b0, b1]) (be16 b0 b1)).reply (.consumed 2)) := by
  obtain ⟨-, -, hf, h0, -⟩ := id h
  refine h.exec_field rfl (by rw [fieldLength, hf]; rfl) (show 2 ≤ inStageSize by decide)
    (fieldAction_rawSize (s := s.holding [b0, b1]) hf b0 b1) ?_
  by_cases hle : (be16 b0 b1).toNat ≤ s.blockSize
  · rw [rawSizeAction_of_le (s := s.holding _) hle rfl]
    exact .inr (afterRawSize_next rfl rfl hcrc hraw)
  · rw [rawSizeAction_of_lt (s := s.holding _) h0 (Nat.not_le.mp hle)]
    exact .inl rfl

/-- Settles O15: the three actions, each on its whole field. -/
theorem blockHeaderFieldActions : Obligations.BlockHeaderFieldActions := by
  refine ⟨fun b s h hsize => ⟨Work.unwritten, Work.unwritten_tablesUnwritten, ?header⟩, fun b0 b1 s h hcrc => ?rawSize,
    fun b0 b1 s h hbtype hpos => ?compSize⟩
  case header =>
    have hexec := h.exec_header hsize b
    have hfull := fullFlagOf_eq b
    refine ⟨fun h3 => ?_, fun h3 h1 => ?_, fun h3 h1 => ?_⟩
    · have hcrc : blockTypeOf b = .crc := by rw [blockTypeOf_eq, h3]; rfl
      rw [hexec, blockTypeAction_of_crc _ hcrc, crcHi6Of_eq]
      rfl
    · obtain ⟨htype, hcrc, hnext⟩ := blockTypeOf_of_ne b h3
      rw [hexec, blockTypeAction_of_full _ hcrc (hfull.trans (decide_eq_true h1)), hnext, htype]
      rfl
    · obtain ⟨htype, hcrc, -⟩ := blockTypeOf_of_ne b h3
      rw [hexec, blockTypeAction_of_sized _ hcrc (hfull.trans (decide_eq_false h1)), htype]
      rfl
  case rawSize =>
    obtain ⟨-, -, -, h0, -⟩ := id h
    rw [← be16_toNat]
    refine ⟨fun hlt => ?_, fun hle ht hpos => ?_, fun hle ht => ?_, fun hle ht => ?_⟩
    · rw [h.exec_rawSize hcrc fun _ => Nat.one_le_of_lt hlt, rawSizeAction_of_lt (s := s.holding _) h0 hlt]
      rfl
    · rw [h.exec_rawSize hcrc fun _ => hpos, rawSizeAction_of_le (s := s.holding _) hle ht]
      rfl
    · rw [h.exec_rawSize hcrc (by simp [ht]), rawSizeAction_of_le (s := s.holding _) hle ht]
      rfl
    · rw [h.exec_rawSize hcrc (by simp [ht]), rawSizeAction_of_le (s := s.holding _) hle ht]
      rfl
  case compSize =>
    obtain ⟨-, -, hf, -, -⟩ := id h
    rw [← be16_toNat] at hpos ⊢
    have hnext : 0 < fieldLength (compSizeAction (s.holding [b0, b1]) (be16 b0 b1)) := by
      simp only [fieldLength, compSizeAction, State.holding, hbtype]
      exact hpos
    exact h.exec_field (bs := [b0, b1]) rfl (by rw [fieldLength, hf]; rfl) (show 2 ≤ inStageSize by decide)
      (fieldAction_compSize (s := s.holding [b0, b1]) hf b0 b1) (.inr hnext)

end Sys2Proof.Machine
end

section
/-! The blocks of the stream (47_container.md R135 to R141): a block's fields are taken one after the other, and its content is
queued, or its payload raises a code, or its checksum is compared. -/

namespace Sys2Proof.Machine

/-! ### The header byte of an element -/

theorem blockTypeOf_headerByte (type : BitVec 2) (full : Bool) (reserved : BitVec 5) :
    blockTypeOf (headerByte type full reserved) = blockTypeOf (headerByte type false 0) := by
  revert type full reserved; decide

theorem fullFlagOf_headerByte (type : BitVec 2) (full : Bool) (reserved : BitVec 5) :
    fullFlagOf (headerByte type full reserved) = full := by
  revert type full reserved; decide

theorem blockTypeOf_crcHeaderByte (hi : BitVec 6) : blockTypeOf (crcHeaderByte hi) = .crc := by
  revert hi; decide

/-! ### The fields before the content -/

section

variable (s : State) (m : Memory) (t : BlockType)

/-- A block of type `t` whose raw size is the next field. -/
def State.unsizedBlock : State :=
  { s with inStage := m, work := Work.unwritten, btype := t, full := false, fstate := .rawSize }

/-- A block of type `t` whose raw size is known. -/
def State.sizedBlock (full : Bool) (size : Nat) : State :=
  { s with inStage := m, work := Work.unwritten, btype := t, full := full, rawSize := size, fstate := afterRawSize t }

/-- A block that declares a raw size above the block size (R136). -/
def State.oversizedBlock (size : Nat) : State :=
  { s with
    inStage := m, work := Work.unwritten, btype := t, full := false, rawSize := size
    fstate := .invalidData, errcause := .rawSize }

end

theorem Expects.unsizedBlock {s : State} {f : FState} (h : Expects s f) (m : Memory) (t : BlockType) :
    Expects (s.unsizedBlock m t) .rawSize :=
  ⟨h.1, h.2.1, rfl, h.2.2.2⟩

theorem Expects.sizedBlock {s : State} {f : FState} (h : Expects s f) (m : Memory) (t : BlockType) (full : Bool)
    (size : Nat) : Expects (s.sizedBlock m t full size) (afterRawSize t) :=
  ⟨h.1, h.2.1, rfl, h.2.2.2⟩

section

variable {s : State} (h : Expects s .blockType) {type : BitVec 2} {t : BlockType}
  (ht : blockTypeOf (headerByte type false 0) = t) (hcrc : t ≠ .crc) (reserved : BitVec 5) {rest : List Byte} {n : Nat}
  {u : State}
include h ht hcrc

theorem Expects.takes_fullHeader
    (hrest : Takes rest (s.sizedBlock (Memory.write s.inStage 0 [headerByte type true reserved]) t true s.blockSize) n u) :
    Takes (headerByte type true reserved :: rest) s (1 + n) u := by
  have hf : s.fstate = .blockType := h.2.2.1
  have htype := (blockTypeOf_headerByte type true reserved).trans ht
  refine .field (bs := [_]) (h.completes rfl (by rw [fieldLength, hf]; rfl) (show 1 ≤ inStageSize by decide) ?_) hrest
  rw [fieldAction_blockType (s := s.holding _) hf,
    blockTypeAction_of_full _ (htype ▸ hcrc) (fullFlagOf_headerByte type true reserved), htype]
  rfl

theorem Expects.takes_header
    (hrest : Takes rest (s.unsizedBlock (Memory.write s.inStage 0 [headerByte type false reserved]) t) n u) :
    Takes (headerByte type false reserved :: rest) s (1 + n) u := by
  have hf : s.fstate = .blockType := h.2.2.1
  have htype := (blockTypeOf_headerByte type false reserved).trans ht
  refine .field (bs := [_]) (h.completes rfl (by rw [fieldLength, hf]; rfl) (show 1 ≤ inStageSize by decide) ?_) hrest
  rw [fieldAction_blockType (s := s.holding _) hf,
    blockTypeAction_of_sized _ (htype ▸ hcrc) (fullFlagOf_headerByte type false reserved), htype]
  rfl

end

/-- The raw size after a header byte that is not full. -/
theorem Expects.completes_rawSize {v : State} (h : Expects v .rawSize) (size : BitVec 16) :
    Completes (be16Bytes size) v (rawSizeAction (v.holding (be16Bytes size)) size) := by
  have hf : v.fstate = .rawSize := h.2.2.1
  refine h.completes rfl (by rw [fieldLength, hf]; rfl) (show 2 ≤ inStageSize by decide) ?_
  have hact := fieldAction_rawSize (s := v.holding (be16Bytes size)) hf (size.extractLsb' 8 8) (size.extractLsb' 0 8)
  rwa [be16_be16Bytes] at hact

section

variable {s : State} (h : Expects s .blockType) {type : BitVec 2} {t : BlockType}
  (ht : blockTypeOf (headerByte type false 0) = t) (hcrc : t ≠ .crc) (reserved : BitVec 5) {size : BitVec 16}
include h ht hcrc

/-- A block that is not full, up to its raw size. -/
theorem Expects.takes_sized {rest : List Byte} {n : Nat} {u : State} (hle : size.toNat ≤ s.blockSize)
    (hrest : Takes rest (s.sizedBlock
      (Memory.write (Memory.write s.inStage 0 [headerByte type false reserved]) 0 (be16Bytes size)) t false size.toNat) n u) :
    Takes (headerByte type false reserved :: (be16Bytes size ++ rest)) s (3 + n) u := by
  have hcomplete := (h.unsizedBlock (Memory.write s.inStage 0 [headerByte type false reserved]) t).completes_rawSize size
  rw [rawSizeAction_of_le (s := State.holding (s.unsizedBlock _ t) _) hle rfl] at hcomplete
  have hrun := h.takes_header ht hcrc reserved (.field hcomplete hrest)
  rwa [show (be16Bytes size).length = 2 from rfl, ← Nat.add_assoc] at hrun

/-- A block that is not full and declares too much (R136). -/
theorem Expects.takes_oversized (rest : List Byte) (hlt : s.blockSize < size.toNat) :
    Takes (headerByte type false reserved :: (be16Bytes size ++ rest)) s 3 (s.oversizedBlock
      (Memory.write (Memory.write s.inStage 0 [headerByte type false reserved]) 0 (be16Bytes size)) t size.toNat) := by
  have h0 : s.stageLen = 0 := h.2.2.2.1
  have hcomplete := (h.unsizedBlock (Memory.write s.inStage 0 [headerByte type false reserved]) t).completes_rawSize size
  rw [rawSizeAction_of_lt (s := State.holding (s.unsizedBlock _ t) _) h0 hlt] at hcomplete
  exact h.takes_header ht hcrc reserved (.field hcomplete (.stop rest nofun))

end

/-! ### Content -/

/-- The state once the content field `f` has been acted on and the block's `content` is queued, the working state being
`w`. -/
def State.delivered (v : State) (f : List Byte) (w : Work) (content : List Byte) : State :=
  { v with
    inStage := Memory.write v.inStage 0 f, work := w
    outBuf := Memory.write v.outBuf 0 content, outPos := 0, outLen := v.rawSize
    ck := if v.cfg.ckEn then ckFold v.ck content else v.ck, fstate := .blockType }

/-- A content field whose action queues the block. -/
theorem Expects.takes_content {v : State} (h : Expects v .blockContent) {f content : List Byte} {w : Work}
    (hlen : f.length = fieldLength v) (hfits : f.length ≤ 65536)
    (hu : fieldAction (v.holding f) f = produce ((v.holding f).withWork w) content) (hsize : content.length = v.rawSize)
    (hmax : v.rawSize ≤ 65536) : Takes f v f.length (v.delivered f w content) := by
  obtain ⟨-, hd, -, h0, -⟩ := id h
  have hout : outBufSize ((v.holding f).withWork w) = 65536 := by
    rw [show outBufSize ((v.holding f).withWork w) = outBufSize v from rfl, outBufSize, hd]
    rfl
  rw [produce_of_le (hsize.trans_le (hmax.trans_eq hout.symm)), hsize] at hu
  have hrun := Takes.field (h.completes rfl hlen hfits hu) (takes_nil h0 (.inr Nat.one_pos))
  rwa [List.append_nil] at hrun

theorem toNat_le_65536 (x : BitVec 16) : x.toNat ≤ 65536 := x.isLt.le

/-- Settles O19: the content field is the block. -/
theorem rawBlockDeliversItsBytes : Obligations.RawBlockDeliversItsBytes := by
  intro reserved s h
  have ht : blockTypeOf (headerByte 1 false 0) = .raw := by decide
  have hf : s.fstate = .blockType := h.2.2.1
  refine ⟨Work.unwritten, Work.unwritten_tablesUnwritten, fun rawSize data hlen => ⟨fun hlt => ?oversized, fun hle => ?sized⟩,
    fun data hlen hmax => ?full⟩
  case oversized => exact h.exec_takes (h.takes_oversized ht nofun reserved data hlt)
  case sized =>
    have hmax := toNat_le_65536 rawSize
    have hcontent := (h.sizedBlock (Memory.write (Memory.write s.inStage 0 [headerByte 1 false reserved]) 0 (be16Bytes rawSize))
      .raw false rawSize.toNat).takes_content hlen (hlen.trans_le hmax) (fieldAction_raw rfl rfl data) hlen hmax
    refine (h.exec_takes (h.takes_sized ht nofun reserved hle hcontent)).trans ?_
    rw [hf]
    rfl
  case full =>
    have hcontent := (h.sizedBlock (Memory.write s.inStage 0 [headerByte 1 true reserved]) .raw true s.blockSize).takes_content
      hlen (hlen.trans_le hmax) (fieldAction_raw rfl rfl data) hlen hmax
    refine (h.exec_takes (h.takes_fullHeader ht nofun reserved hcontent)).trans ?_
    rw [hf]
    rfl

/-- Settles O20: the content field is the byte of which the block is copies. -/
theorem rleBlockDeliversCopies : Obligations.RleBlockDeliversCopies := by
  intro reserved b s h
  have ht : blockTypeOf (headerByte 2 false 0) = .rle := by decide
  have hf : s.fstate = .blockType := h.2.2.1
  refine ⟨Work.unwritten, Work.unwritten_tablesUnwritten, fun rawSize => ⟨fun hlt => ?oversized, fun hle => ?sized⟩,
    fun hmax => ?full⟩
  case oversized => exact h.exec_takes (h.takes_oversized ht nofun reserved [b] hlt)
  case sized =>
    have hcontent := (h.sizedBlock (Memory.write (Memory.write s.inStage 0 [headerByte 2 false reserved]) 0 (be16Bytes rawSize))
      .rle false rawSize.toNat).takes_content (f := [b]) rfl (show 1 ≤ 65536 by decide) (fieldAction_rle rfl rfl b)
      List.length_replicate (toNat_le_65536 rawSize)
    refine (h.exec_takes (h.takes_sized ht nofun reserved hle hcontent)).trans ?_
    rw [hf]
    rfl
  case full =>
    have hcontent := (h.sizedBlock (Memory.write s.inStage 0 [headerByte 2 true reserved]) .rle true s.blockSize).takes_content
      (f := [b]) rfl (show 1 ≤ 65536 by decide) (fieldAction_rle rfl rfl b) List.length_replicate hmax
    refine (h.exec_takes (h.takes_fullHeader ht nofun reserved hcontent)).trans ?_
    rw [hf]
    rfl

/-! ### A Compressed block (R140) -/

/-- A Compressed block whose payload is the next field. -/
def State.payloadDue (v : State) (cSize : BitVec 16) : State :=
  { v with inStage := Memory.write v.inStage 0 (be16Bytes cSize), cSize := cSize.toNat, fstate := .blockContent }

theorem Expects.payloadDue {v : State} {f : FState} (h : Expects v f) (cSize : BitVec 16) :
    Expects (v.payloadDue cSize) .blockContent :=
  ⟨h.1, h.2.1, rfl, h.2.2.2⟩

theorem Expects.takes_compSize {v : State} (h : Expects v .compSize) (cSize : BitVec 16) {rest : List Byte} {n : Nat}
    {u : State} (hrest : Takes rest (v.payloadDue cSize) n u) : Takes (be16Bytes cSize ++ rest) v (2 + n) u := by
  have hf : v.fstate = .compSize := h.2.2.1
  have hact := fieldAction_compSize (s := v.holding (be16Bytes cSize)) hf (cSize.extractLsb' 8 8) (cSize.extractLsb' 0 8)
  rw [be16_be16Bytes] at hact
  exact .field (h.completes rfl (by rw [fieldLength, hf]; rfl) (show 2 ≤ inStageSize by decide) hact) hrest

/-- The state once the payload `p` has raised the code `e`. -/
def State.undecodable (v : State) (p : List Byte) (w : Work) (e : ErrCode) : State :=
  { v with inStage := Memory.write v.inStage 0 p, work := w, fstate := .invalidData, errcause := e }

section

variable {v : State} (h : Expects v .blockContent) (ht : v.btype = .compressed) {p : List Byte} (hlen : p.length = v.cSize)
  (hp : p.length ≤ 65536) {run : DecompressRun} (hrun : decompressBlock p v.rawSize v.cfg.strictTail = run)
include h ht hlen hp hrun

/-- A payload that decodes. -/
theorem Expects.takes_payload {content : List Byte} (hout : run.out = .ok content) (hmax : v.rawSize ≤ 65536) :
    Takes p v p.length (v.delivered p run.work content) := by
  subst hrun
  have hf : v.fstate = .blockContent := h.2.2.1
  have hsize : content.length = v.rawSize := by
    obtain ⟨c, hc, hc'⟩ | ⟨e, he, -⟩ := decompressBlock_cases p v.rawSize v.cfg.strictTail
    · rwa [← Except.ok.inj (hout.symm.trans hc)] at hc'
    · cases hout.symm.trans he
  refine h.takes_content (by rw [fieldLength, hf, ht, hlen]) hp ?_ hsize hmax
  rw [fieldAction_compressed (s := v.holding p) hf ht, compressedAction_of_content (s := v.holding p) hout]
  rfl

/-- A payload that raises a code. -/
theorem Expects.takes_badPayload {e : ErrCode} (hout : run.out = .error (.raise e)) :
    Takes p v p.length (v.undecodable p run.work e) := by
  subst hrun
  obtain ⟨-, -, hf, h0, -⟩ := id h
  have hu : fieldAction (v.holding p) p = .ok (v.undecodable p (decompressBlock p v.rawSize v.cfg.strictTail).work e) := by
    rw [fieldAction_compressed (s := v.holding p) hf ht, compressedAction_of_raise (s := v.holding p) hout,
      State.enterFatal_of_unstaged (by exact h0)]
    rfl
  have hrun := Takes.field (h.completes rfl (by rw [fieldLength, hf, ht, hlen]) hp hu) (.stop [] nofun)
  rwa [List.append_nil] at hrun

end

/-- Settles O21: the payload is a field of its own behind the compressed size. -/
theorem compressedBlockDeliversOrFails : Obligations.CompressedBlockDeliversOrFails := by
  intro reserved cSize payload s h hlen hblock
  have ht : blockTypeOf (headerByte 0 false 0) = .compressed := by decide
  have hf : s.fstate = .blockType := h.2.2.1
  have hp : payload.length ≤ 65536 := hlen.trans_le (toNat_le_65536 cSize)
  refine ⟨Work.unwritten, Work.unwritten_tablesUnwritten, fun rawSize => ?sized, ?full⟩
  case sized =>
    have hsized := h.sizedBlock (Memory.write (Memory.write s.inStage 0 [headerByte 0 false reserved]) 0 (be16Bytes rawSize))
      .compressed false rawSize.toNat
    refine ⟨fun hlt => ?_, fun hle content hout => ?_, fun hle e hout => ?_⟩
    · exact h.exec_takes (h.takes_oversized ht nofun reserved _ hlt)
    · have hcontent := (hsized.payloadDue cSize).takes_payload rfl hlen hp rfl hout (toNat_le_65536 rawSize)
      refine (h.exec_takes (h.takes_sized ht nofun reserved hle (hsized.takes_compSize cSize hcontent))).trans ?_
      rw [hf, ← Nat.add_assoc]
      rfl
    · have hcontent := (hsized.payloadDue cSize).takes_badPayload rfl hlen hp rfl hout
      refine (h.exec_takes (h.takes_sized ht nofun reserved hle (hsized.takes_compSize cSize hcontent))).trans ?_
      rw [← Nat.add_assoc]
      rfl
  case full =>
    have hsized := h.sizedBlock (Memory.write s.inStage 0 [headerByte 0 true reserved]) .compressed true s.blockSize
    refine ⟨fun content hout => ?_, fun e hout => ?_⟩
    · have hcontent := (hsized.payloadDue cSize).takes_payload rfl hlen hp rfl hout hblock
      refine (h.exec_takes (h.takes_fullHeader ht nofun reserved (hsized.takes_compSize cSize hcontent))).trans ?_
      rw [hf, ← Nat.add_assoc]
      rfl
    · have hcontent := (hsized.payloadDue cSize).takes_badPayload rfl hlen hp rfl hout
      refine (h.exec_takes (h.takes_fullHeader ht nofun reserved (hsized.takes_compSize cSize hcontent))).trans ?_
      rw [← Nat.add_assoc]
      rfl

/-! ### The Crc block (R141) -/

/-- The stored checksum is compared as a number (46_checksum.md R126). -/
theorem append_ne_ckTrunc_iff (hi : BitVec 6) (lo : BitVec 16) (x : U32) :
    hi ++ lo ≠ ckTrunc x ↔ hi.toNat * 2 ^ 16 + lo.toNat ≠ x.toNat / 32 % 2 ^ 22 := by
  rw [ne_eq, ← BitVec.toNat_inj, ckTrunc_toNat, BitVec.toNat_append, ← Nat.shiftLeft_add_eq_or_of_lt lo.isLt,
    Nat.shiftLeft_eq]

/-- A Crc block whose low 16 checksum bits are the next field. -/
def State.crcDue (s : State) (hi : BitVec 6) : State :=
  { s with
    inStage := Memory.write s.inStage 0 [crcHeaderByte hi], work := Work.unwritten, btype := .crc, crcHi6 := hi
    fstate := .crcBlock }

theorem Expects.completes_crcHeader {s : State} (h : Expects s .blockType) (hi : BitVec 6) :
    Completes [crcHeaderByte hi] s (s.crcDue hi) := by
  have hf : s.fstate = .blockType := h.2.2.1
  refine h.completes rfl (by rw [fieldLength, hf]; rfl) (show 1 ≤ inStageSize by decide) ?_
  rw [fieldAction_blockType (s := s.holding _) hf, blockTypeAction_of_crc _ (blockTypeOf_crcHeaderByte hi),
    crcHi6Of_crcHeaderByte]
  rfl

theorem crcBlockAction_terminal (s : State) (lo : BitVec 16) : (crcBlockAction s lo).fstate.terminal = true := by
  unfold crcBlockAction
  split
  · rfl
  · rfl

theorem Expects.takes_crcLow {v : State} (h : Expects v .crcBlock) (lo : BitVec 16) :
    Takes (be16Bytes lo) v 2 (crcBlockAction (v.holding (be16Bytes lo)) lo) := by
  have hf : v.fstate = .crcBlock := h.2.2.1
  have hact := fieldAction_crcBlock (s := v.holding (be16Bytes lo)) hf (lo.extractLsb' 8 8) (lo.extractLsb' 0 8)
  rw [be16_be16Bytes] at hact
  have hcomplete := h.completes (bs := be16Bytes lo) rfl (by rw [fieldLength, hf]; rfl) (show 2 ≤ inStageSize by decide) hact
  have hrun := Takes.field hcomplete (takes_nil hcomplete.stageLen (.inl (crcBlockAction_terminal _ lo)))
  rwa [List.append_nil] at hrun

/-- Settles O22: two fields, the second of which ends the session. -/
theorem crcBlockComparesChecksum : Obligations.CrcBlockComparesChecksum := by
  intro hi lo s h
  obtain ⟨hc, hd, -, h0, hq⟩ := id h
  have hlow : Expects (s.crcDue hi) .crcBlock := ⟨hc, hd, rfl, h0, hq⟩
  refine ⟨Work.unwritten, Work.unwritten_tablesUnwritten, ?_⟩
  refine (h.exec_takes (.field (h.completes_crcHeader hi) (hlow.takes_crcLow lo))).trans (congrArg Host.Outcome.next ?_)
  simp only [crcBlockAction, ← append_ne_ckTrunc_iff]
  rw [State.enterFatal_of_unstaged (s := State.holding (s.crcDue hi) _) h0]
  exact apply_ite (State.reply · (.consumed 3)) _ _ _

end Sys2Proof.Machine
end

section
/-! The commands that touch no block (47_container.md R131, R142 to R147, R153 to R157): the status reads, OUTPUT, ADVANCE, FLUSH
and COMPLETE of the decompressor, CONFIGURE, and SETINPUT where no input is taken. -/

namespace Sys2Proof.Machine

/-! ### Status reads (R157) -/

/-- Settles O1: `State` and `need` by the direction and the field state. -/
theorem statusReadsReturnSessionStatus : Obligations.StatusReadsReturnSessionStatus := by
  intro s hc
  have reads (r : Result) : whenConfigured s (.next (s.reply r)) = .next { s with result := r } :=
    whenConfigured_of_configured hc _
  refine ⟨(reads _).trans ?state, (reads _).trans ?need, reads _⟩
  case state =>
    unfold status
    cases s.cfg.dir with
    | compress => rfl
    | decompress =>
      dsimp only [statusDecompressor]
      cases s.fstate <;> rfl
  case need =>
    unfold needOutput
    cases s.cfg.dir with
    | compress => rfl
    | decompress =>
      dsimp only [fieldLength]
      cases s.fstate with
      | blockContent => cases s.btype <;> rfl
      | _ => rfl

/-! ### The queue (R143, R153, R156) -/

/-- Settles O2: the queue is read, and the result port is no part of it. -/
theorem outputReturnsReadyBytes : Obligations.OutputReturnsReadyBytes := by
  intro s hc hwf hle hwritten
  have hend : s.outPos + readyLength s = s.outLen := Nat.add_sub_cancel' hle
  obtain ⟨bs, hread, hlen, hget⟩ := Memory.read_of_writtenTo s.outBuf s.outPos (readyLength s) hwf (by rwa [hend])
  exact ⟨bs, exec_output_of_readyBytes hc hread, exec_output_of_readyBytes (s := s.reply (.bytes bs)) hc hread, hlen,
    fun i hi => (hget i (hlen ▸ hi)).symm⟩

/-- Settles O3: `retire` in each direction. -/
theorem advanceRetiresReadyBytes : Obligations.AdvanceRetiresReadyBytes := by
  intro n s hc
  constructor
  · intro hlt
    change execAdvance n s = _
    rw [execAdvance, whenConfigured_of_configured hc, if_pos (show readyLength s < n.toNat from hlt)]
    rfl
  · intro hle
    rw [exec_advance_of_le hc hle]
    cases hd : s.cfg.dir with
    | compress => simp only [retire_of_compress hd, true_and]; rfl
    | decompress => simp only [retire_of_decompress hd, reduceCtorEq, false_and, if_false]; rfl

/-! ### FLUSH and COMPLETE of the decompressor (R144, R145) -/

theorem FState.terminal_iff (f : FState) :
    f.terminal = true ↔ f = .completed ∨ f = .invalidData ∨ f = .invalidChecksum := by
  cases f <;> decide

theorem statusDecompressor_eq_writeOutput {s : State} :
    statusDecompressor s = .writeOutput ↔ s.fstate.terminal = false ∧ s.outPos < s.outLen := by
  unfold statusDecompressor
  cases s.fstate <;> simp [FState.terminal]

/-- Settles O5: COMPLETE by the session's status. -/
theorem decompressorFlushAndComplete : Obligations.DecompressorFlushAndComplete := by
  intro s hc hd
  have hcomplete : exec .complete s =
      if statusDecompressor s = .writeOutput then argError s .argState
      else if s.fstate.terminal then .next (s.reply .ok)
      else .next ((s.enterFatal .invalidData .truncated).reply .ok) := by
    change execComplete s = _
    rw [execComplete, whenConfigured_of_configured hc, hd]
  rw [← FState.terminal_iff, Bool.not_eq_true, hcomplete]
  refine ⟨?flush, fun hterm => ?ended, fun hopen => ⟨fun hlt => ?ready, fun hle => ?truncated⟩⟩
  case flush =>
    change execFlush s = _
    rw [execFlush, whenConfigured_of_configured hc, hd]
    rfl
  case ended =>
    rw [if_neg (by simp [statusDecompressor_eq_writeOutput, hterm]), if_pos hterm]
    rfl
  case ready =>
    rw [if_pos (statusDecompressor_eq_writeOutput.mpr ⟨hopen, hlt⟩)]
    rfl
  case truncated =>
    rw [if_neg fun h => Nat.not_lt.mpr hle (statusDecompressor_eq_writeOutput.mp h).2, if_neg (by simp [hopen])]
    rfl

/-! ### CONFIGURE (R131) -/

/-- Settles O8: the checks are those of `configOf`, and six registers of these values are the configuration it answers. -/
theorem configureChecksWritesAndResets : Obligations.ConfigureChecksWritesAndResets := by
  intro dir k tlReq ckEn strictTail oneByteRle s legal
  constructor
  · intro hillegal
    have hnone : configOf dir k tlReq ckEn strictTail oneByteRle = none := if_neg hillegal
    change execConfigure dir k tlReq ckEn strictTail oneByteRle s = _
    rw [execConfigure, hnone]
    rfl
  · rintro hlegal ⟨_, k, tlReq, ck, strict, rle⟩ rfl rfl rfl hck hstrict hrle
    have flag {b : Bool} {n : Nat} (h : b = true ↔ n = 1) : decide (n = 1) = b :=
      Bool.eq_iff_iff.mpr (decide_eq_true_iff.trans h.symm)
    have hsome : configOf dir k tlReq ckEn strictTail oneByteRle = some _ := if_pos hlegal
    rw [flag hck, flag hstrict, flag hrle] at hsome
    change execConfigure dir k tlReq ckEn strictTail oneByteRle s = _
    rw [execConfigure, hsome]
    rfl

/-! ### SETINPUT where no input is taken (R142, R147) -/

/-- Settles O12: the first thing that either direction looks at is its status. -/
theorem noInputTakenOutsideNeedInput : Obligations.NoInputTakenOutsideNeedInput := by
  intro bytes s hc hs
  refine exec_setinput_of_offer hc ?_
  unfold offer
  cases hd : s.cfg.dir with
  | decompress =>
    rw [status_of_decompress hd] at hs
    exact if_pos hs
  | compress =>
    rw [status_of_compress hd] at hs
    exact if_pos hs

end Sys2Proof.Machine
end

section
/-! The compressor's commands (47_container.md R147 to R152): what EMIT leaves, and FLUSH, COMPLETE and SETINPUT, which end in it.
A held block has at least one byte and at most a block's, so that the block coder answers or raises E_NORMALIZE, and what is
queued fits `OutBuf`. -/

namespace Sys2Proof.Machine

/-! ### The bytes of a framed block (R149) and of the Crc block (R150) -/

theorem be16Bytes_ofNat (x : Nat) : be16Bytes (BitVec.ofNat 16 x) = [BitVec.ofNat 8 (x / 256), BitVec.ofNat 8 x] := by
  have hhi : (BitVec.ofNat 16 x).extractLsb' 8 8 = BitVec.ofNat 8 (x / 256) := BitVec.eq_of_toNat_eq (by
    simp only [BitVec.extractLsb'_toNat, BitVec.toNat_ofNat, Nat.shiftRight_eq_div_pow]
    omega)
  have hlo : (BitVec.ofNat 16 x).extractLsb' 0 8 = BitVec.ofNat 8 x := BitVec.eq_of_toNat_eq (by
    simp only [BitVec.extractLsb'_toNat, BitVec.toNat_ofNat, Nat.shiftRight_zero]
    omega)
  rw [be16Bytes, hhi, hlo]

/-- Settles O23: each form's bytes, the size fields by `be16Bytes_ofNat`. -/
theorem frameWritesBlockForms : Obligations.FrameWritesBlockForms := by
  intro src p b n be
  constructor
  · intro hfull
    simp only [frame, if_pos hfull, blkCmpFBytes, be16Bytes_ofNat]
    exact ⟨rfl, rfl, rfl⟩
  · intro hshort
    simp only [frame, if_neg hshort, blkCmpBytes, blkRleBytes, blkRawBytes, be16Bytes_ofNat]
    exact ⟨rfl, rfl, rfl⟩

theorem crcHeaderByte_eq_or : ∀ hi : BitVec 6, crcHeaderByte hi = 0xC0 ||| BitVec.ofNat 8 hi.toNat := by decide

theorem crcBlockBytes_eq (c : BitVec 22) : crcBlockBytes c =
    [0xC0 ||| BitVec.ofNat 8 (c.toNat / 65536), BitVec.ofNat 8 (c.toNat / 256), BitVec.ofNat 8 c.toNat] := by
  have hlt : c.toNat < 2 ^ 22 := c.isLt
  have hhi : (c.extractLsb' 16 6).toNat = c.toNat / 65536 := by
    rw [BitVec.extractLsb'_toNat, Nat.shiftRight_eq_div_pow]
    omega
  rw [crcBlockBytes, blkCrcBytes, crcHeaderByte_eq_or, hhi]
  exact congrArg (_ :: ·) (be16Bytes_ofNat c.toNat)

/-! ### EMIT (R148) -/

theorem lazyHeader_eq (s : State) :
    lazyHeader s = if s.hdrDone then [] else [0x09, 0x23, 0x3E, 0x18, BitVec.ofNat 8 s.cfg.k] := rfl

/-- The block coder on a held block answers or raises E_NORMALIZE (45_block_codec.md R117), and what it stores fits. -/
theorem compressBlock_out {src : List Byte} (h1 : 1 ≤ src.length) (hn : src.length ≤ 65536) (tlReq : Nat) (oneByteRle : Bool) :
    (compressBlock src tlReq oneByteRle).pay.length ≤ payCap ∧
      ((∃ r, (compressBlock src tlReq oneByteRle).out = .ok r) ∨
        (compressBlock src tlReq oneByteRle).out = .error (.raise .normalize)) := by
  obtain ⟨hpay, hout | hout | ⟨b, hout, -⟩ | ⟨p, hout, -⟩⟩ := compressBlock_standsFor h1 hn tlReq oneByteRle
  · exact ⟨hpay, .inr hout⟩
  · exact ⟨hpay, .inl ⟨_, hout⟩⟩
  · exact ⟨hpay, .inl ⟨_, hout⟩⟩
  · exact ⟨hpay, .inl ⟨_, hout⟩⟩

theorem outBufSize_of_compress {s : State} (hd : s.cfg.dir = .compress) : outBufSize s = outCap := by
  rw [outBufSize, hd]

theorem queueBlock_of_le {s : State} {r : BlockResult} {src : List Byte}
    (h : (lazyHeader s ++ frame r src (blockSizeCfg s)).length ≤ outBufSize s) :
    queueBlock s r src = .ok { s with
      hdrDone := true, ck := ckFold s.ck src
      outBuf := Memory.write s.outBuf 0 (lazyHeader s ++ frame r src (blockSizeCfg s)), outPos := 0
      outLen := (lazyHeader s ++ frame r src (blockSizeCfg s)).length, bufLen := 0 } := by
  simp only [queueBlock, Memory.store_of_le s.outBuf ((Nat.zero_add _).trans_le h)]

/-- EMIT of the bytes held, a block's at most. -/
theorem emit_cases {s : State} (hcfg : legalCfg s.cfg = true) (hd : s.cfg.dir = .compress) {src : List Byte}
    (hread : Memory.read s.blockBuf 0 s.bufLen = .ok src) (h1 : 1 ≤ s.bufLen) (hle : s.bufLen ≤ blockSizeCfg s) :
    (∃ r, (compressBlock src s.cfg.tlReq s.cfg.oneByteRle).out = .ok r ∧ emit s = .ok (afterEmit s src r)) ∨
      (compressBlock src s.cfg.tlReq s.cfg.oneByteRle).out = .error (.raise .normalize) ∧
        emit s = .ok (afterBlockError s src .normalize) := by
  have hlen := Memory.read_length hread
  have hsize := blockSizeCfg_bounds hcfg
  obtain ⟨hpay, hout⟩ := compressBlock_out (src := src) (by omega) (by omega) s.cfg.tlReq s.cfg.oneByteRle
  have hstore := Memory.store_of_le s.payBuf ((Nat.zero_add _).trans_le hpay)
  obtain ⟨r, hr⟩ | hraise := hout
  · refine .inl ⟨r, hr, ?_⟩
    have hframe := frame_length_le (r := r) (src := src) (by omega) hsize.1 fun p hp => compressBlock_cmp_length (hp ▸ hr)
    have hheader := lazyHeader_length_le s
    have hfits : (lazyHeader s ++ frame r src (blockSizeCfg s)).length ≤ outBufSize s := by
      rw [List.length_append, outBufSize_of_compress hd]
      exact le_trans (by omega) (show 65543 ≤ outCap by decide)
    simp only [emit, hread, hstore, hr]
    exact queueBlock_of_le (s := { s with work := _, payBuf := _ }) hfits
  · refine .inr ⟨hraise, ?_⟩
    simp only [emit, hread, hstore, hraise]
    rfl

/-! ### Where input is taken -/

theorem accepts_iff {s : State} (hc : s.configured = true) (hd : s.cfg.dir = .compress) :
    Accepts s ↔ statusCompressor s = .needInput := by
  simp only [Accepts, hc, hd, true_and, statusCompressor_eq_needInput]

section

variable {s : State} (hc : s.configured = true) (hd : s.cfg.dir = .compress)
include hc hd

theorem exec_flush_of_not_accepts (h : ¬Accepts s) : exec .flush s = .next (s.reply (.error .argState)) := by
  rw [accepts_iff hc hd] at h
  change execFlush s = _
  rw [execFlush, whenConfigured_of_configured hc, hd]
  exact if_pos h

theorem exec_complete_of_not_accepts (h : ¬Accepts s) : exec .complete s = .next (s.reply (.error .argState)) := by
  rw [accepts_iff hc hd] at h
  change execComplete s = _
  rw [execComplete, whenConfigured_of_configured hc, hd]
  exact if_pos h

theorem exec_flush_of_accepts (h : Accepts s) {u : State} (hu : emitPending s = .ok u) :
    exec .flush s = .next (u.reply .ok) := by
  rw [accepts_iff hc hd] at h
  change execFlush s = _
  rw [execFlush, whenConfigured_of_configured hc, hd, hu]
  exact if_neg (not_not.mpr h)

theorem exec_complete_of_accepts (h : Accepts s) {u : State} (hu : completeStream s = .ok u) :
    exec .complete s = .next (u.reply .ok) := by
  rw [accepts_iff hc hd] at h
  change execComplete s = _
  rw [execComplete, whenConfigured_of_configured hc, hd, hu]
  exact if_neg (not_not.mpr h)

end

theorem emitPending_of_empty {s : State} (h : s.bufLen = 0) : emitPending s = .ok s := if_neg (by omega)

theorem emitPending_of_held {s : State} (h : 1 ≤ s.bufLen) : emitPending s = emit s := if_pos h

/-- Settles O6: EMIT by `emit_cases`. -/
theorem compressorFlushEmitsHeldBlock : Obligations.CompressorFlushEmitsHeldBlock := by
  intro s h hc hd
  refine ⟨exec_flush_of_not_accepts hc hd, fun ha h0 => exec_flush_of_accepts hc hd ha (emitPending_of_empty h0),
    fun src ha h1 hread => ?_⟩
  obtain ⟨r, hout, hemit⟩ | ⟨hout, hemit⟩ := emit_cases h.cfgLegal hd hread h1 h.blockBuffer.1.le
  all_goals
    rw [hout]
    exact exec_flush_of_accepts hc hd ha ((emitPending_of_held h1).trans hemit)

/-! ### The end of the stream (R152) -/

/-- There is room for the Crc block, and for the file header where it is still due. -/
theorem queueCrc_of_inv {s : State} (h : Inv s) (hd : s.cfg.dir = .compress) (hopen : s.cphase = .opened) :
    queueCrc s = .ok (afterComplete s) := by
  have hroom := h.crcRoom hd hopen
  have hfirst := h.headerFirst hd
  have hfits : s.outLen + (lazyHeader s ++ crcBlockBytes (ckTrunc (ckHash s.ck))).length ≤ outBufSize s := by
    rw [List.length_append, outBufSize_of_compress hd, crcBlockBytes_eq, lazyHeader_eq]
    cases hdone : s.hdrDone with
    | true => exact hroom
    | false => rw [hfirst hdone]; exact (show 8 ≤ outCap by decide)
  simp only [crcBlockBytes_eq, ckTrunc_toNat] at hfits
  simp only [queueCrc, crcBlockBytes_eq, ckTrunc_toNat, Memory.store_of_le s.outBuf hfits]
  rfl

theorem completeStream_of_open {s u : State} (hu : emitPending s = .ok u) (hopen : u.cphase ≠ .failed) :
    completeStream s = queueCrc u := by
  rw [completeStream, hu]
  exact if_neg hopen

theorem completeStream_of_failed {s u : State} (hu : emitPending s = .ok u) (hfailed : u.cphase = .failed) :
    completeStream s = .ok u := by
  rw [completeStream, hu]
  exact if_pos hfailed

/-- Settles O7: the state that EMIT leaves is legal, so that it has room for the stream's end. -/
theorem compressorCompleteEndsStream : Obligations.CompressorCompleteEndsStream := by
  intro s h hc hd
  refine ⟨exec_complete_of_not_accepts hc hd, fun ha h0 => ?_, fun src ha h1 hread => ?_⟩
  all_goals
    have hstatus := (accepts_iff hc hd).mp ha
    have hopen := h.opened_of_needInput hstatus
  · exact exec_complete_of_accepts hc hd ha
      ((completeStream_of_open (emitPending_of_empty h0) (by simp [hopen])).trans (queueCrc_of_inv h hd hopen))
  · obtain ⟨r, hout, hemit⟩ | ⟨hout, hemit⟩ := emit_cases h.cfgLegal hd hread h1 h.blockBuffer.1.le
    all_goals
      rw [hout]
      rw [← emitPending_of_held h1] at hemit
    · have hinv := emitPending_inv h hd hstatus hemit
      have hopen' : (afterEmit s src r).cphase = .opened := hopen
      exact exec_complete_of_accepts hc hd ha
        ((completeStream_of_open hemit (by simp [hopen'])).trans (queueCrc_of_inv hinv hd hopen'))
    · exact exec_complete_of_accepts hc hd ha (completeStream_of_failed hemit rfl)

/-! ### Input (R147) -/

/-- The bytes that the block still needs, or all there are, go to the block buffer; a full block is emitted. -/
theorem inputCompressor_of_needInput {s : State} (hs : statusCompressor s = .needInput) {bytes : List Byte} {k : Nat}
    (hk : min (blockSizeCfg s - s.bufLen) bytes.length = k) (hlt : s.bufLen < blockSizeCfg s) :
    inputCompressor bytes s =
      if s.bufLen + k = blockSizeCfg s then
        (emit { s with blockBuf := Memory.write s.blockBuf s.bufLen (bytes.take k), bufLen := s.bufLen + k }).map fun t => (k, t)
      else .ok (k, { s with blockBuf := Memory.write s.blockBuf s.bufLen (bytes.take k), bufLen := s.bufLen + k }) := by
  have hfits : s.bufLen + (bytes.take k).length ≤ blockSizeCfg s := by
    rw [List.length_take]
    omega
  rw [inputCompressor, if_neg (not_not.mpr hs), hk]
  simp only [Memory.store_of_le s.blockBuf hfits]
  rfl

/-- Settles O14: below a full block and at one. -/
theorem compressorInputFillsBlock : Obligations.CompressorInputFillsBlock := by
  intro bytes s h hc hd n
  have hlt : s.bufLen < n := h.blockBuffer.1
  have hoffer : offer bytes s = inputCompressor bytes s := by rw [offer, hd]
  refine ⟨fun ha => ?refused, fun ha hshort => ?short, fun ha hfull src u hu hread => ?full⟩
  case refused =>
    refine noInputTakenOutsideNeedInput bytes s hc ?_
    rwa [status_of_compress hd, ne_eq, ← accepts_iff hc hd]
  case short =>
    have hs := (accepts_iff hc hd).mp ha
    have hk : min (n - s.bufLen) bytes.length = bytes.length := by omega
    have hinput := hoffer.trans ((inputCompressor_of_needInput hs hk hlt).trans (if_neg hshort.ne))
    rw [List.take_length] at hinput
    exact exec_setinput_of_offer hc hinput
  case full =>
    have hs := (accepts_iff hc hd).mp ha
    have hk : min (n - s.bufLen) bytes.length = n - s.bufLen := by omega
    have hall : s.bufLen + (n - s.bufLen) = n := by omega
    have hinput := hoffer.trans ((inputCompressor_of_needInput hs hk hlt).trans (if_pos hall))
    rw [hall] at hinput
    rw [← hu] at hinput
    have hcfg : u.cfg = s.cfg := by rw [hu]
    have hlen : u.bufLen = n := by rw [hu]
    obtain ⟨r, hout, hemit⟩ | ⟨hout, hemit⟩ := emit_cases (s := u) (src := src) (hcfg ▸ h.cfgLegal) (hcfg ▸ hd) (hlen ▸ hread)
      (by omega) (by rw [hlen, blockSizeCfg, hcfg]; rfl)
    all_goals
      rw [hemit] at hinput
      rw [hcfg] at hout
      rw [hout]
      exact exec_setinput_of_offer hc hinput

end Sys2Proof.Machine
end

section
/-! Reset and the command checks (60_exceptions.md R164, 70_reset_and_hazards.md R180 to R183): power-on and RESET leave a state
that a session reset gives, and a check that fails writes the result port alone. -/

namespace Sys2Proof.Machine

/-! ### The state after a reset (R180, R181) -/

theorem State.sessionReset_reset : State.reset.sessionReset = State.reset := by
  simp only [State.reset, Checksum.initial_eq_ckInitial]
  rfl

theorem status_sessionReset (s : State) : status s.sessionReset = .needInput := by
  unfold status
  cases s.sessionReset.cfg.dir <;> rfl

/-- Settles O55: power-on is a session reset of a state with a legal configuration. -/
theorem invAtReset : Obligations.InvAtReset := by
  have hinv : Inv State.reset.sessionReset := inv_sessionReset (by decide)
  have hstatus := status_sessionReset State.reset
  rw [State.sessionReset_reset] at hinv hstatus
  exact ⟨hinv, rfl, hstatus⟩

/-! ### RESET (R155, R180, R183) -/

theorem exec_reset_of_configured {s : State} (hc : s.configured = true) :
    exec .reset s = .next (s.sessionReset.reply .ok) :=
  whenConfigured_of_configured hc _

theorem ckInitial_eq : ckInitial = ⟨0x24234428, 0x85EBCA77, 0, 0x61C8864F, 0, false, []⟩ := by decide

/-- Settles O9: each value is one that `sessionReset` writes or leaves. -/
theorem resetGivesInitialSession : Obligations.ResetGivesInitialSession := by
  intro s hc
  have hstatus : status (s.sessionReset.reply .ok) = .needInput := status_sessionReset s
  have hck : (s.sessionReset.reply .ok).ck = _ := ckInitial_eq
  exact ⟨_, exec_reset_of_configured hc, rfl, rfl, hc, rfl, rfl, rfl, rfl, rfl, rfl, rfl, rfl, rfl, hstatus, hck,
    fun _ => ⟨rfl, rfl, rfl, rfl⟩, Work.unwritten_tablesUnwritten⟩

theorem flagNum_eq_one_iff (b : Bool) : flagNum b = 1 ↔ b = true := by cases b <;> decide

theorem flagNum_le_one (b : Bool) : flagNum b ≤ 1 := by cases b <;> decide

theorem legalCfg_iff (c : Cfg) : legalCfg c = true ↔ c.k ≤ 6 ∧ (c.tlReq = 0 ∨ 5 ≤ c.tlReq ∧ c.tlReq ≤ 15) := by
  simp [legalCfg]

/-- CONFIGURE with operands that are the current configuration resets (R183). -/
theorem exec_configure_current {s : State} (hc : s.configured = true) (hcfg : legalCfg s.cfg = true) {dir : Nat} (hle : dir ≤ 1)
    (hdir : s.cfg.dir = if dir = 0 then .compress else .decompress) :
    exec (.configure dir s.cfg.k s.cfg.tlReq (flagNum s.cfg.ckEn) (flagNum s.cfg.strictTail) (flagNum s.cfg.oneByteRle)) s =
      .next (s.sessionReset.reply .ok) := by
  obtain ⟨hk, htl⟩ := (legalCfg_iff _).mp hcfg
  have hwrite := (configureChecksWritesAndResets dir _ _ _ _ _ s).2
    ⟨hle, hk, htl, flagNum_le_one _, flagNum_le_one _, flagNum_le_one _⟩ s.cfg hdir rfl rfl
    (flagNum_eq_one_iff _).symm (flagNum_eq_one_iff _).symm (flagNum_eq_one_iff _).symm
  rwa [← hc] at hwrite

theorem statusDecompressor_eq_completed {s : State} : statusDecompressor s = .completed ↔ s.fstate = .completed := by
  unfold statusDecompressor
  cases s.fstate with
  | completed | invalidData | invalidChecksum => simp
  | _ => by_cases h : s.outPos < s.outLen <;> simp [h]

/-- COMPLETE of a completed session answers, ok in the decompressor and E_ARG_STATE in the compressor (R183). -/
theorem exec_complete_of_completed {s : State} (hc : s.configured = true) (hs : status s = .completed) :
    ∃ r, exec .complete s = .next (s.reply r) := by
  cases hd : s.cfg.dir with
  | decompress =>
    rw [status_of_decompress hd, statusDecompressor_eq_completed] at hs
    obtain ⟨-, hended, -⟩ := decompressorFlushAndComplete s hc hd
    exact ⟨_, hended (.inl hs)⟩
  | compress =>
    have ha : ¬Accepts s := by rw [accepts_iff hc hd, ← status_of_compress hd, hs]; decide
    exact ⟨_, exec_complete_of_not_accepts hc hd ha⟩

/-- Settles O10: all three ways end in the same session reset; a completed session is only answered. -/
theorem resetIsIdempotent : Obligations.ResetIsIdempotent := by
  intro s hc hcfg
  refine ⟨⟨_, exec_reset_of_configured hc, ?twice, exec_configure_current hc hcfg ?code ?direction⟩, fun hs bytes => ?completed⟩
  case twice =>
    rw [exec_reset_of_configured (s := s.sessionReset.reply .ok) hc, State.sessionReset_reply, State.sessionReset_sessionReset,
      State.reply_reply]
  case code => split <;> decide
  case direction => cases s.cfg.dir <;> rfl
  case completed =>
    obtain ⟨r, hr⟩ := exec_complete_of_completed hc hs
    have hstill : status (s.reply r) = .completed := hs
    exact ⟨_, hr, hstill, noInputTakenOutsideNeedInput bytes _ hc (by rw [hstill]; decide)⟩

/-! ### The command checks (R164) -/

theorem decodeCommand_of_unused {code : Byte} (h : code.toNat = 0 ∨ 11 ≤ code.toNat) (ops : Operands) :
    decodeCommand code ops = .error .commandCode := by
  unfold decodeCommand
  obtain h0 | h11 := h
  · rw [h0]
    rfl
  · obtain ⟨n, hn⟩ := Nat.exists_eq_add_of_le' h11
    rw [hn]
    rfl

/-- Check 2 stands before everything that a host can cause but CONFIGURE. -/
theorem exec_of_unconfigured {i : Instr} {s : State} (hc : s.configured = false) (hi : hostInstr i = true)
    (hne : ∀ dir k tlReq ckEn strictTail oneByteRle, i ≠ .configure dir k tlReq ckEn strictTail oneByteRle) :
    exec i s = .next (s.reply (.error .argUnconfigured)) := by
  cases i with
  | configure => exact absurd rfl (hne _ _ _ _ _ _)
  | fhdr | blkCmp | blkCmpF | blkRaw | blkRawF | blkRle | blkRleF | blkCrc | setinput | state | output | advance | flush
  | complete | reset | need | errcause | drain => exact whenConfigured_of_unconfigured hc _
  | _ => cases hi

/-- The commands whose only check is that the block is configured. -/
theorem result_ne_error_of_unchecked {bytes : List Byte} {i : Instr} {s t : State} (hc : s.configured = true)
    (hi : i = .setinput bytes ∨ i = .state ∨ i = .output ∨ i = .need ∨ i = .errcause ∨ i = .reset)
    (h : exec i s = .next t) (e : ErrCode) : t.result ≠ .error e := by
  have answer {k : Host.Outcome State Fault Refusal} (hk : whenConfigured s k = .next t) : k = .next t := by
    rwa [whenConfigured_of_configured hc] at hk
  obtain rfl | rfl | rfl | rfl | rfl | rfl := hi
  case inl =>
    obtain ⟨_, -, rfl⟩ := exceptMap_eq_ok (outcome_eq_next_iff.mp (answer h))
    nofun
  case inr.inr.inl =>
    obtain ⟨_, -, rfl⟩ := exceptMap_eq_ok (outcome_eq_next_iff.mp (answer h))
    nofun
  all_goals
    cases answer h
    nofun

/-- Settles O11: each clause is a check that fails, or a command that has none left. -/
theorem commandChecksChangeNothing : Obligations.CommandChecksChangeNothing := by
  refine ⟨fun code ops rest s hp hcode => step_of_commandCode hp (decodeCommand_of_unused hcode ops),
    fun i s => exec_of_unconfigured,
    fun dir k tlReq ckEn strictTail oneByteRle s hbad => ?config,
    fun n s hc => (advanceRetiresReadyBytes n s hc).1,
    fun s hc hd hs => ?compressor,
    fun s hc hd hs => ?decompressor,
    fun bytes i s t e hc hi h => result_ne_error_of_unchecked hc hi h e,
    noInputTakenOutsideNeedInput⟩
  case config =>
    refine (configureChecksWritesAndResets dir k tlReq ckEn strictTail oneByteRle s).1 ?_
    omega
  case compressor =>
    have ha : ¬Accepts s := by rwa [accepts_iff hc hd, ← status_of_compress hd]
    exact ⟨exec_flush_of_not_accepts hc hd ha, exec_complete_of_not_accepts hc hd ha⟩
  case decompressor =>
    rw [status_of_decompress hd, statusDecompressor_eq_writeOutput] at hs
    obtain ⟨hopen, hready⟩ := hs
    rw [← Bool.not_eq_true, FState.terminal_iff] at hopen
    obtain ⟨-, -, hcomplete⟩ := decompressorFlushAndComplete s hc hd
    exact (hcomplete hopen).1 hready

end Sys2Proof.Machine
end
